-- ==== Sys2Proof/Word.lean ====
section
/-!
DEFINITION. The word types of the Tarcos 2T8 and their plainest arithmetic.
-/

namespace Sys2Proof

/-- One byte of a frame or of a store block. -/
abbrev Byte := BitVec 8

/-- One 16-bit field of a frame or block; a sample is one, read as signed (R190). -/
abbrev Word16 := BitVec 16

/-- A sample: a signed 16-bit value. -/
abbrev Sample := BitVec 16

/-- A link frame, byte 0 first (chapter 10). -/
abbrev Frame := List Byte

/-- A counter that saturates at its greatest value (R20, R46, R170, R177, R183). -/
def satSucc {w : Nat} (x : BitVec w) : BitVec w :=
  if x = BitVec.allOnes w then x else x + 1

/-- ceil(a / b), as 00_scope.md section 5 writes it. -/
def ceilDiv (a b : Nat) : Nat := (a + b - 1) / b

/-- The values 0 to n - 1 in ascending order, as members of `Fin n`. -/
def ascending (n : Nat) : List (Fin n) := List.finRange n

end Sys2Proof
end

