-- ==== Sys2Proof/Machine/Bytes.lean ====
section
/-!
DEFINITION. Byte order and the 16-bit check: most significant byte first (chapter 10), CRC-16 of R189,
which frames and store blocks share (section 10.4).
-/

namespace Sys2Proof

/-- The `k` bytes of a number, most significant first (chapter 10). -/
def toBytes : (k : Nat) → (n : Nat) → List Byte
  | 0, _ => []
  | k + 1, n => BitVec.ofNat 8 (n / 256 ^ k) :: toBytes k n

/-- A bit vector as `k` bytes, most significant first. -/
def wordBytes {w : Nat} (k : Nat) (x : BitVec w) : List Byte := toBytes k x.toNat

/-- The number that bytes spell, most significant first. -/
def ofBytes (bs : List Byte) : Nat := bs.foldl (fun n b => n * 256 + b.toNat) 0

/-- Byte `i` of a frame, block or argument list; a byte past the end is 0. -/
def byteAt (bs : List Byte) (i : Nat) : Byte := bs.getD i 0

/-- The `k`-byte field at offset `i`. -/
def fieldAt (bs : List Byte) (i k : Nat) : Nat := ofBytes ((bs.drop i).take k)

/-- A bit as a byte 0 or 1. -/
def boolByte (b : Bool) : Byte := if b then 1 else 0

/-- A list brought to exactly `k` bytes: reserved bytes are 0 (R191). -/
def padTo (k : Nat) (bs : List Byte) : List Byte := (bs ++ List.replicate k 0).take k

/-- A byte with bit i equal to the i-th flag, bit 0 first: flags and presence bytes (R190). -/
def flagBits : List Bool → Nat
  | [] => 0
  | b :: bs => (if b then 1 else 0) + 2 * flagBits bs

/-- One bit step of the CRC with generator x^16 + x^12 + x^5 + 1 (R189). -/
def crcBit (c : Word16) : Word16 := if c.msb then (c <<< 1) ^^^ 0x1021 else c <<< 1

/-- `n` bit steps. -/
def crcBits : Nat → Word16 → Word16
  | 0, c => c
  | n + 1, c => crcBits n (crcBit c)

/-- One byte into the CRC, most significant bit first (R189). -/
def crcByte (c : Word16) (b : Byte) : Word16 := crcBits 8 (c ^^^ (b.setWidth 16 <<< 8))

/-- The check over a run of bytes: register starts at 0xFFFF, no final inversion (R189). -/
def crc16 (bs : List Byte) : Word16 := bs.foldl crcByte 0xFFFF

/-- A run of bytes followed by its check in two bytes (R189, section 10.4). -/
def withCheck (bs : List Byte) : List Byte := bs ++ wordBytes 2 (crc16 bs)

/-- The last two bytes are the check over the bytes before them. -/
def checkGood (bs : List Byte) : Bool :=
  fieldAt bs (bs.length - 2) 2 == (crc16 (bs.take (bs.length - 2))).toNat

end Sys2Proof
end

