-- ==== Sys2Proof/Syntax.lean ====
section
/-!
DEFINITION. The commands of the part: one constructor per row of spec/opcode_table.json.
A management command row (STREAM_LOAD to CLOSE) is the step in which its owner takes the request in
process, so its operands are the argument bytes of that request, which State holds (log 1).
-/

namespace Sys2Proof

/-- The two link ports: A faces the field nodes, B the controller (00_scope.md section 2). -/
inductive LinkPort where
  | a
  | b
  deriving DecidableEq, Repr

/-- A direction of the link: A to B (sample frames) or B to A (cycle markers). -/
inductive Direction where
  | aToB
  | bToA
  deriving DecidableEq, Repr

/-- The commands, in the order of the table. -/
inductive Instr where
  | powerOn (straps : BitVec 6)
  | resetAssert
  | bypassEntry (d : Direction)
  | resetRelease (straps : BitVec 6)
  | bypassTakeover (d : Direction)
  | protectAssert
  | protectRelease
  | dataFrameArrival (frame : Frame)
  | cycleFrameArrival (frame : Frame)
  | mreqArrival (frame : Frame)
  | frameForward (port : LinkPort) (frame : Frame)
  | portBSendDone
  | portASendDone
  | periodExpiry (rule : Fin 64)
  | silenceTimerExpiry (slot : Fin 8)
  | responseHeldPlaced
  | streamLoad
  | streamDrop
  | streamQuery
  | ruleLoad
  | ruleEnable
  | ruleDisable
  | ruleUnload
  | ruleQuery
  | fire
  | unfire
  | slotsQuery
  | cut
  | controlSet
  | clearConditions
  | conditionsQuery
  | format
  | create
  | delete
  | erase
  | storeQuery
  | recordingQuery
  | status
  | identify
  | restart
  | restartPoint
  | portOpen
  | portPosition
  | portRead
  | portInfo
  | portClose
  | slotDataWriteComplete
  | slotHeadWriteComplete
  | indexJobTake
  | indexReadComplete
  | indexReleaseHold
  | indexWriteComplete
  | releaseJobTake
  | releaseHeadReadComplete
  | deleteReleaseJobPlace
  | formatDirectoryReadComplete
  | formatLabelWriteComplete
  | formatDirectoryWriteComplete
  | createIndexWriteComplete
  | createDirectoryWriteComplete
  | deleteDirectoryWriteComplete
  | deleteIndexReadComplete
  | mountLabelReadComplete
  | mountDirectoryReadComplete
  | mountIndexReadComplete
  | mountHeadReadComplete
  | openIndexReadComplete
  | openHeadReadComplete
  | readDataBlockComplete
  | powerLoss
  deriving DecidableEq, Repr

/-- The bytes that arrive at a port with the command, if it is an arrival. -/
def Instr.frame? : Instr → Option Frame
  | .dataFrameArrival f => some f
  | .cycleFrameArrival f => some f
  | .mreqArrival f => some f
  | .frameForward _ f => some f
  | _ => none

end Sys2Proof
end

