-- ==== Sys2Proof/Decode.lean ====
section
/-!
DEFINITION. Decoding: what kind of frame a run of bytes is (R160, R161, R189), total on any bytes, and
`decodeTableWord`, which spells no command because no row of the opcode table gives bits.
-/

namespace Sys2Proof

/-- What the Link Interface makes of arriving bytes (R160, R189). -/
inductive FrameKind where
  /-- Too short, or its check does not match. -/
  | badCheck
  /-- A sample frame. -/
  | data
  /-- A cycle marker. -/
  | cycle
  /-- A management request. -/
  | mreq
  /-- A management response. -/
  | mrsp
  /-- Any other frame. -/
  | other
  deriving DecidableEq, Repr

/-- The kind of a frame, by its check and then by byte 0 and length (R189 steps 1 to 6). -/
def frameKind (f : Frame) : FrameKind :=
  if f.length < 3 || !checkGood f then .badCheck
  else if byteAt f 0 = 0xD1 then .data
  else if byteAt f 0 = 0xC2 then (if f.length = 4 then .cycle else .other)
  else if byteAt f 0 = 0xA3 then (if 8 ≤ f.length ∧ f.length ≤ 56 then .mreq else .other)
  else if byteAt f 0 = 0xA4 then (if 11 ≤ f.length ∧ f.length ≤ 75 then .mrsp else .other)
  else .other

/-- Source node of a DATA frame (section 10.1). -/
def dataNode (f : Frame) : Byte := byteAt f 1

/-- Stream number of a DATA frame: the low four bits of byte 2 (section 10.1). -/
def dataStream (f : Frame) : Byte := byteAt f 2 &&& 0x0F

/-- Sequence number of a DATA frame. -/
def dataSequence (f : Frame) : Byte := byteAt f 3

/-- Sample count of a DATA frame. -/
def dataCount (f : Frame) : Nat := (byteAt f 5).toNat

/-- The first `c` samples of a DATA frame, in frame order. -/
def dataSamples (f : Frame) : (c : Nat) → List Sample
  | 0 => []
  | c + 1 => dataSamples f c ++ [BitVec.ofNat 16 (fieldAt f (6 + 2 * c) 2)]

/-- A DATA frame is well formed: source node 1 to 62, sample count 1 to 32, length 8 + 2c (R161, R189).
A frame too short to hold byte 5 is not. -/
def dataWellFormed (f : Frame) : Bool :=
  1 ≤ (dataNode f).toNat && (dataNode f).toNat ≤ 62 && 1 ≤ dataCount f && dataCount f ≤ 32
    && f.length == 8 + 2 * dataCount f

/-- The event flag of a DATA frame: bit 0 of byte 4 (R189). -/
def eventFlag (f : Frame) : Bool := (byteAt f 4).getLsbD 0

/-- The frame with its event flag set, bits 1 to 7 kept, and its check computed afresh (R164, R189). -/
def markFrame (f : Frame) : Frame :=
  withCheck ((f.take (f.length - 2)).set 4 (byteAt f 4 ||| 1))

/-- The epoch flag of a CYCLE frame: bit 0 of byte 1 (section 10.1). -/
def epochFlag (f : Frame) : Bool := (byteAt f 1).getLsbD 0

/-- The arguments of an MREQ: the bytes between byte 5 and the check (R189). -/
def mreqArgs (f : Frame) : List Byte := (f.drop 6).take (f.length - 8)

/-- The command that a word spells by the table's bits: no row of the table gives bits, so none. -/
def decodeTableWord (_nbits _w : Nat) : Option Instr := none

end Sys2Proof
end

