-- ==== Sys2Proof/Config.lean ====
section
/-!
DEFINITION. Config: the constants of the part, as the spec gives them, and the free values, which the
spec leaves open. A free value is an opaque constant applied to the model's own counter
`State.freeIx`: nothing in Lean can evaluate it.
-/

namespace Sys2Proof.Config

/-- Number of cells of sample memory (R3). -/
def sampleCells : Nat := 65536

/-- First block of the data area (R91). -/
def dataFirst : Nat := 17

/-- Last block of the data area, and of the array (R90, R91). -/
def dataLast : Nat := 8191

/-- Number of blocks of the data area (R91). -/
def dataBlocks : Nat := 8175

/-- Number of blocks of the array (R90). -/
def storeBlocks : Nat := 8192

/-- Bytes of one block (R90). -/
def blockBytes : Nat := 256

/-- Samples of a full data block (R59). -/
def blockSamples : Nat := 120

/-- Entries of an index block (R94). -/
def indexEntries : Nat := 48

/-- Places of the release queue (R130). -/
def releasePlaces : Nat := 64

/-- Forwarded frames that an egress FIFO holds (R166, R167). -/
def egressPlaces : Nat := 4

/-- The greatest record number (R94). -/
def recordMax : Nat := 2 ^ 32 - 1

/-- One more than the greatest sample number (R15). -/
def sampleNumbers : Nat := 2 ^ 48

/-- What a byte of the array that nothing has written reads as (R191: a never-written block reads
with every byte 0xFF). -/
def unwrittenByte : Byte := 0xFF

/-- What a cell of sample memory that nothing has written since the start reads as.
DESIGN CHOICE, unsafe (log 7): R3 says only that the contents are not kept; no rule reads such a cell. -/
def unwrittenCell : Sample := 0

/-- The format stamp of a label (section 10.4). -/
def formatStamp : List Byte := [0x54, 0x43, 0x32, 0x38]

/-- The vendor code of IDENTIFY (section 10.2). -/
def vendorCode : Word16 := 0x0D51

/-- The part code of IDENTIFY (section 10.2). -/
def partCode : Word16 := 0x0208

/-- The revision of IDENTIFY (section 10.2). -/
def revision : Byte := 1

/-- The capacity bytes of IDENTIFY: streams, sample cells / 1024, rules, slots, recordings,
store blocks / 256, readout ports (section 10.2). -/
def capacities : List Byte := [32, 64, 64, 8, 32, 32, 6]

/-- FREE VALUE (log 5): whether a block write in progress at a power loss or at the assertion of the
RESET line left the block with its new contents (R90, R117: old or new, never a mixture). -/
opaque interruptedWriteLands : Nat → Bool

/-- FREE VALUE (log 14): the six bytes that a result gives for a sample number outside 0 to 2^48 - 1: an end
sample of -1, or a next sample number, read position, end sample or hold mark of 2^48 or more. -/
opaque sampleNumberOutside : Nat → BitVec 48

end Sys2Proof.Config
end

