-- ==== Sys2Proof/Machine/Memory.lean ====
section
/-!
DEFINITION. Sparse memory in one canonical form: a list of (address, value), addresses strictly rising,
no entry equal to what an unlisted address reads as. The block array uses it with bytes (R90) and
sample memory with samples (R6).
-/

namespace Sys2Proof.Machine

variable {α : Type}

/-- The canonical form, with `d` what an unlisted address reads as. -/
abbrev Memory.wf (d : α) (m : List (Nat × α)) : Prop :=
  m.Pairwise (fun x y => x.1 < y.1) ∧ ∀ c ∈ m, c.2 ≠ d

/-- The value at an address; `d` where nothing is listed. -/
def Memory.get (d : α) (m : List (Nat × α)) (a : Nat) : α :=
  match m with
  | [] => d
  | c :: m => if c.1 = a then c.2 else Memory.get d m a

/-- A pair put at its place in address order. -/
def Memory.insert (a : Nat) (v : α) : List (Nat × α) → List (Nat × α)
  | [] => [(a, v)]
  | c :: m => if a < c.1 then (a, v) :: c :: m else c :: Memory.insert a v m

/-- Write `v` at `a`: the value an unlisted address reads as removes the entry. -/
def Memory.set [DecidableEq α] (d : α) (m : List (Nat × α)) (a : Nat) (v : α) : List (Nat × α) :=
  if v = d then m.filter (fun c => c.1 != a) else Memory.insert a v (m.filter (fun c => c.1 != a))

/-- `k` consecutive values from address `a`. -/
def Memory.getRun (d : α) (m : List (Nat × α)) (a : Nat) : (k : Nat) → List α
  | 0 => []
  | k + 1 => Memory.get d m a :: Memory.getRun d m (a + 1) k

/-- Write a run of values from address `a`. -/
def Memory.setRun [DecidableEq α] (d : α) (m : List (Nat × α)) (a : Nat) : List α → List (Nat × α)
  | [] => m
  | v :: vs => Memory.setRun d (Memory.set d m a v) (a + 1) vs

/-- The contents of a block of the array (R90): 256 bytes at 256 times the block number. -/
def readBlock (m : List Host.Cell) (b : Nat) : List Byte :=
  Memory.getRun Config.unwrittenByte m (Config.blockBytes * b) Config.blockBytes

/-- The array after a block write: the whole block takes the new contents (R90, R117). -/
def writeBlock (m : List Host.Cell) (b : Nat) (contents : List Byte) : List Host.Cell :=
  Memory.setRun Config.unwrittenByte m (Config.blockBytes * b) (padTo256 contents)
where
  /-- Exactly the bytes of one block. -/
  padTo256 (bs : List Byte) : List Byte := (bs ++ List.replicate Config.blockBytes 0).take Config.blockBytes

end Sys2Proof.Machine
end

