-- ==== Sys2Proof/Machine/State.lean ====
section
/-!
DEFINITION. The state of the part as plain data, block by block (00_scope.md section 3.1), its reset
value, and the reasons a step can stop. A field that the spec calls absent is an `Option` that is
`none`, or a constructor without that field.
-/

namespace Sys2Proof.Machine

/-! ### Numbers that name things -/

/-- A stream index 0 to 31 (R1). -/
abbrev StreamIx := Fin 32

/-- A rule number 0 to 63 (R21). -/
abbrev RuleIx := Fin 64

/-- A slot number 0 to 7 (R47). -/
abbrev SlotIx := Fin 8

/-- A recording: `r.val + 1` is its number 1 to 32 (R93). -/
abbrev RecIx := Fin 32

/-- A readout port: `p.val + 1` is its number 1 to 6 (R147). -/
abbrev PortIx := Fin 6

/-- A pair (epoch, cycle count) (R175). -/
structure Stamp where
  epoch : BitVec 16
  cycle : BitVec 32
  deriving DecidableEq, Repr

/-! ### Stream Tracker (chapter 1) -/

/-- State of a loaded stream entry (section 1.1). -/
inductive StreamState where
  | idle
  | live
  deriving DecidableEq, Repr

/-- A loaded entry of the stream table (section 1.1). The hold mark is derived (R2). -/
structure StreamEntry where
  node : Byte
  stream : Byte
  base : Nat
  length : Nat
  next : Nat
  expected : Option Byte
  previous : Option Sample
  state : StreamState
  framesTaken : BitVec 32
  gapEvents : BitVec 32
  oldFrames : BitVec 32
  deriving DecidableEq, Repr

/-! ### Rule Evaluator (chapter 2) -/

/-- The kind of a rule with the fields that the kind uses (section 2.1, R22). -/
inductive RuleKind where
  | above (high : Sample) (hysteresis persistence : Nat)
  | below (low : Sample) (hysteresis persistence : Nat)
  | outside (high low : Sample) (hysteresis persistence : Nat)
  | step (delta hysteresis persistence : Nat)
  | periodic (period : Nat)
  | manual
  deriving DecidableEq, Repr

/-- The state of a loaded rule with the running count that the state uses (R21). UNLOADED is the
absence of the rule in the table. -/
inductive RuleState where
  | disabled
  | priming (count : Nat)
  | armed
  | pending (count : Nat)
  | tripped
  | due
  deriving DecidableEq, Repr

/-- A loaded rule (section 2.1). `recording` is `none` for recording 0, mark only. -/
structure Rule where
  kind : RuleKind
  stream : StreamIx
  priority : Nat
  pre : Nat
  post : Nat
  silence : Nat
  recording : Option RecIx
  mark : Bool
  once : Bool
  state : RuleState
  periodCounter : Option Nat
  fired : BitVec 16
  missed : BitVec 16
  cut : BitVec 16
  deriving DecidableEq, Repr

/-! ### Capture Engine (chapter 3) -/

/-- A capture request, and the copy of it that a slot keeps (R44). -/
structure CaptureRequest where
  rule : RuleIx
  priority : Nat
  stream : StreamIx
  trigger : Nat
  stamp : Stamp
  pre : Nat
  post : Nat
  silence : Nat
  recording : RecIx
  deriving DecidableEq, Repr

/-- The end cause of a capture (section 3.5). -/
inductive EndCause where
  | complete
  | stalled
  | lag
  | cut
  deriving DecidableEq, Repr

/-- The tag of a non-EMPTY slot with the fields present in that tag (section 3.1). -/
inductive CapturePhase where
  | collecting (rp : Nat) (timer : Option Nat)
  | draining (rp : Nat) (cause : EndCause)
  | committing (cause : EndCause)
  deriving DecidableEq, Repr

/-- One entry of a gap list: record offset and missing frames (R71). -/
structure GapEntry where
  offset : Nat
  missing : Nat
  deriving DecidableEq, Repr

/-- The contents of a non-EMPTY slot (section 3.1). The end sample can be one below the first sample,
hence -1, so it is an integer. -/
structure Capture where
  request : CaptureRequest
  phase : CapturePhase
  preActual : Nat
  first : Nat
  endSample : Int
  head : Nat
  blocks : List Nat
  remaining : Nat
  gaps : List GapEntry
  short : Bool
  gapped : Bool
  gapOverflow : Bool
  deriving DecidableEq, Repr

/-- What a FILLED or WRITING staging buffer holds (section 3.4). -/
structure Staged where
  samples : List Sample
  block : Nat
  position : Nat
  deriving DecidableEq, Repr

/-- A staging buffer (section 3.4, R58). -/
inductive Buffer where
  | free
  | filled (d : Staged)
  | writing (d : Staged) (orphaned : Bool)
  deriving DecidableEq, Repr

/-- A slot: EMPTY when `capture` is `none` (R47). -/
structure Slot where
  capture : Option Capture
  buffer0 : Buffer
  buffer1 : Buffer
  deriving DecidableEq, Repr

/-- An EMPTY slot with both buffers FREE (R49). -/
def Slot.empty : Slot := ⟨none, .free, .free⟩

/-! ### Condition Unit (chapter 4) -/

/-- The eight conditions; `number` below gives their numbers (section 4.1). -/
inductive Condition where
  | overflow
  | full
  | protect
  | unavailable
  | short
  | gap
  | lag
  | limit
  deriving DecidableEq, Repr

/-- RUNNING or SUSPENDED (R77). -/
inductive CaptureState where
  | running
  | suspended
  deriving DecidableEq, Repr

/-- A condition report (R78). -/
structure ConditionReport where
  condition : Condition
  slot : SlotIx
  rule : RuleIx
  recording : RecIx
  stream : StreamIx
  stamp : Stamp
  deriving DecidableEq, Repr

/-- The condition detail record when it is not empty (R79). -/
inductive Detail where
  | raised (r : ConditionReport)
  | maskChange (c : Condition) (stamp : Stamp)
  deriving DecidableEq, Repr

/-- The Condition Unit. Bit c of `flags` is 1 when flag c is set, bit c of `masks` is 1 when condition
c is masked, as in the bytes of R190. -/
structure ConditionUnit where
  flags : BitVec 8
  masks : BitVec 8
  level : Nat
  state : CaptureState
  detail : Option Detail
  deriving DecidableEq, Repr

/-- The values that every start gives (R89). -/
def ConditionUnit.start : ConditionUnit :=
  { flags := 0, masks := 0xFF, level := 4, state := .running, detail := none }

/-! ### Store Manager and Maintenance Unit (chapter 5, sections 6.4 and 6.5) -/

/-- The store state (R96). -/
inductive StoreState where
  | mounting
  | unformatted
  | ready
  | formatting
  deriving DecidableEq, Repr

/-- FILL or WRAP (R93). -/
inductive RecordingMode where
  | fill
  | wrap
  deriving DecidableEq, Repr

/-- A DEFINED entry of the directory cache (R93, R100), with the held mark of each place (R140, R193). -/
structure RecordingEntry where
  name : List Byte
  mode : RecordingMode
  maxRecords : Nat
  blocks : List Nat
  held : List Bool
  deriving DecidableEq, Repr

/-- The per-recording state with newest number and present count (R101). -/
inductive RecordingState where
  | free
  | defined (newest present : Nat)
  | damaged (newest present : Nat)
  deriving DecidableEq, Repr

/-- The label copy (R92). -/
structure LabelCopy where
  name : List Byte
  serial : BitVec 16
  deriving DecidableEq, Repr

/-- The Store Manager's RAM state (section 5.3). `used` lists the used blocks of the allocation map in
ascending order. Maintenance busy is `State.maint`. -/
structure StoreManager where
  state : StoreState
  label : Option LabelCopy
  used : List Nat
  free : Nat
  reserved : Nat
  cursor : Nat
  cache : Vector (Option RecordingEntry) 32
  recordings : Vector RecordingState 32
  damage : BitVec 16
  deriving DecidableEq, Repr

/-- The RAM state at every start (R103). -/
def StoreManager.start : StoreManager :=
  { state := .mounting, label := none, used := [], free := Config.dataBlocks, reserved := 0,
    cursor := Config.dataFirst, cache := Vector.replicate 32 none,
    recordings := Vector.replicate 32 .free, damage := 0 }

/-- A decoded entry of an index block (R94). -/
inductive IndexEntry where
  | unused
  | present (number head total : Nat)
  | void (number head total : Nat)
  deriving DecidableEq, Repr

/-- A PRESENT entry that the mount scan walks: its list position, its entry, and what it holds (R141). -/
structure WalkEntry where
  position : Nat
  entry : Nat
  number : Nat
  head : Nat
  total : Nat
  deriving DecidableEq, Repr

/-- The entry walk of one recording (R141): `todo` begins with the entry being decided. -/
structure RecordWalk where
  recording : RecIx
  damaged : Bool
  newest : Nat
  mounted : Nat
  todo : List WalkEntry
  deriving DecidableEq, Repr

/-- How far the mount scan has gone (R138 to R142). -/
inductive MountPhase where
  /-- The RESET line is asserted: the scan begins at its release (R103). -/
  | held
  /-- Reading block 0. -/
  | label
  /-- Reading the named directory block. -/
  | directory (block : Nat)
  /-- Reading the held index blocks of a recording: the list places still to read, the one being read
  first, and the blocks kept so far, in position order. -/
  | index (recording : RecIx) (toRead : List Nat) (kept : List (Nat × List IndexEntry)) (damaged : Bool)
  /-- Reading the head of the first entry of the walk. -/
  | head (w : RecordWalk)
  /-- Waiting for the Index Unit's report on the REPAIR job of the first entry of the walk. -/
  | repair (w : RecordWalk)
  deriving DecidableEq, Repr

/-- How far a FORMAT has gone (R108). -/
inductive FormatPhase where
  /-- Reading the named directory block; the serials found so far. -/
  | readDirectory (block : Nat) (serials : List (BitVec 16))
  | writeLabel (serial : BitVec 16)
  | writeDirectory (block : Nat) (serial : BitVec 16)
  deriving DecidableEq, Repr

/-- How far a CREATE has gone (R111). -/
inductive CreatePhase where
  | index (position : Nat)
  | directory
  deriving DecidableEq, Repr

/-- How far a DELETE has gone (R113): the heads of the entries still to place belong to the index block
at `position`, and `rest` lists the held places after it. -/
inductive DeletePhase where
  | directory
  | read (position : Nat) (rest : List Nat)
  | place (position : Nat) (heads : List Nat) (rest : List Nat)
  deriving DecidableEq, Repr

/-- The Maintenance operation in progress (R106). -/
inductive MaintenanceOp where
  | mount (p : MountPhase)
  | format (name : List Byte) (p : FormatPhase)
  | create (r : RecIx) (e : RecordingEntry) (p : CreatePhase)
  | delete (r : RecIx) (e : RecordingEntry) (p : DeletePhase) (count : Nat)
  /-- ERASE of the numbers `first` to `last`; `rest` lists the positions whose jobs are not yet placed. -/
  | erase (r : RecIx) (first last : Nat) (rest : List Nat) (count : Nat)
  deriving DecidableEq, Repr

/-! ### Store Port (section 6.1) -/

/-- The seventeen requesters (section 6.1). -/
inductive Requester where
  | slot (k : SlotIx)
  | index
  | release
  | maintenance
  | port (p : PortIx)
  deriving DecidableEq, Repr

/-- A block operation; a write carries the whole new contents (section 6.1). -/
inductive StoreOp where
  | read (block : Nat)
  | write (block : Nat) (contents : List Byte)
  deriving DecidableEq, Repr

/-- A request at the Store Port. -/
structure StoreRequest where
  who : Requester
  op : StoreOp
  deriving DecidableEq, Repr

/-- The Store Port: idle when `busy` is `none` (R117), with the arbiter's pointers (R118). -/
structure StorePort where
  busy : Option StoreRequest
  waiting : List StoreRequest
  lastSlot : SlotIx
  lastPort : PortIx
  deriving DecidableEq, Repr

/-- Idle, nothing waiting, pointers 7 and 6 (R118, R120). -/
def StorePort.start : StorePort := ⟨none, [], 7, 5⟩

/-! ### Index Unit and Release Unit (sections 6.2 and 6.3) -/

/-- A job of the Index Unit (section 6.2). -/
inductive IndexJob where
  | commit (slot : SlotIx) (recording : RecIx) (head total : Nat)
  | voidSet (recording : RecIx) (position first last : Nat)
  | repair (recording : RecIx) (position entry : Nat)
  deriving DecidableEq, Repr

/-- What a job has decided to write: the block, its contents, and the heads of the records that it
sends to the Release Unit (R122, R126, R127). -/
structure IndexWrite where
  block : Nat
  contents : List Byte
  sends : List Nat
  deriving DecidableEq, Repr

/-- Progress of the job at the head of the queue (R122). `number` is the record number that a COMMIT
job assigns when taken (R123), 0 for the other jobs. -/
inductive IndexPhase where
  | idle
  | reading (number : Nat)
  | waiting (number : Nat) (w : IndexWrite)
  | writing (number : Nat) (w : IndexWrite)
  deriving DecidableEq, Repr

/-- The Index Unit: the queue counts the job in progress, which is its head (R121). -/
structure IndexUnit where
  queue : List IndexJob
  phase : IndexPhase
  held : Nat
  deriving DecidableEq, Repr

/-- The values of every start (R129). -/
def IndexUnit.start : IndexUnit := ⟨[], .idle, 0⟩

/-- A release job (R130). -/
structure ReleaseJob where
  head : Nat
  recording : RecIx
  deriving DecidableEq, Repr

/-- The Release Unit: while `reading`, the job at the head of the queue is in progress (R131). -/
structure ReleaseUnit where
  queue : List ReleaseJob
  reading : Bool
  parked : List ReleaseJob
  deriving DecidableEq, Repr

/-- The values of every start (R134). -/
def ReleaseUnit.start : ReleaseUnit := ⟨[], false, []⟩

/-! ### Readout Unit (chapter 7) -/

/-- The contents of a head block (R66, R95). -/
structure HeadInfo where
  recording : Byte
  rule : Byte
  priority : Byte
  node : Byte
  stream : Byte
  stamp : Stamp
  preRequested : Nat
  preActual : Nat
  postActual : Nat
  total : Nat
  cause : EndCause
  short : Bool
  gapped : Bool
  gapOverflow : Bool
  gaps : List GapEntry
  blocks : List Nat
  deriving DecidableEq, Repr

/-- One data block as a port has read it (section 7.1): number, place in the block list, samples. -/
structure CachedBlock where
  block : Nat
  place : Nat
  samples : List Sample
  deriving DecidableEq, Repr

/-- A port in OPENING (section 7.1). `found` is the head block and entry total of the index read; the
port is pinned exactly when it is present (R149, R151). -/
structure Opening where
  recording : RecIx
  number : Nat
  place : Nat
  found : Option (Nat × Nat)
  withdrawn : Bool
  deriving DecidableEq, Repr

/-- A port in OPEN (section 7.1). The header and block list are `info`. -/
structure OpenRecord where
  recording : RecIx
  number : Nat
  place : Nat
  head : Nat
  entryTotal : Nat
  info : HeadInfo
  position : Nat
  cache : Option CachedBlock
  withdrawn : Bool
  deriving DecidableEq, Repr

/-- A readout port (R144). -/
inductive ReadPort where
  | closed
  | opening (o : Opening)
  | opened (r : OpenRecord)
  deriving DecidableEq, Repr

/-- A READ that waits for a data block (R155, R181): port, number of samples to return, blocks taken
so far, and the places still needed, the one being read first. -/
structure ReadInProgress where
  port : PortIx
  count : Nat
  taken : List CachedBlock
  needed : List Nat
  deriving DecidableEq, Repr

/-! ### Link Interface and Time Base (chapter 8) -/

/-- Whether the part takes the frames of a direction, is entering bypass in it, or is bypassed (R169). -/
inductive LinkPath where
  | through
  | entering
  | bypass
  deriving DecidableEq, Repr

/-- The ten link counters, in the order of R170. -/
structure LinkCounters where
  portAFrames : BitVec 32
  portABad : BitVec 32
  portBFrames : BitVec 32
  portBBad : BitVec 32
  malformed : BitVec 32
  marked : BitVec 32
  mreqsTaken : BitVec 32
  responsesSent : BitVec 32
  overrunB : BitVec 32
  overrunA : BitVec 32
  deriving DecidableEq, Repr

/-- All ten at 0 (R170). -/
def LinkCounters.zero : LinkCounters := ⟨0, 0, 0, 0, 0, 0, 0, 0, 0, 0⟩

/-- A frame being sent by port B, and whether it is the part's own response. -/
structure SentFrame where
  frame : Frame
  response : Bool
  deriving DecidableEq, Repr

/-- The Link Interface (R165 to R170). -/
structure Link where
  node : BitVec 6
  aToB : LinkPath
  bToA : LinkPath
  sendingB : Option SentFrame
  fifoB : List Frame
  response : Option Frame
  sendingA : Option Frame
  fifoA : List Frame
  counters : LinkCounters
  deriving DecidableEq, Repr

/-! ### Management Unit (chapter 9) -/

/-- The phase of the Management Unit (section 9.1). -/
inductive Phase where
  | idle
  | processing
  | restarting
  deriving DecidableEq, Repr

/-- The part's commands (section 10.2). -/
inductive Command where
  | streamLoad
  | streamDrop
  | streamQuery
  | ruleLoad
  | ruleEnable
  | ruleDisable
  | ruleUnload
  | ruleQuery
  | fire
  | unfire
  | slotsQuery
  | cut
  | controlSet
  | clearConditions
  | conditionsQuery
  | format
  | create
  | delete
  | erase
  | storeQuery
  | recordingQuery
  | status
  | identify
  | restart
  | portOpen
  | portPosition
  | portRead
  | portInfo
  | portClose
  deriving DecidableEq, Repr

/-- The status codes of a response (section 9.4). -/
inductive Status where
  | ok
  | accepted
  | endOfRecord
  | busy
  | inUse
  | protectedStore
  | notReady
  | alreadyExists
  | badState
  | unknownCommand
  | badArgument
  | badPort
  | noSuchStream
  | noSuchRecording
  | tableFull
  | noRingSpace
  | ringTooShort
  | noSuchRule
  | recordNotPresent
  | positionPastEnd
  | blockMismatch
  | portNotOpen
  | damaged
  | noRoom
  deriving DecidableEq, Repr

/-- How far the request in process has gone: handed to its owner and not yet taken by it, waiting for
store reads (OPEN, READ), or answered with its response held; `restart` marks an accepted RESTART. -/
inductive Stage where
  | owner (c : Command)
  | reading (c : Command)
  | answered (restart : Bool)
  deriving DecidableEq, Repr

/-- The request in process: the fields of a taken MREQ (section 9.1). -/
structure Request where
  source : Byte
  tag : Byte
  port : Byte
  code : Byte
  args : List Byte
  stage : Stage
  deriving DecidableEq, Repr

/-- The status record (R183). -/
structure StatusRecord where
  code : Byte
  arg1 : BitVec 16
  arg2 : BitVec 16
  later : BitVec 8
  deriving DecidableEq, Repr

/-- The Management Unit (section 9.1). -/
structure ManagementUnit where
  phase : Phase
  request : Option Request
  held : Option Frame
  discarded : BitVec 32
  status : StatusRecord
  deriving DecidableEq, Repr

/-- The status record START with its cause (R176, R188); 60 is the code of START (section 10.3). -/
def StatusRecord.start (cause : BitVec 16) : StatusRecord := ⟨60, cause, 0, 0⟩

/-! ### The state -/

/-- The state of the part. -/
structure State where
  pending : List Instr
  powered : Bool
  resetLine : Bool
  protect : Bool
  link : Link
  time : Stamp
  streams : Vector (Option StreamEntry) 32
  samples : List (Nat × Sample)
  rules : Vector (Option Rule) 64
  slots : Vector Slot 8
  pointer : SlotIx
  cond : ConditionUnit
  store : StoreManager
  maint : Option MaintenanceOp
  array : List Host.Cell
  port : StorePort
  index : IndexUnit
  release : ReleaseUnit
  ports : Vector ReadPort 6
  reading : Option ReadInProgress
  mgmt : ManagementUnit
  freeIx : Nat
  deriving DecidableEq, Repr

/-- The part right after power-on (R3, R23, R49, R89, R103, R118, R129, R134, R145, R169, R170, R172,
R176): bypass in both directions, every block at its start values, START(1) in the status record, and
the mount scan's read of block 0 granted. DESIGN CHOICE (log 6): straps 1, lines released, an array
nothing has ever written. -/
def State.reset : State where
  pending := []
  powered := true
  resetLine := false
  protect := false
  link :=
    { node := 1, aToB := .bypass, bToA := .bypass, sendingB := none, fifoB := [], response := none,
      sendingA := none, fifoA := [], counters := .zero }
  time := ⟨0, 0⟩
  streams := Vector.replicate 32 none
  samples := []
  rules := Vector.replicate 64 none
  slots := Vector.replicate 8 Slot.empty
  pointer := 0
  cond := .start
  store := .start
  maint := some (.mount .label)
  array := []
  port := { StorePort.start with busy := some ⟨.maintenance, .read 0⟩ }
  index := .start
  release := .start
  ports := Vector.replicate 6 .closed
  reading := none
  mgmt :=
    { phase := .idle, request := none, held := none, discarded := 0, status := .start 1 }
  freeIx := 0

/-- Why the machine stops with a fault. -/
inductive Fault where
  /-- Raised by a frame arrival while the supply is off: the manual does not cover the supply and gives
  the part no behaviour without it (00_scope.md section 7). Safe: the model stops (log 23). -/
  | withoutPower
  deriving DecidableEq, Repr

/-- Why the machine refuses a command. -/
inductive Refusal where
  /-- Raised by no meaning: the name of a command without one. Safe: the model stops. -/
  | notModelled (mnemonic : String)
  deriving DecidableEq, Repr

end Sys2Proof.Machine
end

