-- ==== Sys2Proof/Machine/Blocks.lean ====
section
/-!
DEFINITION. The store blocks of section 10.4: what the part writes and how a block read is judged
(R91 to R95, R191, R192).
-/

namespace Sys2Proof.Machine

/-! ### Block check and kind -/

/-- Kind bytes (section 10.3). -/
def kindLabel : Byte := 0x4C
def kindDirectory : Byte := 0x44
def kindIndex : Byte := 0x49
def kindHead : Byte := 0x48
def kindData : Byte := 0x53

/-- A whole block: the layout's bytes, reserved bytes 0, and the check in bytes 254 and 255 (R191). -/
def blockOf (bs : List Byte) : List Byte := withCheck (padTo 254 bs)

/-- The block check passes and byte 0 is the kind (R191). -/
def blockIs (kind : Byte) (b : List Byte) : Bool := checkGood b && byteAt b 0 == kind

/-! ### Names -/

/-- A name as a length byte and a run of `k` bytes (chapter 10). -/
def nameBytes (k : Nat) (name : List Byte) : List Byte :=
  BitVec.ofNat 8 name.length :: padTo k name

/-- A name character has a code 32 to 126 (R92, R93). -/
def nameChar (c : Byte) : Bool := 32 ≤ c.toNat && c.toNat ≤ 126

/-- The name at offset `i` with a run of `k` bytes, if its length and characters are allowed (R190, R191). -/
def nameAt (k : Nat) (bs : List Byte) (i : Nat) : Option (List Byte) :=
  let len := (byteAt bs i).toNat
  let name := (bs.drop (i + 1)).take len
  if len ≤ k && name.all nameChar then some name else none

/-! ### Label (R92) -/

/-- The label block that FORMAT writes. -/
def labelBlock (name : List Byte) (serial : BitVec 16) : List Byte :=
  blockOf (kindLabel :: Config.formatStamp ++ wordBytes 2 serial ++ toBytes 2 Config.storeBlocks ++ nameBytes 16 name)

/-- The label copy of a valid label, `none` for a block that is not a valid label (R92, R191). -/
def readLabel (b : List Byte) : Option LabelCopy :=
  if blockIs kindLabel b && (b.drop 1).take 4 == Config.formatStamp && fieldAt b 7 2 == Config.storeBlocks then
    (nameAt 16 b 9).map (fun name => ⟨name, BitVec.ofNat 16 (fieldAt b 5 2)⟩)
  else none

/-! ### Directory (R93) -/

/-- Code of a recording mode (section 10.3). -/
def modeByte : RecordingMode → Byte
  | .fill => 0
  | .wrap => 1

/-- The mode that a byte names. -/
def modeOf (b : Byte) : Option RecordingMode :=
  if b = 0 then some .fill else if b = 1 then some .wrap else none

/-- ceil(max records / 48): the number of index blocks of a recording (R93). -/
def indexBlocksFor (maxRecords : Nat) : Nat := ceilDiv maxRecords Config.indexEntries

/-- The 83 bytes of a directory entry (R93, section 10.4). A FREE entry holds its recording number and state only; the
manual gives its further bytes no value, and that they are written 0 is the model's choice (log 32). -/
def directoryEntry (r : RecIx) (e : Option RecordingEntry) : List Byte :=
  match e with
  | none => padTo 83 [BitVec.ofNat 8 (r.val + 1), 0]
  | some e =>
    padTo 83 ([BitVec.ofNat 8 (r.val + 1), 1, modeByte e.mode] ++ nameBytes 12 e.name
      ++ toBytes 2 e.maxRecords ++ [BitVec.ofNat 8 e.blocks.length] ++ (e.blocks.map (toBytes 2)).flatten)

/-- The directory block of a recording (R93): 1 + (k - 1) div 2. -/
def directoryBlockOf (r : RecIx) : Nat := 1 + r.val / 2

/-- The two recordings of directory block 1 to 16 (R93). -/
def directoryFirst (block : Nat) : RecIx := Fin.ofNat 32 (2 * (block - 1))
def directorySecond (block : Nat) : RecIx := Fin.ofNat 32 (2 * (block - 1) + 1)

/-- A directory block composed of two entries and the format serial (R93). -/
def directoryBlock (block : Nat) (serial : BitVec 16) (e0 e1 : Option RecordingEntry) : List Byte :=
  blockOf ([kindDirectory, BitVec.ofNat 8 block] ++ wordBytes 2 serial
    ++ directoryEntry (directoryFirst block) e0 ++ directoryEntry (directorySecond block) e1)

/-- `k` block numbers of two bytes each from offset `i`. -/
def blockNumbersAt (bs : List Byte) (i : Nat) : (k : Nat) → List Nat
  | 0 => []
  | k + 1 => fieldAt bs i 2 :: blockNumbersAt bs (i + 2) k

/-- A directory entry as its fields decode (R191): `none` when they do not, `some none` when FREE. A
FREE entry is not decoded beyond its state byte. The pair holds the recording number as written. -/
def decodeDirectoryEntry (b : List Byte) (e : Nat) : Option (Option (Nat × RecordingEntry)) :=
  if byteAt b (e + 1) = 0 then some none
  else if byteAt b (e + 1) = 1 then do
    let mode ← modeOf (byteAt b (e + 2))
    let name ← nameAt 12 b (e + 3)
    let maxRecords := fieldAt b (e + 16) 2
    let count := (byteAt b (e + 18)).toNat
    if count = indexBlocksFor maxRecords then
      some (some (fieldAt b e 1,
        { name := name, mode := mode, maxRecords := maxRecords, blocks := blockNumbersAt b (e + 19) count,
          held := List.replicate count true }))
    else none
  else none

/-- The entry carries the recording number of its place and a max records of 1 to 1536 (R93). -/
def directoryEntryPlaced (r : RecIx) : Option (Nat × RecordingEntry) → Bool
  | none => true
  | some (k, e) => k == r.val + 1 && 1 ≤ e.maxRecords && e.maxRecords ≤ 1536

/-- The format serial that a block valid as kind DIRECTORY carries (R108, R191). -/
def directorySerial? (b : List Byte) : Option (BitVec 16) :=
  if blockIs kindDirectory b && (decodeDirectoryEntry b 4).isSome && (decodeDirectoryEntry b 87).isSome then
    some (BitVec.ofNat 16 (fieldAt b 2 2))
  else none

/-- The two entries of a valid directory block (R93): `none` for a block invalid as a whole. -/
def readDirectory (block : Nat) (serial : BitVec 16) (b : List Byte) :
    Option (Option RecordingEntry × Option RecordingEntry) := do
  let s ← directorySerial? b
  let e0 ← decodeDirectoryEntry b 4
  let e1 ← decodeDirectoryEntry b 87
  if s = serial && fieldAt b 1 1 == block && directoryEntryPlaced (directoryFirst block) e0
      && directoryEntryPlaced (directorySecond block) e1 then
    some (e0.map (·.2), e1.map (·.2))
  else none

/-! ### Index block (R94, R192) -/

/-- The number, if any, of an entry (R94). -/
def IndexEntry.number? : IndexEntry → Option Nat
  | .unused => none
  | .present n _ _ => some n
  | .void n _ _ => some n

/-- The lap (n - 1) div m of an entry's number in a recording of max records m (R192). -/
def IndexEntry.lap? (m : Nat) (e : IndexEntry) : Option Nat := e.number?.map (fun n => (n - 1) / m)

/-- The block lap L of entries: the lap of the largest record number, or 0 (R192). -/
def blockLap (m : Nat) (es : List IndexEntry) : Nat :=
  es.foldl (fun l e => match e.lap? m with | some k => max l k | none => l) 0

/-- The entry word with its lap bit b = L - lap; an entry of a lap below L - 1 is written UNUSED (R192). -/
def entryWord (m lap : Nat) (e : IndexEntry) : Nat :=
  match e with
  | .unused => 0
  | .present n h t =>
    if lap ≤ (n - 1) / m + 1 then 2 ^ 30 + (lap - (n - 1) / m) * 2 ^ 29 + h % 2 ^ 13 * 2 ^ 16 + t % 2 ^ 14 else 0
  | .void n h t =>
    if lap ≤ (n - 1) / m + 1 then 2 ^ 31 + (lap - (n - 1) / m) * 2 ^ 29 + h % 2 ^ 13 * 2 ^ 16 + t % 2 ^ 14 else 0

/-- The index block of a recording at a position with 48 entries (section 10.4, R192). -/
def indexBlock (r : RecIx) (position m : Nat) (es : List IndexEntry) : List Byte :=
  let lap := blockLap m es
  blockOf ([kindIndex, BitVec.ofNat 8 (r.val + 1), BitVec.ofNat 8 position, 0] ++ toBytes 4 lap
    ++ (es.map (fun e => toBytes 4 (entryWord m lap e))).flatten)

/-- One entry word decoded at place `p` with block lap `lap` (R192): `none` makes the block invalid. -/
def decodeEntryWord (m lap p w : Nat) : Option IndexEntry :=
  let st := w / 2 ^ 30
  let b := w / 2 ^ 29 % 2
  let h := w / 2 ^ 16 % 2 ^ 13
  let t := w % 2 ^ 14
  let n := (lap - b) * m + p + 1
  if st = 0 then (if w = 0 then some .unused else none)
  else if st = 3 || 12000 < t || lap < b || Config.recordMax < n then none
  else if st = 1 then some (.present n h t)
  else some (.void n h t)

/-- `k` entry words from entry `i` on. -/
def decodeEntries (m lap position : Nat) (b : List Byte) (i : Nat) : (k : Nat) → Option (List IndexEntry)
  | 0 => some []
  | k + 1 => do
    let e ← decodeEntryWord m lap (Config.indexEntries * position + i) (fieldAt b (8 + 4 * i) 4)
    let es ← decodeEntries m lap position b (i + 1) k
    some (e :: es)

/-- The 48 entries of a block valid as an index block of recording `r` (max records `m`) at a position
of its list (R94, R191, R192). -/
def readIndex (r : RecIx) (position m : Nat) (b : List Byte) : Option (List IndexEntry) :=
  if blockIs kindIndex b && fieldAt b 1 1 == r.val + 1 && fieldAt b 2 1 == position then
    decodeEntries m (fieldAt b 4 4) position b 0 Config.indexEntries
  else none

/-! ### Head block (R66, R95) -/

/-- Code of an end cause (section 10.3). -/
def causeByte : EndCause → Byte
  | .complete => 1
  | .stalled => 2
  | .lag => 3
  | .cut => 4

/-- The end cause that a byte names. -/
def causeOf (b : Byte) : Option EndCause :=
  if b = 1 then some .complete else if b = 2 then some .stalled else if b = 3 then some .lag
  else if b = 4 then some .cut else none

/-- A stamp in six bytes: epoch, then cycle count (chapter 10). -/
def stampBytes (s : Stamp) : List Byte := wordBytes 2 s.epoch ++ wordBytes 4 s.cycle

/-- A gap list in four places of three bytes. -/
def gapBytes (gs : List GapEntry) : List Byte :=
  padTo 12 (gs.map (fun g => toBytes 2 g.offset ++ toBytes 1 g.missing)).flatten

/-- Record flags SHORT, GAPPED, GAP-OVERFLOW in bits 0 to 2 (section 10.3). -/
def recordFlags (short gapped overflow : Bool) : Byte := BitVec.ofNat 8 (flagBits [short, gapped, overflow])

/-- The head block that a slot writes (section 10.4). -/
def headBlock (h : HeadInfo) : List Byte :=
  blockOf ([kindHead, h.recording, h.rule, h.priority, h.node, h.stream] ++ stampBytes h.stamp
    ++ toBytes 2 h.preRequested ++ toBytes 2 h.preActual ++ toBytes 2 h.postActual ++ toBytes 2 h.total
    ++ [causeByte h.cause, recordFlags h.short h.gapped h.gapOverflow, BitVec.ofNat 8 h.gaps.length]
    ++ gapBytes h.gaps ++ [BitVec.ofNat 8 h.blocks.length] ++ (h.blocks.map (toBytes 2)).flatten)

/-- `k` gap entries from offset `i`. -/
def gapsAt (b : List Byte) (i : Nat) : (k : Nat) → List GapEntry
  | 0 => []
  | k + 1 => ⟨fieldAt b i 2, fieldAt b (i + 2) 1⟩ :: gapsAt b (i + 3) k

/-- The fields of a block valid as kind HEAD (R191): gap count at most 4, block count at most 100, a
listed end cause. Bits 3 to 7 of the flags byte are not judged and not kept (log 31). -/
def decodeHead (b : List Byte) : Option HeadInfo :=
  if blockIs kindHead b && fieldAt b 22 1 ≤ 4 && fieldAt b 35 1 ≤ 100 then do
    let cause ← causeOf (byteAt b 20)
    some { recording := byteAt b 1, rule := byteAt b 2, priority := byteAt b 3, node := byteAt b 4,
           stream := byteAt b 5,
           stamp := ⟨BitVec.ofNat 16 (fieldAt b 6 2), BitVec.ofNat 32 (fieldAt b 8 4)⟩,
           preRequested := fieldAt b 12 2, preActual := fieldAt b 14 2, postActual := fieldAt b 16 2,
           total := fieldAt b 18 2, cause := cause,
           short := (byteAt b 21).getLsbD 0, gapped := (byteAt b 21).getLsbD 1,
           gapOverflow := (byteAt b 21).getLsbD 2,
           gaps := gapsAt b 23 (fieldAt b 22 1), blocks := blockNumbersAt b 36 (fieldAt b 35 1) }
  else none

/-- A block number of the data area (R91). -/
def inDataArea (b : Nat) : Bool := Config.dataFirst ≤ b && b ≤ Config.dataLast

/-- The head of a block valid for a record of recording `r` (R95). -/
def readHead (r : RecIx) (b : List Byte) : Option HeadInfo := do
  let h ← decodeHead b
  if h.recording.toNat = r.val + 1 && h.blocks.length = ceilDiv h.total Config.blockSamples
      && h.blocks.all inDataArea then some h else none

/-! ### Data block (R61, R95) -/

/-- The data block written from a staging buffer (R61). -/
def dataBlock (owner position : Nat) (samples : List Sample) : List Byte :=
  blockOf ([kindData] ++ toBytes 2 owner ++ toBytes 1 position ++ toBytes 1 samples.length
    ++ (samples.map (wordBytes 2)).flatten)

/-- The samples of a block valid as kind DATA with this owner and position (R95, R191). -/
def readData (owner position : Nat) (b : List Byte) : Option (List Sample) :=
  if blockIs kindData b && fieldAt b 1 2 == owner && fieldAt b 3 1 == position && 1 ≤ fieldAt b 4 1
      && fieldAt b 4 1 ≤ 120 then
    some ((blockNumbersAt b 5 (fieldAt b 4 1)).map (BitVec.ofNat 16))
  else none

end Sys2Proof.Machine
end

