-- ==== Sys2Proof/Machine/Ops.lean ====
section
/-!
DEFINITION. The named operations over the state that every family shares: table access, the Store
Manager's claims (R98, R99), the Store Port with its arbiter (R117 to R120), the status record (R183),
port egress (R166 to R168) and the response to a request (R178, R179).
-/

namespace Sys2Proof.Machine

/-! ### Tables -/

/-- A table with entry `i` replaced. -/
def tableSet {α : Type} {n : Nat} (v : Vector α n) (i : Fin n) (x : α) : Vector α n := v.set i.val x i.isLt

def State.stream (s : State) (i : StreamIx) : Option StreamEntry := s.streams.get i
def State.setStream (s : State) (i : StreamIx) (e : Option StreamEntry) : State :=
  { s with streams := tableSet s.streams i e }

def State.rule (s : State) (i : RuleIx) : Option Rule := s.rules.get i
def State.setRule (s : State) (i : RuleIx) (r : Option Rule) : State :=
  { s with rules := tableSet s.rules i r }
/-- Change rule `i` if it is loaded. -/
def State.modifyRule (s : State) (i : RuleIx) (f : Rule → Rule) : State := s.setRule i ((s.rule i).map f)

def State.slot (s : State) (k : SlotIx) : Slot := s.slots.get k
def State.setSlot (s : State) (k : SlotIx) (x : Slot) : State := { s with slots := tableSet s.slots k x }
def State.setCapture (s : State) (k : SlotIx) (c : Option Capture) : State :=
  s.setSlot k { s.slot k with capture := c }

def State.readPort (s : State) (p : PortIx) : ReadPort := s.ports.get p
def State.setReadPort (s : State) (p : PortIx) (x : ReadPort) : State :=
  { s with ports := tableSet s.ports p x }

def StoreManager.entry (m : StoreManager) (r : RecIx) : Option RecordingEntry := m.cache.get r
def StoreManager.setEntry (m : StoreManager) (r : RecIx) (e : Option RecordingEntry) : StoreManager :=
  { m with cache := tableSet m.cache r e }
def StoreManager.recording (m : StoreManager) (r : RecIx) : RecordingState := m.recordings.get r
def StoreManager.setRecording (m : StoreManager) (r : RecIx) (x : RecordingState) : StoreManager :=
  { m with recordings := tableSet m.recordings r x }

/-- Change the Store Manager's state. -/
def State.modifyStore (s : State) (f : StoreManager → StoreManager) : State := { s with store := f s.store }

/-- The recording that a number 1 to 32 names (R93). -/
def recordingOf (k : Nat) : Option RecIx := if h : 1 ≤ k ∧ k ≤ 32 then some ⟨k - 1, by omega⟩ else none

/-- The number of a recording (R93). -/
def recordingNumber (r : RecIx) : Nat := r.val + 1

/-! ### The allocation map (R97 to R99) -/

/-- A block number put at its place in ascending order, once. -/
def insertUsed (b : Nat) : List Nat → List Nat
  | [] => [b]
  | u :: us => if b < u then b :: u :: us else if b = u then u :: us else u :: insertUsed b us

/-- The first block at or after `c` that an ascending list of used blocks does not hold. -/
def firstFree (c : Nat) : List Nat → Nat
  | [] => c
  | u :: us => if u < c then firstFree c us else if u = c then firstFree (c + 1) us else c

/-- The block that a take claim chooses: the first free block at or after the cursor, searching upward
to 8191 and then from 17 (R99); `none` when no block is free (log 22). -/
def StoreManager.chooseBlock (m : StoreManager) : Option Nat :=
  let b := firstFree m.cursor m.used
  if b ≤ Config.dataLast then some b
  else
    let b := firstFree Config.dataFirst m.used
    if b ≤ Config.dataLast then some b else none

/-- The cursor after block `b` is chosen (R99). -/
def cursorAfter (b : Nat) : Nat := if b = Config.dataLast then Config.dataFirst else b + 1

/-- One take of an unreserved block (R98, R99). -/
def StoreManager.take (m : StoreManager) : Option (Nat × StoreManager) :=
  m.chooseBlock.map fun b =>
    (b, { m with used := insertUsed b m.used, free := m.free - 1, cursor := cursorAfter b })

/-- Take reserved: one block becomes used, free count and reservation total fall by 1 (R98). -/
def StoreManager.takeReserved (m : StoreManager) : Option (Nat × StoreManager) :=
  m.take.map fun (b, m) => (b, { m with reserved := m.reserved - 1 })

/-- Take unreserved n: n choices in turn (R98, R99). -/
def StoreManager.takeMany (m : StoreManager) : (n : Nat) → Option (List Nat × StoreManager)
  | 0 => some ([], m)
  | n + 1 => do
    let (b, m) ← m.take
    let (bs, m) ← m.takeMany n
    some (b :: bs, m)

/-- Free claim: a used block becomes free; a block already free stays so and is not counted (R98, R131). -/
def StoreManager.freeBlock (m : StoreManager) (b : Nat) : StoreManager :=
  if b ∈ m.used then { m with used := m.used.filter (· != b), free := m.free + 1 } else m

/-- Free claims in list order. -/
def StoreManager.freeBlocks (m : StoreManager) (bs : List Nat) : StoreManager := bs.foldl (·.freeBlock ·) m

/-- Mark claim of the mount scan (R98). -/
def StoreManager.markBlock (m : StoreManager) (b : Nat) : StoreManager := { m with used := insertUsed b m.used }

/-- Reserve k (R98). -/
def StoreManager.reserve (m : StoreManager) (k : Nat) : StoreManager := { m with reserved := m.reserved + k }

/-- Return k (R98). -/
def StoreManager.returnReserved (m : StoreManager) (k : Nat) : StoreManager :=
  { m with reserved := m.reserved - k }

/-- Clear map (R98), with the cursor at 17 and every entry and per-recording state FREE, as FORMAT
acceptance (R108) and entry to UNFORMATTED (R96) both do. -/
def StoreManager.clearAll (m : StoreManager) : StoreManager :=
  { m with used := [], free := Config.dataBlocks, reserved := 0, cursor := Config.dataFirst,
           cache := Vector.replicate 32 none, recordings := Vector.replicate 32 .free }

/-- One more on the damage count (R102). -/
def StoreManager.countDamage (m : StoreManager) : StoreManager := { m with damage := satSucc m.damage }

/-- Newest number of a recording, 0 when it is FREE (R101). -/
def RecordingState.newest : RecordingState → Nat
  | .free => 0
  | .defined n _ => n
  | .damaged n _ => n

/-- Present count of a recording, 0 when it is FREE (R101). -/
def RecordingState.present : RecordingState → Nat
  | .free => 0
  | .defined _ p => p
  | .damaged _ p => p

/-- The per-recording state is DEFINED (R101). -/
def RecordingState.isDefined : RecordingState → Bool
  | .defined _ _ => true
  | _ => false

/-- The per-recording state is DAMAGED (R101). -/
def RecordingState.isDamaged : RecordingState → Bool
  | .damaged _ _ => true
  | _ => false

/-- The per-recording state is FREE (R101). -/
def RecordingState.isFree : RecordingState → Bool
  | .free => true
  | _ => false

/-- The same state with new numbers. -/
def RecordingState.withCounts (x : RecordingState) (newest present : Nat) : RecordingState :=
  match x with
  | .free => .free
  | .defined _ _ => .defined newest present
  | .damaged _ _ => .damaged newest present

/-- Window start: max(1, newest - max records + 1) (R101). -/
def windowStart (newest maxRecords : Nat) : Nat := max 1 (newest + 1 - maxRecords)

/-! ### Places of the release queue (R130) -/

/-- The room of the release queue: 64 minus the places occupied by queued jobs, parked jobs and the
places that the Index Unit holds (R130). -/
def State.releaseRoom (s : State) : Nat :=
  Config.releasePlaces - (s.release.queue.length + s.release.parked.length + s.index.held)

/-! ### The Store Port and its arbiter (R117 to R120) -/

/-- Class of a requester, 1 to 5 (R118). -/
def Requester.rank : Requester → Nat
  | .slot _ => 1
  | .index => 2
  | .release => 3
  | .maintenance => 4
  | .port _ => 5

/-- A read is always grantable, a write while the PROTECT line is not asserted (R118, R119). -/
def StoreOp.grantable (protect : Bool) : StoreOp → Bool
  | .read _ => true
  | .write _ _ => !protect

/-- The waiting request of a requester, if it is grantable. -/
def State.waitingOf (s : State) (w : Requester) : Option StoreRequest :=
  s.port.waiting.find? fun r => r.who == w && r.op.grantable s.protect

/-- The slots in the order following the last slot granted (R118). -/
def slotOrder (last : SlotIx) : List SlotIx := (List.range 8).map fun i => Fin.ofNat 8 (last.val + 1 + i)

/-- The readout ports in the order following the last port granted (R118). -/
def portOrder (last : PortIx) : List PortIx := (List.range 6).map fun i => Fin.ofNat 6 (last.val + 1 + i)

/-- The arbiter's order of all requesters: by class, round-robin in classes 1 and 5 (R118). -/
def State.arbiterOrder (s : State) : List Requester :=
  (slotOrder s.port.lastSlot).map .slot ++ [.index, .release, .maintenance]
    ++ (portOrder s.port.lastPort).map .port

/-- The request that the arbiter would grant (R118). -/
def State.arbiterChoice (s : State) : Option StoreRequest := s.arbiterOrder.findSome? s.waitingOf

/-- The Index Unit waits for places of the release queue. -/
def IndexPhase.isWaiting : IndexPhase → Bool
  | .waiting _ _ => true
  | _ => false

/-- The DELETE walk waits and may place its next job: DELETE_RELEASE_JOB_PLACE is due (R130). -/
def State.deleteDue (s : State) : Bool :=
  match s.maint with
  | some (.delete _ _ (.place _ _ _) _) => 1 ≤ s.releaseRoom && !s.index.phase.isWaiting
  | _ => false

/-- A FILLED buffer holding this block becomes WRITING when its write is granted (R60). -/
def Buffer.granted (block : Nat) : Buffer → Buffer
  | .filled d => if d.block = block then .writing d false else .filled d
  | b => b

/-- The buffers of a slot after a grant of its request. -/
def Slot.granted (x : Slot) : StoreOp → Slot
  | .read _ => x
  | .write b _ => { x with buffer0 := x.buffer0.granted b, buffer1 := x.buffer1.granted b }

/-- Grant a waiting request: the port is busy with it, and the pointer of its class moves (R117, R118). -/
def State.grant (s : State) (r : StoreRequest) : State :=
  let s := { s with port := { s.port with busy := some r, waiting := s.port.waiting.filter (·.who != r.who) } }
  match r.who with
  | .slot k => { s with port := { s.port with lastSlot := k } }.setSlot k ((s.slot k).granted r.op)
  | .port p => { s with port := { s.port with lastPort := p } }
  | _ => s

/-- The arbiter's test (R118): if the port is idle, the chosen request is granted. While RESTARTING nothing
is granted, since the restart point is due at the first idle moment (R187, log 3). -/
def State.arbitrate (s : State) : State :=
  match s.port.busy with
  | some _ => s
  | none =>
    if s.mgmt.phase = .restarting then s
    else
      match s.arbiterChoice with
      | none => s
      | some r => s.grant r

/-- The arbiter's test where the Index Unit may have a job to take up. A COMMIT job placed at the completion of a head
write is taken at once by an Index Unit that has no job in progress, and its read counts as presented with the completion,
so that it goes before a waiting request of class 3 to 5 (section 11.3 step 3, log 3): such a request is not granted here. -/
def State.arbitrateForCommit (s : State) : State :=
  match s.arbiterChoice with
  | none => s
  | some r => if s.index.phase = .idle ∧ s.index.queue ≠ [] ∧ 2 < r.who.rank then s else s.arbitrate

/-- A request joins those that wait (R117). -/
def State.ask (s : State) (w : Requester) (op : StoreOp) : State :=
  { s with port := { s.port with waiting := s.port.waiting ++ [(⟨w, op⟩ : StoreRequest)] } }

/-- A request is presented and the arbiter tests (R118). -/
def State.present (s : State) (w : Requester) (op : StoreOp) : State := (s.ask w op).arbitrate

/-- A requester withdraws its waiting request (R120). -/
def State.withdraw (s : State) (w : Requester) : State :=
  { s with port := { s.port with waiting := s.port.waiting.filter (·.who != w) } }

/-- The requester has a request presented and not completed (R60, R117). -/
def State.outstanding (s : State) (w : Requester) : Bool :=
  (match s.port.busy with | some r => r.who == w | none => false) || s.port.waiting.any (·.who == w)

/-- The array after an operation completes: a write has put its contents there (R117). -/
def StoreOp.applyTo (op : StoreOp) (m : List Host.Cell) : List Host.Cell :=
  match op with
  | .read _ => m
  | .write b contents => writeBlock m b contents

/-- The contents that a completed read carries: the block as the array holds it (R117). -/
def StoreOp.contents (op : StoreOp) (m : List Host.Cell) : List Byte :=
  match op with
  | .read b => readBlock m b
  | .write _ contents => contents

/-- The completion of the operation in progress: the port is idle again (R117). -/
def State.complete (s : State) (op : StoreOp) : State :=
  { s with port := { s.port with busy := none }, array := op.applyTo s.array }

/-- The step of a completion row: if the port is busy with a request of this requester, the completion
effects are taken and the arbiter tests (R117, R118); otherwise nothing completes (log 2). -/
def State.onCompletion (s : State) (w : Requester) (f : StoreOp → State → State) : State :=
  match s.port.busy with
  | some r => if r.who = w then (f r.op (s.complete r.op)).arbitrate else s
  | none => s

/-- A store operation cut short by a power loss or the RESET line: a read ends without a completion; a
write leaves the block with its old or its new contents, a free value (R117, log 5). -/
def State.interruptPort (s : State) : State :=
  match s.port.busy with
  | some ⟨_, .write b contents⟩ =>
    { s with array := if Config.interruptedWriteLands s.freeIx then writeBlock s.array b contents else s.array,
             freeIx := s.freeIx + 1, port := .start }
  | _ => { s with port := .start }

/-! ### The status record (R183) -/

/-- Codes of the events (section 10.3). -/
def eventMounted : Byte := 61
def eventUnformatted : Byte := 62
def eventDone : Byte := 63
def eventSuspended : Byte := 64

/-- The empty status record (R183). -/
def StatusRecord.empty : StatusRecord := ⟨0, 0, 0, 0⟩

/-- An event takes the empty record, or increases the later-events count (R183). -/
def StatusRecord.take (r : StatusRecord) (code : Byte) (arg1 arg2 : BitVec 16) : StatusRecord :=
  if r = StatusRecord.empty then ⟨code, arg1, arg2, 0⟩ else { r with later := satSucc r.later }

/-- An event is sent to the Management Unit (R183). -/
def State.sendEvent (s : State) (code : Byte) (arg1 arg2 : BitVec 16) : State :=
  { s with mgmt := { s.mgmt with status := s.mgmt.status.take code arg1 arg2 } }

/-- DONE(kind, count): a Maintenance operation has completed and busy is cleared (R106). -/
def State.maintenanceDone (s : State) (kind count : Nat) : State :=
  { s with maint := none }.sendEvent eventDone (BitVec.ofNat 16 kind) (BitVec.ofNat 16 count)

/-! ### Egress (R166 to R168) -/

/-- The send side of port B chooses: when it is idle, the oldest waiting forwarded frame, otherwise the
response (R168). While the bypass joins port A to port B the part sends nothing there (log 12). -/
def Link.chooseB (l : Link) : Link :=
  match l.aToB, l.sendingB with
  | .through, none =>
    match l.fifoB with
    | f :: fs => { l with sendingB := some ⟨f, false⟩, fifoB := fs }
    | [] =>
      match l.response with
      | some f => { l with sendingB := some ⟨f, true⟩, response := none }
      | none => l
  | _, _ => l

/-- The send side of port A: when it is idle, the oldest waiting frame (R167). -/
def Link.chooseA (l : Link) : Link :=
  match l.bToA, l.sendingA with
  | .through, none =>
    match l.fifoA with
    | f :: fs => { l with sendingA := some f, fifoA := fs }
    | [] => l
  | _, _ => l

/-- A forwarded frame is placed in port B egress, or dropped when 4 wait (R166). -/
def Link.placeB (l : Link) (f : Frame) : Link :=
  if Config.egressPlaces ≤ l.fifoB.length then
    { l with counters := { l.counters with overrunB := satSucc l.counters.overrunB } }
  else { l with fifoB := l.fifoB ++ [f] }.chooseB

/-- A forwarded frame is placed in port A egress, or dropped when 4 wait (R167). -/
def Link.placeA (l : Link) (f : Frame) : Link :=
  if Config.egressPlaces ≤ l.fifoA.length then
    { l with counters := { l.counters with overrunA := satSucc l.counters.overrunA } }
  else { l with fifoA := l.fifoA ++ [f] }.chooseA

def State.modifyLink (s : State) (f : Link → Link) : State := { s with link := f s.link }

/-! ### The response to a request (R178, R179) -/

/-- The code of a status (section 10.3). -/
def Status.code : Status → Byte
  | .ok => 0
  | .accepted => 1
  | .endOfRecord => 2
  | .busy => 10
  | .inUse => 11
  | .protectedStore => 12
  | .notReady => 13
  | .alreadyExists => 14
  | .badState => 15
  | .unknownCommand => 20
  | .badArgument => 21
  | .badPort => 22
  | .noSuchStream => 30
  | .noSuchRecording => 31
  | .tableFull => 32
  | .noRingSpace => 33
  | .ringTooShort => 34
  | .noSuchRule => 35
  | .recordNotPresent => 40
  | .positionPastEnd => 41
  | .blockMismatch => 42
  | .portNotOpen => 43
  | .damaged => 44
  | .noRoom => 50

/-- The MRSP to a request (R179, section 10.1). -/
def responseFrame (node : BitVec 6) (q : Request) (st : Status) (word : BitVec 16) (result : List Byte) : Frame :=
  withCheck ([0xA4, q.source, node.setWidth 8, q.tag, q.port, q.code, st.code] ++ wordBytes 2 word ++ result)

/-- The response place takes a response: the request is finished, and the phase becomes IDLE, or
RESTARTING for an accepted RESTART (R178, R186). -/
def State.placeResponse (s : State) (f : Frame) (restart : Bool) : State :=
  { s with link := { s.link with response := some f }.chooseB,
           mgmt := { s.mgmt with held := none, request := none,
                                 phase := if restart then .restarting else .idle } }

/-- The request in process is answered: its MRSP is built, and placed at once if the response place is
empty, otherwise held (R178, R179). -/
def State.respondWith (s : State) (st : Status) (word : BitVec 16) (result : List Byte) (restart : Bool) : State :=
  match s.mgmt.request with
  | none => s
  | some q =>
    let f := responseFrame s.link.node q st word result
    match s.link.response with
    | none => s.placeResponse f restart
    | some _ =>
      { s with mgmt := { s.mgmt with held := some f, request := some { q with stage := .answered restart } } }

/-- An answer with port word 0 (R190). -/
def State.respond (s : State) (st : Status) (result : List Byte) : State := s.respondWith st 0 result false

/-- A refusal: empty result, port word 0 (R182). -/
def State.refuse (s : State) (st : Status) : State := s.respond st []

/-- The step of an owner row: the owner takes the request in process that was handed to it (R180, R181);
if no such request stands, the row is not enabled and nothing changes (log 1, log 2). -/
def State.ownerStep (s : State) (c : Command) (f : Request → State → State) : State :=
  match s.mgmt.request with
  | some q => if q.stage = .owner c then f q s else s
  | none => s

end Sys2Proof.Machine
end

