-- ==== Sys2Proof/Machine/Flags.lean ====
section
/-!
DEFINITION. The condition word (chapter 4): condition reports, suspension and resumption, and the flags of
a record and of results.
-/

namespace Sys2Proof.Machine

/-- The number of a condition (section 4.1). -/
def Condition.number : Condition → Nat
  | .overflow => 0
  | .full => 1
  | .protect => 2
  | .unavailable => 3
  | .short => 4
  | .gap => 5
  | .lag => 6
  | .limit => 7

/-- All conditions in ascending number. -/
def Condition.all : List Condition :=
  [.overflow, .full, .protect, .unavailable, .short, .gap, .lag, .limit]

/-- A selection byte holding one condition (chapter 10). -/
def Condition.bit (c : Condition) : BitVec 8 := 1#8 <<< c.number

/-- The flag of a condition is set (R75). -/
def ConditionUnit.flagged (u : ConditionUnit) (c : Condition) : Bool := u.flags.getLsbD c.number

/-- A condition is masked (R76). -/
def ConditionUnit.masked (u : ConditionUnit) (c : Condition) : Bool := u.masks.getLsbD c.number

/-- The flags that are set and unmasked (R85, R86). -/
def ConditionUnit.live (u : ConditionUnit) : BitVec 8 := u.flags &&& ~~~u.masks

/-- The lowest-numbered condition whose flag is set and unmasked (R85). -/
def ConditionUnit.lowestLive (u : ConditionUnit) : Option Condition :=
  Condition.all.find? fun c => u.flagged c && !u.masked c

/-- The rule argument of SUSPENDED when the detail record has no rule (R82). -/
def noRuleArgument : BitVec 16 := 65535

/-- The Condition Unit takes a report (R80, R81): the flag is set; if the condition is unmasked and
capture RUNNING, capture is suspended, the detail record filled and the event SUSPENDED sent. -/
def State.report (s : State) (r : ConditionReport) : State :=
  let flags := s.cond.flags ||| r.condition.bit
  if s.cond.masked r.condition = false ∧ s.cond.state = .running then
    { s with cond := { s.cond with flags := flags, state := .suspended, detail := some (.raised r) } }.sendEvent
      eventSuspended (BitVec.ofNat 16 r.condition.number) (BitVec.ofNat 16 r.rule.val)
  else { s with cond := { s.cond with flags := flags } }

/-- The report that names a capture request and a slot (R56, R78). -/
def reportOf (c : Condition) (k : SlotIx) (q : CaptureRequest) : ConditionReport :=
  ⟨c, k, q.rule, q.recording, q.stream, q.stamp⟩

/-- The masks after CONTROL SET gives the selected conditions one mask value (R84). -/
def newMasks (masks selection : BitVec 8) (masked : Bool) : BitVec 8 :=
  if masked then masks ||| selection else masks &&& ~~~selection

/-- The check after a CONTROL SET (R85): a set unmasked flag suspends a RUNNING capture with cause
MASK-CHANGE and the current stamp. -/
def State.maskCheck (s : State) : State :=
  match s.cond.state, s.cond.lowestLive with
  | .running, some c =>
    { s with cond := { s.cond with state := .suspended, detail := some (.maskChange c s.time) } }.sendEvent
      eventSuspended (BitVec.ofNat 16 c.number) noRuleArgument
  | _, _ => s

/-- The Condition Unit after CLEAR CONDITIONS (R86): the selected flags are clear, and capture is
RUNNING with an empty detail record if no set flag is unmasked. -/
def ConditionUnit.clear (u : ConditionUnit) (selection : BitVec 8) : ConditionUnit :=
  let u := { u with flags := u.flags &&& ~~~selection }
  if u.live = 0 then { u with state := .running, detail := none } else u

/-- The code of the capture state (section 10.3). -/
def CaptureState.code : CaptureState → Byte
  | .running => 0
  | .suspended => 1

end Sys2Proof.Machine
end

