-- ==== Sys2Proof/Machine/Operands.lean ====
section
/-!
DEFINITION. The operand forms: command codes (section 10.2), argument lengths (R180 check 3) and the
argument fields of a request (R190).
-/

namespace Sys2Proof.Machine

/-- The command that a code names (section 10.2). -/
def commandOf (code : Byte) : Option Command :=
  match code.toNat with
  | 10 => some .streamLoad
  | 11 => some .streamDrop
  | 12 => some .streamQuery
  | 20 => some .ruleLoad
  | 21 => some .ruleEnable
  | 22 => some .ruleDisable
  | 23 => some .ruleUnload
  | 24 => some .ruleQuery
  | 25 => some .fire
  | 26 => some .unfire
  | 30 => some .slotsQuery
  | 31 => some .cut
  | 40 => some .controlSet
  | 41 => some .clearConditions
  | 42 => some .conditionsQuery
  | 50 => some .format
  | 51 => some .create
  | 52 => some .delete
  | 53 => some .erase
  | 54 => some .storeQuery
  | 55 => some .recordingQuery
  | 60 => some .status
  | 61 => some .identify
  | 62 => some .restart
  | 70 => some .portOpen
  | 71 => some .portPosition
  | 72 => some .portRead
  | 73 => some .portInfo
  | 74 => some .portClose
  | _ => none

/-- A readout command names its port 1 to 6 in the port field (R180 check 2). -/
def Command.isReadout : Command → Bool
  | .portOpen | .portPosition | .portRead | .portInfo | .portClose => true
  | _ => false

/-- The port number suits the command (R180 check 2). -/
def Command.portGood (c : Command) (port : Byte) : Bool :=
  if c.isReadout then 1 ≤ port.toNat && port.toNat ≤ 6 else port == 0

/-- The argument length suits the command (R180 check 3, section 10.2). -/
def Command.lengthGood (c : Command) (len : Nat) : Bool :=
  match c with
  | .streamLoad => len == 4
  | .streamDrop | .streamQuery => len == 1
  | .ruleLoad => len == 22
  | .ruleEnable | .ruleDisable | .ruleUnload | .ruleQuery | .fire | .unfire => len == 1
  | .slotsQuery => len ≤ 1
  | .cut => len == 1
  | .controlSet => len == 3
  | .clearConditions => len == 1
  | .conditionsQuery => len == 0
  | .format => len == 17
  | .create => len == 17
  | .delete => len == 1
  | .erase => len == 9
  | .storeQuery => len == 0
  | .recordingQuery => len == 2
  | .status | .identify | .restart => len == 0
  | .portOpen => len == 5
  | .portPosition => len == 2
  | .portRead => len == 1
  | .portInfo | .portClose => len == 0

/-- A one-byte argument. -/
def Request.byte (q : Request) (i : Nat) : Byte := byteAt q.args i

/-- An argument of `k` bytes at offset `i`, unsigned (R190). -/
def Request.nat (q : Request) (i k : Nat) : Nat := fieldAt q.args i k

/-- A 16-bit argument at offset `i`; thresholds read it as signed (R190). -/
def Request.word (q : Request) (i : Nat) : Word16 := BitVec.ofNat 16 (q.nat i 2)

/-- A number below `n` as an index, `none` when it is out of range. -/
def indexOf (n : Nat) (k : Nat) : Option (Fin n) := if h : k < n then some ⟨k, h⟩ else none

/-- The readout port that the port field names (R147). -/
def Request.readoutPort (q : Request) : Option PortIx :=
  if q.port.toNat = 0 then none else indexOf 6 (q.port.toNat - 1)

/-- An optional field in a result: written 0 when absent (R190). -/
def optNat (o : Option Nat) : Nat := o.getD 0

/-- A sample number that a result can hold: 0 to 2^48 - 1 in six bytes (chapter 10). -/
def sampleNumberFits (v : Int) : Bool := 0 ≤ v && v < Config.sampleNumbers

/-- The six bytes of a sample number in a result; outside the range they are a free value (log 14). -/
def sampleNumberBytes (ix : Nat) (v : Int) : List Byte :=
  if sampleNumberFits v then toBytes 6 v.toNat else wordBytes 6 (Config.sampleNumberOutside ix)

/-- The counter of free values after a result whose six-byte fields from `ix` on hold `vs`: unmoved when
every one of them is in range. -/
def freeAfter (ix : Nat) (vs : List Int) : Nat := if vs.all sampleNumberFits then ix else ix + vs.length

end Sys2Proof.Machine
end

