-- ==== Sys2Proof/Machine/Conditions.lean ====
section
/-!
DEFINITION. The three condition commands (section 4.5).
-/

namespace Sys2Proof.Machine

/-- The code of CONTROL SET's mask value: 0 unmasked, 1 masked (R190). -/
def maskValue (b : Byte) : Option Bool := if b = 0 then some false else if b = 1 then some true else none

/-- The preempt level that CONTROL SET carries: `some none` for absent, 255 (R190). -/
def levelArgument (b : Byte) : Option (Option Nat) :=
  if b = 255 then some none else if b.toNat ≤ 4 then some (some b.toNat) else none

/-- CONTROL SET (R84, R85). -/
def execControlSet (s : State) : Host.Outcome State Fault Refusal :=
  .next <| s.ownerStep .controlSet fun q s =>
    match maskValue (q.byte 1), levelArgument (q.byte 2) with
    | some m, some level =>
      let s := { s with cond := { s.cond with masks := newMasks s.cond.masks (q.byte 0) m,
                                              level := level.getD s.cond.level } }.maskCheck
      s.respond .ok [s.cond.masks, BitVec.ofNat 8 s.cond.level, s.cond.flags, s.cond.state.code]
    | _, _ => s.refuse .badArgument

/-- CLEAR CONDITIONS (R86). -/
def execClearConditions (s : State) : Host.Outcome State Fault Refusal :=
  .next <| s.ownerStep .clearConditions fun q s =>
    let u := s.cond.clear (q.byte 0)
    { s with cond := u }.respond .ok [u.flags, u.state.code]

/-- The twelve bytes of the condition detail record in a result (R79, R87, R190): an absent field is written
255 in each of its bytes (log 16), and cause 0 means an empty record. -/
def detailBytes (d : Option Detail) : List Byte :=
  match d with
  | none => [0, 255, 255, 255, 255, 255] ++ List.replicate 6 255
  | some (.raised r) =>
    [1, BitVec.ofNat 8 r.condition.number, BitVec.ofNat 8 r.slot.val, BitVec.ofNat 8 r.rule.val,
      BitVec.ofNat 8 (recordingNumber r.recording), BitVec.ofNat 8 r.stream.val] ++ stampBytes r.stamp
  | some (.maskChange c stamp) =>
    [2, BitVec.ofNat 8 c.number, 255, 255, 255, 255] ++ stampBytes stamp

/-- CONDITIONS QUERY (R87). -/
def execConditionsQuery (s : State) : Host.Outcome State Fault Refusal :=
  .next <| s.ownerStep .conditionsQuery fun _ s =>
    s.respond .ok
      ([s.cond.flags, s.cond.masks, BitVec.ofNat 8 s.cond.level, s.cond.state.code] ++ detailBytes s.cond.detail)

end Sys2Proof.Machine
end

