-- ==== Sys2Proof/Machine/StoreCommands.lean ====
section
/-!
DEFINITION. The store commands: FORMAT, CREATE, DELETE, ERASE and the two queries (sections 5.5 and 6.4).
-/

namespace Sys2Proof.Machine

/-! ### What they share -/

/-- Checks 2 to 4 of a store command (R106, R135): `unformattedOk` for FORMAT alone. -/
def State.storeChecks (s : State) (unformattedOk : Bool) : Option Status :=
  if s.store.state = .mounting ∨ (s.store.state = .unformatted ∧ unformattedOk = false) then some .notReady
  else if s.maint.isSome then some .busy
  else if s.protect then some .protectedStore
  else none

/-- A directory block composed from the directory cache and the current format serial (R93). -/
def State.directoryContents (s : State) (block : Nat) : List Byte :=
  directoryBlock block (s.store.label.elim 0 (·.serial)) (s.store.entry (directoryFirst block))
    (s.store.entry (directorySecond block))

/-- The Maintenance Unit takes up an operation and presents its first request. -/
def State.beginMaintenance (s : State) (m : MaintenanceOp) (op : StoreOp) : State :=
  { s with maint := some m }.present .maintenance op

/-- A readout port that is OPENING or OPEN. -/
def ReadPort.inUse : ReadPort → Bool
  | .closed => false
  | _ => true

/-- The recording of a port that is OPENING or OPEN. -/
def ReadPort.recording? : ReadPort → Option RecIx
  | .closed => none
  | .opening o => some o.recording
  | .opened r => some r.recording

/-! ### FORMAT (R107, R108) -/

/-- Something refers to the store's current organisation (R107). -/
def State.storeInUse (s : State) : Bool :=
  (ascending 8).any (fun k => (s.slot k).capture.isSome)
    || (ascending 6).any (fun p => (s.readPort p).inUse)
    || !s.index.queue.isEmpty || !s.release.queue.isEmpty
    || (ascending 64).any (fun i => ((s.rule i).bind (·.recording)).isSome)

/-- FORMAT (R106, R107, R108): its acceptance changes the RAM state, and the directory reads begin. -/
def execFormat (s : State) : Host.Outcome State Fault Refusal :=
  .next <| s.ownerStep .format fun q s =>
    match nameAt 16 q.args 0 with
    | none => s.refuse .badArgument
    | some name =>
      match s.storeChecks true with
      | some st => s.refuse st
      | none =>
        if s.storeInUse then s.refuse .inUse
        else
          (s.modifyStore fun m => { m.clearAll with state := .formatting }).beginMaintenance
            (.format name (.readDirectory 1 [])) (.read 1) |>.respond .accepted []

/-! ### CREATE (R110, R111) -/

/-- The contents of an index block that CREATE writes: 48 UNUSED entries (R111). -/
def emptyIndexBlock (r : RecIx) (position m : Nat) : List Byte :=
  indexBlock r position m (List.replicate Config.indexEntries .unused)

/-- The recording and the entry (with no blocks yet) that CREATE's arguments name, each in its range. -/
def Request.creation (q : Request) : Option (RecIx × RecordingEntry) := do
  let r ← recordingOf (q.byte 0).toNat
  let mode ← modeOf (q.byte 1)
  let name ← nameAt 12 q.args 4
  let m := q.nat 2 2
  if 1 ≤ m ∧ m ≤ 1536 then some (r, { name := name, mode := mode, maxRecords := m, blocks := [], held := [] })
  else none

/-- CREATE (R106, R110): its acceptance takes the index blocks, and the index writes begin. -/
def execCreate (s : State) : Host.Outcome State Fault Refusal :=
  .next <| s.ownerStep .create fun q s =>
    match q.creation with
    | none => s.refuse .badArgument
    | some (r, e) =>
      match s.storeChecks false with
      | some st => s.refuse st
      | none =>
        let n := indexBlocksFor e.maxRecords
        if (s.store.recording r).isFree = false then s.refuse .alreadyExists
        else if s.store.free < s.store.reserved + n then s.refuse .noRoom
        else
          match s.store.takeMany n with
          | none => s.refuse .noRoom
          | some (bs, m) =>
            let e := { e with blocks := bs, held := List.replicate n true }
            { s with store := m }.beginMaintenance (.create r e (.index 0))
              (.write (bs.headD 0) (emptyIndexBlock r 0 e.maxRecords)) |>.respond .accepted []

/-! ### DELETE (R112, R113) -/

/-- A rule, a slot or a readout port refers to the recording (R112). -/
def State.recordingInUse (s : State) (r : RecIx) : Bool :=
  (ascending 64).any (fun i => (s.rule i).bind (·.recording) == some r)
    || (ascending 8).any (fun k => (s.slot k).capture.map (·.request.recording) == some r)
    || (ascending 6).any (fun p => (s.readPort p).recording? == some r)

/-- DELETE (R106, R112): its acceptance sets the recording FREE, and its directory write begins. -/
def execDelete (s : State) : Host.Outcome State Fault Refusal :=
  .next <| s.ownerStep .delete fun q s =>
    match recordingOf (q.byte 0).toNat with
    | none => s.refuse .badArgument
    | some r =>
      match s.storeChecks false with
      | some st => s.refuse st
      | none =>
        match s.store.entry r with
        | none => s.refuse .noSuchRecording
        | some e =>
          if (s.store.recording r).isFree then s.refuse .noSuchRecording
          else if s.recordingInUse r then s.refuse .inUse
          else
            let s := s.modifyStore fun m => (m.setEntry r none).setRecording r .free
            let block := directoryBlockOf r
            s.beginMaintenance (.delete r e .directory 0) (.write block (s.directoryContents block))
              |>.respond .accepted []

/-! ### ERASE (R135, R136) -/

/-- Max records of a recording as the directory cache holds it. -/
def StoreManager.maxRecords (m : StoreManager) (r : RecIx) : Nat := (m.entry r).elim 0 (·.maxRecords)

/-- Window start of a recording (R101). -/
def StoreManager.windowStart (m : StoreManager) (r : RecIx) : Nat :=
  Machine.windowStart (m.recording r).newest (m.maxRecords r)

/-- The index block positions that hold the places of the numbers `a` to `b`, ascending (R136). -/
def erasePositions (m a b : Nat) : List Nat :=
  let all := List.range (indexBlocksFor m)
  if m ≤ b - a + 1 then all
  else
    let p1 := (a - 1) % m
    let p2 := (b - 1) % m
    if p1 ≤ p2 then all.filter fun q => p1 / Config.indexEntries ≤ q && q ≤ p2 / Config.indexEntries
    else all.filter fun q => q ≤ p2 / Config.indexEntries || p1 / Config.indexEntries ≤ q

/-- The ERASE in progress places its next VOID-SET job, or has completed and sends DONE(4, count) (R136). -/
def State.eraseNext (r : RecIx) (a b : Nat) (rest : List Nat) (count : Nat) (s : State) : State :=
  match rest with
  | [] => s.maintenanceDone 4 count
  | p :: rest =>
    { s with maint := some (.erase r a b rest count),
             index := { s.index with queue := s.index.queue ++ [.voidSet r p a b] } }

/-- The range of ERASE clipped to the window (R135); empty when its first number is above its last. -/
def StoreManager.clip (m : StoreManager) (r : RecIx) (n1 n2 : Nat) : Nat × Nat :=
  (max n1 (m.windowStart r), min n2 (m.recording r).newest)

/-- ERASE (R135, R136). -/
def execErase (s : State) : Host.Outcome State Fault Refusal :=
  .next <| s.ownerStep .erase fun q s =>
    let n1 := q.nat 1 4
    let n2 := q.nat 5 4
    match recordingOf (q.byte 0).toNat with
    | none => s.refuse .badArgument
    | some r =>
      if ¬(1 ≤ n1 ∧ n1 ≤ n2) then s.refuse .badArgument
      else
        match s.storeChecks false with
        | some st => s.refuse st
        | none =>
          if (s.store.recording r).isFree then s.refuse .noSuchRecording
          else if (s.store.recording r).isDamaged then s.refuse .damaged
          else
            let ab := s.store.clip r n1 n2
            let ps := if ab.2 < ab.1 then [] else erasePositions (s.store.maxRecords r) ab.1 ab.2
            (s.eraseNext r ab.1 ab.2 ps 0).respond .accepted []

/-! ### STORE QUERY (R114) and RECORDING QUERY (R115, R193) -/

/-- Code of a store state (section 10.3). -/
def StoreState.code : StoreState → Byte
  | .mounting => 0
  | .unformatted => 1
  | .ready => 2
  | .formatting => 3

/-- Code of Maintenance busy (section 10.3). -/
def maintenanceCode : Option MaintenanceOp → Byte
  | none => 0
  | some (.mount _) => 1
  | some (.format _ _) => 2
  | some (.create _ _ _) => 3
  | some (.delete _ _ _ _) => 4
  | some (.erase _ _ _ _ _) => 5

/-- Code of a per-recording state (section 10.3). -/
def RecordingState.code : RecordingState → Byte
  | .free => 0
  | .defined _ _ => 1
  | .damaged _ _ => 2

/-- How many recordings satisfy a test. -/
def StoreManager.countRecordings (m : StoreManager) (f : RecordingState → Bool) : Nat :=
  (ascending 32).countP fun r => f (m.recording r)

/-- The result of STORE QUERY (R114, section 10.2). The presence byte covers the six fields that may be
absent: name, serial, free, reserved, their difference and the cursor. -/
def State.storeResult (s : State) : List Byte :=
  let m := s.store
  let known := m.state != .mounting
  let counts (n : Nat) : List Byte := if known then toBytes 2 n else toBytes 2 0
  [m.state.code, boolByte s.protect]
    ++ nameBytes 16 (m.label.elim [] (·.name)) ++ wordBytes 2 (m.label.elim 0 (·.serial))
    ++ toBytes 2 Config.storeBlocks ++ toBytes 2 Config.dataBlocks
    ++ counts m.free ++ counts m.reserved ++ counts (m.free - m.reserved) ++ counts m.cursor
    ++ toBytes 1 (m.countRecordings RecordingState.isDefined) ++ toBytes 1 (m.countRecordings RecordingState.isDamaged)
    ++ wordBytes 2 m.damage ++ [maintenanceCode s.maint]
    ++ toBytes 1 s.index.queue.length ++ toBytes 1 s.release.queue.length ++ toBytes 1 s.release.parked.length
    ++ toBytes 1 (flagBits [m.label.isSome, m.label.isSome, known, known, known, known])

/-- STORE QUERY (R114). -/
def execStoreQuery (s : State) : Host.Outcome State Fault Refusal :=
  .next <| s.ownerStep .storeQuery fun _ s => s.respond .ok s.storeResult

/-- The block number reported for list place `i`: the block if the place is held, otherwise 0 (R115, R193). -/
def RecordingEntry.reportedBlock (e : RecordingEntry) (i : Nat) : Nat :=
  if e.held.getD i false then e.blocks.getD i 0 else 0

/-- The result of RECORDING QUERY (R115, R193, section 10.2): 61 bytes; a FREE recording is returned with
its number and state, and zeros. -/
def StoreManager.recordingResult (m : StoreManager) (r : RecIx) (part : Nat) : List Byte :=
  let x := m.recording r
  let first := [BitVec.ofNat 8 (recordingNumber r), x.code]
  match x.isFree, m.entry r with
  | false, some e =>
    first ++ [modeByte e.mode] ++ nameBytes 12 e.name ++ toBytes 2 e.maxRecords ++ toBytes 1 e.blocks.length
      ++ toBytes 4 x.newest ++ toBytes 2 x.present ++ toBytes 4 (m.windowStart r)
      ++ ((List.range 16).map fun i => toBytes 2 (e.reportedBlock (16 * part + i))).flatten
  | _, _ => first ++ List.replicate 59 0

/-- RECORDING QUERY (R115). -/
def execRecordingQuery (s : State) : Host.Outcome State Fault Refusal :=
  .next <| s.ownerStep .recordingQuery fun q s =>
    match recordingOf (q.byte 0).toNat with
    | none => s.refuse .badArgument
    | some r =>
      if 1 < (q.byte 1).toNat then s.refuse .badArgument
      else if s.store.state = .mounting ∨ s.store.state = .unformatted then s.refuse .notReady
      else s.respond .ok (s.store.recordingResult r (q.byte 1).toNat)

end Sys2Proof.Machine
end

