-- ==== Sys2Proof/Machine/Maintenance.lean ====
section
/-!
DEFINITION. The completions of FORMAT, CREATE and DELETE (R108, R111, R113).
-/

namespace Sys2Proof.Machine

/-- The step of a Maintenance completion row: the operation in progress is at the phase that the row
names, and its block operation completes with the contents that it carries (R117). -/
def State.onMaintenance (p : MaintenanceOp → Option (List Byte → State → State)) (s : State) : State :=
  match s.port.busy, s.maint.bind p with
  | some ⟨.maintenance, op⟩, some f => (f (op.contents s.array) (s.complete op)).arbitrate
  | _, _ => s

/-! ### FORMAT (R108) -/

/-- One greater, from 65,535 to 1 (R108). -/
def nextSerial (x : BitVec 16) : BitVec 16 := if x = 65535 then 1 else x + 1

/-- Raised again for as long as it equals a serial found, at most `fuel` times; at most 16 blocks are
read, so 16 raises are enough. -/
def raiseSerial (found : List (BitVec 16)) : (fuel : Nat) → BitVec 16 → BitVec 16
  | 0, x => x
  | n + 1, x => if x ∈ found then raiseSerial found n (nextSerial x) else x

/-- The new format serial (R108). -/
def chooseSerial (label : Option LabelCopy) (found : List (BitVec 16)) : BitVec 16 :=
  raiseSerial found 16 (match label with | some l => nextSerial l.serial | none => 1)

/-- A FORMAT directory read has completed (R108). -/
def formatRead (name : List Byte) (block : Nat) (found : List (BitVec 16)) (contents : List Byte) (s : State) :
    State :=
  let found := found ++ (directorySerial? contents).toList
  if block < 16 then
    s.beginMaintenance (.format name (.readDirectory (block + 1) found)) (.read (block + 1))
  else
    let serial := chooseSerial s.store.label found
    s.beginMaintenance (.format name (.writeLabel serial)) (.write 0 (labelBlock name serial))

/-- FORMAT_DIRECTORY_READ_COMPLETE (R108). -/
def execFormatDirectoryReadComplete (s : State) : Host.Outcome State Fault Refusal :=
  .next <| s.onMaintenance fun
    | .format name (.readDirectory block found) => some (formatRead name block found)
    | _ => none

/-- The label write of a FORMAT has completed (R108). -/
def formatLabelled (name : List Byte) (serial : BitVec 16) (s : State) : State :=
  (s.modifyStore fun m => { m with label := some ⟨name, serial⟩ }).beginMaintenance
    (.format name (.writeDirectory 1 serial)) (.write 1 (directoryBlock 1 serial none none))

/-- FORMAT_LABEL_WRITE_COMPLETE (R108). -/
def execFormatLabelWriteComplete (s : State) : Host.Outcome State Fault Refusal :=
  .next <| s.onMaintenance fun
    | .format name (.writeLabel serial) => some fun _ => formatLabelled name serial
    | _ => none

/-- A directory write of a FORMAT has completed; after block 16 the store is READY (R108). -/
def formatWrote (name : List Byte) (block : Nat) (serial : BitVec 16) (s : State) : State :=
  if block < 16 then
    s.beginMaintenance (.format name (.writeDirectory (block + 1) serial))
      (.write (block + 1) (directoryBlock (block + 1) serial none none))
  else (s.modifyStore fun m => { m with state := .ready }).maintenanceDone 1 serial.toNat

/-- FORMAT_DIRECTORY_WRITE_COMPLETE (R108). -/
def execFormatDirectoryWriteComplete (s : State) : Host.Outcome State Fault Refusal :=
  .next <| s.onMaintenance fun
    | .format name (.writeDirectory block serial) => some fun _ => formatWrote name block serial
    | _ => none

/-! ### CREATE (R111) -/

/-- An index block write of a CREATE has completed (R111). -/
def createWrote (r : RecIx) (e : RecordingEntry) (position : Nat) (s : State) : State :=
  if position + 1 < e.blocks.length then
    s.beginMaintenance (.create r e (.index (position + 1)))
      (.write (e.blocks.getD (position + 1) 0) (emptyIndexBlock r (position + 1) e.maxRecords))
  else
    let block := directoryBlockOf r
    s.beginMaintenance (.create r e .directory)
      (.write block ((s.modifyStore fun m => m.setEntry r (some e)).directoryContents block))

/-- CREATE_INDEX_WRITE_COMPLETE (R111). -/
def execCreateIndexWriteComplete (s : State) : Host.Outcome State Fault Refusal :=
  .next <| s.onMaintenance fun
    | .create r e (.index position) => some fun _ => createWrote r e position
    | _ => none

/-- CREATE's commit point (R111). -/
def createCommitted (r : RecIx) (e : RecordingEntry) (s : State) : State :=
  (s.modifyStore fun m => (m.setEntry r (some e)).setRecording r (.defined 0 0)).maintenanceDone 2 e.blocks.length

/-- CREATE_DIRECTORY_WRITE_COMPLETE (R111). -/
def execCreateDirectoryWriteComplete (s : State) : Host.Outcome State Fault Refusal :=
  .next <| s.onMaintenance fun
    | .create r e .directory => some fun _ => createCommitted r e
    | _ => none

/-! ### DELETE (R113) -/

/-- The held places of a recording's list, in position order (R113, R140). -/
def RecordingEntry.heldPlaces (e : RecordingEntry) : List Nat :=
  (List.range e.blocks.length).filter fun i => e.held.getD i false

/-- The DELETE walk goes on to its next held place, or has completed and sends DONE(3, count) (R113). -/
def deleteWalk (r : RecIx) (e : RecordingEntry) (count : Nat) (rest : List Nat) (s : State) : State :=
  match rest with
  | [] => s.maintenanceDone 3 count
  | p :: rest => s.beginMaintenance (.delete r e (.read p rest) count) (.read (e.blocks.getD p 0))

/-- The index block at position `p` has been handled: it is freed, and the walk goes on (R113). -/
def deleteFreed (r : RecIx) (e : RecordingEntry) (p : Nat) (count : Nat) (rest : List Nat) (s : State) : State :=
  (s.modifyStore (·.freeBlock (e.blocks.getD p 0))) |> deleteWalk r e count rest

/-- Place the release jobs of the heads at the queue tail while there is room (R113, R130); the walk does
not take room for which the Index Unit waits (log 27). -/
def deleteHeads (r : RecIx) (e : RecordingEntry) (p : Nat) (rest : List Nat) :
    (heads : List Nat) → (count : Nat) → State → State
  | [], count, s => deleteFreed r e p count rest s
  | h :: hs, count, s =>
    if 1 ≤ s.releaseRoom && !s.index.phase.isWaiting then
      deleteHeads r e p rest hs (count + 1) { s with release := { s.release with queue := s.release.queue ++ [⟨h, r⟩] } }
    else { s with maint := some (.delete r e (.place p (h :: hs) rest) count) }

/-- Heads of the PRESENT entries of an index block, in entry order (R113). -/
def presentHeads (es : List IndexEntry) : List Nat :=
  es.filterMap fun | .present _ h _ => some h | _ => none

/-- DELETE_DIRECTORY_WRITE_COMPLETE: DELETE's commit point, the walk begins (R113). -/
def execDeleteDirectoryWriteComplete (s : State) : Host.Outcome State Fault Refusal :=
  .next <| s.onMaintenance fun
    | .delete r e .directory count => some fun _ => deleteWalk r e count e.heldPlaces
    | _ => none

/-- DELETE_INDEX_READ_COMPLETE (R113). -/
def execDeleteIndexReadComplete (s : State) : Host.Outcome State Fault Refusal :=
  .next <| s.onMaintenance fun
    | .delete r e (.read p rest) count => some fun contents =>
      match readIndex r p e.maxRecords contents with
      | some es => deleteHeads r e p rest (presentHeads es) count
      | none => deleteFreed r e p count rest
    | _ => none

/-- DELETE_RELEASE_JOB_PLACE: the waiting walk places its next release job when there is room that the
Index Unit does not wait for; after the last, the index block is freed and the walk goes on (R113, R130). -/
def execDeleteReleaseJobPlace (s : State) : Host.Outcome State Fault Refusal :=
  .next <|
    match s.maint with
    | some (.delete r e (.place p (h :: hs) rest) count) =>
      if s.deleteDue then
        let s := { s with release := { s.release with queue := s.release.queue ++ [⟨h, r⟩] } }
        (match hs with
          | [] => deleteFreed r e p (count + 1) rest s
          | _ => { s with maint := some (.delete r e (.place p hs rest) (count + 1)) }).arbitrate
      else s
    | _ => s

end Sys2Proof.Machine
end

