-- ==== Sys2Proof/Machine/Mount.lean ====
section
/-!
DEFINITION. The mount scan (section 6.5): label, directory, claims, index reads, entry walk, end.
-/

namespace Sys2Proof.Machine

/-- The scan ends: counts set, READY, MOUNTED sent (R142). -/
def State.mountEnd (s : State) : State :=
  let free := Config.dataBlocks - s.store.used.length
  ({ s with maint := none,
            store := { s.store with free := free, reserved := 0, cursor := Config.dataFirst, state := .ready } }).sendEvent
    eventMounted (BitVec.ofNat 16 free) s.store.damage

/-- The claims of a recording's index blocks in position order (R140): the used list with the blocks that
it now holds, and the held mark of each place. -/
def claimBlocks (used : List Nat) : List Nat → List Nat × List Bool
  | [] => (used, [])
  | b :: bs =>
    if inDataArea b && !used.contains b then
      let (used, marks) := claimBlocks (insertUsed b used) bs
      (used, true :: marks)
    else
      let (used, marks) := claimBlocks used bs
      (used, false :: marks)

/-- Recordings from the given ones on are scanned in turn (R139, R140): a FREE one gets the state FREE, the
next DEFINED one has its blocks claimed and its first held index block read; one that holds no block is
DAMAGED with newest and present 0 at once. -/
def State.mountRecordings : List RecIx → State → State
  | [], s => s.mountEnd
  | r :: rs, s =>
    match s.store.entry r with
    | none => mountRecordings rs (s.modifyStore fun m => m.setRecording r .free)
    | some e =>
      let (used, held) := claimBlocks s.store.used e.blocks
      let e := { e with held := held }
      let s := s.modifyStore fun m => { m with used := used }.setEntry r (some e)
      match e.heldPlaces with
      | [] => mountRecordings rs (s.modifyStore fun m => m.setRecording r (.damaged 0 0))
      | p :: ps =>
        s.beginMaintenance (.mount (.index r (p :: ps) [] (held.contains false))) (.read (e.blocks.getD p 0))

/-- The recordings after `r`. -/
def recordingsAfter (r : RecIx) : List RecIx := (ascending 32).drop (r.val + 1)

/-- The scan of a recording has finished (R142), and the scan goes on. -/
def State.mountRecorded (w : RecordWalk) (s : State) : State :=
  (s.modifyStore fun m => m.setRecording w.recording
      (if w.damaged then .damaged w.newest w.mounted else .defined w.newest w.mounted))
    |>.mountRecordings (recordingsAfter w.recording)

/-- A REPAIR job for the first entry of the walk is placed, and the scan waits for the report (R141). -/
def State.mountRepair (w : RecordWalk) (x : WalkEntry) (s : State) : State :=
  { s with maint := some (.mount (.repair w)),
           index := { s.index with queue := s.index.queue ++ [.repair w.recording x.position x.entry] } }

/-- The walk turns to its next entry: its head is read, or it is repaired at once when its head lies
outside the data area (R141). -/
def State.mountWalk (w : RecordWalk) (s : State) : State :=
  match w.todo with
  | [] => s.mountRecorded w
  | x :: _ =>
    if inDataArea x.head then s.beginMaintenance (.mount (.head w)) (.read x.head) else s.mountRepair w x

/-- The Index Unit reports the REPAIR job done: the damage is counted and the walk goes on (R128, R141). -/
def State.repairReported (s : State) : State :=
  match s.maint with
  | some (.mount (.repair w)) => (s.modifyStore (·.countDamage)).mountWalk { w with todo := w.todo.tail }
  | _ => s

/-- The number of an entry that belongs to its place (R142). -/
def placedNumber (m place : Nat) (e : IndexEntry) : Option Nat :=
  e.number?.filter fun n => place < m && (n - 1) % m == place

/-- The newest number of a recording from its kept index blocks (R142). -/
def newestOf (m : Nat) (kept : List (Nat × List IndexEntry)) : Nat :=
  (kept.flatMap fun b => (b.2.zipIdx).filterMap fun e => placedNumber m (Config.indexEntries * b.1 + e.2) e.1).foldl
    max 0

/-- The PRESENT entries of kept index blocks, in the order of the walk (R141). -/
def walkOf (kept : List (Nat × List IndexEntry)) : List WalkEntry :=
  kept.flatMap fun b => (b.2.zipIdx).filterMap fun e =>
    match e.1 with
    | .present n h t => some ⟨b.1, e.2, n, h, t⟩
    | _ => none

/-- The head of a mounted entry, `none` if the entry is not mounted (R141). -/
def mountedHead (used : List Nat) (m newest : Nat) (r : RecIx) (x : WalkEntry) (contents : List Byte) :
    Option HeadInfo :=
  let p := Config.indexEntries * x.position + x.entry
  (readHead r contents).filter fun h =>
    p < m && (x.number - 1) % m == p && newest + 1 ≤ x.number + m && inDataArea x.head && h.total == x.total
      && decide (x.head :: h.blocks).Nodup && (x.head :: h.blocks).all fun b => !used.contains b

/-- A label read has completed (R138, R96). -/
def mountLabel (contents : List Byte) (s : State) : State :=
  match readLabel contents with
  | none =>
    ({ s with maint := none }.modifyStore fun m => { m.clearAll with state := .unformatted, label := none }).sendEvent
      eventUnformatted 0 0
  | some l =>
    (s.modifyStore fun m => { m with label := some l }).beginMaintenance (.mount (.directory 1)) (.read 1)

/-- MOUNT_LABEL_READ_COMPLETE (R138). -/
def execMountLabelReadComplete (s : State) : Host.Outcome State Fault Refusal :=
  .next <| s.onMaintenance fun
    | .mount .label => some mountLabel
    | _ => none

/-- A directory read has completed (R139). -/
def mountDirectory (block : Nat) (contents : List Byte) (s : State) : State :=
  let s :=
    match readDirectory block (s.store.label.elim 0 (·.serial)) contents with
    | some (e0, e1) =>
      s.modifyStore fun m => (m.setEntry (directoryFirst block) e0).setEntry (directorySecond block) e1
    | none =>
      s.modifyStore fun m =>
        ((m.setEntry (directoryFirst block) none).setEntry (directorySecond block) none).countDamage
  if block < 16 then s.beginMaintenance (.mount (.directory (block + 1))) (.read (block + 1))
  else s.mountRecordings (ascending 32)

/-- MOUNT_DIRECTORY_READ_COMPLETE (R139, R140, R142). -/
def execMountDirectoryReadComplete (s : State) : Host.Outcome State Fault Refusal :=
  .next <| s.onMaintenance fun
    | .mount (.directory block) => some (mountDirectory block)
    | _ => none

/-- The read of a held index block, at list place `p`, has completed (R140): it is kept, or the recording is
DAMAGED; then the next held place is read, or the entry walk begins (R141, R142). -/
def mountIndex (r : RecIx) (p : Nat) (rest : List Nat) (kept : List (Nat × List IndexEntry)) (damaged : Bool)
    (contents : List Byte) (s : State) : State :=
  let m := s.store.maxRecords r
  let found := readIndex r p m contents
  let kept := kept ++ (found.map fun es => (p, es)).toList
  let damaged := damaged || found.isNone
  match rest with
  | q :: qs =>
    s.beginMaintenance (.mount (.index r (q :: qs) kept damaged))
      (.read (((s.store.entry r).elim [] (·.blocks)).getD q 0))
  | [] => s.mountWalk ⟨r, damaged, newestOf m kept, 0, walkOf kept⟩

/-- MOUNT_INDEX_READ_COMPLETE (R140, R141). -/
def execMountIndexReadComplete (s : State) : Host.Outcome State Fault Refusal :=
  .next <| s.onMaintenance fun
    | .mount (.index r (p :: rest) kept damaged) => some (mountIndex r p rest kept damaged)
    | _ => none

/-- A head read of the walk has completed: the entry is mounted and its blocks are marked, or it is
repaired (R141). -/
def mountHead (w : RecordWalk) (x : WalkEntry) (contents : List Byte) (s : State) : State :=
  match mountedHead s.store.used (s.store.maxRecords w.recording) w.newest w.recording x contents with
  | some h =>
    (s.modifyStore fun m => (x.head :: h.blocks).foldl (·.markBlock ·) m).mountWalk
      { w with mounted := w.mounted + 1, todo := w.todo.tail }
  | none => s.mountRepair w x

/-- MOUNT_HEAD_READ_COMPLETE (R141). -/
def execMountHeadReadComplete (s : State) : Host.Outcome State Fault Refusal :=
  .next <| s.onMaintenance fun
    | .mount (.head w) => w.todo.head?.map fun x => mountHead w x
    | _ => none

end Sys2Proof.Machine
end

