-- ==== Sys2Proof/Machine/Starts.lean ====
section
/-!
DEFINITION. The three starts (00_scope.md section 5): what power-on, the RESET line and RESTART do to the
blocks below the link.
-/

namespace Sys2Proof.Machine

/-- Every block below the link takes its start values (R3, R23, R49, R50, R89, R103, R129, R134, R145, R146,
R188); Maintenance busy is set to a mount scan that has not begun. The Store Port is left to the start. -/
def State.startBlocks (s : State) : State :=
  { s with
    streams := Vector.replicate 32 none, samples := [], rules := Vector.replicate 64 none,
    slots := Vector.replicate 8 Slot.empty, pointer := 0, cond := .start, store := .start,
    maint := some (.mount .held), index := .start, release := .start, ports := Vector.replicate 6 .closed,
    reading := none }

/-- The mount scan begins: its read of block 0 is presented (R103, R138). -/
def State.mountBegins (s : State) : State := s.beginMaintenance (.mount .label) (.read 0)

/-- The Management Unit at power-on (cause 1) and at the RESET line (cause 2) (R176). -/
def ManagementUnit.start (cause : BitVec 16) : ManagementUnit :=
  { phase := .idle, request := none, held := none, discarded := 0, status := .start cause }

/-- The restart point (R120, R188): waiting requests are withdrawn and the port's pointers take their start
values, the blocks take their RESTART effects, the status record becomes START(3), the phase IDLE, and a mount
scan begins. Link, Time Base and discarded count are kept (R171, R172). -/
def State.restartPoint (s : State) : State :=
  { s.startBlocks with
    port := .start
    mgmt := { s.mgmt with phase := .idle, request := none, held := none, status := .start 3 } }.mountBegins

end Sys2Proof.Machine
end

