-- ==== Sys2Proof/Machine/Management.lean ====
section
/-!
DEFINITION. The Management Unit (chapter 9): taking and routing a request, STATUS, IDENTIFY, RESTART, and
the placing of a held response.
-/

namespace Sys2Proof.Machine

/-- The refusal of routing, or the command whose owner the request is handed to (R180). -/
def Request.route (code port : Byte) (args : List Byte) : Status ⊕ Command :=
  match commandOf code with
  | none => .inl .unknownCommand
  | some c =>
    if c.portGood port = false then .inl .badPort
    else if c.lengthGood args.length = false then .inl .badArgument
    else .inr c

/-- The request that an MREQ carries (section 10.1), at a stage. -/
def requestOf (f : Frame) (stage : Stage) : Request :=
  { source := byteAt f 2, tag := byteAt f 3, port := byteAt f 4, code := byteAt f 5, args := mreqArgs f, stage := stage }

/-- An MREQ is handed over (R177): taken in IDLE and routed (R180), a routing refusal being answered at once;
discarded and counted in any other phase. -/
def State.handOver (s : State) (f : Frame) : State :=
  match s.mgmt.phase with
  | .idle =>
    match Request.route (byteAt f 5) (byteAt f 4) (mreqArgs f) with
    | .inr c =>
      { s with mgmt := { s.mgmt with phase := .processing, request := some (requestOf f (.owner c)) } }
    | .inl st =>
      { s with mgmt := { s.mgmt with phase := .processing,
                                     request := some (requestOf f (.answered false)) } }.refuse st
  | _ => { s with mgmt := { s.mgmt with discarded := satSucc s.mgmt.discarded } }

/-- STATUS (R184). -/
def execStatus (s : State) : Host.Outcome State Fault Refusal :=
  .next <| s.ownerStep .status fun _ s =>
    let r := s.mgmt.status
    { s with mgmt := { s.mgmt with status := .empty } }.respond .ok
      ([r.code] ++ wordBytes 2 r.arg1 ++ wordBytes 2 r.arg2 ++ [r.later])

/-- The ten link counters in the order of R170. -/
def LinkCounters.toList (c : LinkCounters) : List (BitVec 32) :=
  [c.portAFrames, c.portABad, c.portBFrames, c.portBBad, c.malformed, c.marked, c.mreqsTaken, c.responsesSent,
    c.overrunB, c.overrunA]

/-- The result of IDENTIFY (R185, section 10.2): 63 bytes. -/
def State.identifyResult (s : State) : List Byte :=
  wordBytes 2 Config.vendorCode ++ wordBytes 2 Config.partCode ++ [Config.revision, s.link.node.setWidth 8]
    ++ Config.capacities ++ wordBytes 4 s.mgmt.discarded ++ (s.link.counters.toList.map (wordBytes 4)).flatten
    ++ stampBytes s.time

/-- IDENTIFY (R185). -/
def execIdentify (s : State) : Host.Outcome State Fault Refusal :=
  .next <| s.ownerStep .identify fun _ s => s.respond .ok s.identifyResult

/-- RESTART (R186): answered ACCEPTED; the placing of the response is its acceptance (R187). -/
def execRestart (s : State) : Host.Outcome State Fault Refusal :=
  .next <| s.ownerStep .restart fun _ s => s.respondWith .accepted 0 [] true

/-- RESTART_POINT (R187, R188): RESTARTING with the Store Port idle. -/
def execRestartPoint (s : State) : Host.Outcome State Fault Refusal :=
  .next <| if s.mgmt.phase = .restarting ∧ s.port.busy = none then s.restartPoint else s

/-- RESPONSE_HELD_PLACED (R178): the response place is empty again and takes the response held. -/
def execResponseHeldPlaced (s : State) : Host.Outcome State Fault Refusal :=
  .next <|
    match s.mgmt.held, s.link.response, s.mgmt.request with
    | some f, none, some q => s.placeResponse f (q.stage == .answered true)
    | _, _, _ => s

end Sys2Proof.Machine
end

