-- ==== Sys2Proof/Machine/Capture.lean ====
section
/-!
DEFINITION. The Capture Engine (chapter 3): allocation, preemption, staging, writing, the end of a
capture, gaps, and the Index Unit's report.
-/

namespace Sys2Proof.Machine

/-! ### What a slot sees of its stream -/

/-- The newest sample number of a stream, -1 when it has none (R6). -/
def State.newest (s : State) (i : StreamIx) : Int :=
  match s.stream i with
  | some e => (e.next : Int) - 1
  | none => -1

/-- The ring length of a stream. -/
def State.ringLength (s : State) (i : StreamIx) : Nat :=
  match s.stream i with
  | some e => e.length
  | none => 0

/-- The cell of sample `n` of an entry: base + (n mod length) (R6). -/
def StreamEntry.cell (e : StreamEntry) (n : Nat) : Nat := e.base + n % e.length

/-- `k` samples of an entry from sample `n` on, read from sample memory (R6, R59). -/
def ringSamples (m : List (Nat × Sample)) (e : StreamEntry) (n : Nat) : (k : Nat) → List Sample
  | 0 => []
  | k + 1 => Memory.get Config.unwrittenCell m (e.cell n) :: ringSamples m e (n + 1) k

/-- The samples that a slot copies from its ring (R59). -/
def State.ringRun (s : State) (i : StreamIx) (n k : Nat) : List Sample :=
  match s.stream i with
  | some e => ringSamples s.samples e n k
  | none => List.replicate k Config.unwrittenCell

/-- The read position, present in COLLECTING and DRAINING (section 3.1). -/
def Capture.readPosition (c : Capture) : Option Nat :=
  match c.phase with
  | .collecting rp _ => some rp
  | .draining rp _ => some rp
  | .committing _ => none

/-- The read position of a slot that counts toward the hold mark: COLLECTING, or DRAINING with its read
position not beyond its end sample (R2). -/
def Capture.holds (c : Capture) : Option Nat :=
  match c.phase with
  | .collecting rp _ => some rp
  | .draining rp _ => if (rp : Int) ≤ c.endSample then some rp else none
  | .committing _ => none

/-- The capture of slot `k`, if it is of stream `i`. -/
def State.captureOn (s : State) (i : StreamIx) (k : SlotIx) : Option Capture :=
  (s.slot k).capture.filter (·.request.stream == i)

/-- The hold mark of a stream: the lowest read position of the slots that count (R2). -/
def State.holdMark (s : State) (i : StreamIx) : Option Nat :=
  ((ascending 8).filterMap fun k => (s.captureOn i k).bind Capture.holds).min?

/-- The total of a capture whose end is decided: e - first sample + 1 (section 3.5). -/
def Capture.total (c : Capture) : Nat := (c.endSample - c.first + 1).toNat

/-! ### Staging and writing (R59 to R61, R66) -/

/-- How many samples the staging rule fills a FREE buffer with now, 0 for none (R59). -/
def Capture.fillCount (c : Capture) (newest : Int) : Nat :=
  match c.phase with
  | .collecting rp _ => if Config.blockSamples ≤ min c.endSample newest - rp + 1 then Config.blockSamples else 0
  | .draining rp _ => min Config.blockSamples (c.endSample - rp + 1).toNat
  | .committing _ => 0

/-- The slot has a FREE staging buffer. -/
def Slot.hasFree (x : Slot) : Bool := x.buffer0 == .free || x.buffer1 == .free

/-- The FREE buffer becomes FILLED, buffer 0 first (R59). -/
def Slot.fill (x : Slot) (d : Staged) : Slot :=
  if x.buffer0 = .free then { x with buffer0 := .filled d }
  else if x.buffer1 = .free then { x with buffer1 := .filled d }
  else x

/-- A capture after `n` samples are staged into block `b`: the read position advances, the block joins
the list, the remaining reservation falls by 1 (R59). -/
def Capture.staged (c : Capture) (n b : Nat) : Capture :=
  { c with
    phase := match c.phase with
      | .collecting rp t => .collecting (rp + n) t
      | .draining rp e => .draining (rp + n) e
      | .committing e => .committing e
    blocks := c.blocks ++ [b]
    remaining := c.remaining - 1 }

/-- One fill of a staging buffer, if the staging rule allows it (R59). With no remaining reservation or no free block
nothing is staged (log 22). -/
def State.fillOnce (k : SlotIx) (s : State) : State :=
  match (s.slot k).capture with
  | none => s
  | some c =>
    let n := c.fillCount (s.newest c.request.stream)
    if n = 0 ∨ c.remaining = 0 ∨ (s.slot k).hasFree = false then s
    else
      match s.store.takeReserved with
      | none => s
      | some (b, m) =>
        let d : Staged := ⟨s.ringRun c.request.stream (c.readPosition.getD 0) n, b, c.blocks.length⟩
        { s with store := m }.setSlot k { (s.slot k).fill d with capture := some (c.staged n b) }

/-- The data of a FILLED buffer. -/
def Buffer.filled? : Buffer → Option Staged
  | .filled d => some d
  | _ => none

/-- The FILLED buffer with the lowest position (R60). -/
def Slot.lowestFilled (x : Slot) : Option Staged :=
  match x.buffer0.filled?, x.buffer1.filled? with
  | some d0, some d1 => if d0.position ≤ d1.position then some d0 else some d1
  | some d0, none => some d0
  | none, d1 => d1

/-- Neither buffer is WRITING or FILLED (R66). -/
def Slot.buffersFree (x : Slot) : Bool := x.buffer0 == .free && x.buffer1 == .free

/-- The gap entries that the head lists: those with an offset below the total (R66). -/
def Capture.listedGaps (c : Capture) : List GapEntry := c.gaps.filter (·.offset < c.total)

/-- The head block contents of a capture whose end is decided with a cause (R66). -/
def Capture.headInfo (c : Capture) (cause : EndCause) (node stream : Byte) : HeadInfo :=
  { recording := BitVec.ofNat 8 (recordingNumber c.request.recording),
    rule := BitVec.ofNat 8 c.request.rule.val, priority := BitVec.ofNat 8 c.request.priority,
    node := node, stream := stream, stamp := c.request.stamp,
    preRequested := c.request.pre, preActual := c.preActual, postActual := c.total - c.preActual,
    total := c.total, cause := cause, short := c.short, gapped := !c.listedGaps.isEmpty,
    gapOverflow := c.gapOverflow, gaps := c.listedGaps, blocks := c.blocks }

/-- The node and stream number of the key of a stream. -/
def State.streamKey (s : State) (i : StreamIx) : Byte × Byte :=
  match s.stream i with
  | some e => (e.node, e.stream)
  | none => (0, 0)

/-- The write that a slot has to present: with no request outstanding, that of its lowest FILLED buffer (R60), or,
DRAINING with everything staged and written, its head write (R66). -/
def State.ownWrite (k : SlotIx) (s : State) : Option StoreOp :=
  if s.outstanding (.slot k) then none
  else
    match (s.slot k).capture with
    | none => none
    | some c =>
      match (s.slot k).lowestFilled with
      | some d => some (.write d.block (dataBlock c.head d.position d.samples))
      | none =>
        match c.phase with
        | .draining rp cause =>
          if c.endSample < rp ∧ (s.slot k).buffersFree = true then
            let key := s.streamKey c.request.stream
            some (.write c.head (headBlock (c.headInfo cause key.1 key.2)))
          else none
        | _ => none

/-- A slot presents the write that it has to present, and the arbiter tests (R60, R66, R118). -/
def State.presentSlot (k : SlotIx) (s : State) : State :=
  match s.ownWrite k with
  | none => s
  | some op => s.present (.slot k) op

/-! ### The checks of a slot (R62, R64, R68) -/

/-- The end check of a COLLECTING slot (R64). -/
def State.endCheck (k : SlotIx) (s : State) : State :=
  match (s.slot k).capture with
  | some c =>
    match c.phase with
    | .collecting rp _ =>
      if c.endSample ≤ s.newest c.request.stream then
        s.setCapture k (some { c with phase := .draining rp .complete })
      else s
    | _ => s
  | none => s

/-- End check and staging check (R62). -/
def State.slotStages (k : SlotIx) (s : State) : State := s |>.endCheck k |>.fillOnce k |>.fillOnce k

/-- End check, staging check and presentation (R62). -/
def State.slotChecks (k : SlotIx) (s : State) : State := (s.slotStages k).presentSlot k

/-- A capture whose end is decided as LAG: end sample rp - 1 (R67). -/
def Capture.lagged (c : Capture) : Option Capture :=
  match c.phase with
  | .collecting rp _ => some { c with phase := .draining rp .lag, endSample := (rp : Int) - 1 }
  | .draining rp _ =>
    if (rp : Int) ≤ c.endSample then some { c with phase := .draining rp .lag, endSample := (rp : Int) - 1 }
    else none
  | .committing _ => none

/-- The LAG ending of a slot: COLLECTING, or DRAINING with its read position not beyond its end; the
LAG condition is raised and the slot makes its checks (R62, R67). -/
def State.endLag (k : SlotIx) (s : State) : State :=
  match (s.slot k).capture with
  | none => s
  | some c =>
    match c.lagged with
    | none => s
    | some c' => (s.setCapture k (some c')).report (reportOf .lag k c.request) |>.slotChecks k

/-- The staging exhaustion test: a COLLECTING slot with no FREE buffer whose ring reaches its read
position within the next 120 writes ends LAG (R68). -/
def State.exhaustionTest (k : SlotIx) (s : State) : State :=
  match (s.slot k).capture with
  | some c =>
    match c.phase with
    | .collecting rp _ =>
      if (s.slot k).hasFree = false ∧
          (rp : Int) + s.ringLength c.request.stream - Config.blockSamples ≤ s.newest c.request.stream then
        s.endLag k
      else s
    | _ => s
  | none => s

/-- The checks of a slot at an advance of its stream's newest sample (R62, R68). -/
def State.advanceChecks (k : SlotIx) (s : State) : State := s |>.slotChecks k |>.exhaustionTest k

/-- An ending at min(e, newest) of a COLLECTING slot: STALLED (R65) or CUT (R72). -/
def State.endEarly (cause : EndCause) (k : SlotIx) (s : State) : State :=
  match (s.slot k).capture with
  | some c =>
    match c.phase with
    | .collecting rp _ =>
      s.setCapture k (some { c with phase := .draining rp cause,
                                    endSample := min c.endSample (s.newest c.request.stream) }) |>.slotChecks k
    | _ => s
  | none => s

/-- Each slot with a capture of stream `i`, in ascending slot number (log 4). -/
def State.forSlotsOf (i : StreamIx) (f : SlotIx → State → State) (s : State) : State :=
  (ascending 8).foldl (fun s k => if (s.captureOn i k).isSome then f k s else s) s

/-! ### Signals to slots -/

/-- The silence timer as loaded with a limit: absent for limit 0 (R54, R65). -/
def loadTimer (limit : Nat) : Option Nat := if limit = 0 then none else some limit

/-- An accepted frame of the stream reloads the silence timer of a COLLECTING slot (R12, R65). -/
def State.reloadTimer (k : SlotIx) (s : State) : State :=
  match (s.slot k).capture with
  | some c =>
    match c.phase with
    | .collecting rp _ => s.setCapture k (some { c with phase := .collecting rp (loadTimer c.request.silence) })
    | _ => s
  | none => s

/-- A tick at the silence timer of a COLLECTING slot: it falls by 1, and at 0 the capture ends STALLED
(R65). -/
def State.tickSlot (k : SlotIx) (s : State) : State :=
  match (s.slot k).capture with
  | some c =>
    match c.phase with
    | .collecting rp (some n) =>
      if n ≤ 1 then s.endEarly .stalled k
      else s.setCapture k (some { c with phase := .collecting rp (some (n - 1)) })
    | _ => s
  | none => s

/-- A gap signal of `d` missing frames before sample `g` at a COLLECTING slot: a gap entry or
GAP-OVERFLOW, and the GAP condition (R71). -/
def State.gapSignal (d g : Nat) (k : SlotIx) (s : State) : State :=
  match (s.slot k).capture with
  | some c =>
    match c.phase with
    | .collecting _ _ =>
      let c' :=
        if c.gaps.length < 4 then { c with gaps := c.gaps ++ [⟨g - c.first, d⟩], gapped := true }
        else { c with gapOverflow := true }
      (s.setCapture k (some c')).report (reportOf .gap k c.request)
    | _ => s
  | none => s

/-- The overtake signal of the write that takes sample `leaving` out of the ring, at a slot that counts
toward the hold mark with its read position at or below it (R19, R67). -/
def State.overtake (leaving : Nat) (k : SlotIx) (s : State) : State :=
  match (s.slot k).capture.bind Capture.holds with
  | some rp => if rp ≤ leaving then s.endLag k else s
  | none => s

/-! ### Allocation (R51 to R58) -/

/-- The reservation of a request: ceil((pre + post) / 120) + 1 blocks (R53). -/
def CaptureRequest.blocks (q : CaptureRequest) : Nat := ceilDiv (q.pre + q.post) Config.blockSamples + 1

/-- The block of a buffer whose write is in progress for the slot's own capture. -/
def Buffer.ownWriting : Buffer → Option Nat
  | .writing d false => some d.block
  | _ => none

/-- The blocks of the block list whose write is in progress (R57). -/
def Slot.inProgress (x : Slot) : List Nat := x.buffer0.ownWriting.toList ++ x.buffer1.ownWriting.toList

/-- The blocks that abandonment frees at once: the head, and the listed blocks except one whose write is
in progress (R57). -/
def Slot.freedAtOnce (x : Slot) (c : Capture) : List Nat :=
  c.head :: c.blocks.filter fun b => !(x.inProgress.contains b)

/-- The gain of abandoning an occupant: its remaining reservation and the blocks freed at once (R53). -/
def Slot.gain (x : Slot) : Nat :=
  match x.capture with
  | none => 0
  | some c => c.remaining + (x.freedAtOnce c).length

/-- Test 4: the slot is EMPTY, or its occupant may be preempted (R51, R52). -/
def Slot.mayTake (x : Slot) (level : Nat) (q : CaptureRequest) : Bool :=
  match x.capture with
  | none => true
  | some c =>
    match c.phase with
    | .collecting _ _ => c.request.priority < q.priority && level ≤ q.priority
    | _ => false

/-- A buffer of an abandoned capture: FILLED becomes FREE, WRITING stays and is orphaned (R57). -/
def Buffer.abandoned : Buffer → Buffer
  | .free => .free
  | .filled _ => .free
  | .writing d _ => .writing d true

/-- Cut reported for a rule: counted if the rule is loaded (R46). -/
def State.countCut (s : State) (i : RuleIx) : State := s.modifyRule i fun r => { r with cut := satSucc r.cut }

/-- Abandonment of the occupant of a slot by preemption (R57). -/
def State.abandon (k : SlotIx) (s : State) : State :=
  let x := s.slot k
  match x.capture with
  | none => s
  | some c =>
    let s := s.withdraw (.slot k)
    let s := s.setSlot k ⟨none, x.buffer0.abandoned, x.buffer1.abandoned⟩
    let s := s.modifyStore fun m => (m.freeBlocks (x.freedAtOnce c)).returnReserved c.remaining
    s.countCut c.request.rule

/-- Pre actual: the pre-trigger samples that the ring still holds (R55). -/
def preActual (pre trigger length : Nat) : Nat := min pre (trigger - (trigger + 1 - length))

/-- The capture that an allocation puts in its slot (R54, R55). -/
def newCapture (q : CaptureRequest) (length head : Nat) : Capture :=
  let p := preActual q.pre q.trigger length
  { request := q, phase := .collecting (q.trigger - p) (loadTimer q.silence), preActual := p,
    first := q.trigger - p, endSample := (q.trigger : Int) + q.post - 1, head := head, blocks := [],
    remaining := q.blocks - 1, gaps := [], short := decide (p < q.pre), gapped := false, gapOverflow := false }

/-- The allocation of an EMPTY slot at the pointer (R54): reserve, take the head block, store the
capture, advance the pointer, raise SHORT if the pre window is short (R55), and make the checks. -/
def State.allocate (q : CaptureRequest) (s : State) : State :=
  let k := s.pointer
  match (s.store.reserve q.blocks).takeReserved with
  | none => s
  | some (b, m) =>
    let c := newCapture q (s.ringLength q.stream) b
    let s := ({ s with store := m, pointer := Fin.ofNat 8 (k.val + 1) }).setCapture k (some c)
    let s := if c.short then s.report (reportOf .short k q) else s
    s.advanceChecks k

/-- The condition that a capture request meets at its tests in order, if one fails (R51): `some none` is
the refusal of test 1, which raises nothing; `none` means all five pass. -/
def State.allocationTests (s : State) (q : CaptureRequest) : Option (Option Condition) :=
  let x := s.slot s.pointer
  if s.cond.state = .suspended then some none
  else if ¬(s.store.state = .ready ∧ (s.store.recording q.recording).isDefined = true) then
    some (some .unavailable)
  else if s.protect then some (some .protect)
  else if x.mayTake s.cond.level q = false then some (some .overflow)
  else if s.store.free + x.gain < s.store.reserved + q.blocks then some (some .full)
  else none

/-- A capture request is answered (R45, R51): `true` for taken, `false` for missed. -/
def State.captureRequest (q : CaptureRequest) (s : State) : State × Bool :=
  match s.allocationTests q with
  | some none => (s, false)
  | some (some c) => (s.report (reportOf c s.pointer q), false)
  | none => ((s.abandon s.pointer).allocate q, true)

/-! ### Block writes complete, and the Index Unit reports (R58, R60, R69, R70) -/

/-- A WRITING buffer becomes FREE at the completion of its write (R60). -/
def Buffer.written : Buffer → Buffer
  | .writing _ _ => .free
  | b => b

/-- The block of an orphaned write (R58). -/
def Buffer.orphan? : Buffer → Option Nat
  | .writing d true => some d.block
  | _ => none

/-- A buffer of the slot is WRITING: the slot's operation in progress is a data block write. -/
def Slot.writingData (x : Slot) : Bool :=
  match x.buffer0, x.buffer1 with
  | .writing _ _, _ => true
  | _, .writing _ _ => true
  | _, _ => false

/-- A slot presents the write that it has to present; the arbiter's test is the caller's. -/
def State.askOwnWrite (k : SlotIx) (s : State) : State :=
  match s.ownWrite k with
  | none => s
  | some op => s.ask (.slot k) op

/-- A slot's data block write completes: the buffer becomes FREE, the block of an orphaned write is freed, and the slot
makes its checks and presents its next write (R58, R60, R62). -/
def State.slotDataWritten (k : SlotIx) (s : State) : State :=
  let x := s.slot k
  let orphans := x.buffer0.orphan?.toList ++ x.buffer1.orphan?.toList
  (s.modifyStore fun m => m.freeBlocks orphans).setSlot k
      { x with buffer0 := x.buffer0.written, buffer1 := x.buffer1.written }
    |>.slotStages k |>.askOwnWrite k

/-- A slot's head write completes: the slot becomes COMMITTING and places its COMMIT job (R69). -/
def State.slotHeadWritten (k : SlotIx) (s : State) : State :=
  match (s.slot k).capture with
  | some c =>
    match c.phase with
    | .draining _ cause =>
      let s := s.setCapture k (some { c with phase := .committing cause })
      { s with index := { s.index with
          queue := s.index.queue ++ [.commit k c.request.recording c.head c.total] } }
    | _ => s
  | none => s

/-- The Index Unit reports a COMMIT job committed: the unused reservation is returned and the slot
becomes EMPTY (R70). -/
def State.slotCommitted (k : SlotIx) (s : State) : State :=
  match (s.slot k).capture with
  | some c => (s.modifyStore (·.returnReserved c.remaining)).setCapture k none
  | none => s

/-- The Index Unit ends a COMMIT job in LIMIT: the condition is raised, the slot's blocks are freed,
its reservation returned and it becomes EMPTY (R70, R125). -/
def State.slotLimited (k : SlotIx) (s : State) : State :=
  match (s.slot k).capture with
  | some c =>
    let s := s.report (reportOf .limit k c.request)
    (s.modifyStore fun m => (m.freeBlocks (c.head :: c.blocks)).returnReserved c.remaining).setCapture k none
  | none => s

end Sys2Proof.Machine
end

