-- ==== Sys2Proof/Machine/Release.lean ====
section
/-!
DEFINITION. Pins, the withdrawn mark, parking, and the Release Unit (R130 to R133, R151, R152).
-/

namespace Sys2Proof.Machine

/-- The head block that a port pins (R151). -/
def ReadPort.pin? : ReadPort → Option Nat
  | .closed => none
  | .opening o => o.found.map (·.1)
  | .opened r => some r.head

/-- A head block is pinned: at least one port pins it (R151). -/
def State.isPinned (s : State) (head : Nat) : Bool := (ascending 6).any fun p => (s.readPort p).pin? == some head

/-- A port with its withdrawn mark set (R152). -/
def ReadPort.withdraw : ReadPort → ReadPort
  | .closed => .closed
  | .opening o => .opening { o with withdrawn := true }
  | .opened r => .opened { r with withdrawn := true }

/-- Every port that pins a head is marked withdrawn (R133, R152). -/
def State.markWithdrawn (s : State) (head : Nat) : State :=
  { s with ports := s.ports.map fun p => if p.pin? = some head then p.withdraw else p }

/-- A release job enters the parked list, and the ports that pin its head are marked (R133). -/
def State.park (s : State) (j : ReleaseJob) : State :=
  { s with release := { s.release with parked := s.release.parked ++ [j] } }.markWithdrawn j.head

/-- A release job enters the queue at its tail. -/
def State.enqueueRelease (s : State) (j : ReleaseJob) : State :=
  { s with release := { s.release with queue := s.release.queue ++ [j] } }

/-- The Index Unit places a release job in a place that it holds: parked when its head is pinned, otherwise
at the tail of the queue (step 4 of R126). -/
def State.placeHeld (s : State) (j : ReleaseJob) : State :=
  let s := { s with index := { s.index with held := s.index.held - 1 } }
  if s.isPinned j.head then s.park j else s.enqueueRelease j

/-- The last pin on a head has been removed: its parked job goes to the tail of the queue (R133, R151). While
another port pins the head, nothing moves. -/
def State.pinRemoved (s : State) (head : Nat) : State :=
  if s.isPinned head then s
  else
    { s with release := { s.release with
        parked := s.release.parked.filter (·.head != head),
        queue := s.release.queue ++ s.release.parked.filter (·.head == head) } }

/-- A readout port becomes CLOSED and its pin is removed (R144, R151). -/
def State.closePort (s : State) (p : PortIx) : State :=
  match (s.readPort p).pin? with
  | some head => (s.setReadPort p .closed).pinRemoved head
  | none => s.setReadPort p .closed

/-- RELEASE_JOB_TAKE (R131): the job at the head of the queue is parked if its head is pinned, otherwise
its head block is read. -/
def execReleaseJobTake (s : State) : Host.Outcome State Fault Refusal :=
  .next <|
    match s.release.reading, s.release.queue with
    | false, j :: js =>
      if s.isPinned j.head then { s with release := { s.release with queue := js } }.park j |>.arbitrate
      else { s with release := { s.release with reading := true } }.present .release (.read j.head)
    | _, _ => s

/-- What the Release Unit does with the contents of a head that is not pinned (R131, R132). -/
def StoreManager.releaseHead (m : StoreManager) (j : ReleaseJob) (contents : List Byte) : StoreManager :=
  match readHead j.recording contents with
  | some h => (m.freeBlocks h.blocks).freeBlock j.head
  | none => (m.freeBlock j.head).countDamage

/-- A head read of the Release Unit has completed (R131). While RESTARTING it is the operation that the restart
waits for: the contents are discarded and no free claims are made (R134). -/
def State.releaseRead (j : ReleaseJob) (js : List ReleaseJob) (contents : List Byte) (s : State) : State :=
  let s := { s with release := { s.release with queue := js, reading := false } }
  if s.mgmt.phase = .restarting then s
  else if s.isPinned j.head then s.park j
  else s.modifyStore fun m => m.releaseHead j contents

/-- RELEASE_HEAD_READ_COMPLETE (R131, R132, R134). -/
def execReleaseHeadReadComplete (s : State) : Host.Outcome State Fault Refusal :=
  .next <|
    match s.release.reading, s.release.queue with
    | true, j :: js => s.onCompletion .release fun op s => s.releaseRead j js (op.contents s.array)
    | _, _ => s

end Sys2Proof.Machine
end

