-- ==== Sys2Proof/Machine/IndexUnit.lean ====
section
/-!
DEFINITION. The Index Unit (section 6.2): its three jobs, taken one at a time, each a read of one index block,
a decision, a hold of release places and a write.
-/

namespace Sys2Proof.Machine

/-! ### The block of a job -/

/-- The recording of a job. -/
def IndexJob.recording : IndexJob → RecIx
  | .commit _ r _ _ => r
  | .voidSet r _ _ _ => r
  | .repair r _ _ => r

/-- The place of record number `n` in a recording of max records `m` (R94). -/
def placeOf (m n : Nat) : Nat := (n - 1) % m

/-- The index block position that a job works on; `number` is the number that a COMMIT job assigns (R122,
R123). -/
def IndexJob.position (j : IndexJob) (m number : Nat) : Nat :=
  match j with
  | .commit _ _ _ _ => placeOf m number / Config.indexEntries
  | .voidSet _ p _ _ => p
  | .repair _ p _ => p

/-- The block at a position of a recording's list, as the directory cache holds it (R122). -/
def StoreManager.indexBlock (m : StoreManager) (r : RecIx) (position : Nat) : Nat :=
  ((m.entry r).elim [] (·.blocks)).getD position 0

/-- The mode of a recording, as the directory cache holds it. -/
def StoreManager.isFill (m : StoreManager) (r : RecIx) : Bool := (m.entry r).elim false (·.mode == .fill)

/-! ### How a job finishes -/

/-- The job in progress leaves the queue, holding no places any more, and the unit is ready for the next
(R121, R130). -/
def State.jobFinished (s : State) : State := { s with index := ⟨s.index.queue.tail, .idle, 0⟩ }

/-- The Index Unit reports a VOID-SET job to the ERASE in progress (R136). -/
def State.voidSetReported (count : Nat) (s : State) : State :=
  match s.maint with
  | some (.erase r a b rest total) => s.eraseNext r a b rest (total + count)
  | _ => s

/-- A job ends with nothing written because its block is not valid, or because it has nothing to change: a
COMMIT job in LIMIT, a VOID-SET with count 0, a REPAIR done (R122, R125, R127, R128). -/
def IndexJob.endsUnwritten (j : IndexJob) (s : State) : State :=
  match j with
  | .commit k _ _ _ => s.jobFinished.slotLimited k
  | .voidSet _ _ _ _ => s.jobFinished.voidSetReported 0
  | .repair _ _ _ => s.jobFinished.repairReported

/-! ### Taking a job (R121, R123) -/

/-- INDEX_JOB_TAKE: the job at the head of the queue is taken. A COMMIT job assigns newest + 1, or ends in
LIMIT without a read when no number is left (R123, R125). -/
def execIndexJobTake (s : State) : Host.Outcome State Fault Refusal :=
  .next <|
    match s.index.phase, s.index.queue with
    | .idle, j :: _ =>
      let newest := (s.store.recording j.recording).newest
      match j with
      | .commit _ _ _ _ =>
        if newest = Config.recordMax then (j.endsUnwritten s).arbitrate
        else
          { s with index := { s.index with phase := .reading (newest + 1) } }.present .index
            (.read (s.store.indexBlock j.recording (j.position (s.store.maxRecords j.recording) (newest + 1))))
      | _ =>
        { s with index := { s.index with phase := .reading 0 } }.present .index
          (.read (s.store.indexBlock j.recording (j.position 0 0)))
    | _, _ => s

/-! ### Deciding (R122 to R128) -/

/-- An entry as VOID, keeping its number, head and total (R127, R128). -/
def IndexEntry.voided : IndexEntry → IndexEntry
  | .present n h t => .void n h t
  | e => e

/-- The head of an entry that a VOID-SET of `a` to `b` selects (R127). -/
def IndexEntry.selected (a b : Nat) : IndexEntry → Option Nat
  | .present n h _ => if a ≤ n ∧ n ≤ b then some h else none
  | _ => none

/-- What a job makes of its 48 entries: the entries to write and the heads of the records that leave, or
`none` when it writes nothing (R123 to R128). -/
def IndexJob.decide (j : IndexJob) (fill : Bool) (m number : Nat) (es : List IndexEntry) :
    Option (List IndexEntry × List Nat) :=
  match j with
  | .commit _ _ head total =>
    let i := placeOf m number % Config.indexEntries
    match es.getD i .unused with
    | .present _ h _ => if fill then none else some (es.set i (.present number head total), [h])
    | _ => some (es.set i (.present number head total), [])
  | .voidSet _ _ a b =>
    let heads := es.filterMap (·.selected a b)
    if heads = [] then none
    else some (es.map fun e => if (e.selected a b).isSome then e.voided else e, heads)
  | .repair _ _ i =>
    match es.getD i .unused with
    | .present n h t => some (es.set i (.void n h t), [])
    | _ => none

/-- The job holds its places of the release queue and presents its write, or waits for room (R122, R130). -/
def State.holdAndWrite (number : Nat) (w : IndexWrite) (s : State) : State :=
  if w.sends.length ≤ s.releaseRoom then
    { s with index := { s.index with phase := .writing number w, held := w.sends.length } }.present .index
      (.write w.block w.contents)
  else { s with index := { s.index with phase := .waiting number w } }

/-- The index block read of the job has completed (R122). -/
def indexRead (j : IndexJob) (number : Nat) (contents : List Byte) (s : State) : State :=
  let r := j.recording
  let m := s.store.maxRecords r
  let position := j.position m number
  match readIndex r position m contents with
  | none => j.endsUnwritten (s.modifyStore (·.countDamage))
  | some es =>
    match j.decide (s.store.isFill r) m number es with
    | none => j.endsUnwritten s
    | some (es, sends) =>
      s.holdAndWrite number ⟨s.store.indexBlock r position, Machine.indexBlock r position m es, sends⟩

/-- INDEX_READ_COMPLETE (R122 to R128). -/
def execIndexReadComplete (s : State) : Host.Outcome State Fault Refusal :=
  .next <|
    match s.index.phase, s.index.queue with
    | .reading number, j :: _ => s.onCompletion .index fun op s => indexRead j number (op.contents s.array) s
    | _, _ => s

/-- INDEX_RELEASE_HOLD: a waiting job holds its places once the room is enough, and presents its write (R122,
R130). -/
def execIndexReleaseHold (s : State) : Host.Outcome State Fault Refusal :=
  .next <|
    match s.index.phase with
    | .waiting number w => s.holdAndWrite number w
    | _ => s

/-! ### The commit point (R122, R124, R126, R127, R128) -/

/-- Change the newest number and the present count of a recording (R101). -/
def StoreManager.count (m : StoreManager) (r : RecIx) (newest present : Nat) : StoreManager :=
  m.setRecording r ((m.recording r).withCounts newest present)

/-- The release jobs of the records that leave are placed in the places held, in entry order (R126, R127). -/
def State.placeAllHeld (r : RecIx) (heads : List Nat) (s : State) : State :=
  heads.foldl (fun s h => s.placeHeld ⟨h, r⟩) s

/-- The index block write of the job has completed: its completion effects (R124, R126, R127, R128). -/
def indexWrote (j : IndexJob) (number : Nat) (w : IndexWrite) (s : State) : State :=
  let x := s.store.recording j.recording
  match j with
  | .commit k r _ _ =>
    (s.modifyStore fun m => m.count r number (if w.sends = [] then x.present + 1 else x.present))
      |>.placeAllHeld r w.sends |>.jobFinished |>.slotCommitted k
  | .voidSet r _ _ _ =>
    (s.modifyStore fun m => m.count r x.newest (x.present - w.sends.length))
      |>.placeAllHeld r w.sends |>.jobFinished |>.voidSetReported w.sends.length
  | .repair _ _ _ => s.jobFinished.repairReported

/-- INDEX_WRITE_COMPLETE (R122). -/
def execIndexWriteComplete (s : State) : Host.Outcome State Fault Refusal :=
  .next <|
    match s.index.phase, s.index.queue with
    | .writing number w, j :: _ => s.onCompletion .index fun _ s => indexWrote j number w s
    | _, _ => s

end Sys2Proof.Machine
end

