-- ==== Sys2Proof/Machine/Readout.lean ====
section
/-!
DEFINITION. The readout ports (chapter 7): OPEN, POSITION, READ, INFO, CLOSE and the completions of their
reads.
-/

namespace Sys2Proof.Machine

/-! ### Answers of a port -/

/-- The port word: withdrawn mark in bit 15 and position in bits 0 to 13 of a port that is OPEN, otherwise 0
(R190). -/
def ReadPort.word : ReadPort → BitVec 16
  | .opened r => BitVec.ofNat 16 ((if r.withdrawn then 2 ^ 15 else 0) + r.position % 2 ^ 14)
  | _ => 0

/-- An answer of a readout port, with its port word as it stands when the answer is built (R147, R190). -/
def State.portAnswer (s : State) (p : PortIx) (st : Status) (result : List Byte) : State :=
  s.respondWith st (s.readPort p).word result false

/-- The request in process waits for the store reads of its command (R181). -/
def State.awaitReads (s : State) (c : Command) : State :=
  { s with mgmt := { s.mgmt with request := s.mgmt.request.map fun q => { q with stage := .reading c } } }

/-- The taking of a readout command by the port that the request names (R147). -/
def State.portStep (s : State) (c : Command) (f : Request → PortIx → State → State) : State :=
  s.ownerStep c fun q s =>
    match q.readoutPort with
    | some p => f q p s
    | none => s.refuse .badPort

/-- A command that needs an OPEN port: PORT NOT OPEN otherwise (R147). -/
def State.onOpenPort (s : State) (p : PortIx) (f : OpenRecord → State) : State :=
  match s.readPort p with
  | .opened r => f r
  | _ => s.refuse .portNotOpen

/-! ### OPEN (R148 to R150) -/

/-- The refusal of checks 2 to 4 of OPEN, if one fails (R148). -/
def State.openRefusal (s : State) (r : RecIx) (n place : Nat) : Option Status :=
  let x := s.store.recording r
  if s.store.state ≠ .ready then some .notReady
  else if x.isFree ∨ n < s.store.windowStart r ∨ x.newest < n then some .recordNotPresent
  else if x.isDamaged ∧ ((s.store.entry r).elim [] (·.held)).getD (place / Config.indexEntries) false = false then
    some .recordNotPresent
  else none

/-- OPEN (R147, R148). -/
def execPortOpen (s : State) : Host.Outcome State Fault Refusal :=
  .next <| s.portStep .portOpen fun q p s =>
    match s.readPort p with
    | .closed =>
      let n := q.nat 1 4
      match recordingOf (q.byte 0).toNat with
      | none => s.refuse .badArgument
      | some r =>
        if n = 0 then s.refuse .badArgument
        else
          let place := placeOf (s.store.maxRecords r) n
          match s.openRefusal r n place with
          | some st => s.refuse st
          | none =>
            (s.setReadPort p (.opening ⟨r, n, place, none, false⟩)).awaitReads .portOpen
              |>.present (.port p) (.read (s.store.indexBlock r (place / Config.indexEntries)))
    | _ => s.portAnswer p .inUse []

/-- The head block and total of the entry that an OPEN finds, if it finds its record (R149). -/
def Opening.find (o : Opening) (m : Nat) (contents : List Byte) : Option (Nat × Nat) := do
  let es ← readIndex o.recording (o.place / Config.indexEntries) m contents
  match es.getD (o.place % Config.indexEntries) .unused with
  | .present n h t => if n = o.number ∧ inDataArea h = true then some (h, t) else none
  | _ => none

/-- An OPEN that finds no record: the port becomes CLOSED, and the answer is RECORD NOT PRESENT (R149, R150). -/
def State.openFailed (s : State) (p : PortIx) : State := (s.closePort p).refuse .recordNotPresent

/-- OPEN_INDEX_READ_COMPLETE (R149): the head is pinned and its read presented, or nothing is opened. -/
def execOpenIndexReadComplete (s : State) : Host.Outcome State Fault Refusal :=
  .next <|
    match s.port.busy with
    | some ⟨.port p, op⟩ =>
      match s.readPort p with
      | .opening o =>
        if o.found.isSome then s
        else
          let s := s.complete op
          (match o.find (s.store.maxRecords o.recording) (op.contents s.array) with
            | some (h, t) =>
              (s.setReadPort p (.opening { o with found := some (h, t) })).present (.port p) (.read h)
            | none => s.openFailed p).arbitrate
      | _ => s
    | _ => s

/-- The result of INFO and of OPEN (R158, section 10.2): 41 bytes. -/
def OpenRecord.infoResult (r : OpenRecord) : List Byte :=
  let h := r.info
  toBytes 1 (recordingNumber r.recording) ++ toBytes 4 r.number ++ toBytes 2 r.head
    ++ [h.rule, h.priority, h.node, h.stream] ++ stampBytes h.stamp
    ++ toBytes 2 h.preRequested ++ toBytes 2 h.preActual ++ toBytes 2 h.postActual ++ toBytes 2 h.total
    ++ [causeByte h.cause, recordFlags h.short h.gapped h.gapOverflow] ++ toBytes 1 h.gaps.length
    ++ gapBytes h.gaps ++ toBytes 1 h.blocks.length

/-- The record that an OPEN holds once its head read is good, position 0 and cache empty (R150). -/
def Opening.opened (o : Opening) (head total : Nat) (h : HeadInfo) : OpenRecord :=
  { recording := o.recording, number := o.number, place := o.place, head := head, entryTotal := total, info := h,
    position := 0, cache := none, withdrawn := o.withdrawn }

/-- The head of the record being opened, if the contents read are a valid head with the entry's total (R150). -/
def Opening.headGood (o : Opening) (total : Nat) (contents : List Byte) : Option HeadInfo :=
  (readHead o.recording contents).filter (·.total == total)

/-- OPEN_HEAD_READ_COMPLETE (R150): the port becomes OPEN and answers OK, or CLOSED. -/
def execOpenHeadReadComplete (s : State) : Host.Outcome State Fault Refusal :=
  .next <|
    match s.port.busy with
    | some ⟨.port p, op⟩ =>
      match s.readPort p with
      | .opening o =>
        match o.found with
        | none => s
        | some (head, total) =>
          let s := s.complete op
          (match o.headGood total (op.contents s.array) with
            | some h =>
              let r := o.opened head total h
              (s.setReadPort p (.opened r)).portAnswer p .ok r.infoResult
            | none => s.openFailed p).arbitrate
      | _ => s
    | _ => s

/-! ### POSITION (R154) -/

/-- POSITION (R154). -/
def execPortPosition (s : State) : Host.Outcome State Fault Refusal :=
  .next <| s.portStep .portPosition fun q p s => s.onOpenPort p fun r =>
    let offset := q.nat 0 2
    if offset ≤ r.info.total then (s.setReadPort p (.opened { r with position := offset })).portAnswer p .ok []
    else s.portAnswer p .positionPastEnd []

/-! ### READ (R155 to R157) -/

/-- The place in the block list that holds a record offset (section 7.5). -/
def blockPlace (offset : Nat) : Nat := offset / Config.blockSamples

/-- The places that a READ of `k` samples needs, in ascending order: one or two (R155). -/
def OpenRecord.placesNeeded (r : OpenRecord) (k : Nat) : List Nat :=
  let j := blockPlace r.position
  if blockPlace (r.position + k - 1) = j then [j] else [j, j + 1]

/-- The samples of a READ: from the position on, out of the blocks taken (R155). -/
def OpenRecord.samplesRead (r : OpenRecord) (taken : List CachedBlock) (k : Nat) : List Sample :=
  ((taken.flatMap (·.samples)).drop (r.position % Config.blockSamples)).take k

/-- The port after a READ answered OK: the position advanced, and the cache holding the block of the last
sample (R155, R157). -/
def OpenRecord.afterRead (r : OpenRecord) (taken : List CachedBlock) (k : Nat) : OpenRecord :=
  { r with position := r.position + k, cache := taken.getLast? }

/-- A READ goes on: a needed block that the cache holds is taken from it, any other is read at class 5, and
when none is left the READ is answered OK (R155, R181). -/
def State.readOn (p : PortIx) (r : OpenRecord) (k : Nat) (taken : List CachedBlock) : (needed : List Nat) → State → State
  | [], s =>
    ({ s with reading := none }.setReadPort p (.opened (r.afterRead taken k))).portAnswer p .ok
      ((r.samplesRead taken k).map (wordBytes 2)).flatten
  | j :: js, s =>
    match r.cache.filter (·.place == j) with
    | some b => readOn p r k (taken ++ [b]) js s
    | none =>
      ({ s with reading := some ⟨p, k, taken, j :: js⟩ }.awaitReads .portRead).present (.port p)
        (.read (r.info.blocks.getD j 0))

/-- READ (R155). -/
def execPortRead (s : State) : Host.Outcome State Fault Refusal :=
  .next <| s.portStep .portRead fun q p s => s.onOpenPort p fun r =>
    let count := (q.byte 0).toNat
    if ¬(1 ≤ count ∧ count ≤ 32) then s.portAnswer p .badArgument []
    else if r.position = r.info.total then s.portAnswer p .endOfRecord []
    else
      let k := min count (r.info.total - r.position)
      s.readOn p r k [] (r.placesNeeded k)

/-- The expected count of place `j` of a record (R156). -/
def HeadInfo.expectedCount (h : HeadInfo) (j : Nat) : Nat :=
  if j + 1 < h.blocks.length then Config.blockSamples else h.total - Config.blockSamples * (h.blocks.length - 1)

/-- The block at place `j` as read, if it passes the tests of R156. -/
def OpenRecord.blockGood (r : OpenRecord) (j : Nat) (contents : List Byte) : Option CachedBlock :=
  ((readData r.head j contents).filter (·.length == r.info.expectedCount j)).map fun vs =>
    ⟨r.info.blocks.getD j 0, j, vs⟩

/-- A data block read of a READ has completed (R156): the READ goes on, or is answered BLOCK MISMATCH with the
position unchanged and the cache empty. -/
def State.readBlockRead (x : ReadInProgress) (r : OpenRecord) (j : Nat) (js : List Nat) (contents : List Byte)
    (s : State) : State :=
  match r.blockGood j contents with
  | some b => s.readOn x.port r x.count (x.taken ++ [b]) js
  | none =>
    ({ s with reading := none }.setReadPort x.port (.opened { r with cache := none })).portAnswer x.port .blockMismatch []

/-- READ_DATA_BLOCK_COMPLETE (R156). -/
def execReadDataBlockComplete (s : State) : Host.Outcome State Fault Refusal :=
  .next <|
    match s.reading with
    | some ⟨p, k, taken, j :: js⟩ =>
      match s.readPort p with
      | .opened r =>
        s.onCompletion (.port p) fun op s => s.readBlockRead ⟨p, k, taken, j :: js⟩ r j js (op.contents s.array)
      | _ => s
    | _ => s

/-! ### INFO and CLOSE (R158, R159) -/

/-- INFO (R158). -/
def execPortInfo (s : State) : Host.Outcome State Fault Refusal :=
  .next <| s.portStep .portInfo fun _ p s => s.onOpenPort p fun r => s.portAnswer p .ok r.infoResult

/-- CLOSE (R159): answered OK with the port word as it stood before the close. -/
def execPortClose (s : State) : Host.Outcome State Fault Refusal :=
  .next <| s.portStep .portClose fun _ p s =>
    match s.readPort p with
    | .opened r => (s.closePort p).respondWith .ok (ReadPort.opened r).word [] false
    | _ => s.respond .ok []

end Sys2Proof.Machine
end

