-- ==== Sys2Proof/Machine/Rules.lean ====
section
/-!
DEFINITION. The Rule Evaluator (chapter 2): the tests, the state machines, firing, ticks and gaps, and the
seven rule commands.
-/

namespace Sys2Proof.Machine

/-! ### Tests (R31, R32) -/

/-- The distance |s - p| of a sample from the previous one, exact (R31). -/
def stepSize (v p : Sample) : Nat := (v.toInt - p.toInt).natAbs

/-- The fire condition of a threshold kind on sample `v` with previous sample `p` (R31). A scheduled kind
has none. -/
def RuleKind.fires (k : RuleKind) (v : Sample) (p : Option Sample) : Bool :=
  match k with
  | .above high _ _ => high.toInt < v.toInt
  | .below low _ _ => v.toInt < low.toInt
  | .outside high low _ _ => high.toInt < v.toInt || v.toInt < low.toInt
  | .step delta _ _ => match p with | some p => delta < stepSize v p | none => false
  | .periodic _ | .manual => false

/-- The re-arm condition of a threshold kind (R31). -/
def RuleKind.rearms (k : RuleKind) (v : Sample) (p : Option Sample) : Bool :=
  match k with
  | .above high h _ => v.toInt ≤ high.toInt - h
  | .below low h _ => low.toInt + h ≤ v.toInt
  | .outside high low h _ => low.toInt + h ≤ v.toInt && v.toInt ≤ high.toInt - h
  | .step delta h _ => match p with | some p => (stepSize v p : Int) ≤ (delta : Int) - h | none => true
  | .periodic _ | .manual => false

/-- The persistence of a threshold kind; 0 for a scheduled kind, which has none (section 2.1). -/
def RuleKind.persistence : RuleKind → Nat
  | .above _ _ n => n
  | .below _ _ n => n
  | .outside _ _ _ n => n
  | .step _ _ n => n
  | .periodic _ => 0
  | .manual => 0

/-- A rule of PERIODIC or MANUAL kind is a scheduled rule (section 2.1). -/
def RuleKind.scheduled : RuleKind → Bool
  | .periodic _ | .manual => true
  | _ => false

/-! ### States (R25, R26, R33 to R36, R38) -/

/-- The first enabled state of a kind (R25, R26). -/
def RuleKind.enabledState (k : RuleKind) : RuleState :=
  if k.scheduled then .armed else .priming k.persistence

/-- The period counter of a rule that becomes ARMED by enabling (R25, R26). -/
def RuleKind.period? : RuleKind → Option Nat
  | .periodic n => some n
  | _ => none

/-- A rule moved to its first enabled state (R26). -/
def Rule.enabled (r : Rule) : Rule := { r with state := r.kind.enabledState, periodCounter := r.kind.period? }

/-- A rule made DISABLED: its running fields become absent (R27, R38). -/
def Rule.disabled (r : Rule) : Rule := { r with state := .disabled, periodCounter := none }

/-- A rule that leaves its firing state (R38 step 4). -/
def Rule.afterFiring (r : Rule) : Rule :=
  if r.once then r.disabled
  else { r with state := if r.kind.scheduled then .armed else .tripped }

/-- What a sample does to a rule's state: the next state, or `none` when the rule fires (R33 to R36,
R40). -/
def Rule.next (r : Rule) (v : Sample) (p : Option Sample) : Option RuleState :=
  match r.state with
  | .disabled => some .disabled
  | .priming 0 => some (if r.kind.rearms v p then .armed else .tripped)
  | .priming (n + 1) => some (.priming n)
  | .armed =>
    if r.kind.fires v p then (if r.kind.persistence ≤ 1 then none else some (.pending 1)) else some .armed
  | .pending n =>
    if r.kind.fires v p then (if r.kind.persistence ≤ n + 1 then none else some (.pending (n + 1)))
    else some .armed
  | .tripped => some (if r.kind.rearms v p then .armed else .tripped)
  | .due => none

/-- The capture request of rule `i` firing on sample `t` (R44). -/
def Rule.request (r : Rule) (i : RuleIx) (target : RecIx) (t : Nat) (stamp : Stamp) : CaptureRequest :=
  { rule := i, priority := r.priority, stream := r.stream, trigger := t, stamp := stamp, pre := r.pre,
    post := r.post, silence := r.silence, recording := target }

/-- The capture request of a firing rule, and the missed count if it is answered missed (R38 step 3,
R45). -/
def State.requestFor (i : RuleIx) (r : Rule) (t : Nat) (stamp : Stamp) (s : State) : State :=
  match r.recording with
  | none => s
  | some target =>
    let (s, taken) := s.captureRequest (r.request i target t stamp)
    if taken then s else s.modifyRule i fun r => { r with missed := satSucc r.missed }

/-- Rule `i` fires on sample `t` (R38): fired is counted, the capture is requested, and the rule leaves
its firing state. The marking request is `Rule.mark`. -/
def State.fireRule (i : RuleIx) (r : Rule) (t : Nat) (stamp : Stamp) (s : State) : State :=
  s.modifyRule i (fun r => { r with fired := satSucc r.fired })
    |>.requestFor i r t stamp
    |>.modifyRule i Rule.afterFiring

/-- One evaluation: rule `i` on sample `t` of value `v` of a stream (R43). The Bool gathers the marking
request of the frame (R18, R38 step 2). -/
def evalRule (stream : StreamIx) (t : Nat) (v : Sample) (p : Option Sample) (stamp : Stamp)
    (x : State × Bool) (i : RuleIx) : State × Bool :=
  match x.1.rule i with
  | none => x
  | some r =>
    if r.stream = stream then
      match r.next v p with
      | some st => (x.1.setRule i (some { r with state := st }), x.2)
      | none => (x.1.fireRule i r t stamp, x.2 || r.mark)
    else x

/-- Every rule of the stream is evaluated on one sample, in ascending rule number (R43). -/
def evalRules (stream : StreamIx) (t : Nat) (v : Sample) (p : Option Sample) (stamp : Stamp)
    (x : State × Bool) : State × Bool :=
  (ascending 64).foldl (evalRule stream t v p stamp) x

/-! ### Gaps and ticks (R37, R39) -/

/-- A gap returns a PENDING rule to ARMED (R37). -/
def Rule.afterGap (r : Rule) : Rule :=
  match r.state with
  | .pending _ => { r with state := .armed }
  | _ => r

/-- A gap of a stream at all its rules (R37). -/
def State.gapRules (i : StreamIx) (s : State) : State :=
  (ascending 64).foldl (fun s k => s.modifyRule k fun r => if r.stream = i then r.afterGap else r) s

/-- The period counter of a rule reaches 0: an ARMED rule becomes DUE, a DUE rule counts a miss, and the
counter is loaded with the period (R39). -/
def Rule.expire (r : Rule) (period : Nat) : Rule :=
  match r.state with
  | .armed => { r with state := .due, periodCounter := some period }
  | .due => { r with missed := satSucc r.missed, periodCounter := some period }
  | _ => r

/-- One tick at a rule (R39). -/
def Rule.tick (r : Rule) : Rule :=
  match r.kind, r.periodCounter with
  | .periodic period, some n => if n ≤ 1 then r.expire period else { r with periodCounter := some (n - 1) }
  | _, _ => r

/-- One tick at every rule (R39, R174). -/
def State.tickRules (s : State) : State := (ascending 64).foldl (fun s k => s.modifyRule k Rule.tick) s

/-! ### Codes (section 10.3) -/

def RuleKind.code : RuleKind → Byte
  | .above _ _ _ => 1
  | .below _ _ _ => 2
  | .outside _ _ _ _ => 3
  | .step _ _ _ => 4
  | .periodic _ => 5
  | .manual => 6

def RuleState.code : RuleState → Byte
  | .disabled => 1
  | .priming _ => 2
  | .armed => 3
  | .pending _ => 4
  | .tripped => 5
  | .due => 6

/-! ### Rule commands (section 2.2) -/

/-- The rule number argument; outside 0 to 63 the command is refused BAD ARGUMENT (section 2.2). -/
def Request.ruleIx (q : Request) : Option RuleIx := indexOf 64 (q.byte 0).toNat

/-- The kind of a RULE LOAD with the fields the kind uses, each in its range, and low < high for OUTSIDE
(R24 checks 1 and 2, R22). Offsets are those of section 10.2. -/
def Request.ruleKind (q : Request) : Option RuleKind :=
  let high := q.word 3
  let low := q.word 5
  let delta := q.nat 7 2
  let h := q.nat 9 2
  let n := (q.byte 11).toNat
  let period := q.nat 12 2
  let threshold := h ≤ 32767 ∧ 1 ≤ n ∧ n ≤ 16
  match (q.byte 1).toNat with
  | 1 => if threshold then some (.above high h n) else none
  | 2 => if threshold then some (.below low h n) else none
  | 3 => if threshold ∧ low.toInt < high.toInt then some (.outside high low h n) else none
  | 4 => if threshold ∧ 1 ≤ delta then some (.step delta h n) else none
  | 5 => if 1 ≤ period then some (.periodic period) else none
  | 6 => some .manual
  | _ => none

/-- The rule that a RULE LOAD carries, in its first state, if its arguments pass checks 1 and 2 (R24,
R25, R190). The recording is `none` for 0. -/
def Request.loadedRule (q : Request) : Option Rule := do
  let kind ← q.ruleKind
  let stream ← indexOf 32 (q.byte 2).toNat
  let priority := (q.byte 14).toNat
  let pre := q.nat 15 2
  let post := q.nat 17 2
  let number := (q.byte 20).toNat
  let options := (q.byte 21).toNat
  if priority ≤ 3 ∧ pre ≤ 4000 ∧ 1 ≤ post ∧ post ≤ 12000 ∧ pre + post ≤ 12000 ∧ number ≤ 32 ∧ options ≤ 7 then
    let r : Rule :=
      { kind := kind, stream := stream, priority := priority, pre := pre, post := post,
        silence := (q.byte 19).toNat, recording := recordingOf number, mark := options.testBit 0,
        once := options.testBit 1, state := .disabled, periodCounter := none, fired := 0, missed := 0, cut := 0 }
    some (if options.testBit 2 then r.enabled else r)
  else none

/-- The refusal of checks 3 to 6 of RULE LOAD, if one fails (R24). -/
def State.loadRefusal (s : State) (r : Rule) : Option Status :=
  match s.stream r.stream with
  | none => some .noSuchStream
  | some e =>
    if e.length < r.pre + 32 then some .ringTooShort
    else
      match r.recording with
      | none => none
      | some target =>
        if s.store.state = .mounting ∨ s.store.state = .formatting then some .notReady
        else if (s.store.entry target).isNone then some .noSuchRecording
        else none

/-- RULE LOAD (R24, R25). -/
def execRuleLoad (s : State) : Host.Outcome State Fault Refusal :=
  .next <| s.ownerStep .ruleLoad fun q s =>
    match q.ruleIx, q.loadedRule with
    | some i, some r =>
      match s.loadRefusal r with
      | some st => s.refuse st
      | none => (s.setRule i (some r)).respond .ok []
    | _, _ => s.refuse .badArgument

/-- A command that names a rule: BAD ARGUMENT for a number outside 0 to 63, NO SUCH RULE for an UNLOADED
rule, otherwise the command's own effect (section 2.2). -/
def State.onRule (s : State) (q : Request) (f : RuleIx → Rule → State) : State :=
  match q.ruleIx with
  | none => s.refuse .badArgument
  | some i =>
    match s.rule i with
    | none => s.refuse .noSuchRule
    | some r => f i r

/-- RULE ENABLE (R26). -/
def execRuleEnable (s : State) : Host.Outcome State Fault Refusal :=
  .next <| s.ownerStep .ruleEnable fun q s => s.onRule q fun i r =>
    (s.setRule i (some (if r.state = .disabled then r.enabled else r))).respond .ok []

/-- RULE DISABLE (R27). -/
def execRuleDisable (s : State) : Host.Outcome State Fault Refusal :=
  .next <| s.ownerStep .ruleDisable fun q s => s.onRule q fun i r =>
    (s.setRule i (some r.disabled)).respond .ok []

/-- RULE UNLOAD (R28). -/
def execRuleUnload (s : State) : Host.Outcome State Fault Refusal :=
  .next <| s.ownerStep .ruleUnload fun q s => s.onRule q fun i _ => (s.setRule i none).respond .ok []

/-- High threshold of a kind that uses it. -/
def RuleKind.high? : RuleKind → Option Sample
  | .above h _ _ => some h
  | .outside h _ _ _ => some h
  | _ => none

/-- Low threshold of a kind that uses it. -/
def RuleKind.low? : RuleKind → Option Sample
  | .below l _ _ => some l
  | .outside _ l _ _ => some l
  | _ => none

/-- Step delta of a kind that uses it. -/
def RuleKind.delta? : RuleKind → Option Nat
  | .step d _ _ => some d
  | _ => none

/-- Hysteresis of a kind that uses it. -/
def RuleKind.hysteresis? : RuleKind → Option Nat
  | .above _ h _ => some h
  | .below _ h _ => some h
  | .outside _ _ h _ => some h
  | .step _ h _ => some h
  | _ => none

/-- Persistence of a kind that uses it. -/
def RuleKind.persistence? (k : RuleKind) : Option Nat := if k.scheduled then none else some k.persistence

/-- Priming count, present in PRIMING (R21). -/
def RuleState.priming? : RuleState → Option Nat
  | .priming n => some n
  | _ => none

/-- Pending count, present in PENDING (R21). -/
def RuleState.pending? : RuleState → Option Nat
  | .pending n => some n
  | _ => none

/-- The result of RULE QUERY (R29, section 10.2): the RULE LOAD fields in their order, then the state,
the running fields, the presence word and the counters. ENABLE is not stored, so bit 2 of the options
reads 0 (log 24). -/
def ruleResult (i : RuleIx) (r : Rule) : List Byte :=
  let k := r.kind
  [BitVec.ofNat 8 i.val, k.code, BitVec.ofNat 8 r.stream.val]
    ++ wordBytes 2 (k.high?.getD 0) ++ wordBytes 2 (k.low?.getD 0) ++ toBytes 2 (optNat k.delta?)
    ++ toBytes 2 (optNat k.hysteresis?) ++ toBytes 1 (optNat k.persistence?) ++ toBytes 2 (optNat k.period?)
    ++ toBytes 1 r.priority ++ toBytes 2 r.pre ++ toBytes 2 r.post ++ toBytes 1 r.silence
    ++ toBytes 1 (r.recording.elim 0 recordingNumber) ++ toBytes 1 (flagBits [r.mark, r.once])
    ++ [r.state.code] ++ toBytes 1 (optNat r.state.priming?) ++ toBytes 1 (optNat r.state.pending?)
    ++ toBytes 2 (optNat r.periodCounter)
    ++ toBytes 2 (flagBits [k.high?.isSome, k.low?.isSome, k.delta?.isSome, k.hysteresis?.isSome,
        k.persistence?.isSome, k.period?.isSome, r.state.priming?.isSome, r.state.pending?.isSome,
        r.periodCounter.isSome])
    ++ wordBytes 2 r.fired ++ wordBytes 2 r.missed ++ wordBytes 2 r.cut

/-- RULE QUERY (R29). -/
def execRuleQuery (s : State) : Host.Outcome State Fault Refusal :=
  .next <| s.ownerStep .ruleQuery fun q s => s.onRule q fun i r => s.respond .ok (ruleResult i r)

/-- FIRE (R41). -/
def execFire (s : State) : Host.Outcome State Fault Refusal :=
  .next <| s.ownerStep .fire fun q s => s.onRule q fun i r =>
    match r.kind, r.state with
    | .manual, .armed => (s.setRule i (some { r with state := .due })).respond .ok []
    | .manual, .due => s.respond .ok []
    | _, _ => s.refuse .badState

/-- UNFIRE (R42). -/
def execUnfire (s : State) : Host.Outcome State Fault Refusal :=
  .next <| s.ownerStep .unfire fun q s => s.onRule q fun i r =>
    match r.kind, r.state with
    | .manual, .due => (s.setRule i (some { r with state := .armed })).respond .ok []
    | .manual, .armed => s.respond .ok []
    | _, _ => s.refuse .badState

/-- PERIOD_EXPIRY: the tick that takes the period counter of rule `i` from 1 to 0, at that rule (R39).
CYCLE_FRAME_ARRIVAL makes it at every such rule within its own taking (R174, log 18). A rule whose
counter does not stand at 1 has no expiry. -/
def execPeriodExpiry (i : RuleIx) (s : State) : Host.Outcome State Fault Refusal :=
  .next <| s.modifyRule i fun r => if r.periodCounter = some 1 then r.tick else r

end Sys2Proof.Machine
end

