-- ==== Sys2Proof/Machine/Streams.lean ====
section
/-!
DEFINITION. The Stream Tracker (chapter 1): ring placement, the acceptance of a DATA frame, and the three
stream commands.
-/

namespace Sys2Proof.Machine

/-! ### Ring placement (R4) -/

/-- The rings of the loaded streams: base and length. -/
def State.rings (s : State) : List (Nat × Nat) :=
  (ascending 32).filterMap fun i => (s.stream i).map fun e => (e.base, e.length)

/-- Cells b to b + length - 1 exist and none of them belongs to a ring (R4). -/
def runFree (rings : List (Nat × Nat)) (length b : Nat) : Bool :=
  b + length ≤ Config.sampleCells && rings.all fun r => b + length ≤ r.1 || r.1 + r.2 ≤ b

/-- First fit: the lowest cell at which a run of the length is free (R4). Such a cell is 0 or the cell
after a ring, so only these are looked at; `Laws.firstFit_least` says that it is the lowest of all. -/
def firstFit (rings : List (Nat × Nat)) (length : Nat) : Option Nat :=
  ((0 :: rings.map fun r => r.1 + r.2).filter (runFree rings length)).min?

/-! ### Taking a DATA frame (R11 to R19) -/

/-- The loaded entry with a key (R11). -/
def State.streamWithKey (s : State) (node stream : Byte) : Option StreamIx :=
  (ascending 32).find? fun i =>
    match s.stream i with
    | some e => e.node == node && e.stream == stream
    | none => false

/-- Change a loaded stream entry. -/
def State.modifyStream (s : State) (i : StreamIx) (f : StreamEntry → StreamEntry) : State :=
  s.setStream i ((s.stream i).map f)

/-- Steps 1 to 4 of R16 for a sample of entry `e`: the overtake signals, the write into the ring, and the
new next sample number. -/
def State.writeSample (i : StreamIx) (e : StreamEntry) (v : Sample) (s : State) : State :=
  let n := e.next
  let s := if e.length ≤ n then s.forSlotsOf i (fun k s => s.overtake (n - e.length) k) else s
  { s with samples := Memory.set Config.unwrittenCell s.samples (e.cell n) v }.modifyStream i
    fun e => { e with next := n + 1 }

/-- One sample of an accepted frame (R16): written, seen by the slots of the stream, evaluated by the
rules with the previous sample as it stood, and then the previous sample itself. -/
def takeSample (i : StreamIx) (x : State × Bool) (v : Sample) : State × Bool :=
  match x.1.stream i with
  | none => x
  | some e =>
    let s := (x.1.writeSample i e v).forSlotsOf i State.advanceChecks
    let (s, mark) := evalRules i e.next v e.previous s.time (s, x.2)
    (s.modifyStream i fun e => { e with previous := some v }, mark)

/-- How an offered frame of a loaded stream is classified (R11 to R15). -/
inductive FrameClass where
  | first
  | inSequence
  | gap (d : Nat)
  | old
  deriving DecidableEq, Repr

/-- The class of a frame with `c` samples and a sequence number (R12 to R15). -/
def StreamEntry.classify (e : StreamEntry) (c : Nat) (seq : Byte) : FrameClass :=
  if Config.sampleNumbers < e.next + c then .old
  else
    match e.state, e.expected with
    | .live, some x =>
      let d := (seq - x).toNat
      if d = 0 then .inSequence else if d ≤ 127 then .gap d else .old
    | _, _ => .first

/-- The gap effects of R13 before the first sample: gap events, gap signals to the COLLECTING slots in
ascending order, the rules, and the previous sample made absent. -/
def State.takeGap (i : StreamIx) (e : StreamEntry) (d : Nat) (s : State) : State :=
  (s.modifyStream i fun e => { e with gapEvents := satSucc e.gapEvents })
    |>.forSlotsOf i (fun k s => s.gapSignal d e.next k)
    |>.gapRules i
    |>.modifyStream i (fun e => { e with previous := none })

/-- An accepted frame (R12, R13): counted, silence timers reloaded, its samples taken in frame order, and
the expected sequence advanced. A request of the frame that met the completion of a slot's write has kept that slot's next
write from being granted (R74), and the arbiter then tests the requests of the others (log 30). The Bool is the marking
request of the done report (R18). -/
def State.acceptFrame (i : StreamIx) (seq : Byte) (vs : List Sample) (s : State) : State × Bool :=
  let s := (s.modifyStream i fun e => { e with framesTaken := satSucc e.framesTaken, state := .live })
    |>.forSlotsOf i State.reloadTimer
  let (s, mark) := vs.foldl (takeSample i) (s, false)
  ((s.modifyStream i fun e => { e with expected := some (seq + 1) }).arbitrateForCommit, mark)

/-- A well-formed DATA frame is offered to the Stream Tracker (R11); the Bool is its marking request. -/
def State.offerFrame (f : Frame) (s : State) : State × Bool :=
  match s.streamWithKey (dataNode f) (dataStream f) with
  | none => (s, false)
  | some i =>
    match s.stream i with
    | none => (s, false)
    | some e =>
      let vs := dataSamples f (dataCount f)
      match e.classify (dataCount f) (dataSequence f) with
      | .old => (s.modifyStream i fun e => { e with oldFrames := satSucc e.oldFrames }, false)
      | .gap d => (s.takeGap i e d).acceptFrame i (dataSequence f) vs
      | .first => s.acceptFrame i (dataSequence f) vs
      | .inSequence => s.acceptFrame i (dataSequence f) vs

/-! ### Stream commands (R7 to R9) -/

/-- The entry that STREAM LOAD makes (R7). -/
def newStream (node stream : Byte) (base length : Nat) : StreamEntry :=
  { node := node, stream := stream, base := base, length := length, next := 0, expected := none,
    previous := none, state := .idle, framesTaken := 0, gapEvents := 0, oldFrames := 0 }

/-- STREAM LOAD (R4, R7). -/
def execStreamLoad (s : State) : Host.Outcome State Fault Refusal :=
  .next <| s.ownerStep .streamLoad fun q s =>
    let node := q.byte 0
    let stream := q.byte 1
    let length := q.nat 2 2
    if ¬(1 ≤ node.toNat ∧ node.toNat ≤ 62 ∧ stream.toNat ≤ 15 ∧ 64 ≤ length ∧ length ≤ 8192) then
      s.refuse .badArgument
    else if (s.streamWithKey node stream).isSome then s.refuse .alreadyExists
    else
      match (ascending 32).find? (fun i => (s.stream i).isNone) with
      | none => s.refuse .tableFull
      | some i =>
        match firstFit s.rings length with
        | none => s.refuse .noRingSpace
        | some b =>
          (s.setStream i (some (newStream node stream b length))).respond .ok
            (toBytes 1 i.val ++ toBytes 2 b)

/-- A command that names a stream index: BAD ARGUMENT outside 0 to 31, NO SUCH STREAM for an empty
entry (R8, R9). -/
def State.onStream (s : State) (q : Request) (f : StreamIx → StreamEntry → State) : State :=
  match indexOf 32 (q.byte 0).toNat with
  | none => s.refuse .badArgument
  | some i =>
    match s.stream i with
    | none => s.refuse .noSuchStream
    | some e => f i e

/-- A loaded rule names the stream, or a non-EMPTY slot captures from it (R8, R22). -/
def State.streamInUse (s : State) (i : StreamIx) : Bool :=
  (ascending 64).any (fun k => match s.rule k with | some r => r.stream == i | none => false)
    || (ascending 8).any (fun k => (s.captureOn i k).isSome)

/-- STREAM DROP (R5, R8). -/
def execStreamDrop (s : State) : Host.Outcome State Fault Refusal :=
  .next <| s.ownerStep .streamDrop fun q s => s.onStream q fun i _ =>
    if s.streamInUse i then s.refuse .inUse else (s.setStream i none).respond .ok []

/-- Code of a stream state (section 10.3). -/
def StreamState.code : StreamState → Byte
  | .idle => 0
  | .live => 1

/-- The oldest sample number of the valid range: max(0, next - length) (R6). -/
def StreamEntry.oldest? (e : StreamEntry) : Option Nat := if e.next = 0 then none else some (e.next - e.length)

/-- The newest sample number: next - 1 (R6). -/
def StreamEntry.newest? (e : StreamEntry) : Option Nat := if e.next = 0 then none else some (e.next - 1)

/-- The result of STREAM QUERY (R9, section 10.2). -/
def streamResult (freeIx : Nat) (i : StreamIx) (e : StreamEntry) (hold : Option Nat) : List Byte :=
  toBytes 1 i.val ++ [e.node, e.stream, e.state.code] ++ toBytes 2 e.base ++ toBytes 2 e.length
    ++ sampleNumberBytes freeIx e.next ++ toBytes 6 (optNat e.oldest?) ++ toBytes 6 (optNat e.newest?)
    ++ [e.expected.getD 0] ++ wordBytes 2 (e.previous.getD 0) ++ sampleNumberBytes (freeIx + 1) (optNat hold)
    ++ toBytes 1 (flagBits [e.oldest?.isSome, e.newest?.isSome, e.expected.isSome, e.previous.isSome, hold.isSome])
    ++ wordBytes 4 e.framesTaken ++ wordBytes 4 e.gapEvents ++ wordBytes 4 e.oldFrames

/-- STREAM QUERY (R9). -/
def execStreamQuery (s : State) : Host.Outcome State Fault Refusal :=
  .next <| s.ownerStep .streamQuery fun q s => s.onStream q fun i e =>
    { s with freeIx := freeAfter s.freeIx [(e.next : Int), (optNat (s.holdMark i) : Int)] }.respond .ok
      (streamResult s.freeIx i e (s.holdMark i))

end Sys2Proof.Machine
end

