-- ==== Sys2Proof/Machine/LinkArrivals.lean ====
section
/-!
DEFINITION. The Link Interface and the Time Base (chapter 8): arrivals, marking, ticks and send-done.
-/

namespace Sys2Proof.Machine

/-! ### Arrivals on port A (R160 to R164) -/

/-- Count in the link counters (R170). -/
def State.countLink (s : State) (f : LinkCounters → LinkCounters) : State :=
  s.modifyLink fun l => { l with counters := f l.counters }

/-- The frame as it leaves after a marking request, and whether the part set its flag (R164). -/
def applyMark (f : Frame) (mark : Bool) : Frame × Bool :=
  if mark && !eventFlag f then (markFrame f, true) else (f, false)

/-- A good-check DATA frame of port A (R161, R162): not well formed, it is counted and forwarded as
received; well formed, it is offered, marked if asked, and placed in port B egress. -/
def State.takeData (f : Frame) (s : State) : State :=
  if dataWellFormed f then
    let (s, mark) := s.offerFrame f
    let (f, set) := applyMark f mark
    let s := if set then s.countLink fun c => { c with marked := satSucc c.marked } else s
    s.modifyLink (·.placeB f)
  else (s.countLink fun c => { c with malformed := satSucc c.malformed }).modifyLink (·.placeB f)

/-- What the part makes of a frame that it takes on port A (R160). -/
def State.takeOnA (f : Frame) (s : State) : State :=
  match frameKind f with
  | .badCheck => (s.countLink fun c => { c with portABad := satSucc c.portABad }).modifyLink (·.placeB f)
  | .data => (s.countLink fun c => { c with portAFrames := satSucc c.portAFrames }).takeData f
  | _ => (s.countLink fun c => { c with portAFrames := satSucc c.portAFrames }).modifyLink (·.placeB f)

/-! ### Arrivals on port B (R160, R163, R173) -/

/-- The pair after a CYCLE frame (R173). -/
def Stamp.afterCycle (t : Stamp) (epochFlag : Bool) : Stamp :=
  if epochFlag then ⟨t.epoch + 1, 0⟩ else ⟨t.epoch, t.cycle + 1⟩

/-- A tick at every slot, in ascending slot number (R65, R174, log 4). -/
def State.tickSlots (s : State) : State := (ascending 8).foldl (fun s k => s.tickSlot k) s

/-- A CYCLE frame is counted, gives its tick and is placed in port A egress (R173, R174). -/
def State.takeCycle (f : Frame) (s : State) : State :=
  { s with time := s.time.afterCycle (epochFlag f) }.tickRules.tickSlots.modifyLink (·.placeA f)

/-- The node address is 1 to 62 (R165). -/
def Link.addressed (l : Link) : Bool := 1 ≤ l.node.toNat && l.node.toNat ≤ 62

/-- The MREQ is for the part: addressed, and the destination byte equals the node address (R163, R189). -/
def Link.isOwn (l : Link) (f : Frame) : Bool := l.addressed && (byteAt f 1 == l.node.setWidth 8)

/-- What the part makes of a frame that it takes on port B (R160). -/
def State.takeOnB (f : Frame) (s : State) : State :=
  match frameKind f with
  | .badCheck => (s.countLink fun c => { c with portBBad := satSucc c.portBBad }).modifyLink (·.placeA f)
  | .cycle => (s.countLink fun c => { c with portBFrames := satSucc c.portBFrames }).takeCycle f
  | .mreq =>
    if s.link.isOwn f then
      (s.countLink fun c => { c with portBFrames := satSucc c.portBFrames, mreqsTaken := satSucc c.mreqsTaken }).handOver f
    else (s.countLink fun c => { c with portBFrames := satSucc c.portBFrames }).modifyLink (·.placeA f)
  | _ => (s.countLink fun c => { c with portBFrames := satSucc c.portBFrames }).modifyLink (·.placeA f)

/-! ### An arrival (R160, R169) -/

/-- A frame arrives at a port: in bypass it passes by unseen, while bypass is being entered it is lost,
otherwise the part takes it (R169), by what its bytes are (log 15). Without power the manual gives no behaviour
(log 23). -/
def State.arrival (port : LinkPort) (f : Frame) (s : State) : Host.Outcome State Fault Refusal :=
  if s.powered = false then .fault .withoutPower
  else
    match port with
    | .a => .next (if s.link.aToB = .through then s.takeOnA f else s)
    | .b => .next (if s.link.bToA = .through then s.takeOnB f else s)

/-- DATA_FRAME_ARRIVAL: a frame arrives on port A (R160 to R164). -/
def execDataFrameArrival (f : Frame) (s : State) : Host.Outcome State Fault Refusal := s.arrival .a f

/-- CYCLE_FRAME_ARRIVAL: a frame arrives on port B (R173). -/
def execCycleFrameArrival (f : Frame) (s : State) : Host.Outcome State Fault Refusal := s.arrival .b f

/-- MREQ_ARRIVAL: a frame arrives on port B (R163, R177, R180). -/
def execMreqArrival (f : Frame) (s : State) : Host.Outcome State Fault Refusal := s.arrival .b f

/-- FRAME_FORWARD: any other frame arrives (R160). -/
def execFrameForward (port : LinkPort) (f : Frame) (s : State) : Host.Outcome State Fault Refusal := s.arrival port f

/-! ### Frames that leave (R167, R168, R170) -/

/-- The frame that leaves is an MRSP: the part's own response, or a forwarded frame of that kind (R160, R170, R189,
log 13). -/
def SentFrame.isMrsp (x : SentFrame) : Bool := x.response || frameKind x.frame == .mrsp

/-- Port B after a frame has left it (R168); each MRSP is counted (R170). -/
def Link.sentB (l : Link) (x : SentFrame) : Link :=
  let c := l.counters
  { l with sendingB := none,
           counters := if x.isMrsp then { c with responsesSent := satSucc c.responsesSent } else c }.chooseB

/-- PORT_B_SEND_DONE (R168). -/
def execPortBSendDone (s : State) : Host.Outcome State Fault Refusal :=
  .next <|
    match s.link.sendingB with
    | some x => s.modifyLink (·.sentB x)
    | none => s

/-- PORT_A_SEND_DONE (R167). -/
def execPortASendDone (s : State) : Host.Outcome State Fault Refusal :=
  .next <|
    match s.link.sendingA with
    | some _ => s.modifyLink fun l => { l with sendingA := none }.chooseA
    | none => s

end Sys2Proof.Machine
end

