-- ==== Sys2Proof/Machine/Slots.lean ====
section
/-!
DEFINITION. The slot commands (section 3.7), the silence timer's expiry and the completions of slot
writes.
-/

namespace Sys2Proof.Machine

/-- Code of a slot tag (section 10.3). -/
def Slot.tag (x : Slot) : Byte :=
  match x.capture with
  | none => 0
  | some c =>
    match c.phase with
    | .collecting _ _ => 1
    | .draining _ _ => 2
    | .committing _ => 3

/-- Code of a staging buffer (section 10.3). -/
def Buffer.code : Buffer → Byte
  | .free => 0
  | .filled _ => 1
  | .writing _ false => 2
  | .writing _ true => 3

/-- The end cause, absent while COLLECTING (section 3.1). -/
def Capture.cause? (c : Capture) : Option EndCause :=
  match c.phase with
  | .collecting _ _ => none
  | .draining _ e => some e
  | .committing e => some e

/-- The silence timer, present only while COLLECTING (section 3.1). -/
def Capture.timer? (c : Capture) : Option Nat :=
  match c.phase with
  | .collecting _ t => t
  | _ => none

/-- The result of SLOTS QUERY with a slot (R73, R190, section 10.2): 54 bytes; every field but the slot, the
tag and the buffer states is 0 for an EMPTY slot. -/
def slotResult (ix : Nat) (k : SlotIx) (x : Slot) : List Byte :=
  let buffers := [x.buffer0.code, x.buffer1.code]
  match x.capture with
  | none => [BitVec.ofNat 8 k.val, x.tag] ++ List.replicate 47 0 ++ buffers ++ [0, 0, 0]
  | some c =>
    let q := c.request
    [BitVec.ofNat 8 k.val, x.tag, BitVec.ofNat 8 q.rule.val, BitVec.ofNat 8 q.priority,
        BitVec.ofNat 8 q.stream.val, BitVec.ofNat 8 (recordingNumber q.recording)]
      ++ toBytes 6 q.trigger ++ stampBytes q.stamp ++ toBytes 2 q.pre ++ toBytes 2 q.post ++ toBytes 1 q.silence
      ++ toBytes 2 c.preActual ++ toBytes 6 c.first
      ++ sampleNumberBytes ix (optNat c.readPosition) ++ sampleNumberBytes (ix + 1) c.endSample
      ++ [c.cause?.elim 0 causeByte] ++ toBytes 1 (optNat c.timer?)
      ++ toBytes 2 c.head ++ toBytes 1 c.blocks.length ++ toBytes 1 c.remaining ++ buffers
      ++ toBytes 1 c.gaps.length ++ [recordFlags c.short c.gapped c.gapOverflow]
      ++ toBytes 1 (flagBits [c.readPosition.isSome, c.cause?.isSome, c.timer?.isSome])

/-- The sample numbers of that result that may lie outside the six bytes. -/
def slotNumbers (x : Slot) : List Int :=
  match x.capture with
  | none => []
  | some c => [(optNat c.readPosition : Int), c.endSample]

/-- SLOTS QUERY (R73): without a slot the pointer and the eight tags, with one the slot's contents. -/
def execSlotsQuery (s : State) : Host.Outcome State Fault Refusal :=
  .next <| s.ownerStep .slotsQuery fun q s =>
    if q.args = [] then
      s.respond .ok (BitVec.ofNat 8 s.pointer.val :: (ascending 8).map fun k => (s.slot k).tag)
    else
      match indexOf 8 (q.byte 0).toNat with
      | none => s.refuse .badArgument
      | some k =>
        { s with freeIx := freeAfter s.freeIx (slotNumbers (s.slot k)) }.respond .ok
          (slotResult s.freeIx k (s.slot k))

/-- The slot is COLLECTING. -/
def Slot.isCollecting (x : Slot) : Bool :=
  match x.capture with
  | some c => match c.phase with | .collecting _ _ => true | _ => false
  | none => false

/-- CUT (R72). -/
def execCut (s : State) : Host.Outcome State Fault Refusal :=
  .next <| s.ownerStep .cut fun q s =>
    match indexOf 8 (q.byte 0).toNat with
    | none => s.refuse .badArgument
    | some k => if (s.slot k).isCollecting then (s.endEarly .cut k).respond .ok [] else s.refuse .badState

/-- SILENCE_TIMER_EXPIRY: the tick that takes the silence timer of slot `k` from 1 to 0, at that slot
(R65). CYCLE_FRAME_ARRIVAL makes it at every such slot within its own taking (R174, log 18). A slot whose
timer does not stand at 1 has no expiry. -/
def execSilenceTimerExpiry (k : SlotIx) (s : State) : Host.Outcome State Fault Refusal :=
  .next <| if (s.slot k).capture.bind Capture.timer? = some 1 then s.tickSlot k else s

/-- The completion of a slot's write, of a data block when `data`, otherwise of its head block; `f` gives the
completion effects and the arbiter's test after them. -/
def State.onSlotCompletion (data : Bool) (f : SlotIx → State → State) (s : State) : State :=
  match s.port.busy with
  | some ⟨.slot k, op⟩ => if (s.slot k).writingData = data then f k (s.complete op) else s
  | _ => s

/-- A capture request that preempts COLLECTING slot `k` has reached it: the command next in the queue is a DATA frame that,
taken on this state, leaves the slot with the capture of another request (R74, log 30). -/
def State.preemptedNext (k : SlotIx) (s : State) : Bool :=
  match s.pending with
  | .dataFrameArrival f :: _ =>
    match execDataFrameArrival f s with
    | .next t => (s.slot k).isCollecting && (t.slot k).capture.map (·.request) != (s.slot k).capture.map (·.request)
    | _ => false
  | _ => false

/-- The arbiter's test after the completion of a data block write of slot `k` (R118). Where a preempting request meets the
completion, it is taken before the grant of the slot's next write, and finds no write in progress (R74, log 30). -/
def State.arbitrateAfterWrite (k : SlotIx) (s : State) : State :=
  match s.arbiterChoice with
  | none => s
  | some r => if r.who = .slot k ∧ s.preemptedNext k = true then s else s.arbitrate

/-- SLOT_DATA_WRITE_COMPLETE (R58, R60, R62, R118). -/
def execSlotDataWriteComplete (s : State) : Host.Outcome State Fault Refusal :=
  .next <| s.onSlotCompletion true fun k s => (s.slotDataWritten k).arbitrateAfterWrite k

/-- SLOT_HEAD_WRITE_COMPLETE (R69, R118). -/
def execSlotHeadWriteComplete (s : State) : Host.Outcome State Fault Refusal :=
  .next <| s.onSlotCompletion false fun k s => (s.slotHeadWritten k).arbitrateForCommit

end Sys2Proof.Machine
end

