-- ==== Sys2Proof/Machine/Supply.lean ====
section
/-!
DEFINITION. Power, the RESET line, bypass and the PROTECT line (R104, R117, R119, R165, R169, R176).
-/

namespace Sys2Proof.Machine

/-! ### Start-up initialisation and power (R169) -/

/-- Start-up initialisation (R169): straps read, counters 0, both FIFOs and the response place emptied, the
Time Base at (0, 0). A frame being sent goes on. -/
def State.initialise (straps : BitVec 6) (s : State) : State :=
  { s with time := ⟨0, 0⟩,
           link := { s.link with node := straps, fifoA := [], fifoB := [], response := none, counters := .zero } }

/-- All RAM state lost: every block at its start values, the link idle in bypass (R117, R169). The array, the
two input lines and the model's own fields stay. -/
def State.loseRam (s : State) : State :=
  { s.startBlocks with
    link := { node := 0, aToB := .bypass, bToA := .bypass, sendingB := none, fifoB := [], response := none,
              sendingA := none, fifoA := [], counters := .zero }
    time := ⟨0, 0⟩, port := .start, mgmt := .start 1 }

/-- POWER_ON (R169, R176). With the RESET line asserted the mount scan waits for its release (R103); a
POWER_ON of a part that has power is a loss and a return of power (log 23). -/
def execPowerOn (straps : BitVec 6) (s : State) : Host.Outcome State Fault Refusal :=
  .next <|
    let s := { (if s.powered then s.interruptPort else s).loseRam with powered := true }.initialise straps
    if s.resetLine then s else s.mountBegins

/-- POWER_LOSS (R90, R117). -/
def execPowerLoss (s : State) : Host.Outcome State Fault Refusal :=
  .next { s.interruptPort.loseRam with powered := false }

/-! ### The RESET line (R169) -/

/-- A direction as the RESET line is asserted: it enters bypass, or stays in it (R169). -/
def LinkPath.onReset : LinkPath → LinkPath
  | .bypass => .bypass
  | _ => .entering

/-- The link as the RESET line is asserted (R169 steps 1 and 2): arrivals stop, waiting frames and the response
are discarded; a frame being sent is sent to its end (step 3). -/
def Link.onReset (l : Link) : Link :=
  { l with aToB := l.aToB.onReset, bToA := l.bToA.onReset, fifoB := [], response := none, fifoA := [] }

/-- RESET_ASSERT (R103, R117, R169, R176). Without power only the level of the line changes. -/
def execResetAssert (s : State) : Host.Outcome State Fault Refusal :=
  .next <|
    if s.resetLine then s
    else if s.powered = false then { s with resetLine := true }
    else
      { s.interruptPort.startBlocks with
        resetLine := true, port := .start, link := s.link.onReset, mgmt := .start 2 }

/-- RESET_RELEASE (R103, R165, R169): start-up initialisation, and the blocks begin their work from their
start values (00_scope.md section 5) with the mount scan. -/
def execResetRelease (straps : BitVec 6) (s : State) : Host.Outcome State Fault Refusal :=
  .next <|
    if s.resetLine = false then s
    else if s.powered = false then { s with resetLine := false }
    else ({ s.startBlocks with resetLine := false, port := .start }.initialise straps).mountBegins

/-! ### Bypass (R169) -/

/-- Whether the part takes the frames of a direction, is entering bypass, or is bypassed. -/
def Link.path (l : Link) : Direction → LinkPath
  | .aToB => l.aToB
  | .bToA => l.bToA

/-- The link with another path in a direction. -/
def Link.setPath (l : Link) (d : Direction) (p : LinkPath) : Link :=
  match d with
  | .aToB => { l with aToB := p }
  | .bToA => { l with bToA := p }

/-- The send side that a direction ends in is idle (R169 step 4). -/
def Link.sendIdle (l : Link) : Direction → Bool
  | .aToB => l.sendingB.isNone
  | .bToA => l.sendingA.isNone

/-- BYPASS_ENTRY: the moment at which no frame is being received by the feeding port (log 10), with the send
side idle (R169 step 4). Once the RESET line is released, bypass no longer comes into effect in a direction that is still
entering it: BYPASS_TAKEOVER takes that direction over instead. The manual does not state this; it is the model's choice
(log 11). -/
def execBypassEntry (d : Direction) (s : State) : Host.Outcome State Fault Refusal :=
  .next <|
    if s.link.path d = .entering ∧ s.resetLine = true ∧ s.link.sendIdle d = true then
      s.modifyLink (·.setPath d .bypass)
    else s

/-- BYPASS_TAKEOVER: the part, ready after a start, takes over a direction at the moment no frame is being
received by the feeding port (R169, log 10, log 11). -/
def execBypassTakeover (d : Direction) (s : State) : Host.Outcome State Fault Refusal :=
  .next <|
    if s.powered = true ∧ s.resetLine = false ∧ s.link.path d ≠ .through then
      s.modifyLink fun l =>
        let l := l.setPath d .through
        match d with
        | .aToB => l.chooseB
        | .bToA => l.chooseA
    else s

/-! ### The PROTECT line (R104, R118, R119) -/

/-- PROTECT_ASSERT (R104, R119): only the level changes. -/
def execProtectAssert (s : State) : Host.Outcome State Fault Refusal := .next { s with protect := true }

/-- PROTECT_RELEASE (R118, R119): the level changes and, if the port is idle, the arbiter tests. -/
def execProtectRelease (s : State) : Host.Outcome State Fault Refusal := .next { s with protect := false }.arbitrate

end Sys2Proof.Machine
end

