-- ==== Sys2Proof/Machine/Dispatch.lean ====
section
/-!
DEFINITION. One arm per command: each calls its meaning.
-/

namespace Sys2Proof.Machine

def exec (i : Instr) (s : State) : Host.Outcome State Fault Refusal :=
  match i with
  | .powerOn straps => Sys2Proof.Machine.execPowerOn straps s
  | .resetAssert => Sys2Proof.Machine.execResetAssert s
  | .bypassEntry d => Sys2Proof.Machine.execBypassEntry d s
  | .resetRelease straps => Sys2Proof.Machine.execResetRelease straps s
  | .bypassTakeover d => Sys2Proof.Machine.execBypassTakeover d s
  | .protectAssert => Sys2Proof.Machine.execProtectAssert s
  | .protectRelease => Sys2Proof.Machine.execProtectRelease s
  | .dataFrameArrival f => Sys2Proof.Machine.execDataFrameArrival f s
  | .cycleFrameArrival f => Sys2Proof.Machine.execCycleFrameArrival f s
  | .mreqArrival f => Sys2Proof.Machine.execMreqArrival f s
  | .frameForward p f => Sys2Proof.Machine.execFrameForward p f s
  | .portBSendDone => Sys2Proof.Machine.execPortBSendDone s
  | .portASendDone => Sys2Proof.Machine.execPortASendDone s
  | .periodExpiry r => Sys2Proof.Machine.execPeriodExpiry r s
  | .silenceTimerExpiry k => Sys2Proof.Machine.execSilenceTimerExpiry k s
  | .responseHeldPlaced => Sys2Proof.Machine.execResponseHeldPlaced s
  | .streamLoad => Sys2Proof.Machine.execStreamLoad s
  | .streamDrop => Sys2Proof.Machine.execStreamDrop s
  | .streamQuery => Sys2Proof.Machine.execStreamQuery s
  | .ruleLoad => Sys2Proof.Machine.execRuleLoad s
  | .ruleEnable => Sys2Proof.Machine.execRuleEnable s
  | .ruleDisable => Sys2Proof.Machine.execRuleDisable s
  | .ruleUnload => Sys2Proof.Machine.execRuleUnload s
  | .ruleQuery => Sys2Proof.Machine.execRuleQuery s
  | .fire => Sys2Proof.Machine.execFire s
  | .unfire => Sys2Proof.Machine.execUnfire s
  | .slotsQuery => Sys2Proof.Machine.execSlotsQuery s
  | .cut => Sys2Proof.Machine.execCut s
  | .controlSet => Sys2Proof.Machine.execControlSet s
  | .clearConditions => Sys2Proof.Machine.execClearConditions s
  | .conditionsQuery => Sys2Proof.Machine.execConditionsQuery s
  | .format => Sys2Proof.Machine.execFormat s
  | .create => Sys2Proof.Machine.execCreate s
  | .delete => Sys2Proof.Machine.execDelete s
  | .erase => Sys2Proof.Machine.execErase s
  | .storeQuery => Sys2Proof.Machine.execStoreQuery s
  | .recordingQuery => Sys2Proof.Machine.execRecordingQuery s
  | .status => Sys2Proof.Machine.execStatus s
  | .identify => Sys2Proof.Machine.execIdentify s
  | .restart => Sys2Proof.Machine.execRestart s
  | .restartPoint => Sys2Proof.Machine.execRestartPoint s
  | .portOpen => Sys2Proof.Machine.execPortOpen s
  | .portPosition => Sys2Proof.Machine.execPortPosition s
  | .portRead => Sys2Proof.Machine.execPortRead s
  | .portInfo => Sys2Proof.Machine.execPortInfo s
  | .portClose => Sys2Proof.Machine.execPortClose s
  | .slotDataWriteComplete => Sys2Proof.Machine.execSlotDataWriteComplete s
  | .slotHeadWriteComplete => Sys2Proof.Machine.execSlotHeadWriteComplete s
  | .indexJobTake => Sys2Proof.Machine.execIndexJobTake s
  | .indexReadComplete => Sys2Proof.Machine.execIndexReadComplete s
  | .indexReleaseHold => Sys2Proof.Machine.execIndexReleaseHold s
  | .indexWriteComplete => Sys2Proof.Machine.execIndexWriteComplete s
  | .releaseJobTake => Sys2Proof.Machine.execReleaseJobTake s
  | .releaseHeadReadComplete => Sys2Proof.Machine.execReleaseHeadReadComplete s
  | .deleteReleaseJobPlace => Sys2Proof.Machine.execDeleteReleaseJobPlace s
  | .formatDirectoryReadComplete => Sys2Proof.Machine.execFormatDirectoryReadComplete s
  | .formatLabelWriteComplete => Sys2Proof.Machine.execFormatLabelWriteComplete s
  | .formatDirectoryWriteComplete => Sys2Proof.Machine.execFormatDirectoryWriteComplete s
  | .createIndexWriteComplete => Sys2Proof.Machine.execCreateIndexWriteComplete s
  | .createDirectoryWriteComplete => Sys2Proof.Machine.execCreateDirectoryWriteComplete s
  | .deleteDirectoryWriteComplete => Sys2Proof.Machine.execDeleteDirectoryWriteComplete s
  | .deleteIndexReadComplete => Sys2Proof.Machine.execDeleteIndexReadComplete s
  | .mountLabelReadComplete => Sys2Proof.Machine.execMountLabelReadComplete s
  | .mountDirectoryReadComplete => Sys2Proof.Machine.execMountDirectoryReadComplete s
  | .mountIndexReadComplete => Sys2Proof.Machine.execMountIndexReadComplete s
  | .mountHeadReadComplete => Sys2Proof.Machine.execMountHeadReadComplete s
  | .openIndexReadComplete => Sys2Proof.Machine.execOpenIndexReadComplete s
  | .openHeadReadComplete => Sys2Proof.Machine.execOpenHeadReadComplete s
  | .readDataBlockComplete => Sys2Proof.Machine.execReadDataBlockComplete s
  | .powerLoss => Sys2Proof.Machine.execPowerLoss s

end Sys2Proof.Machine
end

