-- ==== Sys2Proof/Machine/Step.lean ====
section
/-!
DEFINITION. One step: the command at the front of the queue, or idling when none waits (log 8).
-/

namespace Sys2Proof.Machine

/-- A step takes the command at the front of the queue and answers what its meaning answers on the state
with the rest of the queue. With an empty queue the part idles: nothing in it happens by itself, because
every event that the manual names is a command (log 8). -/
def step (s : State) : Host.Outcome State Fault Refusal :=
  match s.pending with
  | [] => .next s
  | c :: cs => exec c { s with pending := cs }

/-- The state with the command that a word spells put at the front of the queue. No row of the opcode table
gives bits, so no word spells one (log 9). -/
def State.withFetchWord (s : State) (nbits w : Nat) : State :=
  match decodeTableWord nbits w with
  | some c => { s with pending := c :: s.pending }
  | none => s

end Sys2Proof.Machine
end

