-- ==== Sys2Proof/Safety.lean ====
section
/-!
DEFINITION. The named properties that statements are about: canonical memories, the law of conditions, bounded
queues, the accounting of the store, and what it means that a request stands with its owner.
-/

namespace Sys2Proof

open Machine

/-- The array and sample memory hold their canonical form. -/
def Canonical (s : State) : Prop :=
  Memory.wf Config.unwrittenByte s.array ∧ Memory.wf Config.unwrittenCell s.samples

/-- The law of conditions: a set flag whose mask is clear makes capture SUSPENDED, and the detail record is
empty exactly while capture is RUNNING (R77, R79). -/
def ConditionLaw (s : State) : Prop :=
  (s.cond.live ≠ 0 → s.cond.state = .suspended) ∧ (s.cond.detail = none ↔ s.cond.state = .running)

/-- Both egress FIFOs hold at most four waiting frames (R166, R167). -/
def EgressBounded (s : State) : Prop := s.link.fifoB.length ≤ 4 ∧ s.link.fifoA.length ≤ 4

/-- The operation is the mount scan. -/
def isMount : Option MaintenanceOp → Bool
  | some (.mount _) => true
  | _ => false

/-- The used blocks are distinct blocks of the data area, in ascending order, the cursor stands in the data area,
and outside MOUNTING the free count is the number of the blocks that are not used (R97, R99). -/
def MapOk (m : StoreManager) : Prop :=
  m.used.Pairwise (· < ·) ∧ (∀ b ∈ m.used, inDataArea b = true) ∧ inDataArea m.cursor = true ∧
    (m.state ≠ .mounting → m.free + m.used.length = Config.dataBlocks)

/-- The allocation map is accounted for, and the store is MOUNTING exactly while the mount scan is in progress (R96,
R97, R106). -/
def MapAccounted (s : State) : Prop := MapOk s.store ∧ (isMount s.maint = true ↔ s.store.state = .mounting)

/-- The remaining reservation of a slot, 0 when it is EMPTY (R53). -/
def slotRemaining (x : Slot) : Nat := x.capture.elim 0 (·.remaining)

/-- The reservation total is the sum of the remaining reservations of the slots, and a slot holds a capture only
while the store is READY (R51, R97, R98). -/
def ReservationsMatch (s : State) : Prop :=
  s.store.reserved = ∑ k : SlotIx, slotRemaining (s.slot k) ∧
    ∀ k, (s.slot k).capture ≠ none → s.store.state = .ready

/-! ### The blocks that slots and recordings claim (R97) -/

/-- The blocks of a slot's capture: its head and its listed blocks. -/
def slotListed (x : Slot) : List Nat := x.capture.elim [] fun c => c.head :: c.blocks

/-- The blocks that a slot claims: those of its capture, and those that orphaned writes still write (R57, R58). -/
def slotClaims (x : Slot) : List Nat := slotListed x ++ x.buffer0.orphan?.toList ++ x.buffer1.orphan?.toList

/-- The index blocks at the held places of a recording (R140). -/
def heldBlocks (e : RecordingEntry) : List Nat := e.heldPlaces.map fun i => e.blocks.getD i 0

/-- How many recordings, in ascending number, hold the blocks at their held places: all of them, but while the mount
scan is in progress only those that it has come to (R140). -/
def claimedRecordings : Option MaintenanceOp → Nat
  | some (.mount (.index r _ _ _)) => r.val + 1
  | some (.mount (.head w)) => w.recording.val + 1
  | some (.mount (.repair w)) => w.recording.val + 1
  | some (.mount _) => 0
  | _ => 32

/-- The index blocks that recording `r` holds. -/
def indexClaims (m : StoreManager) (op : Option MaintenanceOp) (r : RecIx) : List Nat :=
  if r.val < claimedRecordings op then (m.entry r).elim [] heldBlocks else []

/-- The index blocks of the CREATE or the DELETE in progress: those taken, and those not yet freed (R110, R113). -/
def maintenanceClaims : Option MaintenanceOp → List Nat
  | some (.create _ e _) => e.blocks
  | some (.delete _ e .directory _) => heldBlocks e
  | some (.delete _ e (.read p rest) _) => (p :: rest).map fun i => e.blocks.getD i 0
  | some (.delete _ e (.place p _ rest) _) => (p :: rest).map fun i => e.blocks.getD i 0
  | _ => []

/-- How often block `b` is claimed by slots, by recordings for their index, and by a CREATE or DELETE in progress. -/
def blockClaims (s : State) (b : Nat) : Nat :=
  (∑ k : SlotIx, (slotClaims (s.slot k)).count b) + (∑ r : RecIx, (indexClaims s.store s.maint r).count b)
    + (maintenanceClaims s.maint).count b

/-- The block of a FILLED buffer, or of one that is WRITING for the slot's own capture. -/
def ownBlock : Buffer → Option Nat
  | .filled d => some d.block
  | .writing d false => some d.block
  | _ => none

/-- The buffers of a slot suit its tag (section 3.4): FREE in an EMPTY and in a COMMITTING slot; otherwise those of the
capture hold different blocks of its list. -/
def SlotTidy (x : Slot) : Prop :=
  match x.capture with
  | none => x.buffer0 = .free ∧ x.buffer1 = .free
  | some c =>
    ((∃ e, c.phase = .committing e) → x.buffer0 = .free ∧ x.buffer1 = .free) ∧
      (∀ b, ownBlock x.buffer0 = some b → b ∈ c.blocks ∧ ownBlock x.buffer1 ≠ some b) ∧
      ∀ b, ownBlock x.buffer1 = some b → b ∈ c.blocks

/-- The slot is ready for its head write: DRAINING past its end sample with both buffers FREE (R60, R66). -/
def HeadDue (x : Slot) : Prop :=
  ∃ c rp cause, x.capture = some c ∧ c.phase = .draining rp cause ∧ c.endSample < rp ∧ x.buffer0 = .free ∧ x.buffer1 = .free

/-- The requests of slot `k` suit it (R60): while one is in progress none waits, and it is that of a WRITING buffer or
of the head; one that waits is the write of a FILLED buffer's block or of the head. -/
def RequestsSuit (port : StorePort) (k : SlotIx) (x : Slot) : Prop :=
  (∀ op, port.busy = some ⟨.slot k, op⟩ → (x.writingData = true ∨ HeadDue x) ∧ ∀ r ∈ port.waiting, r.who ≠ .slot k) ∧
    ∀ r ∈ port.waiting, r.who = .slot k → ∃ b contents, r.op = .write b contents ∧
      (HeadDue x ∨ ∃ d : Staged, d.block = b ∧ (x.buffer0 = .filled d ∨ x.buffer1 = .filled d))

/-- The slot of a COMMIT job. -/
def commitSlot? : IndexJob → Option SlotIx
  | .commit k _ _ _ => some k
  | _ => none

/-- The COMMIT jobs in the Index Unit's queue are of different slots, each of them COMMITTING (R69, R70). -/
def CommitJobsSuit (s : State) : Prop :=
  (s.index.queue.filterMap commitSlot?).Nodup ∧
    ∀ k ∈ s.index.queue.filterMap commitSlot?, ∃ c e, (s.slot k).capture = some c ∧ c.phase = .committing e

/-- Outside MOUNTING the reservation total does not exceed the free count; every block that a slot or a recording's
index claims is used and claimed once (R97); and the buffers, the requests and the COMMIT jobs of the slots suit their
captures. -/
structure BlocksAccounted (s : State) : Prop where
  reservations : s.store.state ≠ .mounting → s.store.reserved ≤ s.store.free
  claims : ∀ b, blockClaims s b ≤ if b ∈ s.store.used then 1 else 0
  tidy : ∀ k, SlotTidy (s.slot k)
  requests : ∀ k, RequestsSuit s.port k (s.slot k)
  jobs : CommitJobsSuit s

/-- The head read of the release job in progress brings a record with a block that a slot or a recording's index
claims. -/
def ReleasesClaimed (s : State) : Prop :=
  ∃ j js op b, s.release.queue = j :: js ∧ s.port.busy = some ⟨.release, op⟩ ∧
    (b = j.head ∨ ∃ h, readHead j.recording (op.contents s.array) = some h ∧ b ∈ h.blocks) ∧ 0 < blockClaims s b

/-! ### Places, requests and tables -/

/-- The places that the Index Unit should hold in a phase: one for each record that the write sends (R130). -/
def placesDue : IndexPhase → Nat
  | .writing _ w => w.sends.length
  | _ => 0

/-- At most 64 places of the release queue are occupied, and the Index Unit holds one for each record that the
write it has presented sends away (R130). -/
def ReleasePlaces (s : State) : Prop :=
  s.release.queue.length + s.release.parked.length + s.index.held ≤ Config.releasePlaces ∧
    s.index.held = placesDue s.index.phase

/-- The request in process is `q`, handed to the owner of command `c` and not yet taken by it (R180). -/
def Handed (s : State) (c : Command) (q : Request) : Prop := s.mgmt.request = some q ∧ q.stage = .owner c

/-- The request in process is `q`, handed to the owner of readout command `c`, and it names port `p` (R147, R180). -/
def HandedToPort (s : State) (c : Command) (q : Request) (p : PortIx) : Prop := Handed s c q ∧ q.readoutPort = some p

/-- The loaded entry `e` of stream index `i` has this key, and it is the entry that the look-up finds (R1, R11). -/
def KeyAt (s : State) (node stream : Byte) (i : StreamIx) (e : StreamEntry) : Prop :=
  s.stream i = some e ∧ e.node = node ∧ e.stream = stream ∧
    ∀ j e', j < i → s.stream j = some e' → ¬(e'.node = node ∧ e'.stream = stream)

/-- Cells `b` to `b + length - 1` exist and belong to no ring of a loaded stream (R4). -/
def RunFree (s : State) (length b : Nat) : Prop :=
  b + length ≤ 65536 ∧ ∀ i e, s.stream i = some e → b + length ≤ e.base ∨ e.base + e.length ≤ b

/-- A check 2 to 4 of a store command fails with this refusal, the ones before it having passed (R106). -/
def StoreCheckFails (s : State) (unformattedOk : Bool) (st : Status) : Prop :=
  (st = .notReady ∧ (s.store.state = .mounting ∨ s.store.state = .unformatted ∧ unformattedOk = false)) ∨
    (s.store.state ≠ .mounting ∧ (s.store.state = .unformatted → unformattedOk = true) ∧
      ((st = .busy ∧ s.maint ≠ none) ∨ (s.maint = none ∧ st = .protectedStore ∧ s.protect = true)))

/-- Checks 2 to 4 of a store command all pass (R106). -/
def StoreChecksPass (s : State) (unformattedOk : Bool) : Prop :=
  s.store.state ≠ .mounting ∧ (s.store.state = .unformatted → unformattedOk = true) ∧ s.maint = none ∧ s.protect = false

/-- What an effect of the capture path may change: rules, slots, the pointer, the Condition Unit, the used blocks,
counts and cursor of the Store Manager, the Store Port's requests, and the status record. -/
def WithinCapture (s t : State) : Prop :=
  t = { s with
    rules := t.rules, slots := t.slots, pointer := t.pointer, cond := t.cond, port := t.port
    store := { s.store with used := t.store.used, free := t.store.free, reserved := t.store.reserved, cursor := t.store.cursor }
    mgmt := { s.mgmt with status := t.mgmt.status } }

/-- The Store Port is busy with this request (R117). -/
def Granted (s : State) (w : Requester) (op : StoreOp) : Prop := s.port.busy = some ⟨w, op⟩

end Sys2Proof
end

