-- ==== Sys2Proof/WellFormed.lean ====
section
/-!
DEFINITION. When a command is one that the table's row describes: an arrival row carries a frame of its
kind (R160). Every other operand is in range by its type.
-/

namespace Sys2Proof

/-- A DATA_FRAME_ARRIVAL carries a good-check DATA frame, a CYCLE_FRAME_ARRIVAL a good-check CYCLE
frame, an MREQ_ARRIVAL a good-check MREQ, and FRAME_FORWARD "any other arriving frame": on port A
anything but a good-check DATA frame, on port B anything but a good-check CYCLE frame (an MREQ for
another node is one of them, R163). -/
def Instr.WellFormed : Instr → Bool
  | .dataFrameArrival f => frameKind f == .data
  | .cycleFrameArrival f => frameKind f == .cycle
  | .mreqArrival f => frameKind f == .mreq
  | .frameForward .a f => frameKind f != .data
  | .frameForward .b f => frameKind f != .cycle
  | _ => true

end Sys2Proof
end

