-- ==== Sys2Proof/Certificates/Slice0/Obligations.lean ====
section
/-!
DEFINITION. The statements about the model, for the provers. They follow the numbered rules of spec/, chapter by
chapter; a statement that rests on a choice of the model names its log entry.
-/

open Sys2Proof Sys2Proof.Machine

/-! ### The queue, the stops and the input lines -/

/-- A step runs the command at the front of the queue on the state with the queue's rest; with an empty queue the part
idles (the model's choice, log 8). -/
def Obligations.StepRunsTheFrontCommand : Prop :=
  (∀ (c : Instr) (s : State), step { s with pending := c :: s.pending } = exec c s) ∧
    ∀ s : State, s.pending = [] → step s = .next s

/-- Every command answers a next state in every state, but for a frame that arrives while the supply is off, of which
the manual says nothing (log 23). No command changes the queue, and the supply, the RESET line and the PROTECT
line change by their own rows only (R104, R169). -/
def Obligations.CommandsCompleteAndLinesMoveByTheirRows : Prop :=
  (
    ∀ (c : Instr) (s : State),
      (∃ t, exec c s = .next t) ∨ (exec c s = .fault .withoutPower ∧ s.powered = false ∧ c.frame? ≠ none)) ∧
  (
    ∀ (c : Instr) (s t : State), exec c s = .next t →
      t.pending = s.pending ∧
        ((∀ n, c ≠ .powerOn n) → c ≠ .powerLoss → t.powered = s.powered) ∧
        (c ≠ .resetAssert → (∀ n, c ≠ .resetRelease n) → t.resetLine = s.resetLine) ∧
        (c ≠ .protectAssert → c ≠ .protectRelease → t.protect = s.protect))

/-! ### Reset and the invariants -/

/-- What the spec gives at power-on (R3, R23, R49, R89, R103, R118, R129, R134, R145, R169, R172, R176, R183): every
table empty, every unit at its start values, bypass in both directions, START(1) unread, and the mount scan's read of
block 0 granted. The invariants hold right after reset. -/
def Obligations.PowerOnValues : Prop :=
  (
    let s := State.reset
    (∀ i, s.stream i = none) ∧ (∀ i, s.rule i = none) ∧ (∀ k, s.slot k = ⟨none, .free, .free⟩) ∧ s.pointer = 0 ∧
      s.cond = { flags := 0, masks := 255, level := 4, state := .running, detail := none } ∧
      s.store.state = .mounting ∧ s.store.label = none ∧ s.store.used = [] ∧ s.store.free = 8175 ∧ s.store.reserved = 0 ∧
      s.store.cursor = 17 ∧ (∀ r, s.store.entry r = none) ∧ (∀ r, s.store.recording r = .free) ∧ s.store.damage = 0 ∧
      s.maint = some (.mount .label) ∧ s.port.busy = some ⟨.maintenance, .read 0⟩ ∧ s.port.waiting = [] ∧
      s.port.lastSlot = 7 ∧ s.port.lastPort.val + 1 = 6 ∧ s.index.queue = [] ∧ s.index.held = 0 ∧ s.release.queue = [] ∧
      s.release.parked = [] ∧ (∀ p, s.readPort p = .closed) ∧ s.link.aToB = .bypass ∧ s.link.bToA = .bypass ∧
      s.link.fifoA = [] ∧ s.link.fifoB = [] ∧ s.link.response = none ∧ s.link.counters = .zero ∧ s.time = ⟨0, 0⟩ ∧
      s.mgmt.phase = .idle ∧ s.mgmt.request = none ∧ s.mgmt.held = none ∧ s.mgmt.discarded = 0 ∧ s.mgmt.status = ⟨60, 1, 0, 0⟩) ∧
  (
    Canonical .reset ∧ ConditionLaw .reset ∧ EgressBounded .reset ∧ MapAccounted .reset ∧ ReservationsMatch .reset ∧
      BlocksAccounted .reset ∧ ReleasePlaces .reset)

/-- Every step keeps the canonical form of the array and of sample memory. -/
def Obligations.StepKeepsMemoriesCanonical : Prop :=
 ∀ s t : State, Canonical s → step s = .next t → Canonical t

/-- Every step keeps the law of conditions: a set flag whose mask is clear means SUSPENDED, and the detail record is
empty exactly while capture is RUNNING (R77, R79). -/
def Obligations.StepKeepsConditionLaw : Prop :=
 ∀ s t : State, ConditionLaw s → step s = .next t → ConditionLaw t

/-- Every step leaves at most four waiting frames in each egress FIFO (R166, R167). -/
def Obligations.StepKeepsEgressBounded : Prop :=
 ∀ s t : State, EgressBounded s → step s = .next t → EgressBounded t

/-- Every step keeps the allocation map accounted for: the used blocks are distinct blocks of the data area, the
cursor stands in it, and outside MOUNTING the free count is the number of the other blocks; and the store is MOUNTING
exactly while the mount scan is in progress (R96, R97, R99). Every step keeps the blocks accounted for: outside MOUNTING the
reservation total never exceeds the free count; and every head or listed block of a slot, every block that an orphaned
write still writes, every index block at a held place of a recording, and every index block of a CREATE or a DELETE in
progress is used and is claimed once (R57, R58, R97, R110, R113, R140). The one exception is the completion of the Release
Unit's head read that brings a record with a block so claimed: the blocks of records stand in the array, which this
invariant does not read, and R97 lets no record hold such a block. Even then the reservation total does not exceed the
free count. -/
def Obligations.StepKeepsMapAccounted : Prop :=
  (
    ∀ s t : State, MapAccounted s → step s = .next t → MapAccounted t) ∧
  (
    ∀ s t : State, MapAccounted s → ReservationsMatch s → BlocksAccounted s → step s = .next t →
      (t.store.state ≠ .mounting → t.store.reserved ≤ t.store.free) ∧
        (BlocksAccounted t ∨ (∃ cs, s.pending = .releaseHeadReadComplete :: cs) ∧ ReleasesClaimed s))

/-- Every step keeps the reservation total equal to the sum of the slots' remaining reservations, and captures in a
READY store only (R51, R53, R97, R98). -/
def Obligations.StepKeepsReservationsMatched : Prop :=
  ∀ s t : State, MapAccounted s → ReservationsMatch s → step s = .next t → ReservationsMatch t

/-- Every step leaves at most 64 places of the release queue occupied, and the Index Unit holding one place for each
record that the write it has presented sends away, none otherwise (R130). -/
def Obligations.StepKeepsReleasePlaces : Prop :=
 ∀ s t : State, ReleasePlaces s → step s = .next t → ReleasePlaces t

/-! ### The store array and the Store Port -/

/-- The array changes only by the block write that the Store Port is busy with, and then that one block changes (R90,
R117): every other block reads as before. -/
def Obligations.ArrayChangesByTheGrantedWriteOnly : Prop :=
  ∀ s t : State, step s = .next t →
    t.array = s.array ∨
      ∃ w b contents, Granted s w (.write b contents) ∧ t.array = writeBlock s.array b contents ∧
        (contents.length = 256 → readBlock t.array b = contents) ∧ ∀ b', b' ≠ b → readBlock t.array b' = readBlock s.array b'

/-- While the PROTECT line is asserted no write is granted: a write in progress after a step was in progress before it
(R119). -/
def Obligations.NoWriteStartsUnderProtect : Prop :=
  ∀ (c : Instr) (s t : State) (w : Requester) (b : Nat) (contents : List Byte),
    s.protect = true → c ≠ .protectRelease → exec c s = .next t → Granted t w (.write b contents) →
      Granted s w (.write b contents)

/-- The arbiter's choice (R118): a grantable waiting request, of the lowest class, and within classes 1 and 5 the
first in the order following the last granted; none only when none waits that is grantable. The arbiter's test (R117,
R118): a busy port and an idle port with nothing grantable stay as they are; an idle port grants the choice, which
leaves the waiting requests; the pointer of its class moves to it, and a FILLED buffer whose block a slot's granted
write names becomes WRITING (R60). While RESTARTING nothing is granted (R187). The test at the completion of a head
write is the model's (log 3, from section 11.3 step 3): while the Index Unit has a job to take up at once, a request of
class 3 to 5 is not granted there; any other choice is granted as at every test. -/
def Obligations.ArbiterChoosesByClassAndGrantsWhenIdle : Prop :=
  (
    ∀ s : State,
      (∀ r, s.arbiterChoice = some r →
        r ∈ s.port.waiting ∧ r.op.grantable s.protect = true ∧
          ∀ r' ∈ s.port.waiting, r'.op.grantable s.protect = true →
            r.who.rank ≤ r'.who.rank ∧
              (∀ k k' : SlotIx, r.who = .slot k → r'.who = .slot k' →
                (k.val + 7 - s.port.lastSlot.val) % 8 ≤ (k'.val + 7 - s.port.lastSlot.val) % 8) ∧
              ∀ p p' : PortIx, r.who = .port p → r'.who = .port p' →
                (p.val + 5 - s.port.lastPort.val) % 6 ≤ (p'.val + 5 - s.port.lastPort.val) % 6) ∧
        (s.arbiterChoice = none → ∀ r ∈ s.port.waiting, r.op.grantable s.protect = false)) ∧
  (
    ∀ s : State,
      (s.port.busy ≠ none → s.arbitrate = s) ∧ (s.arbiterChoice = none → s.arbitrate = s) ∧
        (s.mgmt.phase = .restarting → s.arbitrate = s) ∧
        (∀ r, s.port.busy = none → s.mgmt.phase ≠ .restarting → s.arbiterChoice = some r →
          s.arbitrate.port.busy = some r ∧
            s.arbitrate.port.waiting = s.port.waiting.filter (·.who != r.who) ∧
            (∀ k, r.who = .slot k → s.arbitrate.port.lastSlot = k) ∧
            (∀ p, r.who = .port p → s.arbitrate.port.lastPort = p) ∧
            s.arbitrate = { s with port := s.arbitrate.port, slots := s.arbitrate.slots } ∧
            (∀ k, (s.arbitrate.slot k).capture = (s.slot k).capture) ∧
            (∀ k, r.who ≠ .slot k → s.arbitrate.slot k = s.slot k) ∧
            ∀ k b contents, r = ⟨.slot k, .write b contents⟩ →
              let after : Buffer → Buffer := fun
                | .filled d => if d.block = b then .writing d false else .filled d
                | x => x
              (s.arbitrate.slot k).buffer0 = after (s.slot k).buffer0 ∧ (s.arbitrate.slot k).buffer1 = after (s.slot k).buffer1) ∧
        (∀ r, s.arbiterChoice = some r → 2 < r.who.rank → s.index.phase = .idle → s.index.queue ≠ [] →
          s.arbitrateForCommit = s) ∧
        ((∀ r, s.arbiterChoice = some r → 2 < r.who.rank → s.index.phase ≠ .idle ∨ s.index.queue = []) →
          s.arbitrateForCommit = s.arbitrate))

/-- The block that a take claim chooses (R99): the first free block at or after the cursor, searching upward to 8191
and then from 17; the cursor then stands at the block after it, or at 17 after 8191; a reserved take lowers the free
count and the reservation total by one. A free claim makes a used block free and counts it; a block already free stays
so and is not counted, and no claim of this kind moves the cursor (R98, R99, R131). With the map in order, a take answers
a block when one is free, and a take of n blocks answers n different free blocks, which are then used, when as many are
free. -/
def Obligations.ClaimsTakeFromTheCursorAndFree : Prop :=
  (
    ∀ (m m' : StoreManager) (b : Nat), MapOk m → m.takeReserved = some (b, m') →
      17 ≤ b ∧ b ≤ 8191 ∧ b ∉ m.used ∧
        ((m.cursor ≤ b ∧ ∀ x, m.cursor ≤ x → x < b → x ∈ m.used) ∨
          (b < m.cursor ∧ (∀ x, m.cursor ≤ x → x ≤ 8191 → x ∈ m.used) ∧ ∀ x, 17 ≤ x → x < b → x ∈ m.used)) ∧
        m'.cursor = (if b = 8191 then 17 else b + 1) ∧ (∀ x, x ∈ m'.used ↔ x = b ∨ x ∈ m.used) ∧
        m' = { m with used := m'.used, free := m.free - 1, reserved := m.reserved - 1, cursor := m'.cursor }) ∧
  (
    ∀ (m : StoreManager) (b : Nat),
      (b ∈ m.used → (∀ x, x ∈ (m.freeBlock b).used ↔ x ∈ m.used ∧ x ≠ b) ∧
        m.freeBlock b = { m with used := (m.freeBlock b).used, free := m.free + 1 }) ∧
        (b ∉ m.used → m.freeBlock b = m)) ∧
  (
    ∀ (m : StoreManager), MapOk m →
      (m.used.length < 8175 → ∃ b m', m.takeReserved = some (b, m')) ∧
        ∀ n, n + m.used.length ≤ 8175 → ∃ bs m', m.takeMany n = some (bs, m') ∧ bs.length = n ∧ bs.Nodup ∧
          (∀ b ∈ bs, 17 ≤ b ∧ b ≤ 8191 ∧ b ∉ m.used) ∧ (∀ x, x ∈ m'.used ↔ x ∈ bs ∨ x ∈ m.used) ∧
          m' = { m with used := m'.used, free := m.free - n, cursor := m'.cursor })

/-! ### The link -/

/-- Placing a forwarded frame (R166, R167, R168): it is dropped and counted when four wait; with the send side idle
and nothing waiting it is sent at once; otherwise it waits at the tail. A frame has left (R167, R168, R170): port B
then sends the oldest waiting forwarded frame, otherwise the response in the response place, which empties; port A the
oldest waiting frame; a direction whose send side is idle chooses in the same way, and a busy send side goes on. Each MRSP that leaves port B is counted, the part's own and a forwarded frame of that kind (R160,
R170, R189; log 13). -/
def Obligations.EgressPlacingAndSendDone : Prop :=
  (
    ∀ (l : Link) (f : Frame),
      (4 ≤ l.fifoB.length → l.placeB f = { l with counters := { l.counters with overrunB := satSucc l.counters.overrunB } }) ∧
        (4 ≤ l.fifoA.length → l.placeA f = { l with counters := { l.counters with overrunA := satSucc l.counters.overrunA } }) ∧
        (l.fifoB = [] → l.sendingB = none → l.aToB = .through → l.placeB f = { l with sendingB := some ⟨f, false⟩ }) ∧
        (l.fifoA = [] → l.sendingA = none → l.bToA = .through → l.placeA f = { l with sendingA := some f }) ∧
        (l.fifoB.length < 4 → l.sendingB ≠ none → l.placeB f = { l with fifoB := l.fifoB ++ [f] }) ∧
        (l.fifoA.length < 4 → l.sendingA ≠ none → l.placeA f = { l with fifoA := l.fifoA ++ [f] })) ∧
  (
    ∀ l : Link,
      (l.aToB = .through → l.sendingB = none →
        (∀ f fs, l.fifoB = f :: fs → l.chooseB = { l with sendingB := some ⟨f, false⟩, fifoB := fs }) ∧
          (∀ f, l.fifoB = [] → l.response = some f → l.chooseB = { l with sendingB := some ⟨f, true⟩, response := none }) ∧
          (l.fifoB = [] → l.response = none → l.chooseB = l)) ∧
        (l.bToA = .through → l.sendingA = none →
          (∀ f fs, l.fifoA = f :: fs → l.chooseA = { l with sendingA := some f, fifoA := fs }) ∧
            (l.fifoA = [] → l.chooseA = l)) ∧
        (l.sendingB ≠ none → l.chooseB = l) ∧ (l.sendingA ≠ none → l.chooseA = l)) ∧
  (
    ∀ s : State,
      (∀ x, s.link.sendingB = some x → s.link.aToB = .through →
        let c := if x.response = true ∨ frameKind x.frame = .mrsp then
            { s.link.counters with responsesSent := satSucc s.link.counters.responsesSent }
          else s.link.counters
        (∀ f fs, s.link.fifoB = f :: fs →
          exec .portBSendDone s = .next { s with link := { s.link with counters := c, sendingB := some ⟨f, false⟩, fifoB := fs } }) ∧
          (∀ f, s.link.fifoB = [] → s.link.response = some f →
            exec .portBSendDone s = .next { s with link := { s.link with counters := c, sendingB := some ⟨f, true⟩, response := none } }) ∧
          (s.link.fifoB = [] → s.link.response = none →
            exec .portBSendDone s = .next { s with link := { s.link with counters := c, sendingB := none } })) ∧
        ∀ x, s.link.sendingA = some x → s.link.bToA = .through →
          (∀ f fs, s.link.fifoA = f :: fs →
            exec .portASendDone s = .next { s with link := { s.link with sendingA := some f, fifoA := fs } }) ∧
            (s.link.fifoA = [] → exec .portASendDone s = .next { s with link := { s.link with sendingA := none } }))

/-- Frames that the part does not act on (R160, R163): counted as good or bad check at their port, and forwarded as
received toward the other port; nothing else changes. On port B this covers the MREQ of another node: an MREQ is for the part exactly when the node
address is 1 to 62 and byte 1 of the frame, as a whole byte, equals it (R163, R165, R189). A good-check
DATA frame that is not well formed (R161): counted as a frame and as malformed, forwarded as received, and offered to
no stream; nothing but the link changes. A DATA frame of an unknown stream (R11): forwarded unmarked; no entry, ring,
rule or slot is touched. Outside the through path no arrival reaches the part: in bypass it passes by uncounted, while
bypass is being entered it is lost (R169). The kind of a frame (R189): shorter than 3 bytes, or its last two bytes not
the CRC-16 over the bytes before them, it is a bad-check frame; otherwise byte 0 and the length give the kind, CYCLE of 4
bytes, MREQ of 8 to 56, MRSP of 11 to 75, DATA of any length, and OTHER for the rest. The CRC-16 has the generator
x^16 + x^12 + x^5 + 1, starts at 0xFFFF, takes bits most significant first and has no final inversion; it is also the
check that a frame or a block is given. -/
def Obligations.FramesNotActedOnAreForwarded : Prop :=
  (
    let bitStep : BitVec 16 → Bool → BitVec 16 := fun c bit => if c.msb = bit then c <<< 1 else (c <<< 1) ^^^ 0x1021
    let crc : List Byte → BitVec 16 := fun bs =>
      (bs.flatMap fun b => (List.range 8).map fun i => b.getLsbD (7 - i)).foldl bitStep 0xFFFF
    (∀ bs, withCheck bs = bs ++ wordBytes 2 (crc bs)) ∧
      ∀ f : Frame,
        let n := f.length
        let b := byteAt f 0
        let good := 3 ≤ n ∧ (byteAt f (n - 2)).toNat * 256 + (byteAt f (n - 1)).toNat = (crc (f.take (n - 2))).toNat
        (¬good → frameKind f = .badCheck) ∧
          (good →
            (b = 0xD1 → frameKind f = .data) ∧ (b = 0xC2 → frameKind f = if n = 4 then .cycle else .other) ∧
              (b = 0xA3 → frameKind f = if 8 ≤ n ∧ n ≤ 56 then .mreq else .other) ∧
              (b = 0xA4 → frameKind f = if 11 ≤ n ∧ n ≤ 75 then .mrsp else .other) ∧
              (b ≠ 0xD1 → b ≠ 0xC2 → b ≠ 0xA3 → b ≠ 0xA4 → frameKind f = .other))) ∧
  (
    ∀ (l : Link) (f : Frame),
      l.isOwn f = true ↔ 1 ≤ l.node.toNat ∧ l.node.toNat ≤ 62 ∧ (byteAt f 1).toNat = l.node.toNat) ∧
  (
    ∀ (s : State) (f : Frame), s.powered = true →
      (s.link.aToB = .through → frameKind f ≠ .data →
        let c := if frameKind f = .badCheck then { s.link.counters with portABad := satSucc s.link.counters.portABad }
          else { s.link.counters with portAFrames := satSucc s.link.counters.portAFrames }
        exec (.frameForward .a f) s = .next { s with link := { s.link with counters := c }.placeB f }) ∧
        (s.link.bToA = .through → frameKind f ≠ .cycle → ¬(frameKind f = .mreq ∧ s.link.isOwn f = true) →
          let c := if frameKind f = .badCheck then { s.link.counters with portBBad := satSucc s.link.counters.portBBad }
            else { s.link.counters with portBFrames := satSucc s.link.counters.portBFrames }
          exec (.frameForward .b f) s = .next { s with link := { s.link with counters := c }.placeA f })) ∧
  (
    ∀ (s : State) (f : Frame), s.powered = true → s.link.aToB = .through → frameKind f = .data →
      ¬(1 ≤ (byteAt f 1).toNat ∧ (byteAt f 1).toNat ≤ 62 ∧ 1 ≤ (byteAt f 5).toNat ∧ (byteAt f 5).toNat ≤ 32 ∧
        f.length = 8 + 2 * (byteAt f 5).toNat) →
      let c := { s.link.counters with
        portAFrames := satSucc s.link.counters.portAFrames, malformed := satSucc s.link.counters.malformed }
      exec (.dataFrameArrival f) s = .next { s with link := { s.link with counters := c }.placeB f }) ∧
  (
    ∀ (s : State) (f : Frame), s.powered = true → s.link.aToB = .through → frameKind f = .data → dataWellFormed f = true →
      (∀ i e, s.stream i = some e → ¬(e.node = byteAt f 1 ∧ e.stream = byteAt f 2 &&& 0x0F)) →
      exec (.dataFrameArrival f) s = .next { s with
        link := { s.link with
          counters := { s.link.counters with portAFrames := satSucc s.link.counters.portAFrames } }.placeB f }) ∧
  (
    ∀ (s : State) (f : Frame), s.powered = true →
      (s.link.aToB ≠ .through → exec (.dataFrameArrival f) s = .next s ∧ exec (.frameForward .a f) s = .next s) ∧
        (s.link.bToA ≠ .through → exec (.cycleFrameArrival f) s = .next s ∧ exec (.mreqArrival f) s = .next s ∧
          exec (.frameForward .b f) s = .next s))

/-- A good-check CYCLE frame on port B (R173): flag clear, the cycle count rises by 1 modulo 2^32 and the epoch stays;
flag set, the cycle count becomes 0 and the epoch rises by 1 modulo 2^16; it gives one tick and is then placed in port
A egress unchanged. From a cycle count of 0, which a marker leaves and a start gives, unflagged frames are counted
modulo 2^32. A CYCLE frame with a bad check, one that arrives on port A, and one that passes through the bypass change
neither number and give no tick. -/
def Obligations.CycleFrameIsTheTick : Prop :=
  (∀ (s : State) (f : Frame), s.powered = true → s.link.bToA = .through → frameKind f = .cycle →
    let c := { s.link.counters with portBFrames := satSucc s.link.counters.portBFrames }
    let time : Stamp := if (byteAt f 1).getLsbD 0 then ⟨s.time.epoch + 1, 0⟩ else ⟨s.time.epoch, s.time.cycle + 1⟩
    let t := ({ s with link := { s.link with counters := c }, time := time } : State).tickRules.tickSlots
    exec (.cycleFrameArrival f) s = .next { t with link := t.link.placeA f } ∧ t.time = time ∧
      t.link = { s.link with counters := c }) ∧
    (∀ (e : BitVec 16) (c : BitVec 32) (n : Nat), (⟨e, c⟩ : Stamp).afterCycle true = ⟨e + 1, 0⟩ ∧
      (fun t : Stamp => t.afterCycle false)^[n] ⟨e, 0⟩ = ⟨e, BitVec.ofNat 32 n⟩) ∧
    (∀ (s t : State) (f : Frame), frameKind f = .badCheck → exec (.frameForward .b f) s = .next t →
      t.time = s.time ∧ t.rules = s.rules ∧ t.slots = s.slots) ∧
    (∀ (s t : State) (f : Frame), frameKind f = .cycle → exec (.frameForward .a f) s = .next t →
      t.time = s.time ∧ t.rules = s.rules ∧ t.slots = s.slots) ∧
    ∀ (s t : State) (f : Frame), s.link.bToA = .bypass → exec (.cycleFrameArrival f) s = .next t → t = s

/-- Routing (R180): an unknown code is UNKNOWN COMMAND, the codes being those of section 10.2; then a readout command wants a port 1 to 6 and any other
command port 0, else BAD PORT; then the argument length is that of the same table, SLOTS QUERY's 0 or 1, else BAD
ARGUMENT; a request that passes goes
to the owner of its command. An MREQ is for the part exactly when the node address is 1 to 62 and byte 1 of the frame, as
a whole byte, equals it, so that straps 0 and 63 take none (R163, R165, R189). A good-check MREQ for the part (R163, R177,
R180): it is removed from the link and
counted. In IDLE it is taken: it becomes the request in process with the fields of the frame, is handed to the owner
of its command, and the phase is PROCESSING; a routing refusal is answered at once, with port word 0 (log 20). In any
other phase it is discarded and counted, and nothing else changes. -/
def Obligations.RoutingChecksInOrderAndMreqIsTakenOrDiscarded : Prop :=
  (
    let table : List (Nat × Command × List Nat) :=
      [(10, .streamLoad, [4]), (11, .streamDrop, [1]), (12, .streamQuery, [1]), (20, .ruleLoad, [22]), (21, .ruleEnable, [1]),
        (22, .ruleDisable, [1]), (23, .ruleUnload, [1]), (24, .ruleQuery, [1]), (25, .fire, [1]), (26, .unfire, [1]),
        (30, .slotsQuery, [0, 1]), (31, .cut, [1]), (40, .controlSet, [3]), (41, .clearConditions, [1]),
        (42, .conditionsQuery, [0]), (50, .format, [17]), (51, .create, [17]), (52, .delete, [1]), (53, .erase, [9]),
        (54, .storeQuery, [0]), (55, .recordingQuery, [2]), (60, .status, [0]), (61, .identify, [0]), (62, .restart, [0]),
        (70, .portOpen, [5]), (71, .portPosition, [2]), (72, .portRead, [1]), (73, .portInfo, [0]), (74, .portClose, [0])]
    ∀ (code port : Byte) (args : List Byte),
      ((∀ x ∈ table, x.1 ≠ code.toNat) → Request.route code port args = .inl .unknownCommand) ∧
        ∀ x ∈ table, x.1 = code.toNat →
          let portGood := if 70 ≤ x.1 then 1 ≤ port.toNat ∧ port.toNat ≤ 6 else port = 0
          (¬portGood → Request.route code port args = .inl .badPort) ∧
            (portGood → args.length ∉ x.2.2 → Request.route code port args = .inl .badArgument) ∧
            (portGood → args.length ∈ x.2.2 → Request.route code port args = .inr x.2.1)) ∧
  (
    ∀ (l : Link) (f : Frame),
      l.isOwn f = true ↔ 1 ≤ l.node.toNat ∧ l.node.toNat ≤ 62 ∧ (byteAt f 1).toNat = l.node.toNat) ∧
  (
    ∀ (s : State) (f : Frame), s.powered = true → s.link.bToA = .through → frameKind f = .mreq → s.link.isOwn f = true →
      let c := { s.link.counters with
        portBFrames := satSucc s.link.counters.portBFrames, mreqsTaken := satSucc s.link.counters.mreqsTaken }
      let q : Stage → Request := fun stage =>
        { source := byteAt f 2, tag := byteAt f 3, port := byteAt f 4, code := byteAt f 5,
          args := (f.drop 6).take (f.length - 8), stage := stage }
      (s.mgmt.phase = .idle → ∀ k, Request.route (byteAt f 5) (byteAt f 4) (q (.answered false)).args = .inr k →
        exec (.mreqArrival f) s = .next { s with
          link := { s.link with counters := c }
          mgmt := { s.mgmt with phase := .processing, request := some (q (.owner k)) } }) ∧
        (s.mgmt.phase = .idle → ∀ st, Request.route (byteAt f 5) (byteAt f 4) (q (.answered false)).args = .inl st →
          exec (.mreqArrival f) s = .next (({ s with
            link := { s.link with counters := c }
            mgmt := { s.mgmt with phase := .processing, request := some (q (.answered false)) } } : State).respond st [])) ∧
        (s.mgmt.phase ≠ .idle →
          exec (.mreqArrival f) s = .next { s with
            link := { s.link with counters := c }, mgmt := { s.mgmt with discarded := satSucc s.mgmt.discarded } }))

/-- The answer to the request in process (R178, R179): its MRSP carries the node, source, tag, port and code of the
request with the status, the port word and the result, and a check over them. With the response place empty it is
placed at once, the request is finished and the phase is IDLE, or RESTARTING for an accepted RESTART; otherwise it is
held, the request staying in process. Nothing but the link and the Management Unit changes. An answer of an
owner other than a readout port, and every refusal, has the port word 0 (log 20), and a refusal an empty result; that of a
readout port has, on an OPEN port, the withdrawn mark in bit 15 and the position modulo 2^14, and 0 on another (R147, R182,
R190). RESPONSE_HELD_PLACED
(R178): the response held goes into the empty response place, and its request is finished. -/
def Obligations.AnswersArePlacedOrHeldAndThenPlaced : Prop :=
  (
    ∀ (s : State) (q : Request) (st : Status) (word : BitVec 16) (result : List Byte) (restart : Bool),
      s.mgmt.request = some q →
        let f := withCheck ([0xA4, q.source, s.link.node.setWidth 8, q.tag, q.port, q.code, st.code]
          ++ [word.extractLsb' 8 8, word.extractLsb' 0 8] ++ result)
        (s.link.response = none →
          s.respondWith st word result restart = { s with
            link := ({ s.link with response := some f } : Link).chooseB
            mgmt := { s.mgmt with
              held := none, request := none, phase := if restart then .restarting else .idle } }) ∧
          (s.link.response ≠ none →
            s.respondWith st word result restart = { s with
              mgmt := { s.mgmt with held := some f, request := some { q with stage := .answered restart } } })) ∧
  (
    ∀ (s : State) (st : Status) (result : List Byte) (p : PortIx),
      s.respond st result = s.respondWith st 0 result false ∧ s.refuse st = s.respondWith st 0 [] false ∧
        ((∀ r, s.readPort p ≠ .opened r) → s.portAnswer p st result = s.respondWith st 0 result false) ∧
        ∀ r, s.readPort p = .opened r → s.portAnswer p st result =
          s.respondWith st (BitVec.ofNat 16 ((if r.withdrawn then 2 ^ 15 else 0) + r.position % 2 ^ 14)) result false) ∧
  (
    ∀ (s : State) (f : Frame) (q : Request), s.mgmt.held = some f → s.link.response = none → s.mgmt.request = some q →
      exec .responseHeldPlaced s = .next { s with
        link := ({ s.link with response := some f } : Link).chooseB
        mgmt := { s.mgmt with
          held := none, request := none, phase := if q.stage = .answered true then .restarting else .idle } })

/-! ### Streams (chapter 1) -/

/-- An old frame, or one whose samples would pass the end of the sample numbers (R14, R15): old frames rises by 1 and
the frame is forwarded unmarked; nothing else happens. An accepted DATA frame (R6, R12, R13, R15, R16, R18, R20, R43):
across a gap of d frames, gap events rises by 1, every COLLECTING slot of the stream gets the gap signal of d with the
number of the frame's first sample, the rules of the stream get the gap, and the previous sample is absent; then frames
taken rises by 1, the stream is LIVE, its slots reload their timers, and the samples are taken in frame order. For each
sample: the slots get the overtake signal of the sample that leaves the ring, if one does; the sample is written to its
cell and is the newest; the slots make their checks and the exhaustion test; the rules of the stream are evaluated on it
in ascending number, with the previous sample as it stood; and it becomes the previous sample. The expected sequence is
the next one, and the frame is marked exactly when a MARK rule fired in it and its flag is not set (R164). So the entry
takes its samples, next number, sequence, state and counters, and every other entry stays; sample k is in cell base +
((next + k) mod length) unless a later sample of the frame took the cell, and every other cell stays; and what rules and
slots do stays within the capture path. The slots are taken in ascending number (log 4). One evaluation (R33 to R38,
R43): a rule not loaded or of another stream is passed by; a rule moves to the state that the sample gives it, or fires,
and then asks for the frame to be marked if it has MARK. After the samples of an accepted frame the arbiter tests,
which matters where a preempting request of the frame met the completion of the slot's write (the model's choice, log 30).
Sample j of a frame is its bytes 6 + 2j and 7 + 2j (R189). -/
def Obligations.OfferedFramesAreCountedOrAccepted : Prop :=
  (
    ∀ (s : State) (f : Frame) (i : StreamIx) (e : StreamEntry),
      s.powered = true → s.link.aToB = .through → frameKind f = .data → dataWellFormed f = true →
      KeyAt s (byteAt f 1) (byteAt f 2 &&& 0x0F) i e →
      (2 ^ 48 < e.next + (byteAt f 5).toNat ∨ ∃ x, e.state = .live ∧ e.expected = some x ∧ 128 ≤ (byteAt f 3 - x).toNat) →
      exec (.dataFrameArrival f) s = .next { s with
        streams := tableSet s.streams i (some { e with oldFrames := satSucc e.oldFrames })
        link := { s.link with
          counters := { s.link.counters with portAFrames := satSucc s.link.counters.portAFrames } }.placeB f }) ∧
  (
    ∀ (s : State) (f : Frame) (i : StreamIx) (e : StreamEntry) (gap : Bool),
      s.powered = true → s.link.aToB = .through → frameKind f = .data → dataWellFormed f = true →
      KeyAt s (byteAt f 1) (byteAt f 2 &&& 0x0F) i e →
      let n := (byteAt f 5).toNat
      let cell := fun k => e.base + (e.next + k) % e.length
      e.next + n ≤ 2 ^ 48 →
      (if gap then ∃ x, e.state = .live ∧ e.expected = some x ∧ 1 ≤ (byteAt f 3 - x).toNat ∧ (byteAt f 3 - x).toNat ≤ 127
        else e.state = .idle ∨ e.state = .live ∧ e.expected = some (byteAt f 3)) →
      let v1 : BitVec 8 := byteAt f 3
      let onSlots : (SlotIx → State → State) → State → State := fun g u => (List.finRange 8).foldl (fun u k =>
        match (u.slot k).capture with
        | some c => if c.request.stream = i then g k u else u
        | none => u) u
      let entry : (StreamEntry → StreamEntry) → State → State := fun g u =>
        { u with streams := tableSet u.streams i ((u.stream i).map g) }
      let gapped : State → State := fun u =>
        ((onSlots (fun k u => u.gapSignal (match e.expected with | some x => (v1 - x).toNat | none => 0) e.next k)
          (entry (fun x => { x with gapEvents := satSucc x.gapEvents }) u)).gapRules i) |>
          entry fun x => { x with previous := none }
      let begun : State → State := fun u => onSlots (fun k u => u.reloadTimer k)
        (entry (fun x => { x with framesTaken := satSucc x.framesTaken, state := .live }) u)
      let sample : State × Bool → Sample → State × Bool := fun u v =>
        match u.1.stream i with
        | none => u
        | some x =>
          let left := if x.length ≤ x.next then onSlots (fun k u => u.overtake (x.next - x.length) k) u.1 else u.1
          let written := entry (fun x => { x with next := x.next + 1 })
            { left with samples := Memory.set 0 left.samples (x.base + x.next % x.length) v }
          let checked := onSlots (fun k u => (u.slotChecks k).exhaustionTest k) written
          let judged := (List.finRange 64).foldl (evalRule i x.next v x.previous checked.time) (checked, u.2)
          (entry (fun x => { x with previous := some v }) judged.1, judged.2)
      let c := { s.link.counters with portAFrames := satSucc s.link.counters.portAFrames }
      let counted : State := { s with link := { s.link with counters := c } }
      let taken := (dataSamples f n).foldl sample (begun (if gap then gapped counted else counted), false)
      let last := (entry (fun x => { x with expected := some (v1 + 1) }) taken.1).arbitrateForCommit
      let t : State := { last with
        link := if taken.2 = true ∧ (byteAt f 4).getLsbD 0 = false then
            ({ s.link with counters := { c with marked := satSucc c.marked } } : Link).placeB (markFrame f)
          else ({ s.link with counters := c } : Link).placeB f }
      exec (.dataFrameArrival f) s = .next t ∧
        t.streams = tableSet s.streams i (some { e with
          next := e.next + n, expected := some (v1 + 1), previous := (dataSamples f n).getLast?, state := .live
          framesTaken := satSucc e.framesTaken
          gapEvents := if gap then satSucc e.gapEvents else e.gapEvents }) ∧
        (∀ k, k < n → (∀ k', k < k' → k' < n → cell k' ≠ cell k) →
          some (Memory.get 0 t.samples (cell k)) = (dataSamples f n)[k]?) ∧
        (∀ a, (∀ k, k < n → a ≠ cell k) → Memory.get 0 t.samples a = Memory.get 0 s.samples a) ∧
        WithinCapture { s with streams := t.streams, samples := t.samples, link := t.link } t) ∧
  (
    ∀ (f : Frame) (n : Nat), (dataSamples f n).length = n ∧
      ∀ j, j < n → (dataSamples f n)[j]? = some (BitVec.ofNat 16 (fieldAt f (6 + 2 * j) 2))) ∧
  (
    ∀ (s : State) (mark : Bool) (i : StreamIx) (j : RuleIx) (n : Nat) (v : Sample) (p : Option Sample) (stamp : Stamp),
      let judged := evalRule i n v p stamp (s, mark) j
      (s.rule j = none → judged = (s, mark)) ∧
        ∀ r, s.rule j = some r →
          (r.stream ≠ i → judged = (s, mark)) ∧
            (∀ st, r.stream = i → r.next v p = some st →
              judged = ({ s with rules := tableSet s.rules j (some { r with state := st }) }, mark)) ∧
            (r.stream = i → r.next v p = none → judged = (s.fireRule j r n stamp, mark || r.mark)))

/-- Marking (R164): the marked frame is as long as the one received, its event flag is set, its check is good, and
every other bit before the check is as received. -/
def Obligations.MarkingChangesFlagAndCheckOnly : Prop :=
  ∀ f : Frame, 7 ≤ f.length →
    (markFrame f).length = f.length ∧ eventFlag (markFrame f) = true ∧ checkGood (markFrame f) = true ∧
      (∀ j, j < f.length - 2 → j ≠ 4 → byteAt (markFrame f) j = byteAt f j) ∧
      ∀ b, b ≠ 0 → (byteAt (markFrame f) 4).getLsbD b = (byteAt f 4).getLsbD b

/-- STREAM LOAD (R4, R7): the four checks in order; then the lowest-numbered empty entry takes the key, the length and
the lowest base at which a run of that length is free, with nothing numbered yet. STREAM DROP (R5, R8): refused for an
index out of range, an empty entry, or an entry that a loaded rule or a slot refers to; otherwise the entry becomes
empty. STREAM QUERY (R6, R9, R190): refused for an index out of range or an empty entry; otherwise the entry with its
valid range and hold mark, absent fields written 0. The hold mark is the lowest read position among the slots that capture
from the stream and are COLLECTING, or DRAINING with a read position not beyond the end sample, and absent when there is
none (R2). It changes nothing; for a number that does not fit six bytes the
result holds a free value, whose counter moves on (log 14). -/
def Obligations.StreamCommandsLoadDropAndQuery : Prop :=
  (
    ∀ (s : State) (q : Request), Handed s .streamLoad q →
      let node := byteAt q.args 0
      let stream := byteAt q.args 1
      let length := fieldAt q.args 2 2
      let good := 1 ≤ node.toNat ∧ node.toNat ≤ 62 ∧ stream.toNat ≤ 15 ∧ 64 ≤ length ∧ length ≤ 8192
      let loaded := ∃ i e, s.stream i = some e ∧ e.node = node ∧ e.stream = stream
      (¬good → exec .streamLoad s = .next (s.refuse .badArgument)) ∧
        (good → loaded → exec .streamLoad s = .next (s.refuse .alreadyExists)) ∧
        (good → ¬loaded → (∀ i, s.stream i ≠ none) → exec .streamLoad s = .next (s.refuse .tableFull)) ∧
        ∀ i, good → ¬loaded → s.stream i = none → (∀ j, j < i → s.stream j ≠ none) →
          ((∀ b, ¬RunFree s length b) → exec .streamLoad s = .next (s.refuse .noRingSpace)) ∧
            ∀ b, RunFree s length b → (∀ x, x < b → ¬RunFree s length x) →
              exec .streamLoad s = .next (({ s with
                streams := tableSet s.streams i (some
                  { node := node, stream := stream, base := b, length := length, next := 0, expected := none,
                    previous := none, state := .idle, framesTaken := 0, gapEvents := 0, oldFrames := 0 }) } : State).respond
                .ok ([BitVec.ofNat 8 i.val] ++ toBytes 2 b))) ∧
  (
    ∀ (s : State) (q : Request), Handed s .streamDrop q →
      (32 ≤ (byteAt q.args 0).toNat → exec .streamDrop s = .next (s.refuse .badArgument)) ∧
        ∀ i : StreamIx, (byteAt q.args 0).toNat = i.val →
          let inUse := (∃ k r, s.rule k = some r ∧ r.stream = i) ∨ ∃ k c, (s.slot k).capture = some c ∧ c.request.stream = i
          (s.stream i = none → exec .streamDrop s = .next (s.refuse .noSuchStream)) ∧
            (s.stream i ≠ none → inUse → exec .streamDrop s = .next (s.refuse .inUse)) ∧
            (s.stream i ≠ none → ¬inUse →
              exec .streamDrop s = .next (({ s with streams := tableSet s.streams i none } : State).respond .ok []))) ∧
  (
    ∀ (s : State) (i : StreamIx),
      let holds : Nat → Prop := fun rp => ∃ k c, (s.slot k).capture = some c ∧ c.request.stream = i ∧
        ((∃ timer, c.phase = .collecting rp timer) ∨ ∃ cause, c.phase = .draining rp cause ∧ (rp : Int) ≤ c.endSample)
      (∀ m, s.holdMark i = some m ↔ holds m ∧ ∀ rp, holds rp → m ≤ rp) ∧
        (s.holdMark i = none ↔ ∀ rp, ¬holds rp)) ∧
  (
    ∀ (s : State) (q : Request), Handed s .streamQuery q →
      (32 ≤ (byteAt q.args 0).toNat → exec .streamQuery s = .next (s.refuse .badArgument)) ∧
        ∀ i : StreamIx, (byteAt q.args 0).toNat = i.val →
          (s.stream i = none → exec .streamQuery s = .next (s.refuse .noSuchStream)) ∧
            ∀ e, s.stream i = some e →
              let six := fun n : Nat => toBytes 6 n
              let hold := s.holdMark i
              let result := fun next held : List Byte =>
                [BitVec.ofNat 8 i.val, e.node, e.stream, if e.state = .idle then 0 else 1] ++ toBytes 2 e.base
                  ++ toBytes 2 e.length ++ next
                  ++ (if e.next = 0 then six 0 ++ six 0 else six (e.next - e.length) ++ six (e.next - 1))
                  ++ [e.expected.getD 0] ++ wordBytes 2 (e.previous.getD 0) ++ held
                  ++ toBytes 1 ((if e.next = 0 then 0 else 3) + (if e.expected.isSome then 4 else 0)
                      + (if e.previous.isSome then 8 else 0) + (if hold.isSome then 16 else 0))
                  ++ wordBytes 4 e.framesTaken ++ wordBytes 4 e.gapEvents ++ wordBytes 4 e.oldFrames
              (e.next < 2 ^ 48 → hold.getD 0 < 2 ^ 48 →
                exec .streamQuery s = .next (s.respond .ok (result (six e.next) (six (hold.getD 0))))) ∧
                ∃ (next held : List Byte) (ix : Nat), next.length = 6 ∧ held.length = 6 ∧
                  exec .streamQuery s = .next (({ s with freeIx := ix } : State).respond .ok (result next held)))

/-! ### Rules (chapter 2) -/

/-- The fire and re-arm conditions of the four threshold kinds, on exact integers, and that no sample meets both (R31,
R32). What one sample does to a rule that does not fire (R33 to R35, R40): PRIMING counts down and then decides on the
re-arm condition; ARMED and PENDING stay or return to ARMED when the fire condition is not met; DISABLED passes; and a
DUE rule fires on whatever the sample is. A threshold rule of persistence p fires on the p-th of p consecutive samples
that meet its fire condition, counted from ARMED, and its pending count before that is the number of them so far (R34,
R35). -/
def Obligations.RuleTestsAndStatesFollowTheSample : Prop :=
  (
    ∀ (v : Sample) (p : Option Sample) (high low : Sample) (delta h n : Nat),
      let step : Sample → Nat := fun x => (v.toInt - x.toInt).natAbs
      ((RuleKind.above high h n).fires v p = true ↔ v.toInt > high.toInt) ∧
        ((RuleKind.above high h n).rearms v p = true ↔ v.toInt ≤ high.toInt - h) ∧
        ((RuleKind.below low h n).fires v p = true ↔ v.toInt < low.toInt) ∧
        ((RuleKind.below low h n).rearms v p = true ↔ v.toInt ≥ low.toInt + h) ∧
        ((RuleKind.outside high low h n).fires v p = true ↔ v.toInt > high.toInt ∨ v.toInt < low.toInt) ∧
        ((RuleKind.outside high low h n).rearms v p = true ↔ low.toInt + h ≤ v.toInt ∧ v.toInt ≤ high.toInt - h) ∧
        ((RuleKind.step delta h n).fires v p = true ↔ ∃ x, p = some x ∧ step x > delta) ∧
        ((RuleKind.step delta h n).rearms v p = true ↔ ∀ x, p = some x → (step x : Int) ≤ (delta : Int) - h) ∧
        ∀ k : RuleKind, ¬(k.fires v p = true ∧ k.rearms v p = true)) ∧
  (
    ∀ (r : Rule) (v : Sample) (p : Option Sample),
      (r.state = .disabled → r.next v p = some .disabled) ∧
        (∀ n, r.state = .priming (n + 1) → r.next v p = some (.priming n)) ∧
        (r.state = .priming 0 → r.next v p = some (if r.kind.rearms v p then .armed else .tripped)) ∧
        (r.state = .armed → r.kind.fires v p = false → r.next v p = some .armed) ∧
        (∀ n, r.state = .pending n → r.kind.fires v p = false → r.next v p = some .armed) ∧
        (r.state = .due → r.next v p = none)) ∧
  (
    ∀ (r : Rule) (vs : List (Sample × Option Sample)),
      r.kind.scheduled = false → r.state = .armed → (∀ x ∈ vs, r.kind.fires x.1 x.2 = true) → vs ≠ [] →
      let last := vs.foldl (fun st x => st.bind fun st => ({ r with state := st } : Rule).next x.1 x.2) (some .armed)
      (vs.length < r.kind.persistence → last = some (.pending vs.length)) ∧
        (vs.length = r.kind.persistence ∨ (vs.length = 1 ∧ r.kind.persistence ≤ 1) → last = none))

/-- TRIPPED (R36): a sample that meets the re-arm condition makes the rule ARMED and is not tested further, any other
leaves it TRIPPED; a sample that meets the fire condition has no effect and is not counted. -/
def Obligations.TrippedRuleWaitsForRearm : Prop :=
  ∀ (s : State) (mark : Bool) (i : RuleIx) (r : Rule) (stream : StreamIx) (t : Nat) (v : Sample) (p : Option Sample)
    (stamp : Stamp), s.rule i = some r → r.stream = stream → r.kind.scheduled = false → r.state = .tripped →
    (r.kind.rearms v p = true →
      evalRule stream t v p stamp (s, mark) i = ({ s with rules := tableSet s.rules i (some { r with state := .armed }) }, mark)) ∧
      (r.kind.rearms v p = false → evalRule stream t v p stamp (s, mark) i = (s, mark)) ∧
      (r.kind.fires v p = true → evalRule stream t v p stamp (s, mark) i = (s, mark))

/-- A firing (R38, R44, R45): fired rises by 1, the frame is to be marked for a MARK rule, a rule with a recording
asks for a capture with its own fields, the sample and the stamp, and counts a miss when it is answered missed; the
rule then becomes DISABLED for ONCE, else TRIPPED or, for a scheduled rule, ARMED with its period counter running on.
-/
def Obligations.FiringRuleCountsMarksAndAsks : Prop :=
  ∀ (s : State) (mark : Bool) (i : RuleIx) (r : Rule) (t : Nat) (v : Sample) (p : Option Sample) (stamp : Stamp),
    s.rule i = some r → r.next v p = none →
    let fired := { r with fired := satSucc r.fired }
    let s1 : State := { s with rules := tableSet s.rules i (some fired) }
    let after : Rule → Rule := fun x => { x with
      state := if r.once then .disabled else if r.kind.scheduled then .armed else .tripped
      periodCounter := if r.once then none else x.periodCounter }
    (r.recording = none →
      evalRule r.stream t v p stamp (s, mark) i =
        ({ s with rules := tableSet s.rules i (some (after fired)) }, mark || r.mark)) ∧
      ∀ target, r.recording = some target →
        let request : CaptureRequest :=
          { rule := i, priority := r.priority, stream := r.stream, trigger := t, stamp := stamp, pre := r.pre,
            post := r.post, silence := r.silence, recording := target }
        let answer := s1.captureRequest request
        let count : Rule → Rule := fun x => if answer.2 then x else { x with missed := satSucc x.missed }
        evalRule r.stream t v p stamp (s, mark) i =
          ({ answer.1 with rules := tableSet answer.1.rules i ((answer.1.rule i).map fun x => after (count x)) },
            mark || r.mark)

/-- A tick at a rule (R39, R46): the period counter of a PERIODIC rule falls by 1; at 0 it is loaded with the period,
and an ARMED rule becomes DUE while a DUE rule counts a miss; a rule without a counter and a rule of another kind are
not changed. PERIOD_EXPIRY makes that tick at a rule whose counter stands at 1 (log 18); a CYCLE frame makes it at
every rule. A gap returns every PENDING rule of its stream to ARMED and touches no other rule (R37). -/
def Obligations.PeriodExpiryMakesDue : Prop :=
  (∀ (r : Rule) (period n : Nat), r.kind = .periodic period → r.periodCounter = some n →
    (1 < n → r.tick = { r with periodCounter := some (n - 1) }) ∧
      (n ≤ 1 → r.state = .armed → r.tick = { r with state := .due, periodCounter := some period }) ∧
      (n ≤ 1 → r.state = .due → r.tick = { r with missed := satSucc r.missed, periodCounter := some period })) ∧
    (∀ r : Rule, r.periodCounter = none ∨ (∀ period, r.kind ≠ .periodic period) → r.tick = r) ∧
    (∀ s : State, s.tickRules = { s with rules := s.tickRules.rules } ∧ ∀ i, s.tickRules.rule i = (s.rule i).map Rule.tick) ∧
    (∀ (s : State) (x : StreamIx), s.gapRules x = { s with rules := (s.gapRules x).rules } ∧
      ∀ i, (s.gapRules x).rule i = (s.rule i).map fun r =>
        { r with state := match r.state with | .pending n => if r.stream = x then .armed else .pending n | st => st }) ∧
    ∀ (s : State) (i : RuleIx) (r : Rule) (period : Nat), s.rule i = some r → r.kind = .periodic period →
      r.periodCounter = some 1 → r.state = .armed ∨ r.state = .due →
      exec (.periodExpiry i) s = .next { s with rules := tableSet s.rules i (some (
        if r.state = .armed then { r with state := .due, periodCounter := some period }
        else { r with missed := satSucc r.missed, periodCounter := some period })) }

/-- RULE LOAD (R22, R24, R25): a load that passes its checks stores the new rule, whatever stood there; one that fails
leaves the rule as it was, with the refusal of the first check that fails. The rule that RULE LOAD's arguments give
(R22, R24 checks 1 and 2, R25, R190): every field in its range and, for OUTSIDE, low below high; only the kind's own
fields are judged; counters 0; DISABLED without ENABLE, otherwise the first enabled state, with its priming count or
period counter. -/
def Obligations.RuleLoadChecksAndStoresTheRule : Prop :=
  (
    ∀ (s : State) (q : Request), Handed s .ruleLoad q →
      (64 ≤ (byteAt q.args 0).toNat ∨ q.loadedRule = none → exec .ruleLoad s = .next (s.refuse .badArgument)) ∧
        ∀ (i : RuleIx) (r : Rule), (byteAt q.args 0).toNat = i.val → q.loadedRule = some r →
          (s.stream r.stream = none → exec .ruleLoad s = .next (s.refuse .noSuchStream)) ∧
            ∀ e, s.stream r.stream = some e →
              (e.length < r.pre + 32 → exec .ruleLoad s = .next (s.refuse .ringTooShort)) ∧
                (r.pre + 32 ≤ e.length →
                  (∀ target, r.recording = some target → s.store.state = .mounting ∨ s.store.state = .formatting →
                    exec .ruleLoad s = .next (s.refuse .notReady)) ∧
                  (∀ target, r.recording = some target → s.store.state ≠ .mounting → s.store.state ≠ .formatting →
                    s.store.entry target = none → exec .ruleLoad s = .next (s.refuse .noSuchRecording)) ∧
                  ((∀ target, r.recording = some target →
                      s.store.state ≠ .mounting ∧ s.store.state ≠ .formatting ∧ s.store.entry target ≠ none) →
                    exec .ruleLoad s = .next (({ s with rules := tableSet s.rules i (some r) } : State).respond .ok [])))) ∧
  (
    ∀ q : Request,
      let code := (byteAt q.args 1).toNat
      let high : Sample := BitVec.ofNat 16 (fieldAt q.args 3 2)
      let low : Sample := BitVec.ofNat 16 (fieldAt q.args 5 2)
      let delta := fieldAt q.args 7 2
      let h := fieldAt q.args 9 2
      let n := (byteAt q.args 11).toNat
      let period := fieldAt q.args 12 2
      let threshold := h ≤ 32767 ∧ 1 ≤ n ∧ n ≤ 16
      let kind : RuleKind → Prop := fun k =>
        (code = 1 ∧ threshold ∧ k = .above high h n) ∨ (code = 2 ∧ threshold ∧ k = .below low h n) ∨
          (code = 3 ∧ threshold ∧ low.toInt < high.toInt ∧ k = .outside high low h n) ∨
          (code = 4 ∧ threshold ∧ 1 ≤ delta ∧ k = .step delta h n) ∨ (code = 5 ∧ 1 ≤ period ∧ k = .periodic period) ∨
          (code = 6 ∧ k = .manual)
      let options := (byteAt q.args 21).toNat
      let pre := fieldAt q.args 15 2
      let post := fieldAt q.args 17 2
      let number := (byteAt q.args 20).toNat
      let ranges := (byteAt q.args 2).toNat < 32 ∧ (byteAt q.args 14).toNat ≤ 3 ∧ pre ≤ 4000 ∧ 1 ≤ post ∧ post ≤ 12000 ∧
        pre + post ≤ 12000 ∧ number ≤ 32 ∧ options < 8
      ((¬ranges ∨ ∀ k, ¬kind k) → q.loadedRule = none) ∧
        ∀ k, ranges → kind k → ∃ r, q.loadedRule = some r ∧ r.kind = k ∧ r.stream.val = (byteAt q.args 2).toNat ∧
          r.priority = (byteAt q.args 14).toNat ∧ r.pre = pre ∧ r.post = post ∧ r.silence = (byteAt q.args 19).toNat ∧
          r.recording.elim 0 (fun x => x.val + 1) = number ∧ r.mark = options.testBit 0 ∧ r.once = options.testBit 1 ∧
          r.fired = 0 ∧ r.missed = 0 ∧ r.cut = 0 ∧
          (options.testBit 2 = false → r.state = .disabled ∧ r.periodCounter = none) ∧
          (options.testBit 2 = true →
            (code ≤ 4 → r.state = .priming n ∧ r.periodCounter = none) ∧
              (code = 5 → r.state = .armed ∧ r.periodCounter = some period) ∧
              (code = 6 → r.state = .armed ∧ r.periodCounter = none)))

/-- A rule command whose rule number is out of range is BAD ARGUMENT, and on an UNLOADED rule NO SUCH RULE (section
2.2, R26 to R29, R41, R42). RULE UNLOAD empties the entry (R28). RULE QUERY changes nothing and answers the 35 bytes of
section 10.2 (R29, R190): the RULE LOAD fields, a field that the kind does not use written 0 and ENABLE read as 0 (log
24), then the state, the running fields, the presence word with one bit for each field that may be absent, and the three
counters. FIRE (R41): BAD STATE for a rule that is not MANUAL or is DISABLED; an ARMED rule becomes DUE; a DUE rule
stays so. -/
def Obligations.RuleCommandsUnloadQueryAndFire : Prop :=
  (
    ∀ (s : State) (q : Request) (x : Command × Instr),
      x ∈ [(Command.ruleEnable, Instr.ruleEnable), (.ruleDisable, .ruleDisable), (.ruleUnload, .ruleUnload),
        (.ruleQuery, .ruleQuery), (.fire, .fire), (.unfire, .unfire)] → Handed s x.1 q →
      (64 ≤ (byteAt q.args 0).toNat → exec x.2 s = .next (s.refuse .badArgument)) ∧
        ∀ i : RuleIx, (byteAt q.args 0).toNat = i.val → s.rule i = none → exec x.2 s = .next (s.refuse .noSuchRule)) ∧
  (
    ∀ (s : State) (q : Request) (i : RuleIx) (r : Rule), (byteAt q.args 0).toNat = i.val → s.rule i = some r →
      (Handed s .ruleUnload q →
        exec .ruleUnload s = .next (({ s with rules := tableSet s.rules i none } : State).respond .ok [])) ∧
        (Handed s .ruleQuery q →
          let one := fun n : Nat => [BitVec.ofNat 8 n]
          let two := fun n : Nat => toBytes 2 n
          let running : Nat × Nat × Nat × Nat := match r.state with
            | .disabled => (1, 0, 0, 0)
            | .priming n => (2, n, 0, 64)
            | .armed => (3, 0, 0, 0)
            | .pending n => (4, 0, n, 128)
            | .tripped => (5, 0, 0, 0)
            | .due => (6, 0, 0, 0)
          let result := fun (code : Nat) (fields : List Byte) (present : Nat) =>
            one i.val ++ one code ++ one r.stream.val ++ fields ++ one r.priority ++ two r.pre ++ two r.post ++ one r.silence
              ++ one (r.recording.elim 0 (fun x => x.val + 1)) ++ one ((if r.mark then 1 else 0) + (if r.once then 2 else 0))
              ++ one running.1 ++ one running.2.1 ++ one running.2.2.1 ++ two (r.periodCounter.getD 0)
              ++ two (present + running.2.2.2 + (if r.periodCounter.isSome then 256 else 0))
              ++ wordBytes 2 r.fired ++ wordBytes 2 r.missed ++ wordBytes 2 r.cut
          (∀ high h n, r.kind = .above high h n → exec .ruleQuery s = .next (s.respond .ok
            (result 1 (wordBytes 2 high ++ two 0 ++ two 0 ++ two h ++ one n ++ two 0) (1 + 8 + 16)))) ∧
            (∀ low h n, r.kind = .below low h n → exec .ruleQuery s = .next (s.respond .ok
              (result 2 (two 0 ++ wordBytes 2 low ++ two 0 ++ two h ++ one n ++ two 0) (2 + 8 + 16)))) ∧
            (∀ high low h n, r.kind = .outside high low h n → exec .ruleQuery s = .next (s.respond .ok
              (result 3 (wordBytes 2 high ++ wordBytes 2 low ++ two 0 ++ two h ++ one n ++ two 0) (1 + 2 + 8 + 16)))) ∧
            (∀ delta h n, r.kind = .step delta h n → exec .ruleQuery s = .next (s.respond .ok
              (result 4 (two 0 ++ two 0 ++ two delta ++ two h ++ one n ++ two 0) (4 + 8 + 16)))) ∧
            (∀ period, r.kind = .periodic period → exec .ruleQuery s = .next (s.respond .ok
              (result 5 (two 0 ++ two 0 ++ two 0 ++ two 0 ++ one 0 ++ two period) 32))) ∧
            (r.kind = .manual → exec .ruleQuery s = .next (s.respond .ok
              (result 6 (two 0 ++ two 0 ++ two 0 ++ two 0 ++ one 0 ++ two 0) 0))) ∧
            ∀ code fields present, fields.length = 11 → (result code fields present).length = 35)) ∧
  (
    ∀ (s : State) (q : Request) (i : RuleIx) (r : Rule), Handed s .fire q → (byteAt q.args 0).toNat = i.val → s.rule i = some r →
      (r.kind ≠ .manual ∨ r.state = .disabled → exec .fire s = .next (s.refuse .badState)) ∧
        (r.kind = .manual → r.state = .armed →
          exec .fire s = .next (({ s with rules := tableSet s.rules i (some { r with state := .due }) } : State).respond .ok [])) ∧
        (r.kind = .manual → r.state = .due → exec .fire s = .next (s.respond .ok [])))

/-- RULE ENABLE (R26): refused NO SUCH RULE when UNLOADED; a DISABLED rule goes to its first enabled state, PRIMING
with its persistence, or ARMED, a PERIODIC rule with its period in the counter; any other rule is left as it is. The
counters are not touched. RULE DISABLE (R27): refused NO SUCH RULE when UNLOADED; otherwise the rule becomes DISABLED
with its running fields absent, a DUE firing lost and not counted as missed; on a DISABLED rule nothing changes but
the answer. Fields, options and counters are kept, and the references with them. A DISABLED rule is not evaluated,
does not count ticks and is not affected by gaps. -/
def Obligations.RuleEnableStartsAndDisableStopsTheRule : Prop :=
  (
    ∀ (s : State) (q : Request) (i : RuleIx), Handed s .ruleEnable q → (byteAt q.args 0).toNat = i.val →
      (s.rule i = none → exec .ruleEnable s = .next (s.refuse .noSuchRule)) ∧
        ∀ r, s.rule i = some r →
          (r.state = .disabled → exec .ruleEnable s = .next (({ s with
            rules := tableSet s.rules i (some { r with
              state := if r.kind.scheduled then .armed else .priming r.kind.persistence
              periodCounter := match r.kind with | .periodic n => some n | _ => none }) } : State).respond .ok [])) ∧
            (r.state ≠ .disabled → exec .ruleEnable s = .next (s.respond .ok []))) ∧
  (
    (∀ (s : State) (q : Request) (i : RuleIx), Handed s .ruleDisable q → (byteAt q.args 0).toNat = i.val →
      (s.rule i = none → exec .ruleDisable s = .next (s.refuse .noSuchRule)) ∧
        (∀ r, s.rule i = some r → exec .ruleDisable s = .next (({ s with
          rules := tableSet s.rules i (some { r with state := .disabled, periodCounter := none }) } : State).respond .ok [])) ∧
        ∀ r, s.rule i = some r → r.state = .disabled → r.periodCounter = none →
          exec .ruleDisable s = .next (s.respond .ok [])) ∧
      ∀ r : Rule, r.state = .disabled → r.periodCounter = none →
        r.tick = r ∧ r.afterGap = r ∧
          ∀ (s : State) (mark : Bool) (i : RuleIx) (stream : StreamIx) (t : Nat) (v : Sample) (p : Option Sample) (stamp : Stamp),
            s.rule i = some r → evalRule stream t v p stamp (s, mark) i = (s, mark))

/-- UNFIRE (R42): NO SUCH RULE when UNLOADED, BAD STATE for a rule that is not MANUAL or is DISABLED; a DUE MANUAL
rule becomes ARMED, not counted; an ARMED one is left as it is. A DUE PERIODIC rule's firing is withdrawn by RULE
DISABLE. -/
def Obligations.UnfireWithdrawsThePendingFiring : Prop :=
  (∀ (s : State) (q : Request) (i : RuleIx), Handed s .unfire q → (byteAt q.args 0).toNat = i.val →
    (s.rule i = none → exec .unfire s = .next (s.refuse .noSuchRule)) ∧
      ∀ r, s.rule i = some r →
        (r.kind ≠ .manual ∨ r.state = .disabled → exec .unfire s = .next (s.refuse .badState)) ∧
          (r.kind = .manual → r.state = .due → exec .unfire s = .next (({ s with
            rules := tableSet s.rules i (some { r with state := .armed }) } : State).respond .ok [])) ∧
          (r.kind = .manual → r.state = .armed → exec .unfire s = .next (s.respond .ok []))) ∧
    ∀ (s : State) (q : Request) (i : RuleIx) (r : Rule) (period : Nat), Handed s .ruleDisable q →
      (byteAt q.args 0).toNat = i.val → s.rule i = some r → r.kind = .periodic period → r.state = .due →
      exec .ruleDisable s = .next (({ s with
        rules := tableSet s.rules i (some { r with state := .disabled, periodCounter := none }) } : State).respond .ok [])

/-! ### Slots (chapter 3) -/

/-- A capture request is answered missed by the first test that fails (R45, R51, R52, R53): SUSPENDED raises nothing;
then UNAVAILABLE, PROTECT, OVERFLOW and FULL are reported with the request and the slot at the pointer, and nothing
else changes. An occupant may be preempted when it is COLLECTING, of lower priority, and the request's priority
reaches the preempt level. Its gain is its remaining reservation, its head, and every listed block but one whose write
is in progress. -/
def Obligations.CaptureTestsInOrder : Prop :=
  ∀ (s : State) (q : CaptureRequest),
    let x := s.slot s.pointer
    let running := s.cond.state = .running
    let available := s.store.state = .ready ∧ ∃ n p, s.store.recording q.recording = .defined n p
    let mayTake := ∀ c, x.capture = some c →
      (∃ rp timer, c.phase = .collecting rp timer) ∧ c.request.priority < q.priority ∧ s.cond.level ≤ q.priority
    let blocks := (q.pre + q.post + 119) / 120 + 1
    let inProgress : Buffer → List Nat := fun | .writing d false => [d.block] | _ => []
    let gain := match x.capture with
      | none => 0
      | some c => c.remaining + 1
          + (c.blocks.filter fun b => !((inProgress x.buffer0 ++ inProgress x.buffer1).contains b)).length
    let missed := fun c : Condition =>
      (s.report ⟨c, s.pointer, q.rule, q.recording, q.stream, q.stamp⟩, false)
    (¬running → s.captureRequest q = (s, false)) ∧
      (running → ¬available → s.captureRequest q = missed .unavailable) ∧
      (running → available → s.protect = true → s.captureRequest q = missed .protect) ∧
      (running → available → s.protect = false → ¬mayTake → s.captureRequest q = missed .overflow) ∧
      (running → available → s.protect = false → mayTake → s.store.free + gain < s.store.reserved + blocks →
        s.captureRequest q = missed .full) ∧
      (running → available → s.protect = false → mayTake → s.store.reserved + blocks ≤ s.store.free + gain →
        (s.captureRequest q).2 = true)

/-- Preemption and allocation. The occupant of a slot is abandoned (R46, R57): the slot's waiting request is withdrawn,
FILLED buffers become FREE and a WRITING buffer stays so, orphaned; the head and the listed blocks but one whose write is
in progress are freed, the remaining reservation is returned, and a cut is counted for the rule of the request, if it is
loaded; nothing else changes, and an EMPTY slot is left alone. A free claim of several used blocks raises the free count
by their number. An occupant with no write in progress leaves both buffers FREE (R57, R74). A capture request that is
taken reserves its blocks, has the head taken, and puts the new capture in the slot at the pointer, COLLECTING from its first sample, with as many
pre-trigger samples as the ring still holds, its silence timer loaded, its end sample set and one block fewer than
reserved remaining; the pointer advances, SHORT is reported when the pre-trigger samples are fewer than asked, and the
slot makes its checks and the exhaustion test (R47, R53, R54, R55; that the exhaustion test is among them is log 19). In a
state whose map, reservations and blocks are in order the head is there to be taken. Pre actual falls short only when
fewer than pre samples have been numbered, given the margin of the rule's load check (R24, R55). -/
def Obligations.AllocationFillsTheSlotWithWhatTheRingHolds : Prop :=
  (
    ∀ (s : State) (k : SlotIx),
      ((s.slot k).capture = none → s.abandon k = s) ∧
        ∀ c, (s.slot k).capture = some c →
          let x := s.slot k
          let inProgress : Buffer → List Nat := fun | .writing d false => [d.block] | _ => []
          let left : Buffer → Buffer := fun | .writing d _ => .writing d true | _ => .free
          let freed := c.head :: c.blocks.filter fun b => !((inProgress x.buffer0 ++ inProgress x.buffer1).contains b)
          s.abandon k = { s with
            port := { s.port with waiting := s.port.waiting.filter (·.who != .slot k) }
            slots := tableSet s.slots k ⟨none, left x.buffer0, left x.buffer1⟩
            store := { s.store.freeBlocks freed with reserved := s.store.reserved - c.remaining }
            rules := tableSet s.rules c.request.rule ((s.rule c.request.rule).map fun r => { r with cut := satSucc r.cut }) }) ∧
  (
    ∀ (m : StoreManager) (bs : List Nat),
      m.freeBlocks bs = { m with used := (m.freeBlocks bs).used, free := (m.freeBlocks bs).free } ∧
        (∀ x, x ∈ (m.freeBlocks bs).used ↔ x ∈ m.used ∧ x ∉ bs) ∧
        (bs.Nodup → (∀ b ∈ bs, b ∈ m.used) → (m.freeBlocks bs).free = m.free + bs.length)) ∧
  (
    ∀ (s : State) (k : SlotIx),
      (∃ c, (s.slot k).capture = some c) → (∀ d o, (s.slot k).buffer0 ≠ .writing d o ∧ (s.slot k).buffer1 ≠ .writing d o) →
        (s.abandon k).slot k = ⟨none, .free, .free⟩) ∧
  (
    ∀ (s : State) (q : CaptureRequest) (e : StreamEntry), (s.captureRequest q).2 = true → s.stream q.stream = some e →
      let k := s.pointer
      let u := s.abandon k
      let blocks := (q.pre + q.post + 119) / 120 + 1
      let reserved : StoreManager := { u.store with reserved := u.store.reserved + blocks }
      (MapAccounted s → ReservationsMatch s → BlocksAccounted s → ∃ b m, reserved.takeReserved = some (b, m)) ∧
        ∀ b m, reserved.takeReserved = some (b, m) →
          let held := min q.pre (q.trigger - max 0 (q.trigger + 1 - e.length))
          let c : Capture :=
            { request := q, phase := .collecting (q.trigger - held) (if q.silence = 0 then none else some q.silence)
              preActual := held, first := q.trigger - held, endSample := (q.trigger : Int) + q.post - 1, head := b, blocks := []
              remaining := blocks - 1, gaps := [], short := decide (held < q.pre), gapped := false, gapOverflow := false }
          let placed : State := { u with
            store := m, pointer := Fin.ofNat 8 (k.val + 1), slots := tableSet u.slots k { u.slot k with capture := some c } }
          let told := if held < q.pre then placed.report ⟨.short, k, q.rule, q.recording, q.stream, q.stamp⟩ else placed
          s.captureRequest q = ((told.slotChecks k).exhaustionTest k, true)) ∧
  (
    ∀ pre trigger length : Nat, pre + 32 ≤ length →
      preActual pre trigger length = min pre (trigger - max 0 (trigger + 1 - length)) ∧
        (preActual pre trigger length < pre ↔ trigger < pre))

/-- SLOTS QUERY (R73, R190): without a slot the pointer and the eight tags; BAD ARGUMENT out of range; with a slot the
54 bytes of section 10.2, every field but the slot, the tag and the buffer states 0 for an EMPTY slot, the presence byte
for the read position, the end cause and the silence timer. It changes nothing; the six bytes of a read position or an
end sample that they cannot hold are a free value, whose counter then moves on (log 14). STORE QUERY (R114): the 42
bytes of section 10.2, the label's fields absent without a label copy and the counts absent in MOUNTING. RECORDING QUERY
(R115, R193): BAD ARGUMENT out of range, NOT READY in MOUNTING and UNFORMATTED; otherwise the 61 bytes of section 10.2,
a place that is not held and a place beyond the list given as block 0, and zeros after the state of a FREE recording. The
two change nothing. -/
def Obligations.SlotAndStoreQueriesReport : Prop :=
  (
    ∀ (s : State) (q : Request), Handed s .slotsQuery q →
      (q.args = [] → exec .slotsQuery s = .next (s.respond .ok (BitVec.ofNat 8 s.pointer.val
        :: (List.finRange 8).map fun k => match (s.slot k).capture with
          | none => 0
          | some c => match c.phase with | .collecting _ _ => 1 | .draining _ _ => 2 | .committing _ => 3))) ∧
        (q.args ≠ [] → 8 ≤ (byteAt q.args 0).toNat → exec .slotsQuery s = .next (s.refuse .badArgument)) ∧
        ∀ k : SlotIx, q.args ≠ [] → (byteAt q.args 0).toNat = k.val →
          let one := fun n : Nat => [BitVec.ofNat 8 n]
          let code : Buffer → List Byte := fun
            | .free => [0]
            | .filled _ => [1]
            | .writing _ orphaned => if orphaned then [3] else [2]
          let buffers := code (s.slot k).buffer0 ++ code (s.slot k).buffer1
          ((s.slot k).capture = none → exec .slotsQuery s = .next (s.respond .ok
            (one k.val ++ [0] ++ List.replicate 47 0 ++ buffers ++ [0, 0, 0]))) ∧
            ∀ c, (s.slot k).capture = some c →
              let x := c.request
              let cause : EndCause → Nat := fun | .complete => 1 | .stalled => 2 | .lag => 3 | .cut => 4
              -- tag, read position, end cause, silence timer, presence
              let tagged : Nat × Nat × Nat × Nat × Nat := match c.phase with
                | .collecting rp timer => (1, rp, 0, timer.getD 0, if timer.isSome then 5 else 1)
                | .draining rp e => (2, rp, cause e, 0, 3)
                | .committing e => (3, 0, cause e, 0, 2)
              let result := fun position finish : List Byte =>
                one k.val ++ one tagged.1 ++ one x.rule.val ++ one x.priority ++ one x.stream.val ++ one (x.recording.val + 1)
                  ++ toBytes 6 x.trigger ++ (wordBytes 2 x.stamp.epoch ++ wordBytes 4 x.stamp.cycle) ++ toBytes 2 x.pre
                  ++ toBytes 2 x.post ++ one x.silence ++ toBytes 2 c.preActual ++ toBytes 6 c.first ++ position ++ finish
                  ++ one tagged.2.2.1 ++ one tagged.2.2.2.1 ++ toBytes 2 c.head ++ one c.blocks.length ++ one c.remaining
                  ++ buffers ++ one c.gaps.length
                  ++ one ((if c.short then 1 else 0) + (if c.gapped then 2 else 0) + (if c.gapOverflow then 4 else 0))
                  ++ one tagged.2.2.2.2
              ∃ position finish ix,
                exec .slotsQuery s = .next (({ s with freeIx := ix } : State).respond .ok (result position finish)) ∧
                  position.length = 6 ∧ finish.length = 6 ∧ (result position finish).length = 54 ∧
                  (tagged.2.1 < 2 ^ 48 → position = toBytes 6 tagged.2.1) ∧
                  (0 ≤ c.endSample → c.endSample < 2 ^ 48 → finish = toBytes 6 c.endSample.toNat) ∧
                  (tagged.2.1 < 2 ^ 48 → 0 ≤ c.endSample → c.endSample < 2 ^ 48 → ix = s.freeIx)) ∧
  (
    ∀ (s : State) (q : Request), Handed s .storeQuery q →
      let one := fun n : Nat => [BitVec.ofNat 8 n]
      let two := fun n : Nat => toBytes 2 n
      let m := s.store
      let label : List Byte := match m.label with
        | none => List.replicate 19 0
        | some l => one l.name.length ++ (l.name ++ List.replicate 16 0).take 16 ++ wordBytes 2 l.serial
      let counts : List Byte := if m.state = .mounting then List.replicate 8 0
        else two m.free ++ two m.reserved ++ two (m.free - m.reserved) ++ two m.cursor
      let state : List Byte := match m.state with | .mounting => [0] | .unformatted => [1] | .ready => [2] | .formatting => [3]
      let busy : List Byte := match s.maint with
        | none => [0]
        | some (.mount _) => [1]
        | some (.format ..) => [2]
        | some (.create ..) => [3]
        | some (.delete ..) => [4]
        | some (.erase ..) => [5]
      let defined := (List.finRange 32).countP fun r => match m.recording r with | .defined _ _ => true | _ => false
      let damaged := (List.finRange 32).countP fun r => match m.recording r with | .damaged _ _ => true | _ => false
      let result := state ++ one (if s.protect then 1 else 0) ++ label ++ two 8192 ++ two 8175 ++ counts ++ one defined ++ one damaged
        ++ wordBytes 2 m.damage ++ busy ++ one s.index.queue.length ++ one s.release.queue.length ++ one s.release.parked.length
        ++ one ((if m.label = none then 0 else 3) + (if m.state = .mounting then 0 else 60))
      exec .storeQuery s = .next (s.respond .ok result) ∧ result.length = 42) ∧
  (
    ∀ (s : State) (q : Request), Handed s .recordingQuery q →
      let k := (byteAt q.args 0).toNat
      let part := (byteAt q.args 1).toNat
      (¬(1 ≤ k ∧ k ≤ 32 ∧ part ≤ 1) → exec .recordingQuery s = .next (s.refuse .badArgument)) ∧
        (1 ≤ k ∧ k ≤ 32 ∧ part ≤ 1 → s.store.state = .mounting ∨ s.store.state = .unformatted →
          exec .recordingQuery s = .next (s.refuse .notReady)) ∧
        ∀ r : RecIx, r.val + 1 = k → part ≤ 1 → s.store.state = .ready ∨ s.store.state = .formatting →
          (s.store.recording r = .free →
            exec .recordingQuery s = .next (s.respond .ok ([BitVec.ofNat 8 k, 0] ++ List.replicate 59 0))) ∧
            ∀ e newest present, s.store.entry r = some e →
              let result := fun state : Byte =>
                [BitVec.ofNat 8 k, state, match e.mode with | .fill => 0 | .wrap => 1]
                  ++ [BitVec.ofNat 8 e.name.length] ++ (e.name ++ List.replicate 12 0).take 12 ++ toBytes 2 e.maxRecords
                  ++ [BitVec.ofNat 8 e.blocks.length] ++ toBytes 4 newest ++ toBytes 2 present
                  ++ toBytes 4 (max 1 (newest + 1 - e.maxRecords))
                  ++ ((List.range 16).map fun i =>
                    toBytes 2 (if e.held.getD (16 * part + i) false then e.blocks.getD (16 * part + i) 0 else 0)).flatten
              (s.store.recording r = .defined newest present → exec .recordingQuery s = .next (s.respond .ok (result 1))) ∧
                (s.store.recording r = .damaged newest present → exec .recordingQuery s = .next (s.respond .ok (result 2))) ∧
                ∀ state, (result state).length = 61)

/-- CUT (R62, R72): BAD ARGUMENT out of range, BAD STATE for a slot that is not COLLECTING; on a COLLECTING slot the
end is decided CUT at the newest sample or the end sample, whichever is less, the timer becomes absent, the slot makes
its checks, and the answer is OK. The silence timer (R12, R54, R65): a tick reaches the slots in ascending number (log
4); the timer of a COLLECTING slot falls by 1, and the tick that takes it from 1 to 0 ends the capture STALLED at the
newest sample or the end sample, whichever is less (R62; SILENCE_TIMER_EXPIRY, its row of its own, is log 18); a slot
without a timer is left alone; an accepted frame loads the timer of a COLLECTING slot with the silence limit, absent for
limit 0. LAG (R19, R67, R68): an overtake signal at a slot that counts toward the hold mark, with its read position
among the samples that leave, and the exhaustion test at a COLLECTING slot without a FREE buffer, end its capture LAG
at the sample below the read position, and raise LAG; a slot above the leaving sample, one that does not count, and
one with a FREE buffer or with more than 120 writes to go are left alone. A gap signal (R71): a COLLECTING slot lists
the gap by its record offset and marks itself GAPPED, or, with four gaps listed, marks GAP-OVERFLOW, and raises GAP;
any other slot is left alone. The newest sample of a stream is
its next number less 1, and the ring length that of its entry (R6). -/
def Obligations.CutSilenceAndLagEndACapture : Prop :=
  (
    ∀ (s : State) (i : StreamIx) (e : StreamEntry), s.stream i = some e →
      s.newest i = (e.next : Int) - 1 ∧ s.ringLength i = e.length) ∧
  (
    ∀ (s : State) (q : Request), Handed s .cut q →
      (8 ≤ (byteAt q.args 0).toNat → exec .cut s = .next (s.refuse .badArgument)) ∧
        ∀ k : SlotIx, (byteAt q.args 0).toNat = k.val →
          ((∀ c rp timer, (s.slot k).capture = some c → c.phase ≠ .collecting rp timer) →
            exec .cut s = .next (s.refuse .badState)) ∧
            ∀ c rp timer, (s.slot k).capture = some c → c.phase = .collecting rp timer →
              let t : State := { s with slots := tableSet s.slots k { s.slot k with
                capture := some { c with phase := .draining rp .cut, endSample := min c.endSample (s.newest c.request.stream) } } }
              exec .cut s = .next ((t.slotChecks k).respond .ok [])) ∧
  (
    ∀ (s : State) (k : SlotIx) (c : Capture), (s.slot k).capture = some c →
      let holding : Capture → State := fun c' => { s with slots := tableSet s.slots k { s.slot k with capture := some c' } }
      let stalled : Nat → State := fun rp => (holding { c with
        phase := .draining rp .stalled, endSample := min c.endSample (s.newest c.request.stream) }).slotChecks k
      (∀ rp, c.phase = .collecting rp (some 1) → exec (.silenceTimerExpiry k) s = .next (stalled rp)) ∧
        (∀ rp n, c.phase = .collecting rp (some n) →
          (1 < n → s.tickSlot k = holding { c with phase := .collecting rp (some (n - 1)) }) ∧
            (n ≤ 1 → s.tickSlot k = stalled rp)) ∧
        ((∀ rp n, c.phase ≠ .collecting rp (some n)) → s.tickSlot k = s) ∧
        (∀ rp timer, c.phase = .collecting rp timer →
          let limit := c.request.silence
          s.reloadTimer k = holding { c with phase := .collecting rp (if limit = 0 then none else some limit) }) ∧
        ((∀ rp timer, c.phase ≠ .collecting rp timer) → s.reloadTimer k = s)) ∧
  (
    ∀ s : State, s.tickSlots = (List.finRange 8).foldl (fun u k => u.tickSlot k) s ∧
      ∀ k, (s.slot k).capture = none → s.tickSlot k = s ∧ s.reloadTimer k = s) ∧
  (
    ∀ (s : State) (k : SlotIx) (c : Capture), (s.slot k).capture = some c →
      let lagged : Nat → State := fun rp =>
        (({ s with slots := tableSet s.slots k { s.slot k with
          capture := some { c with phase := .draining rp .lag, endSample := (rp : Int) - 1 } } } : State).report
            ⟨.lag, k, c.request.rule, c.request.recording, c.request.stream, c.request.stamp⟩).slotChecks k
      (∀ rp leaving, (∃ timer, c.phase = .collecting rp timer) ∨ (∃ cause, c.phase = .draining rp cause ∧ (rp : Int) ≤ c.endSample) →
        (rp ≤ leaving → s.overtake leaving k = lagged rp) ∧ (leaving < rp → s.overtake leaving k = s)) ∧
        (∀ leaving rp cause, (c.phase = .draining rp cause ∧ c.endSample < rp) ∨ c.phase = .committing cause →
          s.overtake leaving k = s) ∧
        ∀ rp timer, c.phase = .collecting rp timer →
          let exhausted := (s.slot k).buffer0 ≠ .free ∧ (s.slot k).buffer1 ≠ .free ∧
            (rp : Int) + s.ringLength c.request.stream - 120 ≤ s.newest c.request.stream
          (exhausted → s.exhaustionTest k = lagged rp) ∧ (¬exhausted → s.exhaustionTest k = s)) ∧
  (
    ∀ (s : State) (k : SlotIx) (c : Capture) (d g : Nat), (s.slot k).capture = some c →
      (∀ rp timer, c.phase = .collecting rp timer →
        s.gapSignal d g k = ({ s with slots := tableSet s.slots k { s.slot k with
          capture := some (if c.gaps.length < 4 then { c with gaps := c.gaps ++ [⟨g - c.first, d⟩], gapped := true }
            else { c with gapOverflow := true }) } } : State).report
              ⟨.gap, k, c.request.rule, c.request.recording, c.request.stream, c.request.stamp⟩) ∧
        ((∀ rp timer, c.phase ≠ .collecting rp timer) → s.gapSignal d g k = s))

/-- The checks of a slot are its end check, its staging check, made again while a buffer may be FREE, and its
presentation (R62). The newest sample of a stream is its next number less 1 (R6). End check (R64): a COLLECTING slot whose stream has reached its end sample becomes DRAINING with
COMPLETE. Staging check (R59): a COLLECTING slot with 120 samples from its read position to the lesser of end sample and
newest stages 120, a DRAINING slot what is left to its end sample, at most 120; with a FREE buffer, a remaining
reservation and a free block, the samples are those of the ring by number (R6), the block is the one that a take of a
reserved block gives, it goes to the end of the list, its place there is the buffer's position, and the lowest FREE
buffer becomes FILLED; otherwise nothing is staged. That nothing is staged with no remaining reservation or with no free
block is the model's choice (log 22), which R59 does not state. Presentation (R60, R61, R66): with no request outstanding, the
lowest FILLED buffer is presented as a data block; with none FILLED, a DRAINING slot past its end sample whose buffers are
FREE presents its head block. What the checks cannot do: they stay within the capture path, leave every other slot's
capture alone, decide an end only as COMPLETE and only when the newest sample has reached it, and advance the read
position only by what they stage. -/
def Obligations.SlotChecksStageAndComplete : Prop :=
  (
    ∀ (s : State) (i : StreamIx) (e : StreamEntry), s.stream i = some e →
      s.newest i = (e.next : Int) - 1 ∧ s.ringLength i = e.length) ∧
  (
    ∀ (s : State) (k : SlotIx),
      s.slotChecks k = (((s.endCheck k).fillOnce k).fillOnce k).presentSlot k ∧
        ((s.slot k).capture = none → s.slotChecks k = s) ∧
        ∀ c, (s.slot k).capture = some c →
          (∀ rp timer, c.phase = .collecting rp timer → c.endSample ≤ s.newest c.request.stream →
            s.endCheck k = { s with slots := tableSet s.slots k { s.slot k with
              capture := some { c with phase := .draining rp .complete } } }) ∧
            ((∀ rp timer, c.phase = .collecting rp timer → s.newest c.request.stream < c.endSample) → s.endCheck k = s)) ∧
  (
    ∀ (s : State) (k : SlotIx) (c : Capture), (s.slot k).capture = some c →
      let x := s.slot k
      let place : Nat × Nat := match c.phase with
        | .collecting rp _ => (rp, if 120 ≤ min c.endSample (s.newest c.request.stream) - rp + 1 then 120 else 0)
        | .draining rp _ => (rp, min 120 (c.endSample - rp + 1).toNat)
        | .committing _ => (0, 0)
      let rp := place.1
      let n := place.2
      (n = 0 ∨ c.remaining = 0 ∨ (x.buffer0 ≠ .free ∧ x.buffer1 ≠ .free) ∨ s.store.takeReserved = none → s.fillOnce k = s) ∧
        ∀ e b m, 0 < n → 0 < c.remaining → x.buffer0 = .free ∨ x.buffer1 = .free → s.stream c.request.stream = some e →
          s.store.takeReserved = some (b, m) →
          let filled : Buffer := .filled
            { samples := (List.range n).map fun j => Memory.get 0 s.samples (e.base + (rp + j) % e.length)
              block := b, position := c.blocks.length }
          let c' : Capture := { c with
            phase := match c.phase with
              | .collecting _ timer => .collecting (rp + n) timer
              | .draining _ cause => .draining (rp + n) cause
              | p => p
            blocks := c.blocks ++ [b], remaining := c.remaining - 1 }
          s.fillOnce k = { s with
            store := m
            slots := tableSet s.slots k (if x.buffer0 = .free then ⟨some c', filled, x.buffer1⟩ else ⟨some c', x.buffer0, filled⟩) }) ∧
  (
    ∀ (s : State) (k : SlotIx) (c : Capture), (s.slot k).capture = some c →
      let x := s.slot k
      let outstanding := (∃ op, Granted s (.slot k) op) ∨ ∃ r ∈ s.port.waiting, r.who = .slot k
      let block : List Byte → List Byte := fun bs => withCheck ((bs ++ List.replicate 254 0).take 254)
      let one : Nat → List Byte := fun n => [BitVec.ofNat 8 n]
      let lowest : Staged → Prop := fun d =>
        (x.buffer0 = .filled d ∧ ∀ d', x.buffer1 = .filled d' → d.position ≤ d'.position) ∨
          (x.buffer1 = .filled d ∧ ∀ d', x.buffer0 = .filled d' → d.position < d'.position)
      let noneFilled : Prop := ∀ d, x.buffer0 ≠ .filled d ∧ x.buffer1 ≠ .filled d
      (outstanding → s.presentSlot k = s) ∧
        (∀ d, ¬outstanding → lowest d → s.presentSlot k = s.present (.slot k) (.write d.block
          (block ([0x53] ++ toBytes 2 c.head ++ one d.position ++ one d.samples.length
            ++ (d.samples.map (wordBytes 2)).flatten)))) ∧
        (∀ rp cause e, ¬outstanding → c.phase = .draining rp cause → c.endSample < rp → x.buffer0 = .free →
          x.buffer1 = .free → s.stream c.request.stream = some e →
          let total := (c.endSample - c.first + 1).toNat
          let gaps := c.gaps.filter fun g => decide (g.offset < total)
          let flags := (if c.short then 1 else 0) + (if gaps = [] then 0 else 2) + (if c.gapOverflow then 4 else 0)
          let q := c.request
          s.presentSlot k = s.present (.slot k) (.write c.head (block ([0x48] ++ one (q.recording.val + 1) ++ one q.rule.val
            ++ one q.priority ++ [e.node, e.stream] ++ wordBytes 2 q.stamp.epoch ++ wordBytes 4 q.stamp.cycle
            ++ toBytes 2 q.pre ++ toBytes 2 c.preActual ++ toBytes 2 (total - c.preActual) ++ toBytes 2 total
            ++ [match cause with | .complete => (1 : Byte) | .stalled => 2 | .lag => 3 | .cut => 4] ++ one flags
            ++ one gaps.length
            ++ ((gaps.flatMap fun g : GapEntry => toBytes 2 g.offset ++ one g.missing) ++ List.replicate 12 0).take 12
            ++ one c.blocks.length ++ (c.blocks.map (toBytes 2)).flatten)))) ∧
        (noneFilled → ¬(∃ rp cause, c.phase = .draining rp cause ∧ c.endSample < rp ∧ x.buffer0 = .free ∧ x.buffer1 = .free) →
          s.presentSlot k = s)) ∧
  (
    ∀ (s : State) (k : SlotIx),
      let t := s.slotChecks k
      WithinCapture s t ∧ (∀ j, j ≠ k → (t.slot j).capture = (s.slot j).capture) ∧
        ∀ c, (s.slot k).capture = some c → ∃ c', (t.slot k).capture = some c' ∧ c'.request = c.request ∧ c'.head = c.head ∧
          c'.endSample = c.endSample ∧ c'.gaps = c.gaps ∧ c.blocks.length ≤ c'.blocks.length ∧
          c'.blocks.take c.blocks.length = c.blocks ∧
          c'.remaining + c'.blocks.length = c.remaining + c.blocks.length ∧
          (∀ rp timer, c.phase = .collecting rp timer → c.endSample ≤ s.newest c.request.stream →
            ∃ rp', c'.phase = .draining rp' .complete ∧ rp ≤ rp') ∧
          (∀ rp timer, c.phase = .collecting rp timer → s.newest c.request.stream < c.endSample →
            ∃ n, c'.phase = .collecting (rp + 120 * n) timer ∧ c'.blocks.length = c.blocks.length + n) ∧
          ∀ rp cause, c.phase = .draining rp cause → ∃ rp', c'.phase = .draining rp' cause ∧ rp ≤ rp')

/-- SLOT_DATA_WRITE_COMPLETE (R58, R60, R62, R117, R118): the array holds the block, WRITING buffers become FREE, the block
of an orphaned write is freed, the slot makes its end check and staging checks and presents its next write, and the arbiter
tests, and grants as at every test. One case is the model's (log 30): a capture request that preempts the slot meets the
completion when the next command in the queue is the DATA frame that brings it. It is then taken before the grant of the
slot's own next write, and finds an occupant with no write in progress, so that the new capture starts with both buffers
(R74). SLOT_HEAD_WRITE_COMPLETE (R69, R117): the array holds the head, the slot becomes COMMITTING with its end cause, and
its COMMIT job goes to the tail of the Index Unit's queue; the arbiter's test then holds back a request of class 3 to 5
while the Index Unit has a job to take up (log 3). -/
def Obligations.SlotWritesComplete : Prop :=
  (
    ∀ (s : State) (k : SlotIx) (b : Nat) (contents : List Byte) (d : Staged) (orphaned : Bool) (left0 left1 : Buffer),
      Granted s (.slot k) (.write b contents) →
      let x := s.slot k
      (x.buffer0 = .writing d orphaned ∧ left0 = .free ∧ left1 = x.buffer1 ∧ (∀ d' o, x.buffer1 ≠ .writing d' o)) ∨
        (x.buffer1 = .writing d orphaned ∧ left1 = .free ∧ left0 = x.buffer0 ∧ (∀ d' o, x.buffer0 ≠ .writing d' o)) →
      let written : State := { s with
        port := { s.port with busy := none }, array := writeBlock s.array b contents
        store := if orphaned then s.store.freeBlock d.block else s.store
        slots := tableSet s.slots k ⟨x.capture, left0, left1⟩ }
      let asked := (((written.endCheck k).fillOnce k).fillOnce k).askOwnWrite k
      let request : State → Option CaptureRequest := fun t => (t.slot k).capture.map (·.request)
      let met := (∃ op, asked.arbiterChoice = some ⟨.slot k, op⟩) ∧
        (∃ c rp timer, (asked.slot k).capture = some c ∧ c.phase = .collecting rp timer) ∧
        ∃ f rest t, s.pending = .dataFrameArrival f :: rest ∧ exec (.dataFrameArrival f) asked = .next t ∧ request t ≠ request asked
      (¬met → exec .slotDataWriteComplete s = .next asked.arbitrate) ∧
        (met → exec .slotDataWriteComplete s = .next asked ∧
          (∀ d' o, (asked.slot k).buffer0 ≠ .writing d' o ∧ (asked.slot k).buffer1 ≠ .writing d' o) ∧
            (asked.abandon k).slot k = ⟨none, .free, .free⟩)) ∧
  (
    ∀ (s : State) (k : SlotIx),
      (s.ownWrite k = none → s.presentSlot k = s ∧ s.askOwnWrite k = s) ∧
        (∀ op, s.ownWrite k = some op → s.presentSlot k = s.present (.slot k) op ∧
          s.askOwnWrite k = { s with port := { s.port with waiting := s.port.waiting ++ [⟨.slot k, op⟩] } }) ∧
        (∀ w op, s.present w op =
          ({ s with port := { s.port with waiting := s.port.waiting ++ [⟨w, op⟩] } } : State).arbitrate)) ∧
  (
    ∀ (s : State) (k : SlotIx) (b : Nat) (contents : List Byte) (c : Capture) (rp : Nat) (cause : EndCause),
      Granted s (.slot k) (.write b contents) →
      (∀ d o, (s.slot k).buffer0 ≠ .writing d o ∧ (s.slot k).buffer1 ≠ .writing d o) →
      (s.slot k).capture = some c → c.phase = .draining rp cause →
      exec .slotHeadWriteComplete s = .next (({ s with
        port := { s.port with busy := none }, array := writeBlock s.array b contents
        slots := tableSet s.slots k { s.slot k with capture := some { c with phase := .committing cause } }
        index := { s.index with
          queue := s.index.queue ++ [.commit k c.request.recording c.head (c.endSample - c.first + 1).toNat] } } : State).arbitrateForCommit))

/-! ### Conditions (chapter 4) -/

/-- A report of an unmasked condition while RUNNING (R80): its flag is set, capture is SUSPENDED, the detail record
takes cause RAISED and the report, and SUSPENDED(condition, rule) is sent; test 1 then refuses every request, with no
condition. A report of a masked condition, or while SUSPENDED (R81): the flag is set and nothing else changes, so a
flag already set while SUSPENDED leaves the whole state as it was; and where the law of conditions holds, a report
taken while RUNNING finds its flag clear or its mask masked. -/
def Obligations.ReportsSuspendOrSetTheFlagOnly : Prop :=
  (
    ∀ (s : State) (r : ConditionReport), s.cond.masked r.condition = false → s.cond.state = .running →
      let t := s.report r
      t = { s with
        cond := { s.cond with flags := s.cond.flags ||| r.condition.bit, state := .suspended, detail := some (.raised r) }
        mgmt := { s.mgmt with
          status := s.mgmt.status.take 64 (BitVec.ofNat 16 r.condition.number) (BitVec.ofNat 16 r.rule.val) } } ∧
        ∀ q, t.captureRequest q = (t, false)) ∧
  (
    (∀ (s : State) (r : ConditionReport), s.cond.masked r.condition = true ∨ s.cond.state = .suspended →
      s.report r = { s with cond := { s.cond with flags := s.cond.flags ||| r.condition.bit } } ∧
        (s.cond.flagged r.condition = true → s.cond.state = .suspended → s.report r = s)) ∧
      ∀ (s : State) (r : ConditionReport), ConditionLaw s → s.cond.state = .running →
        s.cond.flagged r.condition = false ∨ s.cond.masked r.condition = true)

/-- CONTROL SET (R84, R85): BAD ARGUMENT for a mask value or a level out of range, nothing changed; otherwise the
selected conditions take the mask value, a present level becomes the preempt level, and then a set and unmasked flag
suspends a RUNNING capture with cause MASK-CHANGE, the lowest such condition, the current stamp and the event with
rule 65535; a request that reaches the Capture Engine after it is refused by test 1; with none, or while SUSPENDED,
state, detail and status record stay. The answer shows the words after that check. -/
def Obligations.ControlSetChecksTheMasks : Prop :=
  ∀ (s : State) (q : Request), Handed s .controlSet q →
    let selection := byteAt q.args 0
    let value := byteAt q.args 1
    let level := byteAt q.args 2
    let good := (value = 0 ∨ value = 1) ∧ (level = 255 ∨ level.toNat ≤ 4)
    (¬good → exec .controlSet s = .next (s.refuse .badArgument)) ∧
      (good →
        let masks := if value = 1 then s.cond.masks ||| selection else s.cond.masks &&& ~~~selection
        let u := { s.cond with masks := masks, level := if level = 255 then s.cond.level else level.toNat }
        let answer : State → List Byte := fun t => [t.cond.masks, BitVec.ofNat 8 t.cond.level, t.cond.flags,
          match t.cond.state with | .running => 0 | .suspended => 1]
        let same : State := { s with cond := u }
        let suspends := fun c : Condition => s.cond.state = .running ∧ u.flagged c = true ∧ u.masked c = false ∧
          ∀ c' : Condition, c'.number < c.number → ¬(u.flagged c' = true ∧ u.masked c' = false)
        ((∀ c, ¬suspends c) → exec .controlSet s = .next (same.respond .ok (answer same))) ∧
          ∀ c, suspends c →
            let t : State := { s with
              cond := { u with state := .suspended, detail := some (.maskChange c s.time) }
              mgmt := { s.mgmt with status := s.mgmt.status.take 64 (BitVec.ofNat 16 c.number) 65535 } }
            let v := t.respond .ok (answer t)
            exec .controlSet s = .next v ∧ ∀ r, v.captureRequest r = (v, false))

/-- CLEAR CONDITIONS and CONDITIONS QUERY (R86, R87): the selected flags are cleared, and capture is RUNNING with an
empty detail record when no set flag is unmasked; otherwise state and detail stay. The query changes nothing and
answers flags, masks, preempt level, capture state and detail record, an absent detail field written 255 in each byte
(R190; that the stamp of an empty record is such a field is log 16). -/
def Obligations.ClearConditionsResumes : Prop :=
  ∀ (s : State) (q : Request),
    (Handed s .clearConditions q →
      let flags := s.cond.flags &&& ~~~(byteAt q.args 0)
      (flags &&& ~~~s.cond.masks = 0 → exec .clearConditions s = .next (({ s with
        cond := { s.cond with flags := flags, state := .running, detail := none } } : State).respond .ok [flags, 0])) ∧
        (flags &&& ~~~s.cond.masks ≠ 0 → exec .clearConditions s = .next (({ s with
          cond := { s.cond with flags := flags } } : State).respond .ok
            [flags, match s.cond.state with | .running => 0 | .suspended => 1]))) ∧
      (Handed s .conditionsQuery q →
        exec .conditionsQuery s = .next (s.respond .ok
          ([s.cond.flags, s.cond.masks, BitVec.ofNat 8 s.cond.level, match s.cond.state with | .running => 0 | .suspended => 1]
            ++ match s.cond.detail with
              | none => [0, 255, 255, 255, 255, 255, 255, 255, 255, 255, 255, 255]
              | some (.raised r) => [1, BitVec.ofNat 8 r.condition.number, BitVec.ofNat 8 r.slot.val,
                  BitVec.ofNat 8 r.rule.val, BitVec.ofNat 8 (r.recording.val + 1), BitVec.ofNat 8 r.stream.val]
                  ++ wordBytes 2 r.stamp.epoch ++ wordBytes 4 r.stamp.cycle
              | some (.maskChange c stamp) => [2, BitVec.ofNat 8 c.number, 255, 255, 255, 255]
                  ++ wordBytes 2 stamp.epoch ++ wordBytes 4 stamp.cycle)))

/-! ### The recording store (chapter 5) -/

/-- FORMAT, CREATE, DELETE and ERASE are refused by the first of their shared checks that fails (R106, R135):
arguments, store state, busy, PROTECT. The name of FORMAT's argument (R106, R190): a length byte of at most 16, and that
many characters, each of code 32 to 126; the bytes after them are not judged (log 25). -/
def Obligations.StoreCommandsAreCheckedInOrder : Prop :=
  (∀ args : List Byte,
    let len := (byteAt args 0).toNat
    let name := (args.drop 1).take len
    let good := len ≤ 16 ∧ ∀ c ∈ name, 32 ≤ c.toNat ∧ c.toNat ≤ 126
    (good → nameAt 16 args 0 = some name) ∧ (¬good → nameAt 16 args 0 = none)) ∧
  ∀ (s : State) (q : Request) (st : Status),
    (Handed s .format q → (nameAt 16 q.args 0 = none → exec .format s = .next (s.refuse .badArgument)) ∧
      (nameAt 16 q.args 0 ≠ none → StoreCheckFails s true st → exec .format s = .next (s.refuse st))) ∧
      (Handed s .create q → (q.creation = none → exec .create s = .next (s.refuse .badArgument)) ∧
        (q.creation ≠ none → StoreCheckFails s false st → exec .create s = .next (s.refuse st))) ∧
      (Handed s .delete q →
        let k := (byteAt q.args 0).toNat
        (¬(1 ≤ k ∧ k ≤ 32) → exec .delete s = .next (s.refuse .badArgument)) ∧
          (1 ≤ k ∧ k ≤ 32 → StoreCheckFails s false st → exec .delete s = .next (s.refuse st))) ∧
      (Handed s .erase q →
        let k := (byteAt q.args 0).toNat
        let good := 1 ≤ k ∧ k ≤ 32 ∧ 1 ≤ fieldAt q.args 1 4 ∧ fieldAt q.args 1 4 ≤ fieldAt q.args 5 4
        (¬good → exec .erase s = .next (s.refuse .badArgument)) ∧
          (good → StoreCheckFails s false st → exec .erase s = .next (s.refuse st)))

/-- FORMAT past its shared checks (R107, R108): IN USE while a slot, a port, a job or a rule refers to the store;
otherwise ACCEPTED, the state FORMATTING, the map clear, the cursor 17, every entry and recording FREE, and directory
block 1 asked for. The name that FORMAT takes is that of StoreCommandsAreCheckedInOrder. The completions of FORMAT (R108): the directory blocks are read in ascending order, their serials
gathered; the label is written with the new serial: one greater than the label copy's, or 1 when the copy is absent or
its serial is 65,535, raised by one in the same way for as long as it is among those found; then the label copy takes it, the
directory blocks are written in ascending order with both entries FREE, and after block 16 the store is READY and
DONE(1, serial) is sent. A serial is gathered from a block valid as kind DIRECTORY (R108, R191): its check is good, its kind
byte is 0x44, and both entries decode, a FREE one by its state byte alone. -/
def Obligations.FormatIsAcceptedAndRunsToDone : Prop :=
  (
    ∀ (s : State) (q : Request) (name : List Byte), Handed s .format q → nameAt 16 q.args 0 = some name → StoreChecksPass s true →
      let inUse := (∃ k c, (s.slot k).capture = some c) ∨ (∃ p, s.readPort p ≠ .closed) ∨ s.index.queue ≠ [] ∨
        s.release.queue ≠ [] ∨ ∃ i r target, s.rule i = some r ∧ r.recording = some target
      (inUse → exec .format s = .next (s.refuse .inUse)) ∧
        (¬inUse → exec .format s = .next ((({ s with
          store := { s.store with
            state := .formatting, used := [], free := 8175, reserved := 0, cursor := 17,
            cache := Vector.replicate 32 none, recordings := Vector.replicate 32 .free }
          maint := some (.format name (.readDirectory 1 [])) } : State).present .maintenance (.read 1)).respond .accepted []))) ∧
  (
    ∀ b : List Byte,
      let decodes : Nat → Prop := fun e => byteAt b (e + 1) = 0 ∨ byteAt b (e + 1) = 1 ∧ (byteAt b (e + 2)).toNat ≤ 1 ∧
        (byteAt b (e + 3)).toNat ≤ 12 ∧
        (∀ c ∈ (b.drop (e + 4)).take (byteAt b (e + 3)).toNat, 32 ≤ c.toNat ∧ c.toNat ≤ 126) ∧
        (byteAt b (e + 18)).toNat = (fieldAt b (e + 16) 2 + 47) / 48
      let valid := checkGood b = true ∧ byteAt b 0 = 0x44 ∧ decodes 4 ∧ decodes 87
      (valid → directorySerial? b = some (BitVec.ofNat 16 (fieldAt b 2 2))) ∧ (¬valid → directorySerial? b = none)) ∧
  (
    ∀ (s : State) (name : List Byte) (op : StoreOp), Granted s .maintenance op →
      let u : State := { s with port := { s.port with busy := none }, array := op.applyTo s.array }
      (∀ block found, s.maint = some (.format name (.readDirectory block found)) →
        let found' := found ++ (directorySerial? (op.contents s.array)).toList
        (block < 16 → exec .formatDirectoryReadComplete s = .next
          ((({ u with maint := some (.format name (.readDirectory (block + 1) found')) } : State).present .maintenance
            (.read (block + 1))).arbitrate)) ∧
          (16 ≤ block → found'.length ≤ 16 →
            let raised : BitVec 16 → BitVec 16 := fun x => if x = 65535 then 1 else x + 1
            let first : BitVec 16 := match s.store.label with | none => 1 | some l => raised l.serial
            ∃ (serial : BitVec 16) (n : Nat), serial = raised^[n] first ∧ serial ∉ found' ∧
              (∀ m, m < n → raised^[m] first ∈ found') ∧ exec .formatDirectoryReadComplete s = .next
            ((({ u with maint := some (.format name (.writeLabel serial)) } : State).present .maintenance
              (.write 0 (labelBlock name serial))).arbitrate))) ∧
        (∀ serial, s.maint = some (.format name (.writeLabel serial)) →
          exec .formatLabelWriteComplete s = .next
            ((({ u with store := { s.store with label := some ⟨name, serial⟩ },
                        maint := some (.format name (.writeDirectory 1 serial)) } : State).present .maintenance
              (.write 1 (directoryBlock 1 serial none none))).arbitrate)) ∧
        ∀ block serial, s.maint = some (.format name (.writeDirectory block serial)) →
          (block < 16 → exec .formatDirectoryWriteComplete s = .next
            ((({ u with maint := some (.format name (.writeDirectory (block + 1) serial)) } : State).present .maintenance
              (.write (block + 1) (directoryBlock (block + 1) serial none none))).arbitrate)) ∧
            (16 ≤ block → exec .formatDirectoryWriteComplete s = .next
              (({ u with store := { s.store with state := .ready }, maint := none,
                         mgmt := { s.mgmt with status := s.mgmt.status.take 63 1 serial } } : State).arbitrate)))

/-- CREATE past its shared checks (R110): EXISTS when the recording is not FREE, NO ROOM when fewer blocks are free
and unreserved than it needs; otherwise ACCEPTED, that many blocks taken, which a map in order has, and the first index block's write presented.
CREATE's arguments (R110, R190): a recording 1 to 32, a listed mode, a max records of 1 to 1536 and a name of at most
12 characters of code 32 to 126; the bytes after the name are not judged (log 25). The completions of CREATE (R111):
the index blocks are written in position order, each with 48 UNUSED entries; then the directory block with the new
entry, composed from its position, the serial of the label copy and the two cached entries of that block (R93); its
completion is the commit point: entry DEFINED, newest 0, present count 0, and DONE(2, n). -/
def Obligations.CreateIsAcceptedAndRunsToDone : Prop :=
  (
    ∀ (s : State) (p : Nat) (l : LabelCopy), s.store.label = some l →
      s.directoryContents p = directoryBlock p l.serial (s.store.entry (Fin.ofNat 32 (2 * (p - 1))))
        (s.store.entry (Fin.ofNat 32 (2 * (p - 1) + 1)))) ∧
  (
    ∀ (s : State) (q : Request) (r : RecIx) (e : RecordingEntry), Handed s .create q → q.creation = some (r, e) →
      StoreChecksPass s false →
      let n := (e.maxRecords + 47) / 48
      (s.store.recording r ≠ .free → exec .create s = .next (s.refuse .alreadyExists)) ∧
        (s.store.recording r = .free → s.store.free < s.store.reserved + n → exec .create s = .next (s.refuse .noRoom)) ∧
        (MapOk s.store → s.store.reserved + n ≤ s.store.free → ∃ bs m, s.store.takeMany n = some (bs, m)) ∧
        ∀ bs m, s.store.recording r = .free → s.store.reserved + n ≤ s.store.free → s.store.takeMany n = some (bs, m) →
          bs.length = n ∧ exec .create s = .next ((({ s with
            store := m
            maint := some (.create r { e with blocks := bs, held := List.replicate n true } (.index 0)) } : State).present .maintenance
              (.write (bs.headD 0) (indexBlock r 0 e.maxRecords (List.replicate 48 .unused)))).respond .accepted [])) ∧
  (
    ∀ (q : Request),
      let k := (byteAt q.args 0).toNat
      let m := fieldAt q.args 2 2
      let len := (byteAt q.args 4).toNat
      let name := (q.args.drop 5).take len
      let good := 1 ≤ k ∧ k ≤ 32 ∧ (byteAt q.args 1 = 0 ∨ byteAt q.args 1 = 1) ∧ 1 ≤ m ∧ m ≤ 1536 ∧ len ≤ 12 ∧
        ∀ c ∈ name, 32 ≤ c.toNat ∧ c.toNat ≤ 126
      (¬good → q.creation = none) ∧
        (good → ∃ r, r.val + 1 = k ∧ q.creation = some (r,
          { name := name, mode := if byteAt q.args 1 = 0 then .fill else .wrap, maxRecords := m, blocks := [], held := [] }))) ∧
  (
    ∀ (s : State) (r : RecIx) (e : RecordingEntry) (op : StoreOp), Granted s .maintenance op →
      let u : State := { s with port := { s.port with busy := none }, array := op.applyTo s.array }
      (∀ x, s.maint = some (.create r e (.index x)) →
        (x + 1 < e.blocks.length → exec .createIndexWriteComplete s = .next
          ((({ u with maint := some (.create r e (.index (x + 1))) } : State).present .maintenance
            (.write (e.blocks.getD (x + 1) 0) (indexBlock r (x + 1) e.maxRecords (List.replicate 48 .unused)))).arbitrate)) ∧
          (e.blocks.length ≤ x + 1 → exec .createIndexWriteComplete s = .next
            ((({ u with maint := some (.create r e .directory) } : State).present .maintenance
              (.write (1 + r.val / 2) (({ s with store := { s.store with
                cache := tableSet s.store.cache r (some e) } } : State).directoryContents (1 + r.val / 2)))).arbitrate))) ∧
        (s.maint = some (.create r e .directory) →
          exec .createDirectoryWriteComplete s = .next
            (({ u with
              store := { s.store with
                cache := tableSet s.store.cache r (some e), recordings := tableSet s.store.recordings r (.defined 0 0) }
              maint := none
              mgmt := { s.mgmt with
                status := s.mgmt.status.take 63 2 (BitVec.ofNat 16 e.blocks.length) } } : State).arbitrate)))

/-- DELETE past its shared checks (R112): NO SUCH RECORDING when FREE, IN USE while a rule, a slot or a port refers to
it; otherwise ACCEPTED, its cache entry and state FREE, and its directory block's write presented with the entry FREE,
composed from its position, the serial of the label copy and the two cached entries (R93).
The completions of DELETE (R113, R130): after the directory write the held index blocks are read in position order;
the PRESENT entries of a valid block give release jobs in entry order while there is room that the Index Unit does not
wait for (log 27), then the block is freed and the walk goes on, to DONE(3, count) after the last held block; a block
that is not valid is freed at once; a walk that waits places its next job when it may. The heads are those of the PRESENT entries in entry order; the held
places are the list places marked held, ascending; the Index Unit waits in its waiting phase alone; and the room is 64 less
the jobs queued, the jobs parked and the places held (R130). -/
def Obligations.DeleteIsAcceptedAndWalksToDone : Prop :=
  (
    ∀ (s : State) (p : Nat) (l : LabelCopy), s.store.label = some l →
      s.directoryContents p = directoryBlock p l.serial (s.store.entry (Fin.ofNat 32 (2 * (p - 1))))
        (s.store.entry (Fin.ofNat 32 (2 * (p - 1) + 1)))) ∧
  (
    (presentHeads [] = [] ∧ ∀ es, (∀ n h t, presentHeads (.present n h t :: es) = h :: presentHeads es) ∧
      (∀ n h t, presentHeads (.void n h t :: es) = presentHeads es) ∧ presentHeads (.unused :: es) = presentHeads es) ∧
    (∀ e : RecordingEntry, e.heldPlaces.Pairwise (· < ·) ∧
      ∀ i, i ∈ e.heldPlaces ↔ i < e.blocks.length ∧ e.held.getD i false = true) ∧
    (∀ ph : IndexPhase, ph.isWaiting = true ↔ ∃ n w, ph = .waiting n w) ∧
    ∀ s : State, s.releaseRoom = 64 - (s.release.queue.length + s.release.parked.length + s.index.held)) ∧
  (
    ∀ (s : State) (q : Request) (r : RecIx), Handed s .delete q → (byteAt q.args 0).toNat = r.val + 1 → StoreChecksPass s false →
      (s.store.entry r = none ∨ s.store.recording r = .free → exec .delete s = .next (s.refuse .noSuchRecording)) ∧
        ∀ e, s.store.entry r = some e → s.store.recording r ≠ .free →
          let inUse := (∃ i x, s.rule i = some x ∧ x.recording = some r) ∨
            (∃ k c, (s.slot k).capture = some c ∧ c.request.recording = r) ∨
            ∃ p, (∃ o, s.readPort p = .opening o ∧ o.recording = r) ∨ ∃ o, s.readPort p = .opened o ∧ o.recording = r
          (inUse → exec .delete s = .next (s.refuse .inUse)) ∧
            (¬inUse →
              let u : State := { s with store := { s.store with
                cache := tableSet s.store.cache r none, recordings := tableSet s.store.recordings r .free } }
              exec .delete s = .next ((({ u with maint := some (.delete r e .directory 0) } : State).present .maintenance
                (.write (1 + r.val / 2) (u.directoryContents (1 + r.val / 2)))).respond .accepted []))) ∧
  (
    ∀ (s : State) (r : RecIx) (e : RecordingEntry) (count : Nat),
      let on : State → Nat → List Nat → State := fun v done rest => match rest with
        | [] => { v with maint := none, mgmt := { v.mgmt with status := v.mgmt.status.take 63 3 (BitVec.ofNat 16 done) } }
        | x :: xs => ({ v with maint := some (.delete r e (.read x xs) done) } : State).present .maintenance
            (.read (e.blocks.getD x 0))
      (∀ op, Granted s .maintenance op →
        let u : State := { s with port := { s.port with busy := none }, array := op.applyTo s.array }
        (s.maint = some (.delete r e .directory count) →
          exec .deleteDirectoryWriteComplete s = .next ((on u count e.heldPlaces).arbitrate)) ∧
          ∀ x rest, s.maint = some (.delete r e (.read x rest) count) →
            let heads := (readIndex r x e.maxRecords (op.contents s.array)).elim [] presentHeads
            let n := if s.index.phase.isWaiting then 0 else min s.releaseRoom heads.length
            let placed : State := { u with
              release := { s.release with queue := s.release.queue ++ (heads.take n).map fun h => ⟨h, r⟩ } }
            (n = heads.length → exec .deleteIndexReadComplete s = .next
              ((on { placed with store := s.store.freeBlock (e.blocks.getD x 0) } (count + n) rest).arbitrate)) ∧
              (n < heads.length → exec .deleteIndexReadComplete s = .next
                (({ placed with maint := some (.delete r e (.place x (heads.drop n) rest) (count + n)) } : State).arbitrate))) ∧
        ∀ x h hs rest, s.maint = some (.delete r e (.place x (h :: hs) rest) count) →
          let placed : State := { s with release := { s.release with queue := s.release.queue ++ [⟨h, r⟩] } }
          let may := 1 ≤ s.releaseRoom ∧ s.index.phase.isWaiting = false
          (may → hs ≠ [] → exec .deleteReleaseJobPlace s = .next
            (({ placed with maint := some (.delete r e (.place x hs rest) (count + 1)) } : State).arbitrate)) ∧
            (may → hs = [] → exec .deleteReleaseJobPlace s = .next
              ((on { placed with store := s.store.freeBlock (e.blocks.getD x 0) } (count + 1) rest).arbitrate)) ∧
            (¬may → exec .deleteReleaseJobPlace s = .next s))

/-- ERASE past its shared checks (R135, R136): NO SUCH RECORDING when FREE, DAMAGED when damaged; otherwise ACCEPTED,
the range clipped to the window: an empty range sends DONE(4, 0), any other places the VOID-SET job of its first
position. The positions of an ERASE (R94, R136): exactly the positions of the list that hold the place (n - 1) mod m
of some number n of the range, in ascending order. -/
def Obligations.EraseIsAcceptedWithThePositionsOfItsRange : Prop :=
  (
    ∀ (s : State) (q : Request) (r : RecIx), Handed s .erase q → (byteAt q.args 0).toNat = r.val + 1 →
      1 ≤ fieldAt q.args 1 4 → fieldAt q.args 1 4 ≤ fieldAt q.args 5 4 → StoreChecksPass s false →
      (s.store.recording r = .free → exec .erase s = .next (s.refuse .noSuchRecording)) ∧
        (∀ n p, s.store.recording r = .damaged n p → exec .erase s = .next (s.refuse .damaged)) ∧
        ∀ newest p, s.store.recording r = .defined newest p →
          let m := match s.store.entry r with | some e => e.maxRecords | none => 0
          let a := max (fieldAt q.args 1 4) (max 1 (newest + 1 - m))
          let b := min (fieldAt q.args 5 4) newest
          (b < a → exec .erase s = .next (({ s with
            maint := none, mgmt := { s.mgmt with status := s.mgmt.status.take 63 4 0 } } : State).respond .accepted [])) ∧
            ∀ x xs, a ≤ b → erasePositions m a b = x :: xs →
              exec .erase s = .next (({ s with
                maint := some (.erase r a b xs 0)
                index := { s.index with queue := s.index.queue ++ [.voidSet r x a b] } } : State).respond .accepted [])) ∧
  (
    ∀ m a b : Nat, 1 ≤ m → 1 ≤ a → a ≤ b →
      (erasePositions m a b).Pairwise (· < ·) ∧
        ∀ x, x ∈ erasePositions m a b ↔ ∃ n, a ≤ n ∧ n ≤ b ∧ (n - 1) % m / 48 = x)

/-! ### The mount scan (section 6.5) -/

/-- The scan begins with a read of block 0 (R138). At its completion an invalid label makes the store UNFORMATTED with
the effects of R96, clears busy, sends UNFORMATTED and ends the scan, so that nothing more is read for it; a valid one
gives the label copy its name and serial, and the scan reads the directory. -/
def Obligations.MountReadsTheLabel : Prop :=
  (∀ s : State, s.mountBegins = ({ s with maint := some (.mount .label) } : State).present .maintenance (.read 0)) ∧
    ∀ (s : State) (op : StoreOp), Granted s .maintenance op → s.maint = some (.mount .label) →
      let u : State := { s with port := { s.port with busy := none }, array := op.applyTo s.array }
      (readLabel (op.contents s.array) = none →
        exec .mountLabelReadComplete s = .next (({ u with
          store := { s.store with
            state := .unformatted, label := none, used := [], free := 8175, reserved := 0, cursor := 17,
            cache := Vector.replicate 32 none, recordings := Vector.replicate 32 .free }
          maint := none
          mgmt := { s.mgmt with status := s.mgmt.status.take 62 0 0 } } : State).arbitrate)) ∧
        ∀ l, readLabel (op.contents s.array) = some l →
          exec .mountLabelReadComplete s = .next
            ((({ u with store := { s.store with label := some l }, maint := some (.mount (.directory 1)) } : State).present
              .maintenance (.read 1)).arbitrate)

/-- A directory block read of the scan (R139): a valid block gives its two entries to the cache, any other gives FREE
to both and counts as damage; the next block is read, and after block 16 the recordings are scanned in ascending
number. There a FREE entry gets the state FREE, a DEFINED one has its blocks claimed and its first held index block
read, one that holds no block is DAMAGED with newest and present 0, and after the last the scan ends (R140, R142). The
claims of a recording's index blocks (R140): a list place is held exactly when its block lies in the data area, is not
marked before the scan of the recording, and is not at an earlier place of the list; the held blocks are then marked,
and only they. -/
def Obligations.MountReadsTheDirectoryAndClaimsIndexBlocks : Prop :=
  (
    ∀ (s : State) (op : StoreOp) (block : Nat) (l : LabelCopy), Granted s .maintenance op →
      s.maint = some (.mount (.directory block)) → s.store.label = some l →
      let u : State := { s with port := { s.port with busy := none }, array := op.applyTo s.array }
      let next : StoreManager → State := fun m =>
        (if block < 16 then
          ({ u with store := m, maint := some (.mount (.directory (block + 1))) } : State).present .maintenance (.read (block + 1))
        else ({ u with store := m } : State).mountRecordings (List.finRange 32)).arbitrate
      (∀ (v : State) (r : RecIx) (rs : List RecIx), v.mountRecordings [] = v.mountEnd ∧
        (v.store.entry r = none → v.mountRecordings (r :: rs) = ({ v with store := { v.store with
          recordings := tableSet v.store.recordings r .free } } : State).mountRecordings rs) ∧
        ∀ e, v.store.entry r = some e →
          let held := (claimBlocks v.store.used e.blocks).2
          let claimed : StoreManager := { v.store with
            used := (claimBlocks v.store.used e.blocks).1, cache := tableSet v.store.cache r (some { e with held := held }) }
          ((∀ i, i < e.blocks.length → held.getD i false = false) → v.mountRecordings (r :: rs) = ({ v with
            store := { claimed with recordings := tableSet v.store.recordings r (.damaged 0 0) } } : State).mountRecordings rs) ∧
            ∀ p ps, (List.range e.blocks.length).filter (fun i => held.getD i false) = p :: ps →
              v.mountRecordings (r :: rs) = ({ v with store := claimed, maint := some (.mount (.index r (p :: ps) []
                (held.contains false))) } : State).present .maintenance (.read (e.blocks.getD p 0))) ∧
      (∀ e0 e1, readDirectory block l.serial (op.contents s.array) = some (e0, e1) →
        exec .mountDirectoryReadComplete s = .next (next { s.store with
          cache := tableSet (tableSet s.store.cache (directoryFirst block) e0) (directorySecond block) e1 })) ∧
        (readDirectory block l.serial (op.contents s.array) = none →
          exec .mountDirectoryReadComplete s = .next (next { s.store with
            cache := tableSet (tableSet s.store.cache (directoryFirst block) none) (directorySecond block) none
            damage := satSucc s.store.damage }))) ∧
  (
    ∀ (used blocks : List Nat),
      (claimBlocks used blocks).2.length = blocks.length ∧
        (∀ i, i < blocks.length → ((claimBlocks used blocks).2.getD i false = true ↔
          inDataArea (blocks.getD i 0) = true ∧ blocks.getD i 0 ∉ used ∧ ∀ j, j < i → blocks.getD j 0 ≠ blocks.getD i 0)) ∧
        ∀ x, x ∈ (claimBlocks used blocks).1 ↔ x ∈ used ∨ inDataArea x = true ∧ x ∈ blocks)

/-- The index block reads and the entry walk of the scan (R140, R141, R142): a valid index block is kept, an invalid
one makes the recording DAMAGED; after the last held block the newest number is taken and the PRESENT entries are
walked: those of the kept blocks, in the order of the positions as the scan read them and then in entry order, each with
its position, its entry, its number, its head and its total. The walk reads the next entry's head, or repairs at once an entry whose head lies outside the data area; a
mounted entry marks its head and its listed blocks and is counted; one that is not mounted gets a REPAIR job; after
the last the recording is DEFINED or DAMAGED with its two numbers and the recordings after it are scanned. The newest
number of a recording (R142): the largest number, of a PRESENT or a VOID entry of a kept index block, that belongs to
its place; 0 when there is none. When an entry is mounted (R95, R141): its place is below max records and its number
belongs there, the number is in the window of the newest, the head lies in the data area and is valid for the
recording with the entry's total, and the head and its blocks are all different and none of them marked. The end of
the scan (R142): the free count is 8175 less the blocks marked, nothing is reserved, the cursor is 17, the store is
READY, busy is clear, and MOUNTED(free count, damage count) is sent. -/
def Obligations.MountWalksTheEntriesAndEndsReady : Prop :=
  (
    ∀ (s : State) (op : StoreOp), Granted s .maintenance op →
      let u : State := { s with port := { s.port with busy := none }, array := op.applyTo s.array }
      let repair : State → RecordWalk → WalkEntry → State := fun v w x => { v with
        maint := some (.mount (.repair w))
        index := { v.index with queue := v.index.queue ++ [.repair w.recording x.position x.entry] } }
      (∀ (v : State) (w : RecordWalk),
        let x := if w.damaged then RecordingState.damaged w.newest w.mounted else .defined w.newest w.mounted
        (w.todo = [] → v.mountWalk w = ({ v with store := { v.store with
          recordings := tableSet v.store.recordings w.recording x } } : State).mountRecordings
            ((List.finRange 32).drop (w.recording.val + 1))) ∧
          ∀ x rest, w.todo = x :: rest →
            (inDataArea x.head = true → v.mountWalk w = ({ v with maint := some (.mount (.head w)) } : State).present .maintenance
              (.read x.head)) ∧
              (inDataArea x.head = false → v.mountWalk w = repair v w x)) ∧
        (∀ r p ps kept damaged e, s.maint = some (.mount (.index r (p :: ps) kept damaged)) → s.store.entry r = some e →
          let found := readIndex r p e.maxRecords (op.contents s.array)
          let kept' := match found with | some es => kept ++ [(p, es)] | none => kept
          let damaged' := damaged || found.isNone
          (∀ p' ps', ps = p' :: ps' → exec .mountIndexReadComplete s = .next
            ((({ u with maint := some (.mount (.index r ps kept' damaged')) } : State).present .maintenance
              (.read (e.blocks.getD p' 0))).arbitrate)) ∧
            (ps = [] → exec .mountIndexReadComplete s = .next
              ((u.mountWalk ⟨r, damaged', newestOf e.maxRecords kept', 0, walkOf kept'⟩).arbitrate))) ∧
        ∀ w x rest, s.maint = some (.mount (.head w)) → w.todo = x :: rest →
          let found := mountedHead s.store.used (s.store.maxRecords w.recording) w.newest w.recording x (op.contents s.array)
          (∀ h, found = some h → exec .mountHeadReadComplete s = .next
            ((({ u with store := (x.head :: h.blocks).foldl (fun m b => { m with used := insertUsed b m.used }) s.store } :
              State).mountWalk { w with mounted := w.mounted + 1, todo := rest }).arbitrate)) ∧
            (found = none → exec .mountHeadReadComplete s = .next (repair u w x).arbitrate)) ∧
  (
    (∀ b : Nat, inDataArea b = true ↔ 17 ≤ b ∧ b ≤ 8191) ∧ walkOf [] = [] ∧
      ∀ (x : Nat) (es : List IndexEntry) (kept : List (Nat × List IndexEntry)),
        walkOf ((x, es) :: kept) = ((List.range es.length).filterMap fun i => match es.getD i .unused with
          | .present n h t => some ⟨x, i, n, h, t⟩
          | _ => none) ++ walkOf kept) ∧
  (
    ∀ (m : Nat) (kept : List (Nat × List IndexEntry)),
      let placed : Nat → Prop := fun n => ∃ b ∈ kept, ∃ i h t, i < b.2.length ∧
        (b.2[i]? = some (.present n h t) ∨ b.2[i]? = some (.void n h t)) ∧ 48 * b.1 + i < m ∧ (n - 1) % m = 48 * b.1 + i
      (∀ n, placed n → n ≤ newestOf m kept) ∧ (newestOf m kept = 0 ∨ placed (newestOf m kept))) ∧
  (
    ∀ (used : List Nat) (m newest : Nat) (r : RecIx) (x : WalkEntry) (contents : List Byte) (h : HeadInfo),
      let p := 48 * x.position + x.entry
      mountedHead used m newest r x contents = some h ↔
        readHead r contents = some h ∧ p < m ∧ (x.number - 1) % m = p ∧ newest + 1 ≤ x.number + m ∧ inDataArea x.head = true ∧
          h.total = x.total ∧ (x.head :: h.blocks).Nodup ∧ ∀ b ∈ x.head :: h.blocks, b ∉ used) ∧
  (
    ∀ s : State, s.mountEnd = { s with
      maint := none
      store := { s.store with free := 8175 - s.store.used.length, reserved := 0, cursor := 17, state := .ready }
      mgmt := { s.mgmt with
        status := s.mgmt.status.take 61 (BitVec.ofNat 16 (8175 - s.store.used.length)) s.store.damage } })

/-! ### The Index Unit and the Release Unit (chapter 6) -/

/-- INDEX_JOB_TAKE (R121, R122, R123, R125): the job at the head of the queue is taken; a COMMIT job assigns newest +
1 and reads the index block of that number's place, or, with no number left, raises LIMIT, frees its slot's blocks,
returns the reservation and empties the slot; the other jobs read the block at their position. -/
def Obligations.IndexJobIsTaken : Prop :=
  ∀ (s : State) (js : List IndexJob), s.index.phase = .idle →
    let block : RecIx → Nat → Nat := fun r x => ((s.store.entry r).elim [] (·.blocks)).getD x 0
    (∀ k r head total e, s.index.queue = .commit k r head total :: js → s.store.entry r = some e →
      let newest := (s.store.recording r).newest
      (newest ≠ 2 ^ 32 - 1 →
        exec .indexJobTake s = .next (({ s with index := { s.index with phase := .reading (newest + 1) } } : State).present .index
          (.read (e.blocks.getD (newest % e.maxRecords / 48) 0)))) ∧
        ∀ c, newest = 2 ^ 32 - 1 → (s.slot k).capture = some c →
          let t := ({ s with index := ⟨js, .idle, 0⟩ } : State).report
            ⟨.limit, k, c.request.rule, c.request.recording, c.request.stream, c.request.stamp⟩
          exec .indexJobTake s = .next (({ t with
            store := (s.store.freeBlocks (c.head :: c.blocks)).returnReserved c.remaining
            slots := tableSet s.slots k { s.slot k with capture := none } } : State).arbitrate)) ∧
      (∀ r x a b, s.index.queue = .voidSet r x a b :: js →
        exec .indexJobTake s = .next (({ s with index := { s.index with phase := .reading 0 } } : State).present .index
          (.read (block r x)))) ∧
      ∀ r x i, s.index.queue = .repair r x i :: js →
        exec .indexJobTake s = .next (({ s with index := { s.index with phase := .reading 0 } } : State).present .index
          (.read (block r x)))

/-- INDEX_READ_COMPLETE of a COMMIT job (R122, R123, R124, R125, R126): a block that is not valid, or a PRESENT entry
of a FILL recording, ends it in LIMIT; otherwise the record's entry becomes PRESENT, a PRESENT entry of a WRAP
recording being evicted, and the write is presented with one place held for the evicted record, or waits for that
place. The room of the release queue is 64 less the jobs queued, the jobs parked and the places held (R130). -/
def Obligations.CommitReadDecides : Prop :=
  ∀ (s : State) (op : StoreOp) (n : Nat) (k : SlotIx) (r : RecIx) (head total : Nat) (js : List IndexJob) (e : RecordingEntry),
    Granted s .index op → s.index.phase = .reading n → s.index.queue = .commit k r head total :: js →
    s.store.entry r = some e →
    let u : State := { s with port := { s.port with busy := none }, array := op.applyTo s.array }
    let room := 64 - (s.release.queue.length + s.release.parked.length + s.index.held)
    let place := (n - 1) % e.maxRecords
    let limited : State → Capture → State := fun v c =>
      let w := ({ v with index := ⟨js, .idle, 0⟩ } : State).report
        ⟨.limit, k, c.request.rule, c.request.recording, c.request.stream, c.request.stamp⟩
      ({ w with
        store := (v.store.freeBlocks (c.head :: c.blocks)).returnReserved c.remaining
        slots := tableSet s.slots k { s.slot k with capture := none } } : State).arbitrate
    let found := readIndex r (place / 48) e.maxRecords (op.contents s.array)
    (∀ c, found = none → (s.slot k).capture = some c →
      exec .indexReadComplete s =
        .next (limited { u with store := { s.store with damage := satSucc s.store.damage } } c)) ∧
      ∀ es, found = some es →
        let written : List Nat → IndexWrite := fun sends =>
          ⟨e.blocks.getD (place / 48) 0, indexBlock r (place / 48) e.maxRecords (es.set (place % 48) (.present n head total)), sends⟩
        let writes : List Nat → State := fun sends =>
          (({ u with index := ⟨s.index.queue, .writing n (written sends), sends.length⟩ } : State).present .index
            (.write (written sends).block (written sends).contents)).arbitrate
        ((∀ n' h t, es.getD (place % 48) .unused ≠ .present n' h t) →
          exec .indexReadComplete s = .next (writes [])) ∧
          ∀ n' h t, es.getD (place % 48) .unused = .present n' h t →
            (∀ c, e.mode = .fill → (s.slot k).capture = some c → exec .indexReadComplete s = .next (limited u c)) ∧
              (e.mode = .wrap → 1 ≤ room → exec .indexReadComplete s = .next (writes [h])) ∧
              (e.mode = .wrap → room = 0 → exec .indexReadComplete s = .next
                (({ u with index := { s.index with phase := .waiting n (written [h]) } } : State).arbitrate))

/-- INDEX_READ_COMPLETE of a VOID-SET and of a REPAIR job that change entries (R127, R128), and INDEX_RELEASE_HOLD
(R122, R130): the selected entries become VOID keeping number, head and total; the write is presented once the release
queue has room for every record it sends, and until then the job waits. A block that is not valid counts as damage,
and then, as with nothing to change, the job ends unwritten: a VOID-SET reports the count 0, a REPAIR is reported
done (its report: IndexWritesComplete). On the count 0 the ERASE places its next VOID-SET with the sum unchanged, or, with
none left, sends DONE(4, sum) and clears busy (R127, R136). The room of the release queue is 64 less the jobs queued, the
jobs parked and the places held (R130). -/
def Obligations.VoidingJobsHoldAndWrite : Prop :=
  (∀ (s : State) (r : RecIx) (a b : Nat) (rest : List Nat) (sum : Nat), s.maint = some (.erase r a b rest sum) →
    (∀ y ys, rest = y :: ys → s.voidSetReported 0 = { s with
      maint := some (.erase r a b ys sum), index := { s.index with queue := s.index.queue ++ [.voidSet r y a b] } }) ∧
      (rest = [] → s.voidSetReported 0 = { s with
        maint := none, mgmt := { s.mgmt with status := s.mgmt.status.take 63 4 (BitVec.ofNat 16 sum) } })) ∧
    (∀ s : State, s.releaseRoom = 64 - (s.release.queue.length + s.release.parked.length + s.index.held)) ∧
  (∀ (s : State) (op : StoreOp) (n : Nat) (r : RecIx) (x a b : Nat) (js : List IndexJob) (e : RecordingEntry)
      (es : List IndexEntry), Granted s .index op → s.index.phase = .reading n → s.index.queue = .voidSet r x a b :: js →
    s.store.entry r = some e → readIndex r x e.maxRecords (op.contents s.array) = some es →
    let u : State := { s with port := { s.port with busy := none }, array := op.applyTo s.array }
    let chosen : IndexEntry → Bool := fun
      | .present n' _ _ => decide (a ≤ n') && decide (n' ≤ b)
      | _ => false
    let heads := es.filterMap fun y => match y with
      | .present _ h _ => if chosen y then some h else none
      | _ => none
    let w : IndexWrite := ⟨e.blocks.getD x 0, indexBlock r x e.maxRecords (es.map fun y => match y with
      | .present n' h t => if chosen y then .void n' h t else y
      | _ => y), heads⟩
    (heads = [] → exec .indexReadComplete s = .next
      (({ u with index := ⟨js, .idle, 0⟩ } : State).voidSetReported 0).arbitrate) ∧
    (heads ≠ [] → heads.length ≤ s.releaseRoom → exec .indexReadComplete s = .next
      ((({ u with index := ⟨s.index.queue, .writing n w, heads.length⟩ } : State).present .index
        (.write w.block w.contents)).arbitrate)) ∧
      (heads ≠ [] → s.releaseRoom < heads.length → exec .indexReadComplete s = .next
        (({ u with index := { s.index with phase := .waiting n w } } : State).arbitrate))) ∧
    (∀ (s : State) (op : StoreOp) (n : Nat) (r : RecIx) (x i n' h t : Nat) (js : List IndexJob) (e : RecordingEntry)
        (es : List IndexEntry), Granted s .index op → s.index.phase = .reading n → s.index.queue = .repair r x i :: js →
      s.store.entry r = some e → readIndex r x e.maxRecords (op.contents s.array) = some es →
      es.getD i .unused = .present n' h t →
      let u : State := { s with port := { s.port with busy := none }, array := op.applyTo s.array }
      let w : IndexWrite := ⟨e.blocks.getD x 0, indexBlock r x e.maxRecords (es.set i (.void n' h t)), []⟩
      exec .indexReadComplete s = .next ((({ u with index := ⟨s.index.queue, .writing n w, 0⟩ } : State).present .index
        (.write w.block w.contents)).arbitrate)) ∧
    (∀ (s : State) (op : StoreOp) (n : Nat) (j : IndexJob) (js : List IndexJob) (e : RecordingEntry),
      Granted s .index op → s.index.phase = .reading n → s.index.queue = j :: js → s.store.entry j.recording = some e →
      let u : State := { s with
        port := { s.port with busy := none }, array := op.applyTo s.array, index := ⟨js, .idle, 0⟩ }
      let found := fun x => readIndex j.recording x e.maxRecords (op.contents s.array)
      let damaged : State := { u with store := { s.store with damage := satSucc s.store.damage } }
      (∀ r x a b, j = .voidSet r x a b → found x = none →
        exec .indexReadComplete s = .next (damaged.voidSetReported 0).arbitrate) ∧
        (∀ r x i, j = .repair r x i → found x = none → exec .indexReadComplete s = .next damaged.repairReported.arbitrate) ∧
        ∀ r x i es, j = .repair r x i → found x = some es → (∀ n' h t, es.getD i .unused ≠ .present n' h t) →
          exec .indexReadComplete s = .next u.repairReported.arbitrate) ∧
    ∀ (s : State) (n : Nat) (w : IndexWrite), s.index.phase = .waiting n w →
      (w.sends.length ≤ s.releaseRoom → exec .indexReleaseHold s = .next
        (({ s with index := { s.index with phase := .writing n w, held := w.sends.length } } : State).present .index
          (.write w.block w.contents))) ∧
        (s.releaseRoom < w.sends.length → exec .indexReleaseHold s = .next s)

/-- INDEX_WRITE_COMPLETE of a COMMIT job (R70, R124, R126, R133): the record is committed: newest becomes its number,
the present count rises by one unless a record is evicted, the slot's reservation is returned and the slot becomes
EMPTY; the evicted record's release job goes to the tail of the release queue, or, when a port pins its head, to the
parked list with every such port marked withdrawn. INDEX_WRITE_COMPLETE of a VOID-SET and of a REPAIR job (R127, R128,
R133, R136, R141): the present count falls by the records voided, whose release jobs go in entry order to the queue or,
where a port pins the head, to the parked list with every such port marked withdrawn, and the count goes to the ERASE,
which places its next job or sends DONE(4, sum); the scan counts one damage and its walk goes on: with no entry left the
recording is recorded and the next is scanned, otherwise the next entry's head is read, or the entry is repaired at once
when its head lies outside the data area. A port pins a head when it is OPEN on it, or OPENING with that head found (R151);
a withdrawn mark changes nothing else of its port, and a CLOSED port has none (R152). -/
def Obligations.IndexWritesComplete : Prop :=
  (
    ∀ (s : State) (b n : Nat) (contents : List Byte) (w : IndexWrite) (k : SlotIx) (r : RecIx) (head total newest present : Nat)
      (js : List IndexJob) (c : Capture), Granted s .index (.write b contents) → s.index.phase = .writing n w →
      s.index.queue = .commit k r head total :: js → s.store.recording r = .defined newest present →
      (s.slot k).capture = some c →
      let t : Nat → State := fun present' => { s with
        port := { s.port with busy := none }, array := writeBlock s.array b contents
        store := { s.store with
          recordings := tableSet s.store.recordings r (.defined n present'), reserved := s.store.reserved - c.remaining }
        slots := tableSet s.slots k { s.slot k with capture := none }
        index := ⟨js, .idle, 0⟩ }
      (w.sends = [] → exec .indexWriteComplete s = .next (t (present + 1)).arbitrate) ∧
        ∀ h, w.sends = [h] →
          ((∀ p, (s.readPort p).pin? ≠ some h) → exec .indexWriteComplete s = .next
            (({ t present with release := { s.release with queue := s.release.queue ++ [⟨h, r⟩] } } : State).arbitrate)) ∧
            ((∃ p, (s.readPort p).pin? = some h) → exec .indexWriteComplete s = .next
              (({ t present with
                release := { s.release with parked := s.release.parked ++ [⟨h, r⟩] }
                ports := s.ports.map fun p => if p.pin? = some h then p.withdraw else p } : State).arbitrate))) ∧
  (
    ∀ (s : State) (b n : Nat) (contents : List Byte) (w : IndexWrite) (js : List IndexJob),
      Granted s .index (.write b contents) → s.index.phase = .writing n w →
      let u : State := { s with
        port := { s.port with busy := none }, array := writeBlock s.array b contents, index := ⟨js, .idle, 0⟩ }
      let pinned : Nat → Bool := fun h => s.ports.toList.any fun p => p.pin? == some h
      (∀ r x a z newest present a' z' rest sum, s.index.queue = .voidSet r x a z :: js →
        s.store.recording r = .defined newest present → s.maint = some (.erase r a' z' rest sum) →
        let t : State := { u with
          store := { s.store with recordings := tableSet s.store.recordings r (.defined newest (present - w.sends.length)) }
          release := { s.release with
            queue := s.release.queue ++ (w.sends.filter fun h => !pinned h).map fun h => ⟨h, r⟩
            parked := s.release.parked ++ (w.sends.filter pinned).map fun h => ⟨h, r⟩ }
          ports := s.ports.map fun p => if p.pin?.any (w.sends.contains ·) then p.withdraw else p }
        (rest = [] → exec .indexWriteComplete s = .next (({ t with
          maint := none
          mgmt := { s.mgmt with
            status := s.mgmt.status.take 63 4 (BitVec.ofNat 16 (sum + w.sends.length)) } } : State).arbitrate)) ∧
          ∀ y ys, rest = y :: ys → exec .indexWriteComplete s = .next (({ t with
            maint := some (.erase r a' z' ys (sum + w.sends.length))
            index := ⟨js ++ [.voidSet r y a' z'], .idle, 0⟩ } : State).arbitrate)) ∧
        ∀ r x i v, s.index.queue = .repair r x i :: js → s.maint = some (.mount (.repair v)) →
          let counted : State := { u with store := { s.store with damage := satSucc s.store.damage } }
          let rest : RecordWalk := { v with todo := v.todo.tail }
          let status := if v.damaged then RecordingState.damaged v.newest v.mounted else .defined v.newest v.mounted
          exec .indexWriteComplete s = .next (counted.mountWalk rest).arbitrate ∧
            (v.todo.tail = [] → counted.mountWalk rest = ({ counted with store := { counted.store with
              recordings := tableSet s.store.recordings v.recording status } } : State).mountRecordings
                ((List.finRange 32).drop (v.recording.val + 1))) ∧
            ∀ z zs, v.todo.tail = z :: zs →
              (inDataArea z.head = true → counted.mountWalk rest =
                ({ counted with maint := some (.mount (.head rest)) } : State).present .maintenance (.read z.head)) ∧
                (inDataArea z.head = false → counted.mountWalk rest = { counted with
                  maint := some (.mount (.repair rest))
                  index := ⟨js ++ [.repair v.recording z.position z.entry], .idle, 0⟩ })) ∧
  (
    ∀ p : ReadPort,
      (∀ h, p.pin? = some h ↔ (∃ r, p = .opened r ∧ r.head = h) ∨ ∃ o x, p = .opening o ∧ o.found = some x ∧ x.1 = h) ∧
        (∀ r, p = .opened r → p.withdraw = .opened { r with withdrawn := true }) ∧
        (∀ o, p = .opening o → p.withdraw = .opening { o with withdrawn := true }) ∧ (p = .closed → p.withdraw = .closed)) ∧
  (
    ∀ s : State,
      (∀ v, s.maint = some (.mount (.repair v)) → s.repairReported =
        ({ s with store := { s.store with damage := satSucc s.store.damage } } : State).mountWalk
          { v with todo := v.todo.tail }) ∧
        ((∀ v, s.maint ≠ some (.mount (.repair v))) → s.repairReported = s))

/-- RELEASE_JOB_TAKE and RELEASE_HEAD_READ_COMPLETE (R131, R132, R133, R151): a job whose head is pinned is parked in
the place it has, and the ports that pin it are marked; otherwise its head is read, and then, still not pinned, a
valid head frees its blocks in list order and itself, an invalid one frees itself and counts as damage, and the job is
finished. A head read that completes while RESTARTING is discarded: no free claims are made, nothing is counted, parked
or marked, and nothing is granted (R134, R187). -/
def Obligations.ReleaseFreesUnpinnedRecords : Prop :=
  ∀ (s : State) (j : ReleaseJob) (js : List ReleaseJob), s.release.queue = j :: js →
    let pinned := ∃ p, (s.readPort p).pin? = some j.head
    let parked : State → State := fun v => ({ v with
      release := ⟨js, false, s.release.parked ++ [j]⟩
      ports := s.ports.map fun p => if p.pin? = some j.head then p.withdraw else p } : State).arbitrate
    (s.release.reading = false →
      (pinned → exec .releaseJobTake s = .next (parked s)) ∧
        (¬pinned → exec .releaseJobTake s = .next
          (({ s with release := { s.release with reading := true } } : State).present .release (.read j.head)))) ∧
      ∀ op, s.release.reading = true → Granted s .release op →
        let u : State := { s with port := { s.port with busy := none }, array := op.applyTo s.array }
        let done : StoreManager → State := fun m => ({ u with store := m, release := ⟨js, false, s.release.parked⟩ } : State).arbitrate
        (s.mgmt.phase ≠ .restarting →
          (pinned → exec .releaseHeadReadComplete s = .next (parked u)) ∧
            (∀ h, ¬pinned → readHead j.recording (op.contents s.array) = some h →
              exec .releaseHeadReadComplete s = .next (done ((s.store.freeBlocks h.blocks).freeBlock j.head))) ∧
            (¬pinned → readHead j.recording (op.contents s.array) = none →
              exec .releaseHeadReadComplete s =
                .next (done { s.store.freeBlock j.head with damage := satSucc s.store.damage }))) ∧
          (s.mgmt.phase = .restarting →
            exec .releaseHeadReadComplete s = .next { u with release := ⟨js, false, s.release.parked⟩ })

/-! ### The store blocks (section 10.4) -/

/-- The store blocks of section 10.4 (R91 to R95, R191, R192). Every block written has 256 bytes: its layout, reserved
bytes 0, and the check over bytes 0 to 253. A label of an allowed name, a directory block of two entries FREE or
well-formed, an index block of 48 entries that belong to their places, a head block with at most 4 gaps and 100 blocks,
and a data block of 1 to 120 samples read back as written. An index entry's word holds its state, lap bit, head and
total; an entry of the block lap or of the lap before it keeps number, head and total, and one of an older lap reads
UNUSED. A block with a bad check or another kind byte, or with a field that does not decode, reads as none. A label's
stamp and block count, a directory block's position and serial and its entries' recording numbers, an index block's
recording and position, a head's recording, block count and block numbers, and a data block's owner and place are judged
where the block is read. Three points are the model's choice: a block is judged by its check, its kind byte and the
fields that its reader needs only (log 21); of a name only its length byte and that many characters are judged and kept,
and the bytes after them are written 0 (log 25), so any value of those bytes and of the serial reads as a label; and the
bytes of a FREE directory entry after its recording number and state are written 0 (log 32). -/
def Obligations.StoreBlocksReadBackAsWritten : Prop :=
  let block : List Byte → List Byte := fun bs => withCheck ((bs ++ List.replicate 254 0).take 254)
  let one : Nat → List Byte := fun n => [BitVec.ofNat 8 n]
  let named : Nat → List Byte → List Byte := fun k name => one name.length ++ (name ++ List.replicate k 0).take k
  let nameGood : Nat → List Byte → Prop := fun k name => name.length ≤ k ∧ ∀ c ∈ name, 32 ≤ c.toNat ∧ c.toNat ≤ 126
  (∀ bs, (block bs).length = 256 ∧ checkGood (block bs) = true) ∧
  (
    ∀ (name : List Byte) (serial : BitVec 16),
      labelBlock name serial = block ([0x4C, 0x54, 0x43, 0x32, 0x38] ++ wordBytes 2 serial ++ [0x20, 0x00] ++ named 16 name) ∧
        (nameGood 16 name → readLabel (labelBlock name serial) = some ⟨name, serial⟩)) ∧
  (
    ∀ b : List Byte,
      let name := (b.drop 10).take (byteAt b 9).toNat
      let valid := checkGood b = true ∧ b.take 5 = [0x4C, 0x54, 0x43, 0x32, 0x38] ∧ fieldAt b 7 2 = 8192 ∧
        (byteAt b 9).toNat ≤ 16 ∧ ∀ c ∈ name, 32 ≤ c.toNat ∧ c.toNat ≤ 126
      readLabel b = if valid then some ⟨name, BitVec.ofNat 16 (fieldAt b 5 2)⟩ else none) ∧
  (
    ∀ (p : Nat) (serial : BitVec 16) (e0 e1 : Option RecordingEntry),
      let first : RecIx := Fin.ofNat 32 (2 * (p - 1))
      let second : RecIx := Fin.ofNat 32 (2 * (p - 1) + 1)
      let entry : RecIx → Option RecordingEntry → List Byte := fun r e =>
        ((match e with
          | none => one (r.val + 1)
          | some e => one (r.val + 1) ++ [1, match e.mode with | .fill => 0 | .wrap => 1] ++ named 12 e.name
              ++ toBytes 2 e.maxRecords ++ one e.blocks.length ++ (e.blocks.map (toBytes 2)).flatten)
          ++ List.replicate 83 0).take 83
      let good : RecordingEntry → Prop := fun e => nameGood 12 e.name ∧ 1 ≤ e.maxRecords ∧ e.maxRecords ≤ 1536 ∧
        e.blocks.length = (e.maxRecords + 47) / 48 ∧ ∀ b ∈ e.blocks, b < 2 ^ 16
      let read : RecordingEntry → RecordingEntry := fun e => { e with held := List.replicate e.blocks.length true }
      directoryBlock p serial e0 e1 = block (one 0x44 ++ one p ++ wordBytes 2 serial ++ entry first e0 ++ entry second e1) ∧
        (1 ≤ p → p ≤ 16 → (∀ e, e0 = some e → good e) → (∀ e, e1 = some e → good e) →
          readDirectory p serial (directoryBlock p serial e0 e1) = some (e0.map read, e1.map read))) ∧
  (
    ∀ (p : Nat) (serial : BitVec 16) (b : List Byte),
      (checkGood b = false ∨ byteAt b 0 ≠ 0x44 ∨ fieldAt b 1 1 ≠ p ∨ fieldAt b 2 2 ≠ serial.toNat →
        readDirectory p serial b = none) ∧
        ∀ e, e = 4 ∨ e = 87 →
          let recording := 2 * (p - 1) + (if e = 4 then 0 else 1)
          (2 ≤ (byteAt b (e + 1)).toNat ∨ byteAt b (e + 1) = 1 ∧
            (2 ≤ (byteAt b (e + 2)).toNat ∨ 12 < (byteAt b (e + 3)).toNat ∨
              (∃ c ∈ (b.drop (e + 4)).take (byteAt b (e + 3)).toNat, c.toNat < 32 ∨ 126 < c.toNat) ∨
              (byteAt b (e + 18)).toNat ≠ (fieldAt b (e + 16) 2 + 47) / 48 ∨ fieldAt b (e + 16) 2 = 0 ∨
              1536 < fieldAt b (e + 16) 2 ∨ p ≤ 16 ∧ (byteAt b e).toNat ≠ recording + 1) →
            readDirectory p serial b = none)) ∧
  (
    ∀ (r : RecIx) (x m lap : Nat) (es : List IndexEntry),
      let known : Nat → Nat → Prop := fun i n =>
        ∃ h t, (es[i]? = some (.present n h t) ∨ es[i]? = some (.void n h t)) ∧ h < 2 ^ 13 ∧ t ≤ 12000
      let placed : Nat → Nat → Prop := fun i n => 1 ≤ n ∧ n < 2 ^ 32 ∧ (n - 1) % m = 48 * x + i
      let numbers : Nat → Prop := fun n => ∃ (i h t : Nat), es[i]? = some (IndexEntry.present n h t) ∨ es[i]? = some (.void n h t)
      let word : IndexEntry → Nat := fun
        | .unused => 0
        | .present n h t => if (n - 1) / m + 1 < lap then 0 else 2 ^ 30 + (lap - (n - 1) / m) * 2 ^ 29 + h * 2 ^ 16 + t
        | .void n h t => if (n - 1) / m + 1 < lap then 0 else 2 ^ 31 + (lap - (n - 1) / m) * 2 ^ 29 + h * 2 ^ 16 + t
      let kept : IndexEntry → IndexEntry := fun
        | .unused => .unused
        | .present n h t => if (n - 1) / m + 1 < lap then .unused else .present n h t
        | .void n h t => if (n - 1) / m + 1 < lap then .unused else .void n h t
      1 ≤ m → x < 32 → es.length = 48 → (∀ i < 48, es[i]? = some .unused ∨ ∃ n, known i n ∧ placed i n) →
        (∀ n, numbers n → (n - 1) / m ≤ lap) → (lap = 0 ∨ ∃ n, numbers n ∧ (n - 1) / m = lap) →
        indexBlock r x m es = block (one 0x49 ++ one (r.val + 1) ++ one x ++ [0] ++ toBytes 4 lap
            ++ (es.map fun e => toBytes 4 (word e)).flatten) ∧
          readIndex r x m (indexBlock r x m es) = some (es.map kept) ∧
          ((∀ n, numbers n → lap ≤ (n - 1) / m + 1) → readIndex r x m (indexBlock r x m es) = some es)) ∧
  (
    ∀ (r : RecIx) (x m : Nat) (b : List Byte),
      let lap := fieldAt b 4 4
      (checkGood b = false ∨ byteAt b 0 ≠ 0x49 ∨ fieldAt b 1 1 ≠ r.val + 1 ∨ fieldAt b 2 1 ≠ x → readIndex r x m b = none) ∧
        ∀ i < 48,
          let w := fieldAt b (8 + 4 * i) 4
          let bit := w / 2 ^ 29 % 2
          (w / 2 ^ 30 = 3 ∨ w / 2 ^ 30 = 0 ∧ w ≠ 0 ∨
            w / 2 ^ 30 ≠ 0 ∧ (12000 < w % 2 ^ 14 ∨ lap < bit ∨ 2 ^ 32 ≤ (lap - bit) * m + 48 * x + i + 1) →
            readIndex r x m b = none) ∧
          ∀ es, readIndex r x m b = some es → es[i]? = some (
            if w = 0 then IndexEntry.unused
            else if w / 2 ^ 30 = 1 then .present ((lap - bit) * m + 48 * x + i + 1) (w / 2 ^ 16 % 2 ^ 13) (w % 2 ^ 14)
            else .void ((lap - bit) * m + 48 * x + i + 1) (w / 2 ^ 16 % 2 ^ 13) (w % 2 ^ 14))) ∧
  (
    ∀ (h : HeadInfo) (r : RecIx),
      let flags := (if h.short then 1 else 0) + (if h.gapped then 2 else 0) + (if h.gapOverflow then 4 else 0)
      headBlock h = block ([0x48, h.recording, h.rule, h.priority, h.node, h.stream] ++ wordBytes 2 h.stamp.epoch
          ++ wordBytes 4 h.stamp.cycle ++ toBytes 2 h.preRequested ++ toBytes 2 h.preActual ++ toBytes 2 h.postActual
          ++ toBytes 2 h.total ++ [match h.cause with | .complete => (1 : Byte) | .stalled => 2 | .lag => 3 | .cut => 4]
          ++ one flags ++ one h.gaps.length
          ++ ((h.gaps.flatMap fun g : GapEntry => toBytes 2 g.offset ++ one g.missing) ++ List.replicate 12 0).take 12
          ++ one h.blocks.length ++ (h.blocks.map (toBytes 2)).flatten) ∧
        (h.preRequested < 2 ^ 16 → h.preActual < 2 ^ 16 → h.postActual < 2 ^ 16 → h.total < 2 ^ 16 → h.gaps.length ≤ 4 →
          (∀ g ∈ h.gaps, g.offset < 2 ^ 16 ∧ g.missing < 2 ^ 8) → h.blocks.length ≤ 100 →
          (∀ b ∈ h.blocks, 17 ≤ b ∧ b ≤ 8191) → h.recording.toNat = r.val + 1 → h.blocks.length = (h.total + 119) / 120 →
          readHead r (headBlock h) = some h)) ∧
  (
    ∀ (r : RecIx) (b : List Byte),
      let count := (byteAt b 35).toNat
      checkGood b = false ∨ byteAt b 0 ≠ 0x48 ∨ (byteAt b 1).toNat ≠ r.val + 1 ∨ byteAt b 20 = 0 ∨ 4 < (byteAt b 20).toNat ∨
        4 < (byteAt b 22).toNat ∨ 100 < count ∨ count ≠ (fieldAt b 18 2 + 119) / 120 ∨
        (∃ i < count, fieldAt b (36 + 2 * i) 2 < 17 ∨ 8191 < fieldAt b (36 + 2 * i) 2) → readHead r b = none) ∧
  (
    ∀ (owner place : Nat) (samples : List Sample),
      dataBlock owner place samples = block (one 0x53 ++ toBytes 2 owner ++ one place ++ one samples.length
          ++ (samples.map (wordBytes 2)).flatten) ∧
        (owner < 2 ^ 16 → place < 2 ^ 8 → 1 ≤ samples.length → samples.length ≤ 120 →
          readData owner place (dataBlock owner place samples) = some samples)) ∧
  (
    ∀ (owner place : Nat) (b : List Byte),
      checkGood b = false ∨ byteAt b 0 ≠ 0x53 ∨ fieldAt b 1 2 ≠ owner ∨ fieldAt b 3 1 ≠ place ∨ byteAt b 4 = 0 ∨
        120 < (byteAt b 4).toNat → readData owner place b = none)

/-! ### The readout ports (chapter 7) -/

/-- OPEN (R147, R148): IN USE on a port that is not CLOSED; on a CLOSED port the four checks in order, and then the
port is OPENING, its request waits, and the index block of the record's place is read at class 5. The completions of an OPEN (R149, R150, R151): an entry that is PRESENT with the record's number and a head in the
data area pins that head and reads it; a head valid for the recording, with the entry's total, makes the port OPEN at
position 0 with an empty cache, answered OK with the 41 bytes of the INFO result (section 10.2); anything else closes
the port, its pin removed, answered RECORD NOT PRESENT. -/
def Obligations.OpenChecksReadsPinsAndOpens : Prop :=
  (
    ∀ (s : State) (q : Request) (p : PortIx), HandedToPort s .portOpen q p →
      (s.readPort p ≠ .closed → exec .portOpen s = .next (s.portAnswer p .inUse [])) ∧
        (s.readPort p = .closed →
          let k := (byteAt q.args 0).toNat
          let n := fieldAt q.args 1 4
          (¬(1 ≤ k ∧ k ≤ 32 ∧ 1 ≤ n) → exec .portOpen s = .next (s.refuse .badArgument)) ∧
            ∀ r : RecIx, r.val + 1 = k → 1 ≤ n →
              (s.store.state ≠ .ready → exec .portOpen s = .next (s.refuse .notReady)) ∧
                (s.store.state = .ready →
                  let e := s.store.entry r
                  let x := s.store.recording r
                  let m := s.store.maxRecords r
                  let place := (n - 1) % m
                  let inWindow := x ≠ .free ∧ max 1 (x.newest + 1 - m) ≤ n ∧ n ≤ x.newest
                  let holds := (∃ a b, x = .damaged a b) → (e.elim [] (·.held)).getD (place / 48) false = true
                  (¬(inWindow ∧ holds) → exec .portOpen s = .next (s.refuse .recordNotPresent)) ∧
                    (inWindow → holds → exec .portOpen s = .next (({ s with
                      ports := tableSet s.ports p (.opening ⟨r, n, place, none, false⟩)
                      mgmt := { s.mgmt with request := some { q with stage := .reading .portOpen } } } : State).present (.port p)
                        (.read ((e.elim [] (·.blocks)).getD (place / 48) 0))))))) ∧
  (
    ∀ (s : State) (p : PortIx) (op : StoreOp) (o : Opening), Granted s (.port p) op → s.readPort p = .opening o →
      let u : State := { s with port := { s.port with busy := none }, array := op.applyTo s.array }
      let contents := op.contents s.array
      (o.found = none →
        let entry := (readIndex o.recording (o.place / 48) (s.store.maxRecords o.recording) contents).map (·.getD (o.place % 48) .unused)
        (∀ h t, entry = some (.present o.number h t) → inDataArea h = true →
          exec .openIndexReadComplete s = .next ((({ u with
            ports := tableSet s.ports p (.opening { o with found := some (h, t) }) } : State).present (.port p) (.read h)).arbitrate)) ∧
          ((∀ h t, entry = some (.present o.number h t) → inDataArea h = false) →
            exec .openIndexReadComplete s = .next
              (({ u with ports := tableSet s.ports p .closed } : State).refuse .recordNotPresent).arbitrate)) ∧
        ∀ head total, o.found = some (head, total) →
          (∀ h, readHead o.recording contents = some h → h.total = total →
            let x : OpenRecord :=
              { recording := o.recording, number := o.number, place := o.place, head := head, entryTotal := total, info := h,
                position := 0, cache := none, withdrawn := o.withdrawn }
            let cause : EndCause → Byte := fun | .complete => 1 | .stalled => 2 | .lag => 3 | .cut => 4
            let info : List Byte :=
              [BitVec.ofNat 8 (o.recording.val + 1)] ++ toBytes 4 o.number ++ toBytes 2 head ++ [h.rule, h.priority, h.node, h.stream]
              ++ wordBytes 2 h.stamp.epoch ++ wordBytes 4 h.stamp.cycle ++ toBytes 2 h.preRequested ++ toBytes 2 h.preActual
              ++ toBytes 2 h.postActual ++ toBytes 2 h.total ++ [cause h.cause]
              ++ [BitVec.ofNat 8 ((if h.short then 1 else 0) + (if h.gapped then 2 else 0) + (if h.gapOverflow then 4 else 0))]
              ++ [BitVec.ofNat 8 h.gaps.length]
              ++ ((h.gaps.flatMap fun g : GapEntry => toBytes 2 g.offset ++ [BitVec.ofNat 8 g.missing]) ++ List.replicate 12 0).take 12
              ++ [BitVec.ofNat 8 h.blocks.length]
            exec .openHeadReadComplete s = .next ((({ u with ports := tableSet s.ports p (.opened x) } : State).respondWith .ok
              (if o.withdrawn then 0x8000 else 0) info false).arbitrate) ∧ info.length = 41) ∧
            ((∀ h, readHead o.recording contents = some h → h.total ≠ total) →
              exec .openHeadReadComplete s = .next
                ((({ u with ports := tableSet s.ports p .closed } : State).pinRemoved head).refuse .recordNotPresent).arbitrate))

/-- POSITION (R154): on an OPEN port an offset of 0 to total becomes the position, answered OK with the new position
and the withdrawn mark, and at the total the next READ answers END; a greater one is answered POSITION PAST END with
the position unchanged. It reads nothing and leaves the cache; after it a READ whose first block the cache holds takes
that block without a read. -/
def Obligations.PositionMovesTheOffset : Prop :=
  (∀ (s : State) (q : Request) (p : PortIx) (r : OpenRecord), HandedToPort s .portPosition q p → s.readPort p = .opened r →
    let offset := fieldAt q.args 0 2
    let word : Nat → BitVec 16 := fun x => BitVec.ofNat 16 ((if r.withdrawn then 2 ^ 15 else 0) + x % 2 ^ 14)
    (offset ≤ r.info.total → exec .portPosition s = .next (({ s with
      ports := tableSet s.ports p (.opened { r with position := offset }) } : State).respondWith .ok (word offset) [] false)) ∧
      (r.info.total < offset → exec .portPosition s = .next (s.respondWith .positionPastEnd (word r.position) [] false))) ∧
    ∀ (s : State) (q : Request) (p : PortIx) (r : OpenRecord), HandedToPort s .portRead q p → s.readPort p = .opened r →
      1 ≤ (byteAt q.args 0).toNat → (byteAt q.args 0).toNat ≤ 32 →
      (r.position = r.info.total → exec .portRead s = .next (s.portAnswer p .endOfRecord [])) ∧
        ∀ b, r.cache = some b → b.place = r.position / 120 → r.position < r.info.total →
          let k := min (byteAt q.args 0).toNat (r.info.total - r.position)
          ((r.position + k - 1) / 120 = r.position / 120 →
            exec .portRead s = .next (({ s with
              reading := none
              ports := tableSet s.ports p (.opened { r with position := r.position + k, cache := some b }) } : State).portAnswer p .ok
                (((b.samples.drop (r.position % 120)).take k).map (wordBytes 2)).flatten)) ∧
            ((r.position + k - 1) / 120 = r.position / 120 + 1 →
              exec .portRead s = .next (({ s with
                reading := some ⟨p, k, [b], [r.position / 120 + 1]⟩
                mgmt := { s.mgmt with request := some { q with stage := .reading .portRead } } } : State).present (.port p)
                  (.read (r.info.blocks.getD (r.position / 120 + 1) 0))))

/-- READ without the first block in the cache, and its completions (R155, R156, R157): BAD ARGUMENT for a count out of
range; the first needed block is read at class 5; a good block is taken, and the next one read or, after the last, the
answer is OK with the samples, the position advanced and the last block kept; a bad block is answered BLOCK MISMATCH
with the position kept and the cache empty. A block that the cache holds is taken from it. -/
def Obligations.ReadTakesItsBlocks : Prop :=
  (∀ (s : State) (q : Request) (p : PortIx) (r : OpenRecord), HandedToPort s .portRead q p → s.readPort p = .opened r →
    let count := (byteAt q.args 0).toNat
    (¬(1 ≤ count ∧ count ≤ 32) → exec .portRead s = .next (s.portAnswer p .badArgument [])) ∧
      (1 ≤ count → count ≤ 32 → r.position < r.info.total → (∀ b, r.cache = some b → b.place ≠ r.position / 120) →
        let k := min count (r.info.total - r.position)
        let needed := if (r.position + k - 1) / 120 = r.position / 120 then [r.position / 120]
          else [r.position / 120, r.position / 120 + 1]
        exec .portRead s = .next (({ s with
          reading := some ⟨p, k, [], needed⟩
          mgmt := { s.mgmt with request := some { q with stage := .reading .portRead } } } : State).present (.port p)
            (.read (r.info.blocks.getD (r.position / 120) 0))))) ∧
    ∀ (s : State) (p : PortIx) (r : OpenRecord) (q : Request) (op : StoreOp) (k j : Nat) (taken : List CachedBlock) (js : List Nat),
      Granted s (.port p) op → s.readPort p = .opened r → s.reading = some ⟨p, k, taken, j :: js⟩ → s.mgmt.request = some q →
      let u : State := { s with port := { s.port with busy := none }, array := op.applyTo s.array }
      let expected := if j + 1 < r.info.blocks.length then 120 else r.info.total - 120 * (r.info.blocks.length - 1)
      let found := (readData r.head j (op.contents s.array)).filter fun vs => vs.length == expected
      (found = none → exec .readDataBlockComplete s = .next ((({ u with
        reading := none, ports := tableSet s.ports p (.opened { r with cache := none }) } : State).portAnswer p .blockMismatch
          []).arbitrate)) ∧
        ∀ vs, found = some vs →
          let b : CachedBlock := ⟨r.info.blocks.getD j 0, j, vs⟩
          (js = [] → exec .readDataBlockComplete s = .next ((({ u with
            reading := none
            ports := tableSet s.ports p (.opened { r with position := r.position + k, cache := some b }) } : State).portAnswer p .ok
              (((((taken ++ [b]).flatMap (·.samples)).drop (r.position % 120)).take k).map (wordBytes 2)).flatten).arbitrate)) ∧
            (∀ j' c, js = [j'] → r.cache = some c → c.place = j' →
              exec .readDataBlockComplete s = .next ((({ u with
                reading := none
                ports := tableSet s.ports p (.opened { r with position := r.position + k, cache := some c }) } : State).portAnswer p
                  .ok (((((taken ++ [b, c]).flatMap (·.samples)).drop (r.position % 120)).take k).map (wordBytes 2)).flatten).arbitrate)) ∧
            ∀ j' js', js = j' :: js' → (∀ c, r.cache = some c → c.place ≠ j') →
              exec .readDataBlockComplete s = .next ((({ u with
                reading := some ⟨p, k, taken ++ [b], j' :: js'⟩
                mgmt := { s.mgmt with request := some { q with stage := .reading .portRead } } } : State).present (.port p)
                  (.read (r.info.blocks.getD j' 0))).arbitrate)

/-- INFO and CLOSE (R147, R158, R159), and the commands that need an OPEN port: INFO changes nothing and answers OK
with the 41 bytes of section 10.2 and the mark and position in the port word; CLOSE answers OK with the mark and
position as they stood, the port becomes CLOSED and its pin is removed; on a CLOSED port CLOSE is OK, and on a port
that is not OPEN the other three are refused PORT NOT OPEN. A pin removed (R133, R151): while another port pins the
head nothing changes; otherwise the head's parked job goes to the tail of the release queue. -/
def Obligations.InfoAndCloseMoveNothingButThePin : Prop :=
  (
    ∀ (s : State) (q : Request) (p : PortIx),
      (∀ r, s.readPort p = .opened r →
        let h := r.info
        let word : BitVec 16 := BitVec.ofNat 16 ((if r.withdrawn then 2 ^ 15 else 0) + r.position % 2 ^ 14)
        let cause : EndCause → Byte := fun | .complete => 1 | .stalled => 2 | .lag => 3 | .cut => 4
        let info : List Byte :=
          [BitVec.ofNat 8 (r.recording.val + 1)] ++ toBytes 4 r.number ++ toBytes 2 r.head ++ [h.rule, h.priority, h.node, h.stream]
            ++ wordBytes 2 h.stamp.epoch ++ wordBytes 4 h.stamp.cycle ++ toBytes 2 h.preRequested ++ toBytes 2 h.preActual
            ++ toBytes 2 h.postActual ++ toBytes 2 h.total ++ [cause h.cause]
            ++ [BitVec.ofNat 8 ((if h.short then 1 else 0) + (if h.gapped then 2 else 0) + (if h.gapOverflow then 4 else 0))]
            ++ [BitVec.ofNat 8 h.gaps.length]
            ++ ((h.gaps.flatMap fun g : GapEntry => toBytes 2 g.offset ++ [BitVec.ofNat 8 g.missing]) ++ List.replicate 12 0).take 12
            ++ [BitVec.ofNat 8 h.blocks.length]
        (HandedToPort s .portInfo q p → exec .portInfo s = .next (s.respondWith .ok word info false)) ∧ info.length = 41 ∧
          (HandedToPort s .portClose q p → exec .portClose s = .next
            ((({ s with ports := tableSet s.ports p .closed } : State).pinRemoved r.head).respondWith .ok word
              [] false))) ∧
        (s.readPort p = .closed → HandedToPort s .portClose q p → exec .portClose s = .next (s.respond .ok [])) ∧
          ((∀ r, s.readPort p ≠ .opened r) →
            (HandedToPort s .portInfo q p → exec .portInfo s = .next (s.refuse .portNotOpen)) ∧
            (HandedToPort s .portPosition q p → exec .portPosition s = .next (s.refuse .portNotOpen)) ∧
            (HandedToPort s .portRead q p → exec .portRead s = .next (s.refuse .portNotOpen)))) ∧
  (
    ∀ (s : State) (head : Nat),
      ((∃ p, (s.readPort p).pin? = some head) → s.pinRemoved head = s) ∧
        ((∀ p, (s.readPort p).pin? ≠ some head) → s.pinRemoved head = { s with release := { s.release with
          queue := s.release.queue ++ s.release.parked.filter (·.head == head)
          parked := s.release.parked.filter (·.head != head) } }))

/-! ### The Management Unit (chapter 9) -/

/-- STATUS (R184): answered OK with the record as it stands, which becomes empty in the same taking. An event after it
takes the empty record, also while the response waits for the response place; an event before it takes the record or
adds to its count, and the STATUS returns and clears that. -/
def Obligations.StatusReadsAndClears : Prop :=
  ∀ (s : State) (q : Request), Handed s .status q →
    let result : StatusRecord → List Byte := fun r => [r.code] ++ wordBytes 2 r.arg1 ++ wordBytes 2 r.arg2 ++ [r.later]
    exec .status s = .next (({ s with mgmt := { s.mgmt with status := ⟨0, 0, 0, 0⟩ } } : State).respond .ok (result s.mgmt.status)) ∧
      (∀ t code a b, exec .status s = .next t → (t.sendEvent code a b).mgmt.status = ⟨code, a, b, 0⟩) ∧
      (s.link.response ≠ none → ∃ t f, exec .status s = .next t ∧ t.mgmt.held = some f ∧ t.mgmt.phase = s.mgmt.phase ∧
        t.mgmt.status = ⟨0, 0, 0, 0⟩) ∧
      ∀ code a b,
        let r : StatusRecord := if s.mgmt.status = ⟨0, 0, 0, 0⟩ then ⟨code, a, b, 0⟩
          else { s.mgmt.status with later := if s.mgmt.status.later = 255 then 255 else s.mgmt.status.later + 1 }
        exec .status (s.sendEvent code a b) =
          .next (({ s with mgmt := { s.mgmt with status := ⟨0, 0, 0, 0⟩ } } : State).respond .ok (result r))

/-- IDENTIFY, RESTART and the restart point (R120, R185, R186, R187, R188): IDENTIFY changes nothing; RESTART is
answered ACCEPTED, its placing making the phase RESTARTING; at the restart point every block takes its start values
and the mount scan's read of block 0 is granted, while link, Time Base, array, lines and discarded count stay and the
status record is START(3). A RESTART_POINT with no restart accepted, or while a store operation is in progress, leaves
the state as it is (the model's choice, log 2). -/
def Obligations.RestartReturnsToStart : Prop :=
  ∀ (s : State) (q : Request),
    (Handed s .identify q → exec .identify s = .next (s.respond .ok
      ([0x0D, 0x51, 0x02, 0x08, 1, s.link.node.setWidth 8, 32, 64, 64, 8, 32, 32, 6] ++ wordBytes 4 s.mgmt.discarded
        ++ (s.link.counters.toList.map (wordBytes 4)).flatten ++ wordBytes 2 s.time.epoch ++ wordBytes 4 s.time.cycle))) ∧
      (Handed s .restart q → exec .restart s = .next (s.respondWith .accepted 0 [] true)) ∧
      (s.mgmt.phase = .restarting → s.port.busy = none →
        exec .restartPoint s = .next { State.reset with
          pending := s.pending, powered := s.powered, resetLine := s.resetLine, protect := s.protect, link := s.link
          time := s.time, array := s.array, freeIx := s.freeIx
          mgmt := { phase := .idle, request := none, held := none, discarded := s.mgmt.discarded, status := ⟨60, 3, 0, 0⟩ } }) ∧
      (s.mgmt.phase ≠ .restarting ∨ s.port.busy ≠ none → exec .restartPoint s = .next s)

/-! ### Supply, RESET, bypass and PROTECT -/

/-- POWER_ON and POWER_LOSS (R90, R117, R169, R176): RAM state is lost; the array stays, but for a write in progress,
which has landed or has not (log 5); with the supply on again every unit stands as at power-on with the node address
read from the straps, and the mount scan begins, or waits for the release of the RESET line (R103; what POWER_ON does
to a part that has power is log 23). RESET_ASSERT and RESET_RELEASE (R103, R117, R165, R169, R176): at the assertion
every block takes its start values and START(2), a write in progress has landed or has not, arrivals stop and what
waits to be sent is discarded while a frame being sent goes on; at the release the straps are read, counters, FIFOs,
response place and Time Base are initialised, and the mount scan begins. Without power only the level of the line
changes (log 23). -/
def Obligations.PowerAndResetRows : Prop :=
  (
    ∀ s : State,
      let left : List Host.Cell → Prop := fun m => m = s.array ∨ ∃ w b c, Granted s w (.write b c) ∧ m = writeBlock s.array b c
      (∃ array ix, left array ∧ exec .powerLoss s = .next { State.reset with
        pending := s.pending, powered := false, resetLine := s.resetLine, protect := s.protect, array := array, freeIx := ix
        link := { State.reset.link with node := 0 }, maint := some (.mount .held), port := .start }) ∧
        ∀ n, ∃ array ix, left array ∧ (s.powered = false → array = s.array ∧ ix = s.freeIx) ∧
          exec (.powerOn n) s = .next { State.reset with
            pending := s.pending, resetLine := s.resetLine, protect := s.protect, array := array, freeIx := ix
            link := { State.reset.link with node := n }
            maint := some (.mount (if s.resetLine then .held else .label))
            port := if s.resetLine then .start else State.reset.port }) ∧
  (
    ∀ s : State,
      let left : List Host.Cell → Prop := fun m => m = s.array ∨ ∃ w b c, Granted s w (.write b c) ∧ m = writeBlock s.array b c
      let entering : LinkPath → LinkPath := fun x => if x = .bypass then .bypass else .entering
      (s.powered = true → s.resetLine = false → ∃ array ix, left array ∧ exec .resetAssert s = .next { State.reset with
        pending := s.pending, resetLine := true, protect := s.protect, array := array, freeIx := ix, time := s.time
        link := { s.link with
          aToB := entering s.link.aToB, bToA := entering s.link.bToA, fifoB := [], response := none, fifoA := [] }
        maint := some (.mount .held), port := .start
        mgmt := { State.reset.mgmt with status := ⟨60, 2, 0, 0⟩ } }) ∧
        (∀ n, s.powered = true → s.resetLine = true → exec (.resetRelease n) s = .next (({ State.reset with
          pending := s.pending, protect := s.protect, array := s.array, freeIx := s.freeIx
          link := { s.link with node := n, fifoA := [], fifoB := [], response := none, counters := .zero }
          maint := some (.mount .held), port := .start, mgmt := s.mgmt } : State).mountBegins)) ∧
        (s.powered = false → (s.resetLine = false → exec .resetAssert s = .next { s with resetLine := true }) ∧
          ∀ n, s.resetLine = true → exec (.resetRelease n) s = .next { s with resetLine := false }))

/-- BYPASS_ENTRY, BYPASS_TAKEOVER, PROTECT_ASSERT and PROTECT_RELEASE (R118, R119, R169): bypass comes into effect in
a direction that is entering it once its send side is idle; a part that has started takes the direction over (log 10). That
bypass no longer comes into effect once the RESET line is released, that the part takes a direction over while it is
still entering bypass (log 11), and that its send side then chooses (log 12), are the model's choices, which R168 and
R169 do not state; the PROTECT line changes its level and, at its release, lets the arbiter test. -/
def Obligations.BypassAndProtectRows : Prop :=
  ∀ s : State,
    (s.resetLine = true → s.link.aToB = .entering → s.link.sendingB = none →
      exec (.bypassEntry .aToB) s = .next { s with link := { s.link with aToB := .bypass } }) ∧
      (s.resetLine = true → s.link.bToA = .entering → s.link.sendingA = none →
        exec (.bypassEntry .bToA) s = .next { s with link := { s.link with bToA := .bypass } }) ∧
      (s.resetLine = false → ∀ d, exec (.bypassEntry d) s = .next s) ∧
      (s.powered = true → s.resetLine = false → s.link.aToB ≠ .through → exec (.bypassTakeover .aToB) s =
        .next { s with link := ({ s.link with aToB := .through } : Link).chooseB }) ∧
      (s.powered = true → s.resetLine = false → s.link.bToA ≠ .through → exec (.bypassTakeover .bToA) s =
        .next { s with link := ({ s.link with bToA := .through } : Link).chooseA }) ∧
      exec .protectAssert s = .next { s with protect := true } ∧
      exec .protectRelease s = .next ({ s with protect := false } : State).arbitrate
end

