-- ==== Sys2Proof/Laws/Claims.lean ====
section
/-!
SUPPORT. What the claims on the Store Manager do (R98, R99): which block a take chooses, and that every claim
keeps the map accounted for.
-/

namespace Sys2Proof.Machine

theorem mem_insertUsed (b x : Nat) (us : List Nat) : x ∈ insertUsed b us ↔ x = b ∨ x ∈ us := by
  induction us with
  | nil => simp [insertUsed]
  | cons u us ih =>
    simp only [insertUsed]
    split
    · simp
    · split
      · rename_i h; subst h; simp
      · simp only [List.mem_cons, ih]; exact or_left_comm

theorem insertUsed_pairwise (b : Nat) (us : List Nat) (h : us.Pairwise (· < ·)) : (insertUsed b us).Pairwise (· < ·) := by
  induction us with
  | nil => simp [insertUsed]
  | cons u us ih =>
    have hu := List.pairwise_cons.1 h
    simp only [insertUsed]
    split
    · rename_i hb
      refine List.pairwise_cons.2 ⟨fun x hx => ?_, h⟩
      rcases List.mem_cons.1 hx with rfl | hx
      · exact hb
      · exact Nat.lt_trans hb (hu.1 x hx)
    · split
      · exact h
      · refine List.pairwise_cons.2 ⟨fun x hx => ?_, ih hu.2⟩
        rcases (mem_insertUsed b x us).1 hx with rfl | hx
        · omega
        · exact hu.1 x hx

theorem length_insertUsed (b : Nat) (us : List Nat) (h : b ∉ us) : (insertUsed b us).length = us.length + 1 := by
  induction us with
  | nil => rfl
  | cons u us ih =>
    simp only [List.mem_cons, not_or] at h
    simp only [insertUsed]
    split
    · rfl
    · rw [if_neg h.1]; simp [ih h.2]

/-- The search finds the first block at or after `c` that is not used. -/
theorem firstFree_spec (c : Nat) (us : List Nat) (h : us.Pairwise (· < ·)) :
    c ≤ firstFree c us ∧ firstFree c us ∉ us ∧ ∀ x, c ≤ x → x < firstFree c us → x ∈ us := by
  induction us generalizing c with
  | nil => simp only [firstFree]; exact ⟨le_refl _, by simp, fun x h1 h2 => absurd h1 (by omega)⟩
  | cons u us ih =>
    have hu := List.pairwise_cons.1 h
    simp only [firstFree]
    split
    · have := ih c hu.2
      exact ⟨this.1, by simp only [List.mem_cons, not_or]; exact ⟨by omega, this.2.1⟩,
        fun x h1 h2 => List.mem_cons_of_mem _ (this.2.2 x h1 h2)⟩
    · split
      · rename_i he
        have := ih (c + 1) hu.2
        refine ⟨by omega, by simp only [List.mem_cons, not_or]; exact ⟨by omega, this.2.1⟩, fun x h1 h2 => ?_⟩
        by_cases hx : x = u
        · simp [hx]
        · exact List.mem_cons_of_mem _ (this.2.2 x (by omega) h2)
      · refine ⟨le_refl _, ?_, fun x h1 h2 => absurd h1 (by omega)⟩
        simp only [List.mem_cons, not_or]
        exact ⟨by omega, fun hc => by have := hu.1 c hc; omega⟩

theorem inDataArea_iff (b : Nat) : inDataArea b = true ↔ Config.dataFirst ≤ b ∧ b ≤ Config.dataLast := by
  simp only [inDataArea, Bool.and_eq_true, decide_eq_true_eq]

/-- What a take chooses: a free block of the data area, and no block is free from the cursor up to it, nor,
when it lies below the cursor, from the cursor to 8191 (R99). -/
theorem chooseBlock_spec (m : StoreManager) (b : Nat) (h : MapOk m)
    (hb : m.chooseBlock = some b) :
    inDataArea b = true ∧ b ∉ m.used ∧
      ((m.cursor ≤ b ∧ ∀ x, m.cursor ≤ x → x < b → x ∈ m.used) ∨
        (b < m.cursor ∧ (∀ x, m.cursor ≤ x → x ≤ Config.dataLast → x ∈ m.used) ∧
          ∀ x, Config.dataFirst ≤ x → x < b → x ∈ m.used)) := by
  have hc := (inDataArea_iff _).1 h.2.2.1
  have h1 := firstFree_spec m.cursor m.used h.1
  have h2 := firstFree_spec Config.dataFirst m.used h.1
  simp only [StoreManager.chooseBlock] at hb
  split at hb
  · rename_i hle
    simp only [Option.some.injEq] at hb; subst hb
    exact ⟨(inDataArea_iff _).2 ⟨by omega, by omega⟩, h1.2.1, .inl ⟨h1.1, h1.2.2⟩⟩
  · split at hb
    · rename_i hgt hle
      simp only [Option.some.injEq] at hb; subst hb
      have hr : ∀ x, m.cursor ≤ x → x ≤ Config.dataLast → x ∈ m.used := fun x hx hl => h1.2.2 x hx (by omega)
      refine ⟨(inDataArea_iff _).2 ⟨by omega, by omega⟩, h2.2.1, ?_⟩
      by_cases hlt : firstFree Config.dataFirst m.used < m.cursor
      · exact .inr ⟨hlt, hr, h2.2.2⟩
      · exact absurd (hr _ (by omega) hle) h2.2.1
    · simp at hb

/-- A take chooses a block where fewer than all blocks of the data area are used (R99). -/
theorem chooseBlock_some (m : StoreManager) (h : m.used.Pairwise (· < ·)) (hl : m.used.length < Config.dataBlocks) :
    ∃ b, m.chooseBlock = some b := by
  have h2 := firstFree_spec Config.dataFirst m.used h
  have hle : firstFree Config.dataFirst m.used ≤ Config.dataLast := by
    by_contra hn
    have hs : List.range' Config.dataFirst Config.dataBlocks ⊆ m.used := fun x hx => by
      have := List.mem_range'_1.1 hx
      exact h2.2.2 x this.1 (by simp only [Config.dataFirst, Config.dataBlocks, Config.dataLast] at *; omega)
    have := (List.subperm_of_subset (List.nodup_range' ..) hs).length_le
    simp only [List.length_range'] at this
    omega
  simp only [StoreManager.chooseBlock, if_pos hle]
  split <;> exact ⟨_, rfl⟩

/-- Distinct blocks of the data area are at most 8175. -/
theorem used_length_le (us : List Nat) (h : us.Pairwise (· < ·)) (hd : ∀ b ∈ us, inDataArea b = true) :
    us.length ≤ Config.dataBlocks := by
  have hn : us.Nodup := h.imp fun h => Nat.ne_of_lt h
  have hs : us ⊆ List.range' Config.dataFirst Config.dataBlocks := by
    intro b hb
    have := (inDataArea_iff b).1 (hd b hb)
    exact List.mem_range'_1.2 ⟨this.1, by have := this.2; simp only [Config.dataFirst, Config.dataBlocks, Config.dataLast] at *; omega⟩
  have := (List.subperm_of_subset hn hs).length_le
  simpa using this

/-- The cursor after a choice stands in the data area (R99). -/
theorem cursorAfter_inDataArea (b : Nat) (h : inDataArea b = true) : inDataArea (cursorAfter b) = true := by
  rw [inDataArea_iff] at h ⊢
  simp only [cursorAfter]
  split
  · simp only [Config.dataFirst, Config.dataLast]; omega
  · omega

/-! ### What a claim can do -/

/-- Everything that one take does. -/
theorem take_spec (m m' : StoreManager) (b : Nat) (h : m.take = some (b, m')) :
    m.chooseBlock = some b ∧
      m' = { m with used := insertUsed b m.used, free := m.free - 1, cursor := cursorAfter b } := by
  simp only [StoreManager.take, Option.map_eq_some_iff, Prod.mk.injEq] at h
  obtain ⟨a, h1, rfl, rfl⟩ := h
  exact ⟨h1, rfl⟩

/-- Everything that one take of a reserved block does. -/
theorem takeReserved_spec (m m' : StoreManager) (b : Nat) (h : m.takeReserved = some (b, m')) :
    ∃ m1, m.take = some (b, m1) ∧ m' = { m1 with reserved := m1.reserved - 1 } := by
  simp only [StoreManager.takeReserved, Option.map_eq_some_iff, Prod.mk.injEq, Prod.exists] at h
  obtain ⟨a, m1, h1, rfl, rfl⟩ := h
  exact ⟨m1, h1, rfl⟩

theorem take_ok (m m' : StoreManager) (b : Nat) (h : MapOk m) (ht : m.take = some (b, m')) : MapOk m' := by
  obtain ⟨hb, rfl⟩ := take_spec m m' b ht
  have hs := chooseBlock_spec m b h hb
  have hp := insertUsed_pairwise b m.used h.1
  have hd : ∀ x ∈ insertUsed b m.used, inDataArea x = true := fun x hx => by
    rcases (mem_insertUsed b x m.used).1 hx with rfl | hx
    · exact hs.1
    · exact h.2.1 x hx
  refine ⟨hp, hd, cursorAfter_inDataArea b hs.1, fun hm => ?_⟩
  have := used_length_le _ hp hd
  have hl := length_insertUsed b m.used hs.2.1
  have := h.2.2.2 hm
  simp only [hl] at *
  omega

theorem takeReserved_ok (m m' : StoreManager) (b : Nat) (h : MapOk m) (ht : m.takeReserved = some (b, m')) :
    MapOk m' := by
  obtain ⟨m1, h1, rfl⟩ := takeReserved_spec m m' b ht
  exact take_ok m m1 b h h1

/-- What `n` takes leave as they were: all but the used blocks, the free count and the cursor. -/
theorem takeMany_spec (n : Nat) : ∀ (m m' : StoreManager) (bs : List Nat), m.takeMany n = some (bs, m') →
    bs.length = n ∧ m' = { m with used := m'.used, free := m'.free, cursor := m'.cursor } ∧ (MapOk m → MapOk m') := by
  induction n with
  | zero =>
    intro m m' bs h
    simp only [StoreManager.takeMany, Option.some.injEq, Prod.mk.injEq] at h
    obtain ⟨rfl, rfl⟩ := h
    exact ⟨rfl, rfl, id⟩
  | succ n ih =>
    intro m m' bs h
    simp only [StoreManager.takeMany, Option.bind_eq_bind, Option.bind_eq_some_iff, Option.some.injEq, Prod.mk.injEq,
      Prod.exists] at h
    obtain ⟨b, m1, h1, bs', m2, h2, rfl, rfl⟩ := h
    obtain ⟨hl, he, hk⟩ := ih m1 m2 bs' h2
    refine ⟨by simp [hl], ?_, fun h => hk (take_ok m m1 b h h1)⟩
    rw [he, (take_spec m m1 b h1).2]

/-- Freeing a block changes the used blocks and the free count only. -/
theorem freeBlock_spec (m : StoreManager) (b : Nat) :
    m.freeBlock b = { m with used := (m.freeBlock b).used, free := (m.freeBlock b).free } := by
  simp only [StoreManager.freeBlock]; split <;> rfl

/-- After a free claim exactly that block is no longer used. -/
theorem mem_freeBlock (m : StoreManager) (b x : Nat) : x ∈ (m.freeBlock b).used ↔ x ∈ m.used ∧ x ≠ b := by
  simp only [StoreManager.freeBlock]
  split
  · simp
  · rename_i h; exact ⟨fun hx => ⟨hx, fun he => h (he ▸ hx)⟩, (·.1)⟩

theorem length_remove (us : List Nat) (b : Nat) (h : us.Pairwise (· < ·)) (hb : b ∈ us) :
    (us.filter (· != b)).length + 1 = us.length := by
  have hn : us.Nodup := h.imp fun h => Nat.ne_of_lt h
  have : us.filter (· != b) = us.erase b := by rw [hn.erase_eq_filter]
  rw [this, List.length_erase_of_mem hb]
  have := List.length_pos_of_mem hb
  omega

theorem freeBlock_ok (m : StoreManager) (b : Nat) (h : MapOk m) : MapOk (m.freeBlock b) := by
  simp only [StoreManager.freeBlock]
  split
  · rename_i hb
    refine ⟨h.1.filter _, fun x hx => h.2.1 x (List.mem_of_mem_filter hx), h.2.2.1, fun hm => ?_⟩
    have := h.2.2.2 hm
    have := length_remove m.used b h.1 hb
    simp only at *
    omega
  · exact h

/-- Freeing blocks changes the used blocks and the free count only. -/
theorem freeBlocks_spec (bs : List Nat) : ∀ m : StoreManager,
    m.freeBlocks bs = { m with used := (m.freeBlocks bs).used, free := (m.freeBlocks bs).free } := by
  induction bs with
  | nil => intro m; rfl
  | cons b bs ih =>
    intro m
    have h : m.freeBlocks (b :: bs) = (m.freeBlock b).freeBlocks bs := rfl
    rw [h, ih (m.freeBlock b), freeBlock_spec m b]

/-- After free claims exactly those blocks are no longer used. -/
theorem mem_freeBlocks (bs : List Nat) (x : Nat) : ∀ m : StoreManager, x ∈ (m.freeBlocks bs).used ↔ x ∈ m.used ∧ x ∉ bs := by
  induction bs with
  | nil => intro m; simp [StoreManager.freeBlocks]
  | cons b bs ih =>
    intro m
    have h : m.freeBlocks (b :: bs) = (m.freeBlock b).freeBlocks bs := rfl
    rw [h, ih, mem_freeBlock]
    simp only [List.mem_cons, not_or, and_assoc]

/-- Free claims never lower the free count. -/
theorem freeBlocks_free (bs : List Nat) : ∀ m : StoreManager, m.free ≤ (m.freeBlocks bs).free := by
  induction bs with
  | nil => intro m; exact le_refl _
  | cons b bs ih =>
    intro m
    refine le_trans ?_ (ih (m.freeBlock b))
    simp only [StoreManager.freeBlock]
    split <;> simp

/-- Free claims of different used blocks raise the free count by their number. -/
theorem freeBlocks_free_eq (bs : List Nat) : ∀ m : StoreManager, bs.Nodup → (∀ b ∈ bs, b ∈ m.used) →
    (m.freeBlocks bs).free = m.free + bs.length := by
  induction bs with
  | nil => intro m _ _; rfl
  | cons b bs ih =>
    intro m hn hm
    have h : m.freeBlocks (b :: bs) = (m.freeBlock b).freeBlocks bs := rfl
    have hn := List.nodup_cons.1 hn
    rw [h, ih _ hn.2 fun x hx => (mem_freeBlock m b x).2 ⟨hm x (List.mem_cons_of_mem _ hx), fun he => hn.1 (he ▸ hx)⟩]
    simp only [StoreManager.freeBlock, hm b (List.mem_cons_self ..), if_true, List.length_cons]
    omega

theorem freeBlocks_ok (bs : List Nat) : ∀ m : StoreManager, MapOk m → MapOk (m.freeBlocks bs) := by
  induction bs with
  | nil => intro m h; exact h
  | cons b bs ih => intro m h; exact ih _ (freeBlock_ok m b h)

theorem clearAll_ok (m : StoreManager) : MapOk m.clearAll :=
  ⟨List.Pairwise.nil, fun _ h => absurd h (List.not_mem_nil), rfl, fun _ => rfl⟩

theorem start_ok : MapOk StoreManager.start :=
  ⟨List.Pairwise.nil, fun _ h => absurd h (List.not_mem_nil), rfl, fun _ => rfl⟩

/-- Marking a block of the data area keeps the map in order; the free count is not kept while mounting. -/
theorem markBlock_ok (m : StoreManager) (b : Nat) (h : MapOk m) (hb : inDataArea b = true) (hm : m.state = .mounting) :
    MapOk (m.markBlock b) := by
  refine ⟨insertUsed_pairwise b m.used h.1, fun x hx => ?_, h.2.2.1, fun hn => absurd hm hn⟩
  rcases (mem_insertUsed b x m.used).1 hx with rfl | hx
  · exact hb
  · exact h.2.1 x hx

theorem markBlocks_ok (bs : List Nat) : ∀ m : StoreManager, MapOk m → (∀ b ∈ bs, inDataArea b = true) →
    m.state = .mounting → MapOk (bs.foldl (·.markBlock ·) m) := by
  induction bs with
  | nil => intro m h _ _; exact h
  | cons b bs ih =>
    intro m h hb hm
    exact ih _ (markBlock_ok m b h (hb b (List.mem_cons_self ..)) hm) (fun x hx => hb x (List.mem_cons_of_mem _ hx)) hm

/-- Marking blocks changes the used blocks only. -/
theorem markBlocks_spec (bs : List Nat) : ∀ m : StoreManager,
    bs.foldl (·.markBlock ·) m = { m with used := (bs.foldl (·.markBlock ·) m).used } := by
  induction bs with
  | nil => intro m; rfl
  | cons b bs ih => intro m; exact ih (m.markBlock b)

end Sys2Proof.Machine
end

