-- ==== Sys2Proof/Laws/State.lean ====
section
/-!
SUPPORT. One lemma per field per named update of the state, each true by definition, and the table lemmas:
what an entry of a table reads after a write.
-/

namespace Sys2Proof.Machine

/-! ### Tables -/

theorem get_tableSet {α : Type} {n : Nat} (v : Vector α n) (i j : Fin n) (x : α) :
    (tableSet v i x).get j = if j = i then x else v.get j := by
  simp only [Vector.get_eq_getElem, tableSet, Vector.getElem_set, Fin.ext_iff, eq_comm]

@[simp] theorem get_tableSet_same {α : Type} {n : Nat} (v : Vector α n) (i : Fin n) (x : α) : (tableSet v i x).get i = x := by
  rw [get_tableSet, if_pos rfl]

@[simp] theorem get_tableSet_ne {α : Type} {n : Nat} (v : Vector α n) (i j : Fin n) (x : α) (h : j ≠ i) :
    (tableSet v i x).get j = v.get j := by rw [get_tableSet, if_neg h]

@[simp] theorem slot_setSlot_same (s : State) (k : SlotIx) (x : Slot) : (s.setSlot k x).slot k = x :=
  get_tableSet_same ..
theorem slot_setSlot (s : State) (k j : SlotIx) (x : Slot) : (s.setSlot k x).slot j = if j = k then x else s.slot j :=
  get_tableSet ..
@[simp] theorem stream_setStream_same (s : State) (i : StreamIx) (e : Option StreamEntry) : (s.setStream i e).stream i = e :=
  get_tableSet_same ..
theorem stream_setStream (s : State) (i j : StreamIx) (e : Option StreamEntry) :
    (s.setStream i e).stream j = if j = i then e else s.stream j := get_tableSet ..
@[simp] theorem rule_setRule_same (s : State) (i : RuleIx) (r : Option Rule) : (s.setRule i r).rule i = r :=
  get_tableSet_same ..
theorem rule_setRule (s : State) (i j : RuleIx) (r : Option Rule) : (s.setRule i r).rule j = if j = i then r else s.rule j :=
  get_tableSet ..
@[simp] theorem readPort_setReadPort_same (s : State) (p : PortIx) (x : ReadPort) : (s.setReadPort p x).readPort p = x :=
  get_tableSet_same ..
theorem readPort_setReadPort (s : State) (p q : PortIx) (x : ReadPort) :
    (s.setReadPort p x).readPort q = if q = p then x else s.readPort q := get_tableSet ..

/-! ### setStream -/

@[simp] theorem setStream_pending (s : State) (i : StreamIx) (e : Option StreamEntry) : (s.setStream i e).pending = s.pending := rfl
@[simp] theorem setStream_powered (s : State) (i : StreamIx) (e : Option StreamEntry) : (s.setStream i e).powered = s.powered := rfl
@[simp] theorem setStream_resetLine (s : State) (i : StreamIx) (e : Option StreamEntry) : (s.setStream i e).resetLine = s.resetLine := rfl
@[simp] theorem setStream_protect (s : State) (i : StreamIx) (e : Option StreamEntry) : (s.setStream i e).protect = s.protect := rfl
@[simp] theorem setStream_link (s : State) (i : StreamIx) (e : Option StreamEntry) : (s.setStream i e).link = s.link := rfl
@[simp] theorem setStream_time (s : State) (i : StreamIx) (e : Option StreamEntry) : (s.setStream i e).time = s.time := rfl
@[simp] theorem setStream_streams (s : State) (i : StreamIx) (e : Option StreamEntry) : (s.setStream i e).streams = tableSet s.streams i e := rfl
@[simp] theorem setStream_samples (s : State) (i : StreamIx) (e : Option StreamEntry) : (s.setStream i e).samples = s.samples := rfl
@[simp] theorem setStream_rules (s : State) (i : StreamIx) (e : Option StreamEntry) : (s.setStream i e).rules = s.rules := rfl
@[simp] theorem setStream_slots (s : State) (i : StreamIx) (e : Option StreamEntry) : (s.setStream i e).slots = s.slots := rfl
@[simp] theorem setStream_pointer (s : State) (i : StreamIx) (e : Option StreamEntry) : (s.setStream i e).pointer = s.pointer := rfl
@[simp] theorem setStream_cond (s : State) (i : StreamIx) (e : Option StreamEntry) : (s.setStream i e).cond = s.cond := rfl
@[simp] theorem setStream_store (s : State) (i : StreamIx) (e : Option StreamEntry) : (s.setStream i e).store = s.store := rfl
@[simp] theorem setStream_maint (s : State) (i : StreamIx) (e : Option StreamEntry) : (s.setStream i e).maint = s.maint := rfl
@[simp] theorem setStream_array (s : State) (i : StreamIx) (e : Option StreamEntry) : (s.setStream i e).array = s.array := rfl
@[simp] theorem setStream_port (s : State) (i : StreamIx) (e : Option StreamEntry) : (s.setStream i e).port = s.port := rfl
@[simp] theorem setStream_index (s : State) (i : StreamIx) (e : Option StreamEntry) : (s.setStream i e).index = s.index := rfl
@[simp] theorem setStream_release (s : State) (i : StreamIx) (e : Option StreamEntry) : (s.setStream i e).release = s.release := rfl
@[simp] theorem setStream_ports (s : State) (i : StreamIx) (e : Option StreamEntry) : (s.setStream i e).ports = s.ports := rfl
@[simp] theorem setStream_reading (s : State) (i : StreamIx) (e : Option StreamEntry) : (s.setStream i e).reading = s.reading := rfl
@[simp] theorem setStream_mgmt (s : State) (i : StreamIx) (e : Option StreamEntry) : (s.setStream i e).mgmt = s.mgmt := rfl
@[simp] theorem setStream_freeIx (s : State) (i : StreamIx) (e : Option StreamEntry) : (s.setStream i e).freeIx = s.freeIx := rfl

/-! ### setRule -/

@[simp] theorem setRule_pending (s : State) (i : RuleIx) (r : Option Rule) : (s.setRule i r).pending = s.pending := rfl
@[simp] theorem setRule_powered (s : State) (i : RuleIx) (r : Option Rule) : (s.setRule i r).powered = s.powered := rfl
@[simp] theorem setRule_resetLine (s : State) (i : RuleIx) (r : Option Rule) : (s.setRule i r).resetLine = s.resetLine := rfl
@[simp] theorem setRule_protect (s : State) (i : RuleIx) (r : Option Rule) : (s.setRule i r).protect = s.protect := rfl
@[simp] theorem setRule_link (s : State) (i : RuleIx) (r : Option Rule) : (s.setRule i r).link = s.link := rfl
@[simp] theorem setRule_time (s : State) (i : RuleIx) (r : Option Rule) : (s.setRule i r).time = s.time := rfl
@[simp] theorem setRule_streams (s : State) (i : RuleIx) (r : Option Rule) : (s.setRule i r).streams = s.streams := rfl
@[simp] theorem setRule_samples (s : State) (i : RuleIx) (r : Option Rule) : (s.setRule i r).samples = s.samples := rfl
@[simp] theorem setRule_rules (s : State) (i : RuleIx) (r : Option Rule) : (s.setRule i r).rules = tableSet s.rules i r := rfl
@[simp] theorem setRule_slots (s : State) (i : RuleIx) (r : Option Rule) : (s.setRule i r).slots = s.slots := rfl
@[simp] theorem setRule_pointer (s : State) (i : RuleIx) (r : Option Rule) : (s.setRule i r).pointer = s.pointer := rfl
@[simp] theorem setRule_cond (s : State) (i : RuleIx) (r : Option Rule) : (s.setRule i r).cond = s.cond := rfl
@[simp] theorem setRule_store (s : State) (i : RuleIx) (r : Option Rule) : (s.setRule i r).store = s.store := rfl
@[simp] theorem setRule_maint (s : State) (i : RuleIx) (r : Option Rule) : (s.setRule i r).maint = s.maint := rfl
@[simp] theorem setRule_array (s : State) (i : RuleIx) (r : Option Rule) : (s.setRule i r).array = s.array := rfl
@[simp] theorem setRule_port (s : State) (i : RuleIx) (r : Option Rule) : (s.setRule i r).port = s.port := rfl
@[simp] theorem setRule_index (s : State) (i : RuleIx) (r : Option Rule) : (s.setRule i r).index = s.index := rfl
@[simp] theorem setRule_release (s : State) (i : RuleIx) (r : Option Rule) : (s.setRule i r).release = s.release := rfl
@[simp] theorem setRule_ports (s : State) (i : RuleIx) (r : Option Rule) : (s.setRule i r).ports = s.ports := rfl
@[simp] theorem setRule_reading (s : State) (i : RuleIx) (r : Option Rule) : (s.setRule i r).reading = s.reading := rfl
@[simp] theorem setRule_mgmt (s : State) (i : RuleIx) (r : Option Rule) : (s.setRule i r).mgmt = s.mgmt := rfl
@[simp] theorem setRule_freeIx (s : State) (i : RuleIx) (r : Option Rule) : (s.setRule i r).freeIx = s.freeIx := rfl

/-! ### setSlot -/

@[simp] theorem setSlot_pending (s : State) (k : SlotIx) (x : Slot) : (s.setSlot k x).pending = s.pending := rfl
@[simp] theorem setSlot_powered (s : State) (k : SlotIx) (x : Slot) : (s.setSlot k x).powered = s.powered := rfl
@[simp] theorem setSlot_resetLine (s : State) (k : SlotIx) (x : Slot) : (s.setSlot k x).resetLine = s.resetLine := rfl
@[simp] theorem setSlot_protect (s : State) (k : SlotIx) (x : Slot) : (s.setSlot k x).protect = s.protect := rfl
@[simp] theorem setSlot_link (s : State) (k : SlotIx) (x : Slot) : (s.setSlot k x).link = s.link := rfl
@[simp] theorem setSlot_time (s : State) (k : SlotIx) (x : Slot) : (s.setSlot k x).time = s.time := rfl
@[simp] theorem setSlot_streams (s : State) (k : SlotIx) (x : Slot) : (s.setSlot k x).streams = s.streams := rfl
@[simp] theorem setSlot_samples (s : State) (k : SlotIx) (x : Slot) : (s.setSlot k x).samples = s.samples := rfl
@[simp] theorem setSlot_rules (s : State) (k : SlotIx) (x : Slot) : (s.setSlot k x).rules = s.rules := rfl
@[simp] theorem setSlot_slots (s : State) (k : SlotIx) (x : Slot) : (s.setSlot k x).slots = tableSet s.slots k x := rfl
@[simp] theorem setSlot_pointer (s : State) (k : SlotIx) (x : Slot) : (s.setSlot k x).pointer = s.pointer := rfl
@[simp] theorem setSlot_cond (s : State) (k : SlotIx) (x : Slot) : (s.setSlot k x).cond = s.cond := rfl
@[simp] theorem setSlot_store (s : State) (k : SlotIx) (x : Slot) : (s.setSlot k x).store = s.store := rfl
@[simp] theorem setSlot_maint (s : State) (k : SlotIx) (x : Slot) : (s.setSlot k x).maint = s.maint := rfl
@[simp] theorem setSlot_array (s : State) (k : SlotIx) (x : Slot) : (s.setSlot k x).array = s.array := rfl
@[simp] theorem setSlot_port (s : State) (k : SlotIx) (x : Slot) : (s.setSlot k x).port = s.port := rfl
@[simp] theorem setSlot_index (s : State) (k : SlotIx) (x : Slot) : (s.setSlot k x).index = s.index := rfl
@[simp] theorem setSlot_release (s : State) (k : SlotIx) (x : Slot) : (s.setSlot k x).release = s.release := rfl
@[simp] theorem setSlot_ports (s : State) (k : SlotIx) (x : Slot) : (s.setSlot k x).ports = s.ports := rfl
@[simp] theorem setSlot_reading (s : State) (k : SlotIx) (x : Slot) : (s.setSlot k x).reading = s.reading := rfl
@[simp] theorem setSlot_mgmt (s : State) (k : SlotIx) (x : Slot) : (s.setSlot k x).mgmt = s.mgmt := rfl
@[simp] theorem setSlot_freeIx (s : State) (k : SlotIx) (x : Slot) : (s.setSlot k x).freeIx = s.freeIx := rfl

/-! ### setCapture -/

@[simp] theorem setCapture_pending (s : State) (k : SlotIx) (c : Option Capture) : (s.setCapture k c).pending = s.pending := rfl
@[simp] theorem setCapture_powered (s : State) (k : SlotIx) (c : Option Capture) : (s.setCapture k c).powered = s.powered := rfl
@[simp] theorem setCapture_resetLine (s : State) (k : SlotIx) (c : Option Capture) : (s.setCapture k c).resetLine = s.resetLine := rfl
@[simp] theorem setCapture_protect (s : State) (k : SlotIx) (c : Option Capture) : (s.setCapture k c).protect = s.protect := rfl
@[simp] theorem setCapture_link (s : State) (k : SlotIx) (c : Option Capture) : (s.setCapture k c).link = s.link := rfl
@[simp] theorem setCapture_time (s : State) (k : SlotIx) (c : Option Capture) : (s.setCapture k c).time = s.time := rfl
@[simp] theorem setCapture_streams (s : State) (k : SlotIx) (c : Option Capture) : (s.setCapture k c).streams = s.streams := rfl
@[simp] theorem setCapture_samples (s : State) (k : SlotIx) (c : Option Capture) : (s.setCapture k c).samples = s.samples := rfl
@[simp] theorem setCapture_rules (s : State) (k : SlotIx) (c : Option Capture) : (s.setCapture k c).rules = s.rules := rfl
@[simp] theorem setCapture_slots (s : State) (k : SlotIx) (c : Option Capture) : (s.setCapture k c).slots = tableSet s.slots k { s.slot k with capture := c } := rfl
@[simp] theorem setCapture_pointer (s : State) (k : SlotIx) (c : Option Capture) : (s.setCapture k c).pointer = s.pointer := rfl
@[simp] theorem setCapture_cond (s : State) (k : SlotIx) (c : Option Capture) : (s.setCapture k c).cond = s.cond := rfl
@[simp] theorem setCapture_store (s : State) (k : SlotIx) (c : Option Capture) : (s.setCapture k c).store = s.store := rfl
@[simp] theorem setCapture_maint (s : State) (k : SlotIx) (c : Option Capture) : (s.setCapture k c).maint = s.maint := rfl
@[simp] theorem setCapture_array (s : State) (k : SlotIx) (c : Option Capture) : (s.setCapture k c).array = s.array := rfl
@[simp] theorem setCapture_port (s : State) (k : SlotIx) (c : Option Capture) : (s.setCapture k c).port = s.port := rfl
@[simp] theorem setCapture_index (s : State) (k : SlotIx) (c : Option Capture) : (s.setCapture k c).index = s.index := rfl
@[simp] theorem setCapture_release (s : State) (k : SlotIx) (c : Option Capture) : (s.setCapture k c).release = s.release := rfl
@[simp] theorem setCapture_ports (s : State) (k : SlotIx) (c : Option Capture) : (s.setCapture k c).ports = s.ports := rfl
@[simp] theorem setCapture_reading (s : State) (k : SlotIx) (c : Option Capture) : (s.setCapture k c).reading = s.reading := rfl
@[simp] theorem setCapture_mgmt (s : State) (k : SlotIx) (c : Option Capture) : (s.setCapture k c).mgmt = s.mgmt := rfl
@[simp] theorem setCapture_freeIx (s : State) (k : SlotIx) (c : Option Capture) : (s.setCapture k c).freeIx = s.freeIx := rfl

/-! ### setReadPort -/

@[simp] theorem setReadPort_pending (s : State) (p : PortIx) (x : ReadPort) : (s.setReadPort p x).pending = s.pending := rfl
@[simp] theorem setReadPort_powered (s : State) (p : PortIx) (x : ReadPort) : (s.setReadPort p x).powered = s.powered := rfl
@[simp] theorem setReadPort_resetLine (s : State) (p : PortIx) (x : ReadPort) : (s.setReadPort p x).resetLine = s.resetLine := rfl
@[simp] theorem setReadPort_protect (s : State) (p : PortIx) (x : ReadPort) : (s.setReadPort p x).protect = s.protect := rfl
@[simp] theorem setReadPort_link (s : State) (p : PortIx) (x : ReadPort) : (s.setReadPort p x).link = s.link := rfl
@[simp] theorem setReadPort_time (s : State) (p : PortIx) (x : ReadPort) : (s.setReadPort p x).time = s.time := rfl
@[simp] theorem setReadPort_streams (s : State) (p : PortIx) (x : ReadPort) : (s.setReadPort p x).streams = s.streams := rfl
@[simp] theorem setReadPort_samples (s : State) (p : PortIx) (x : ReadPort) : (s.setReadPort p x).samples = s.samples := rfl
@[simp] theorem setReadPort_rules (s : State) (p : PortIx) (x : ReadPort) : (s.setReadPort p x).rules = s.rules := rfl
@[simp] theorem setReadPort_slots (s : State) (p : PortIx) (x : ReadPort) : (s.setReadPort p x).slots = s.slots := rfl
@[simp] theorem setReadPort_pointer (s : State) (p : PortIx) (x : ReadPort) : (s.setReadPort p x).pointer = s.pointer := rfl
@[simp] theorem setReadPort_cond (s : State) (p : PortIx) (x : ReadPort) : (s.setReadPort p x).cond = s.cond := rfl
@[simp] theorem setReadPort_store (s : State) (p : PortIx) (x : ReadPort) : (s.setReadPort p x).store = s.store := rfl
@[simp] theorem setReadPort_maint (s : State) (p : PortIx) (x : ReadPort) : (s.setReadPort p x).maint = s.maint := rfl
@[simp] theorem setReadPort_array (s : State) (p : PortIx) (x : ReadPort) : (s.setReadPort p x).array = s.array := rfl
@[simp] theorem setReadPort_port (s : State) (p : PortIx) (x : ReadPort) : (s.setReadPort p x).port = s.port := rfl
@[simp] theorem setReadPort_index (s : State) (p : PortIx) (x : ReadPort) : (s.setReadPort p x).index = s.index := rfl
@[simp] theorem setReadPort_release (s : State) (p : PortIx) (x : ReadPort) : (s.setReadPort p x).release = s.release := rfl
@[simp] theorem setReadPort_ports (s : State) (p : PortIx) (x : ReadPort) : (s.setReadPort p x).ports = tableSet s.ports p x := rfl
@[simp] theorem setReadPort_reading (s : State) (p : PortIx) (x : ReadPort) : (s.setReadPort p x).reading = s.reading := rfl
@[simp] theorem setReadPort_mgmt (s : State) (p : PortIx) (x : ReadPort) : (s.setReadPort p x).mgmt = s.mgmt := rfl
@[simp] theorem setReadPort_freeIx (s : State) (p : PortIx) (x : ReadPort) : (s.setReadPort p x).freeIx = s.freeIx := rfl

/-! ### modifyStore -/

@[simp] theorem modifyStore_pending (s : State) (f : StoreManager → StoreManager) : (s.modifyStore f).pending = s.pending := rfl
@[simp] theorem modifyStore_powered (s : State) (f : StoreManager → StoreManager) : (s.modifyStore f).powered = s.powered := rfl
@[simp] theorem modifyStore_resetLine (s : State) (f : StoreManager → StoreManager) : (s.modifyStore f).resetLine = s.resetLine := rfl
@[simp] theorem modifyStore_protect (s : State) (f : StoreManager → StoreManager) : (s.modifyStore f).protect = s.protect := rfl
@[simp] theorem modifyStore_link (s : State) (f : StoreManager → StoreManager) : (s.modifyStore f).link = s.link := rfl
@[simp] theorem modifyStore_time (s : State) (f : StoreManager → StoreManager) : (s.modifyStore f).time = s.time := rfl
@[simp] theorem modifyStore_streams (s : State) (f : StoreManager → StoreManager) : (s.modifyStore f).streams = s.streams := rfl
@[simp] theorem modifyStore_samples (s : State) (f : StoreManager → StoreManager) : (s.modifyStore f).samples = s.samples := rfl
@[simp] theorem modifyStore_rules (s : State) (f : StoreManager → StoreManager) : (s.modifyStore f).rules = s.rules := rfl
@[simp] theorem modifyStore_slots (s : State) (f : StoreManager → StoreManager) : (s.modifyStore f).slots = s.slots := rfl
@[simp] theorem modifyStore_pointer (s : State) (f : StoreManager → StoreManager) : (s.modifyStore f).pointer = s.pointer := rfl
@[simp] theorem modifyStore_cond (s : State) (f : StoreManager → StoreManager) : (s.modifyStore f).cond = s.cond := rfl
@[simp] theorem modifyStore_store (s : State) (f : StoreManager → StoreManager) : (s.modifyStore f).store = f s.store := rfl
@[simp] theorem modifyStore_maint (s : State) (f : StoreManager → StoreManager) : (s.modifyStore f).maint = s.maint := rfl
@[simp] theorem modifyStore_array (s : State) (f : StoreManager → StoreManager) : (s.modifyStore f).array = s.array := rfl
@[simp] theorem modifyStore_port (s : State) (f : StoreManager → StoreManager) : (s.modifyStore f).port = s.port := rfl
@[simp] theorem modifyStore_index (s : State) (f : StoreManager → StoreManager) : (s.modifyStore f).index = s.index := rfl
@[simp] theorem modifyStore_release (s : State) (f : StoreManager → StoreManager) : (s.modifyStore f).release = s.release := rfl
@[simp] theorem modifyStore_ports (s : State) (f : StoreManager → StoreManager) : (s.modifyStore f).ports = s.ports := rfl
@[simp] theorem modifyStore_reading (s : State) (f : StoreManager → StoreManager) : (s.modifyStore f).reading = s.reading := rfl
@[simp] theorem modifyStore_mgmt (s : State) (f : StoreManager → StoreManager) : (s.modifyStore f).mgmt = s.mgmt := rfl
@[simp] theorem modifyStore_freeIx (s : State) (f : StoreManager → StoreManager) : (s.modifyStore f).freeIx = s.freeIx := rfl

/-! ### modifyLink -/

@[simp] theorem modifyLink_pending (s : State) (f : Link → Link) : (s.modifyLink f).pending = s.pending := rfl
@[simp] theorem modifyLink_powered (s : State) (f : Link → Link) : (s.modifyLink f).powered = s.powered := rfl
@[simp] theorem modifyLink_resetLine (s : State) (f : Link → Link) : (s.modifyLink f).resetLine = s.resetLine := rfl
@[simp] theorem modifyLink_protect (s : State) (f : Link → Link) : (s.modifyLink f).protect = s.protect := rfl
@[simp] theorem modifyLink_link (s : State) (f : Link → Link) : (s.modifyLink f).link = f s.link := rfl
@[simp] theorem modifyLink_time (s : State) (f : Link → Link) : (s.modifyLink f).time = s.time := rfl
@[simp] theorem modifyLink_streams (s : State) (f : Link → Link) : (s.modifyLink f).streams = s.streams := rfl
@[simp] theorem modifyLink_samples (s : State) (f : Link → Link) : (s.modifyLink f).samples = s.samples := rfl
@[simp] theorem modifyLink_rules (s : State) (f : Link → Link) : (s.modifyLink f).rules = s.rules := rfl
@[simp] theorem modifyLink_slots (s : State) (f : Link → Link) : (s.modifyLink f).slots = s.slots := rfl
@[simp] theorem modifyLink_pointer (s : State) (f : Link → Link) : (s.modifyLink f).pointer = s.pointer := rfl
@[simp] theorem modifyLink_cond (s : State) (f : Link → Link) : (s.modifyLink f).cond = s.cond := rfl
@[simp] theorem modifyLink_store (s : State) (f : Link → Link) : (s.modifyLink f).store = s.store := rfl
@[simp] theorem modifyLink_maint (s : State) (f : Link → Link) : (s.modifyLink f).maint = s.maint := rfl
@[simp] theorem modifyLink_array (s : State) (f : Link → Link) : (s.modifyLink f).array = s.array := rfl
@[simp] theorem modifyLink_port (s : State) (f : Link → Link) : (s.modifyLink f).port = s.port := rfl
@[simp] theorem modifyLink_index (s : State) (f : Link → Link) : (s.modifyLink f).index = s.index := rfl
@[simp] theorem modifyLink_release (s : State) (f : Link → Link) : (s.modifyLink f).release = s.release := rfl
@[simp] theorem modifyLink_ports (s : State) (f : Link → Link) : (s.modifyLink f).ports = s.ports := rfl
@[simp] theorem modifyLink_reading (s : State) (f : Link → Link) : (s.modifyLink f).reading = s.reading := rfl
@[simp] theorem modifyLink_mgmt (s : State) (f : Link → Link) : (s.modifyLink f).mgmt = s.mgmt := rfl
@[simp] theorem modifyLink_freeIx (s : State) (f : Link → Link) : (s.modifyLink f).freeIx = s.freeIx := rfl

/-! ### sendEvent -/

@[simp] theorem sendEvent_pending (s : State) (code : Byte) (arg1 arg2 : BitVec 16) : (s.sendEvent code arg1 arg2).pending = s.pending := rfl
@[simp] theorem sendEvent_powered (s : State) (code : Byte) (arg1 arg2 : BitVec 16) : (s.sendEvent code arg1 arg2).powered = s.powered := rfl
@[simp] theorem sendEvent_resetLine (s : State) (code : Byte) (arg1 arg2 : BitVec 16) : (s.sendEvent code arg1 arg2).resetLine = s.resetLine := rfl
@[simp] theorem sendEvent_protect (s : State) (code : Byte) (arg1 arg2 : BitVec 16) : (s.sendEvent code arg1 arg2).protect = s.protect := rfl
@[simp] theorem sendEvent_link (s : State) (code : Byte) (arg1 arg2 : BitVec 16) : (s.sendEvent code arg1 arg2).link = s.link := rfl
@[simp] theorem sendEvent_time (s : State) (code : Byte) (arg1 arg2 : BitVec 16) : (s.sendEvent code arg1 arg2).time = s.time := rfl
@[simp] theorem sendEvent_streams (s : State) (code : Byte) (arg1 arg2 : BitVec 16) : (s.sendEvent code arg1 arg2).streams = s.streams := rfl
@[simp] theorem sendEvent_samples (s : State) (code : Byte) (arg1 arg2 : BitVec 16) : (s.sendEvent code arg1 arg2).samples = s.samples := rfl
@[simp] theorem sendEvent_rules (s : State) (code : Byte) (arg1 arg2 : BitVec 16) : (s.sendEvent code arg1 arg2).rules = s.rules := rfl
@[simp] theorem sendEvent_slots (s : State) (code : Byte) (arg1 arg2 : BitVec 16) : (s.sendEvent code arg1 arg2).slots = s.slots := rfl
@[simp] theorem sendEvent_pointer (s : State) (code : Byte) (arg1 arg2 : BitVec 16) : (s.sendEvent code arg1 arg2).pointer = s.pointer := rfl
@[simp] theorem sendEvent_cond (s : State) (code : Byte) (arg1 arg2 : BitVec 16) : (s.sendEvent code arg1 arg2).cond = s.cond := rfl
@[simp] theorem sendEvent_store (s : State) (code : Byte) (arg1 arg2 : BitVec 16) : (s.sendEvent code arg1 arg2).store = s.store := rfl
@[simp] theorem sendEvent_maint (s : State) (code : Byte) (arg1 arg2 : BitVec 16) : (s.sendEvent code arg1 arg2).maint = s.maint := rfl
@[simp] theorem sendEvent_array (s : State) (code : Byte) (arg1 arg2 : BitVec 16) : (s.sendEvent code arg1 arg2).array = s.array := rfl
@[simp] theorem sendEvent_port (s : State) (code : Byte) (arg1 arg2 : BitVec 16) : (s.sendEvent code arg1 arg2).port = s.port := rfl
@[simp] theorem sendEvent_index (s : State) (code : Byte) (arg1 arg2 : BitVec 16) : (s.sendEvent code arg1 arg2).index = s.index := rfl
@[simp] theorem sendEvent_release (s : State) (code : Byte) (arg1 arg2 : BitVec 16) : (s.sendEvent code arg1 arg2).release = s.release := rfl
@[simp] theorem sendEvent_ports (s : State) (code : Byte) (arg1 arg2 : BitVec 16) : (s.sendEvent code arg1 arg2).ports = s.ports := rfl
@[simp] theorem sendEvent_reading (s : State) (code : Byte) (arg1 arg2 : BitVec 16) : (s.sendEvent code arg1 arg2).reading = s.reading := rfl
@[simp] theorem sendEvent_mgmt (s : State) (code : Byte) (arg1 arg2 : BitVec 16) : (s.sendEvent code arg1 arg2).mgmt = { s.mgmt with status := s.mgmt.status.take code arg1 arg2 } := rfl
@[simp] theorem sendEvent_freeIx (s : State) (code : Byte) (arg1 arg2 : BitVec 16) : (s.sendEvent code arg1 arg2).freeIx = s.freeIx := rfl

/-! ### withdraw -/

@[simp] theorem withdraw_pending (s : State) (w : Requester) : (s.withdraw w).pending = s.pending := rfl
@[simp] theorem withdraw_powered (s : State) (w : Requester) : (s.withdraw w).powered = s.powered := rfl
@[simp] theorem withdraw_resetLine (s : State) (w : Requester) : (s.withdraw w).resetLine = s.resetLine := rfl
@[simp] theorem withdraw_protect (s : State) (w : Requester) : (s.withdraw w).protect = s.protect := rfl
@[simp] theorem withdraw_link (s : State) (w : Requester) : (s.withdraw w).link = s.link := rfl
@[simp] theorem withdraw_time (s : State) (w : Requester) : (s.withdraw w).time = s.time := rfl
@[simp] theorem withdraw_streams (s : State) (w : Requester) : (s.withdraw w).streams = s.streams := rfl
@[simp] theorem withdraw_samples (s : State) (w : Requester) : (s.withdraw w).samples = s.samples := rfl
@[simp] theorem withdraw_rules (s : State) (w : Requester) : (s.withdraw w).rules = s.rules := rfl
@[simp] theorem withdraw_slots (s : State) (w : Requester) : (s.withdraw w).slots = s.slots := rfl
@[simp] theorem withdraw_pointer (s : State) (w : Requester) : (s.withdraw w).pointer = s.pointer := rfl
@[simp] theorem withdraw_cond (s : State) (w : Requester) : (s.withdraw w).cond = s.cond := rfl
@[simp] theorem withdraw_store (s : State) (w : Requester) : (s.withdraw w).store = s.store := rfl
@[simp] theorem withdraw_maint (s : State) (w : Requester) : (s.withdraw w).maint = s.maint := rfl
@[simp] theorem withdraw_array (s : State) (w : Requester) : (s.withdraw w).array = s.array := rfl
@[simp] theorem withdraw_port (s : State) (w : Requester) : (s.withdraw w).port = { s.port with waiting := s.port.waiting.filter (·.who != w) } := rfl
@[simp] theorem withdraw_index (s : State) (w : Requester) : (s.withdraw w).index = s.index := rfl
@[simp] theorem withdraw_release (s : State) (w : Requester) : (s.withdraw w).release = s.release := rfl
@[simp] theorem withdraw_ports (s : State) (w : Requester) : (s.withdraw w).ports = s.ports := rfl
@[simp] theorem withdraw_reading (s : State) (w : Requester) : (s.withdraw w).reading = s.reading := rfl
@[simp] theorem withdraw_mgmt (s : State) (w : Requester) : (s.withdraw w).mgmt = s.mgmt := rfl
@[simp] theorem withdraw_freeIx (s : State) (w : Requester) : (s.withdraw w).freeIx = s.freeIx := rfl

/-! ### complete -/

@[simp] theorem complete_pending (s : State) (op : StoreOp) : (s.complete op).pending = s.pending := rfl
@[simp] theorem complete_powered (s : State) (op : StoreOp) : (s.complete op).powered = s.powered := rfl
@[simp] theorem complete_resetLine (s : State) (op : StoreOp) : (s.complete op).resetLine = s.resetLine := rfl
@[simp] theorem complete_protect (s : State) (op : StoreOp) : (s.complete op).protect = s.protect := rfl
@[simp] theorem complete_link (s : State) (op : StoreOp) : (s.complete op).link = s.link := rfl
@[simp] theorem complete_time (s : State) (op : StoreOp) : (s.complete op).time = s.time := rfl
@[simp] theorem complete_streams (s : State) (op : StoreOp) : (s.complete op).streams = s.streams := rfl
@[simp] theorem complete_samples (s : State) (op : StoreOp) : (s.complete op).samples = s.samples := rfl
@[simp] theorem complete_rules (s : State) (op : StoreOp) : (s.complete op).rules = s.rules := rfl
@[simp] theorem complete_slots (s : State) (op : StoreOp) : (s.complete op).slots = s.slots := rfl
@[simp] theorem complete_pointer (s : State) (op : StoreOp) : (s.complete op).pointer = s.pointer := rfl
@[simp] theorem complete_cond (s : State) (op : StoreOp) : (s.complete op).cond = s.cond := rfl
@[simp] theorem complete_store (s : State) (op : StoreOp) : (s.complete op).store = s.store := rfl
@[simp] theorem complete_maint (s : State) (op : StoreOp) : (s.complete op).maint = s.maint := rfl
@[simp] theorem complete_array (s : State) (op : StoreOp) : (s.complete op).array = op.applyTo s.array := rfl
@[simp] theorem complete_port (s : State) (op : StoreOp) : (s.complete op).port = { s.port with busy := none } := rfl
@[simp] theorem complete_index (s : State) (op : StoreOp) : (s.complete op).index = s.index := rfl
@[simp] theorem complete_release (s : State) (op : StoreOp) : (s.complete op).release = s.release := rfl
@[simp] theorem complete_ports (s : State) (op : StoreOp) : (s.complete op).ports = s.ports := rfl
@[simp] theorem complete_reading (s : State) (op : StoreOp) : (s.complete op).reading = s.reading := rfl
@[simp] theorem complete_mgmt (s : State) (op : StoreOp) : (s.complete op).mgmt = s.mgmt := rfl
@[simp] theorem complete_freeIx (s : State) (op : StoreOp) : (s.complete op).freeIx = s.freeIx := rfl

/-! ### ask -/

@[simp] theorem ask_pending (s : State) (w : Requester) (op : StoreOp) : (s.ask w op).pending = s.pending := rfl
@[simp] theorem ask_powered (s : State) (w : Requester) (op : StoreOp) : (s.ask w op).powered = s.powered := rfl
@[simp] theorem ask_resetLine (s : State) (w : Requester) (op : StoreOp) : (s.ask w op).resetLine = s.resetLine := rfl
@[simp] theorem ask_protect (s : State) (w : Requester) (op : StoreOp) : (s.ask w op).protect = s.protect := rfl
@[simp] theorem ask_link (s : State) (w : Requester) (op : StoreOp) : (s.ask w op).link = s.link := rfl
@[simp] theorem ask_time (s : State) (w : Requester) (op : StoreOp) : (s.ask w op).time = s.time := rfl
@[simp] theorem ask_streams (s : State) (w : Requester) (op : StoreOp) : (s.ask w op).streams = s.streams := rfl
@[simp] theorem ask_samples (s : State) (w : Requester) (op : StoreOp) : (s.ask w op).samples = s.samples := rfl
@[simp] theorem ask_rules (s : State) (w : Requester) (op : StoreOp) : (s.ask w op).rules = s.rules := rfl
@[simp] theorem ask_slots (s : State) (w : Requester) (op : StoreOp) : (s.ask w op).slots = s.slots := rfl
@[simp] theorem ask_pointer (s : State) (w : Requester) (op : StoreOp) : (s.ask w op).pointer = s.pointer := rfl
@[simp] theorem ask_cond (s : State) (w : Requester) (op : StoreOp) : (s.ask w op).cond = s.cond := rfl
@[simp] theorem ask_store (s : State) (w : Requester) (op : StoreOp) : (s.ask w op).store = s.store := rfl
@[simp] theorem ask_maint (s : State) (w : Requester) (op : StoreOp) : (s.ask w op).maint = s.maint := rfl
@[simp] theorem ask_array (s : State) (w : Requester) (op : StoreOp) : (s.ask w op).array = s.array := rfl
@[simp] theorem ask_port (s : State) (w : Requester) (op : StoreOp) : (s.ask w op).port = { s.port with waiting := s.port.waiting ++ [(⟨w, op⟩ : StoreRequest)] } := rfl
@[simp] theorem ask_index (s : State) (w : Requester) (op : StoreOp) : (s.ask w op).index = s.index := rfl
@[simp] theorem ask_release (s : State) (w : Requester) (op : StoreOp) : (s.ask w op).release = s.release := rfl
@[simp] theorem ask_ports (s : State) (w : Requester) (op : StoreOp) : (s.ask w op).ports = s.ports := rfl
@[simp] theorem ask_reading (s : State) (w : Requester) (op : StoreOp) : (s.ask w op).reading = s.reading := rfl
@[simp] theorem ask_mgmt (s : State) (w : Requester) (op : StoreOp) : (s.ask w op).mgmt = s.mgmt := rfl
@[simp] theorem ask_freeIx (s : State) (w : Requester) (op : StoreOp) : (s.ask w op).freeIx = s.freeIx := rfl

/-! ### maintenanceDone -/

@[simp] theorem maintenanceDone_pending (s : State) (kind count : Nat) : (s.maintenanceDone kind count).pending = s.pending := rfl
@[simp] theorem maintenanceDone_powered (s : State) (kind count : Nat) : (s.maintenanceDone kind count).powered = s.powered := rfl
@[simp] theorem maintenanceDone_resetLine (s : State) (kind count : Nat) : (s.maintenanceDone kind count).resetLine = s.resetLine := rfl
@[simp] theorem maintenanceDone_protect (s : State) (kind count : Nat) : (s.maintenanceDone kind count).protect = s.protect := rfl
@[simp] theorem maintenanceDone_link (s : State) (kind count : Nat) : (s.maintenanceDone kind count).link = s.link := rfl
@[simp] theorem maintenanceDone_time (s : State) (kind count : Nat) : (s.maintenanceDone kind count).time = s.time := rfl
@[simp] theorem maintenanceDone_streams (s : State) (kind count : Nat) : (s.maintenanceDone kind count).streams = s.streams := rfl
@[simp] theorem maintenanceDone_samples (s : State) (kind count : Nat) : (s.maintenanceDone kind count).samples = s.samples := rfl
@[simp] theorem maintenanceDone_rules (s : State) (kind count : Nat) : (s.maintenanceDone kind count).rules = s.rules := rfl
@[simp] theorem maintenanceDone_slots (s : State) (kind count : Nat) : (s.maintenanceDone kind count).slots = s.slots := rfl
@[simp] theorem maintenanceDone_pointer (s : State) (kind count : Nat) : (s.maintenanceDone kind count).pointer = s.pointer := rfl
@[simp] theorem maintenanceDone_cond (s : State) (kind count : Nat) : (s.maintenanceDone kind count).cond = s.cond := rfl
@[simp] theorem maintenanceDone_store (s : State) (kind count : Nat) : (s.maintenanceDone kind count).store = s.store := rfl
@[simp] theorem maintenanceDone_maint (s : State) (kind count : Nat) : (s.maintenanceDone kind count).maint = none := rfl
@[simp] theorem maintenanceDone_array (s : State) (kind count : Nat) : (s.maintenanceDone kind count).array = s.array := rfl
@[simp] theorem maintenanceDone_port (s : State) (kind count : Nat) : (s.maintenanceDone kind count).port = s.port := rfl
@[simp] theorem maintenanceDone_index (s : State) (kind count : Nat) : (s.maintenanceDone kind count).index = s.index := rfl
@[simp] theorem maintenanceDone_release (s : State) (kind count : Nat) : (s.maintenanceDone kind count).release = s.release := rfl
@[simp] theorem maintenanceDone_ports (s : State) (kind count : Nat) : (s.maintenanceDone kind count).ports = s.ports := rfl
@[simp] theorem maintenanceDone_reading (s : State) (kind count : Nat) : (s.maintenanceDone kind count).reading = s.reading := rfl
@[simp] theorem maintenanceDone_mgmt (s : State) (kind count : Nat) : (s.maintenanceDone kind count).mgmt = { s.mgmt with status := s.mgmt.status.take eventDone (BitVec.ofNat 16 kind) (BitVec.ofNat 16 count) } := rfl
@[simp] theorem maintenanceDone_freeIx (s : State) (kind count : Nat) : (s.maintenanceDone kind count).freeIx = s.freeIx := rfl

/-! ### enqueueRelease -/

@[simp] theorem enqueueRelease_pending (s : State) (j : ReleaseJob) : (s.enqueueRelease j).pending = s.pending := rfl
@[simp] theorem enqueueRelease_powered (s : State) (j : ReleaseJob) : (s.enqueueRelease j).powered = s.powered := rfl
@[simp] theorem enqueueRelease_resetLine (s : State) (j : ReleaseJob) : (s.enqueueRelease j).resetLine = s.resetLine := rfl
@[simp] theorem enqueueRelease_protect (s : State) (j : ReleaseJob) : (s.enqueueRelease j).protect = s.protect := rfl
@[simp] theorem enqueueRelease_link (s : State) (j : ReleaseJob) : (s.enqueueRelease j).link = s.link := rfl
@[simp] theorem enqueueRelease_time (s : State) (j : ReleaseJob) : (s.enqueueRelease j).time = s.time := rfl
@[simp] theorem enqueueRelease_streams (s : State) (j : ReleaseJob) : (s.enqueueRelease j).streams = s.streams := rfl
@[simp] theorem enqueueRelease_samples (s : State) (j : ReleaseJob) : (s.enqueueRelease j).samples = s.samples := rfl
@[simp] theorem enqueueRelease_rules (s : State) (j : ReleaseJob) : (s.enqueueRelease j).rules = s.rules := rfl
@[simp] theorem enqueueRelease_slots (s : State) (j : ReleaseJob) : (s.enqueueRelease j).slots = s.slots := rfl
@[simp] theorem enqueueRelease_pointer (s : State) (j : ReleaseJob) : (s.enqueueRelease j).pointer = s.pointer := rfl
@[simp] theorem enqueueRelease_cond (s : State) (j : ReleaseJob) : (s.enqueueRelease j).cond = s.cond := rfl
@[simp] theorem enqueueRelease_store (s : State) (j : ReleaseJob) : (s.enqueueRelease j).store = s.store := rfl
@[simp] theorem enqueueRelease_maint (s : State) (j : ReleaseJob) : (s.enqueueRelease j).maint = s.maint := rfl
@[simp] theorem enqueueRelease_array (s : State) (j : ReleaseJob) : (s.enqueueRelease j).array = s.array := rfl
@[simp] theorem enqueueRelease_port (s : State) (j : ReleaseJob) : (s.enqueueRelease j).port = s.port := rfl
@[simp] theorem enqueueRelease_index (s : State) (j : ReleaseJob) : (s.enqueueRelease j).index = s.index := rfl
@[simp] theorem enqueueRelease_release (s : State) (j : ReleaseJob) : (s.enqueueRelease j).release = { s.release with queue := s.release.queue ++ [j] } := rfl
@[simp] theorem enqueueRelease_ports (s : State) (j : ReleaseJob) : (s.enqueueRelease j).ports = s.ports := rfl
@[simp] theorem enqueueRelease_reading (s : State) (j : ReleaseJob) : (s.enqueueRelease j).reading = s.reading := rfl
@[simp] theorem enqueueRelease_mgmt (s : State) (j : ReleaseJob) : (s.enqueueRelease j).mgmt = s.mgmt := rfl
@[simp] theorem enqueueRelease_freeIx (s : State) (j : ReleaseJob) : (s.enqueueRelease j).freeIx = s.freeIx := rfl

/-! ### jobFinished -/

@[simp] theorem jobFinished_pending (s : State) : (s.jobFinished).pending = s.pending := rfl
@[simp] theorem jobFinished_powered (s : State) : (s.jobFinished).powered = s.powered := rfl
@[simp] theorem jobFinished_resetLine (s : State) : (s.jobFinished).resetLine = s.resetLine := rfl
@[simp] theorem jobFinished_protect (s : State) : (s.jobFinished).protect = s.protect := rfl
@[simp] theorem jobFinished_link (s : State) : (s.jobFinished).link = s.link := rfl
@[simp] theorem jobFinished_time (s : State) : (s.jobFinished).time = s.time := rfl
@[simp] theorem jobFinished_streams (s : State) : (s.jobFinished).streams = s.streams := rfl
@[simp] theorem jobFinished_samples (s : State) : (s.jobFinished).samples = s.samples := rfl
@[simp] theorem jobFinished_rules (s : State) : (s.jobFinished).rules = s.rules := rfl
@[simp] theorem jobFinished_slots (s : State) : (s.jobFinished).slots = s.slots := rfl
@[simp] theorem jobFinished_pointer (s : State) : (s.jobFinished).pointer = s.pointer := rfl
@[simp] theorem jobFinished_cond (s : State) : (s.jobFinished).cond = s.cond := rfl
@[simp] theorem jobFinished_store (s : State) : (s.jobFinished).store = s.store := rfl
@[simp] theorem jobFinished_maint (s : State) : (s.jobFinished).maint = s.maint := rfl
@[simp] theorem jobFinished_array (s : State) : (s.jobFinished).array = s.array := rfl
@[simp] theorem jobFinished_port (s : State) : (s.jobFinished).port = s.port := rfl
@[simp] theorem jobFinished_index (s : State) : (s.jobFinished).index = ⟨s.index.queue.tail, .idle, 0⟩ := rfl
@[simp] theorem jobFinished_release (s : State) : (s.jobFinished).release = s.release := rfl
@[simp] theorem jobFinished_ports (s : State) : (s.jobFinished).ports = s.ports := rfl
@[simp] theorem jobFinished_reading (s : State) : (s.jobFinished).reading = s.reading := rfl
@[simp] theorem jobFinished_mgmt (s : State) : (s.jobFinished).mgmt = s.mgmt := rfl
@[simp] theorem jobFinished_freeIx (s : State) : (s.jobFinished).freeIx = s.freeIx := rfl

/-! ### markWithdrawn -/

@[simp] theorem markWithdrawn_pending (s : State) (head : Nat) : (s.markWithdrawn head).pending = s.pending := rfl
@[simp] theorem markWithdrawn_powered (s : State) (head : Nat) : (s.markWithdrawn head).powered = s.powered := rfl
@[simp] theorem markWithdrawn_resetLine (s : State) (head : Nat) : (s.markWithdrawn head).resetLine = s.resetLine := rfl
@[simp] theorem markWithdrawn_protect (s : State) (head : Nat) : (s.markWithdrawn head).protect = s.protect := rfl
@[simp] theorem markWithdrawn_link (s : State) (head : Nat) : (s.markWithdrawn head).link = s.link := rfl
@[simp] theorem markWithdrawn_time (s : State) (head : Nat) : (s.markWithdrawn head).time = s.time := rfl
@[simp] theorem markWithdrawn_streams (s : State) (head : Nat) : (s.markWithdrawn head).streams = s.streams := rfl
@[simp] theorem markWithdrawn_samples (s : State) (head : Nat) : (s.markWithdrawn head).samples = s.samples := rfl
@[simp] theorem markWithdrawn_rules (s : State) (head : Nat) : (s.markWithdrawn head).rules = s.rules := rfl
@[simp] theorem markWithdrawn_slots (s : State) (head : Nat) : (s.markWithdrawn head).slots = s.slots := rfl
@[simp] theorem markWithdrawn_pointer (s : State) (head : Nat) : (s.markWithdrawn head).pointer = s.pointer := rfl
@[simp] theorem markWithdrawn_cond (s : State) (head : Nat) : (s.markWithdrawn head).cond = s.cond := rfl
@[simp] theorem markWithdrawn_store (s : State) (head : Nat) : (s.markWithdrawn head).store = s.store := rfl
@[simp] theorem markWithdrawn_maint (s : State) (head : Nat) : (s.markWithdrawn head).maint = s.maint := rfl
@[simp] theorem markWithdrawn_array (s : State) (head : Nat) : (s.markWithdrawn head).array = s.array := rfl
@[simp] theorem markWithdrawn_port (s : State) (head : Nat) : (s.markWithdrawn head).port = s.port := rfl
@[simp] theorem markWithdrawn_index (s : State) (head : Nat) : (s.markWithdrawn head).index = s.index := rfl
@[simp] theorem markWithdrawn_release (s : State) (head : Nat) : (s.markWithdrawn head).release = s.release := rfl
@[simp] theorem markWithdrawn_ports (s : State) (head : Nat) : (s.markWithdrawn head).ports = s.ports.map fun p => if p.pin? = some head then p.withdraw else p := rfl
@[simp] theorem markWithdrawn_reading (s : State) (head : Nat) : (s.markWithdrawn head).reading = s.reading := rfl
@[simp] theorem markWithdrawn_mgmt (s : State) (head : Nat) : (s.markWithdrawn head).mgmt = s.mgmt := rfl
@[simp] theorem markWithdrawn_freeIx (s : State) (head : Nat) : (s.markWithdrawn head).freeIx = s.freeIx := rfl

end Sys2Proof.Machine
end

