-- ==== Sys2Proof/Laws/Accounts.lean ====
section
/-!
SUPPORT. `BlocksAccounted` (R97) under the changes that an operation makes: a slot replaced together with the Store
Manager, a request presented or granted, a Maintenance operation or a cache entry replaced.
-/

namespace Sys2Proof.Machine

/-! ### Sums over slots and recordings -/

/-- A sum over the slots after slot `k` is replaced. -/
theorem sum_setSlot_of (f : Slot → Nat) (s : State) (k : SlotIx) (x : Slot) :
    (∑ j : SlotIx, f ((s.setSlot k x).slot j)) + f (s.slot k) = (∑ j : SlotIx, f (s.slot j)) + f x := by
  have h1 := Finset.add_sum_erase Finset.univ (fun j => f ((s.setSlot k x).slot j)) (Finset.mem_univ k)
  have h2 := Finset.add_sum_erase Finset.univ (fun j => f (s.slot j)) (Finset.mem_univ k)
  have h3 : ∑ j ∈ Finset.univ.erase k, f ((s.setSlot k x).slot j) = ∑ j ∈ Finset.univ.erase k, f (s.slot j) :=
    Finset.sum_congr rfl fun j hj => by rw [slot_setSlot, if_neg (Finset.ne_of_mem_erase hj)]
  simp only [slot_setSlot_same] at h1
  omega

/-- A slot's claims are among the claims. -/
theorem slotClaims_le (s : State) (k : SlotIx) (b : Nat) : (slotClaims (s.slot k)).count b ≤ blockClaims s b := by
  have := Finset.single_le_sum (f := fun j => (slotClaims (s.slot j)).count b) (fun _ _ => Nat.zero_le _) (Finset.mem_univ k)
  simp only [blockClaims]
  omega

/-- What a recording's index claims is among the claims. -/
theorem indexClaims_le (s : State) (r : RecIx) (b : Nat) : (indexClaims s.store s.maint r).count b ≤ blockClaims s b := by
  have := Finset.single_le_sum (f := fun j => (indexClaims s.store s.maint j).count b) (fun _ _ => Nat.zero_le _)
    (Finset.mem_univ r)
  simp only [blockClaims]
  omega

/-- A claimed block is used. -/
theorem used_of_claimed (s : State) (b : Nat) (h : BlocksAccounted s) (hb : 0 < blockClaims s b) : b ∈ s.store.used := by
  have := h.claims b
  by_contra hn
  rw [if_neg hn] at this
  omega

/-- A block is claimed at most once. -/
theorem claims_le_one (s : State) (b : Nat) (h : BlocksAccounted s) : blockClaims s b ≤ 1 := by
  have := h.claims b
  split at this <;> omega

/-- The blocks that a slot claims are different. -/
theorem slotClaims_nodup (s : State) (k : SlotIx) (h : BlocksAccounted s) : (slotClaims (s.slot k)).Nodup :=
  List.nodup_iff_count_le_one.2 fun b => le_trans (slotClaims_le s k b) (claims_le_one s b h)

/-- The blocks that a slot claims are used. -/
theorem slotClaims_used (s : State) (k : SlotIx) (h : BlocksAccounted s) (b : Nat) (hb : b ∈ slotClaims (s.slot k)) :
    b ∈ s.store.used :=
  used_of_claimed s b h (lt_of_lt_of_le (List.count_pos_iff.2 hb) (slotClaims_le s k b))

/-- The claimed blocks as one list. -/
def claimList (s : State) : List Nat :=
  (List.finRange 8).flatMap (fun k => slotClaims (s.slot k))
    ++ (List.finRange 32).flatMap (fun r => indexClaims s.store s.maint r) ++ maintenanceClaims s.maint

theorem blockClaims_count (s : State) (b : Nat) : blockClaims s b = (claimList s).count b := by
  simp only [blockClaims, claimList, List.count_append, List.count_flatMap, Fin.sum_univ_def, Function.comp_def]

/-- The claims are in order where the blocks claimed are different and used. -/
theorem claims_of_list (s : State) (hn : (claimList s).Nodup) (hu : ∀ b ∈ claimList s, b ∈ s.store.used) (b : Nat) :
    blockClaims s b ≤ if b ∈ s.store.used then 1 else 0 := by
  rw [blockClaims_count]
  split
  · exact List.nodup_iff_count_le_one.1 hn b
  · rename_i h
    rw [List.count_eq_zero.2 fun hb => h (hu b hb)]

/-! ### The parts of the invariant -/

/-- The claims stay in order where they change by no more than the used blocks do. -/
theorem claims_of_le {s t : State} (h : BlocksAccounted s) (b : Nat)
    (hb : blockClaims t b + (if b ∈ s.store.used then 1 else 0) ≤ blockClaims s b + (if b ∈ t.store.used then 1 else 0)) :
    blockClaims t b ≤ if b ∈ t.store.used then 1 else 0 := by
  have := h.claims b
  omega

theorem indexClaims_cache (m m' : StoreManager) (op r) (h : m'.cache = m.cache) : indexClaims m' op r = indexClaims m op r := by
  simp only [indexClaims, StoreManager.entry, h]

/-- The claims when the Store Manager is replaced by one with the same cache. -/
theorem blockClaims_store (s : State) (m : StoreManager) (h : m.cache = s.store.cache) (b : Nat) :
    blockClaims { s with store := m } b = blockClaims s b := by
  have : ∀ r, indexClaims m s.maint r = indexClaims s.store s.maint r := fun r => indexClaims_cache _ _ _ _ h
  show ∑ k, (slotClaims (s.slot k)).count b + ∑ r, (indexClaims m s.maint r).count b + _ = _
  simp only [this]
  rfl

/-- The claims when a slot is replaced together with the Store Manager. -/
theorem blockClaims_setSlot (s : State) (k : SlotIx) (x : Slot) (m : StoreManager) (h : m.cache = s.store.cache) (b : Nat) :
    blockClaims ({ s with store := m }.setSlot k x) b + (slotClaims (s.slot k)).count b
      = blockClaims s b + (slotClaims x).count b := by
  have h1 := sum_setSlot_of (fun y => (slotClaims y).count b) { s with store := m } k x
  have h2 : ∀ j, ({ s with store := m } : State).slot j = s.slot j := fun _ => rfl
  have h3 : ∀ r, indexClaims m s.maint r = indexClaims s.store s.maint r := fun r => indexClaims_cache _ _ _ _ h
  simp only [blockClaims, setSlot_store, setSlot_maint, h3, h2] at *
  omega

/-- A slot replaced together with the Store Manager. -/
theorem setSlot_accounts {s : State} (h : BlocksAccounted s) (k : SlotIx) (x : Slot) (m : StoreManager)
    (hcache : m.cache = s.store.cache) (hfree : m.state ≠ .mounting → m.reserved ≤ m.free)
    (hclaims : ∀ b, (slotClaims x).count b + (if b ∈ s.store.used then 1 else 0)
      ≤ (slotClaims (s.slot k)).count b + (if b ∈ m.used then 1 else 0))
    (htidy : SlotTidy x) (hport : RequestsSuit s.port k x)
    (hjobs : k ∈ s.index.queue.filterMap commitSlot? → ∃ c e, x.capture = some c ∧ c.phase = .committing e) :
    BlocksAccounted ({ s with store := m }.setSlot k x) := by
  have hslot : ∀ j, ({ s with store := m }.setSlot k x).slot j = if j = k then x else s.slot j :=
    fun j => slot_setSlot { s with store := m } k j x
  refine ⟨hfree, fun b => claims_of_le h b ?_, fun j => ?_, fun j => ?_, h.jobs.1, fun j hj => ?_⟩
  · have h1 := blockClaims_setSlot s k x m hcache b
    have h2 := hclaims b
    have h3 : ({ s with store := m }.setSlot k x).store.used = m.used := rfl
    rw [h3]
    omega
  · rw [hslot]; split
    · exact htidy
    · exact h.tidy j
  · rw [hslot]; split
    · rename_i hj; subst hj; exact hport
    · exact h.requests j
  · rw [hslot]; split
    · rename_i hk; subst hk; exact hjobs hj
    · exact h.jobs.2 j hj

/-- The Store Manager replaced by one with the same cache, by which no claimed block becomes free. -/
theorem store_accounts {s : State} (h : BlocksAccounted s) (m : StoreManager) (hc : m.cache = s.store.cache)
    (hf : m.state ≠ .mounting → m.reserved ≤ m.free) (hu : ∀ b ∈ s.store.used, 0 < blockClaims s b → b ∈ m.used) :
    BlocksAccounted { s with store := m } := by
  refine ⟨hf, fun b => ?_, h.tidy, h.requests, h.jobs⟩
  rw [blockClaims_store s m hc]
  have h1 := h.claims b
  by_cases h2 : 0 < blockClaims s b
  · have := hu b (used_of_claimed s b h h2) h2
    show _ ≤ if b ∈ m.used then 1 else 0
    rw [if_pos this]
    exact claims_le_one s b h
  · omega

/-- Free claims of blocks that nothing claims. -/
theorem freeBlocks_accounts {s : State} (h : BlocksAccounted s) (bs : List Nat) (hb : ∀ b ∈ bs, blockClaims s b = 0) :
    BlocksAccounted { s with store := s.store.freeBlocks bs } := by
  have hs := freeBlocks_spec bs s.store
  refine store_accounts h _ (by rw [hs]) (fun hm => ?_) fun b hu hc => ?_
  · rw [hs] at hm
    have h1 := h.reservations hm
    have h2 := freeBlocks_free bs s.store
    have h3 : (s.store.freeBlocks bs).reserved = s.store.reserved := by rw [hs]
    omega
  · refine (mem_freeBlocks bs b s.store).2 ⟨hu, fun hm => ?_⟩
    have := hb b hm
    omega

/-! ### Captures and buffers -/

/-- Two captures of a slot that differ in nothing that the invariant reads but the phase, neither of them COMMITTING, and
the first not past the end of its draining. -/
structure SameBlocks (c c' : Capture) : Prop where
  head : c'.head = c.head
  blocks : c'.blocks = c.blocks
  before : ∀ e, c.phase ≠ .committing e
  after : ∀ e, c'.phase ≠ .committing e
  running : ∀ rp e, c.phase = .draining rp e → (rp : Int) ≤ c.endSample

theorem sameBlocks_collecting {c c' : Capture} {rp : Nat} {timer : Option Nat} (h : c.phase = .collecting rp timer)
    (hh : c'.head = c.head) (hb : c'.blocks = c.blocks) (ha : ∀ e, c'.phase ≠ .committing e) : SameBlocks c c' :=
  ⟨hh, hb, fun e he => by rw [h] at he; simp at he, ha, fun _ _ he => by rw [h] at he; simp at he⟩

theorem slotClaims_capture (x : Slot) (c c' : Capture) (h : x.capture = some c) (hs : SameBlocks c c') :
    slotClaims { x with capture := some c' } = slotClaims x := by
  simp only [slotClaims, slotListed, h, Option.elim, hs.head, hs.blocks]

theorem slotTidy_capture (x : Slot) (c c' : Capture) (h : x.capture = some c) (hs : SameBlocks c c') (ht : SlotTidy x) :
    SlotTidy { x with capture := some c' } := by
  simp only [SlotTidy, h] at ht
  exact ⟨fun ⟨e, he⟩ => absurd he (hs.after e), hs.blocks ▸ ht.2⟩

theorem not_headDue (x : Slot) (c : Capture) (h : x.capture = some c)
    (hr : ∀ rp e, c.phase = .draining rp e → (rp : Int) ≤ c.endSample) : ¬HeadDue x := by
  rintro ⟨c1, rp, e, h1, hp, hlt, _⟩
  have : c1 = c := Option.some.inj (h1.symm.trans h)
  subst this
  have := hr rp e hp
  omega

/-- The requests of a slot suit it still when it had no head write to make and its buffers stay. -/
theorem requestsSuit_buffers (port : StorePort) (k : SlotIx) (x y : Slot) (hx : ¬HeadDue x) (h0 : y.buffer0 = x.buffer0)
    (h1 : y.buffer1 = x.buffer1) (h : RequestsSuit port k x) : RequestsSuit port k y := by
  have hw : y.writingData = x.writingData := by simp only [Slot.writingData, h0, h1]
  refine ⟨fun op ho => ⟨.inl ?_, (h.1 op ho).2⟩, fun r hr hk => ?_⟩
  · rw [hw]; exact (h.1 op ho).1.resolve_right hx
  · obtain ⟨b, contents, e, hd⟩ := h.2 r hr hk
    exact ⟨b, contents, e, .inr (by rw [h0, h1]; exact hd.resolve_left hx)⟩

/-- A capture replaced by one of the same blocks. -/
theorem setCapture_accounts {s : State} (h : BlocksAccounted s) (k : SlotIx) (c c' : Capture)
    (hc : (s.slot k).capture = some c) (hs : SameBlocks c c') : BlocksAccounted (s.setCapture k (some c')) :=
  setSlot_accounts h k { s.slot k with capture := some c' } s.store rfl h.reservations
    (fun b => by rw [slotClaims_capture _ c c' hc hs]) (slotTidy_capture _ c c' hc hs (h.tidy k))
    (requestsSuit_buffers _ _ (s.slot k) _ (not_headDue _ c hc hs.running) rfl rfl (h.requests k)) fun hk => by
      obtain ⟨c1, e, h1, hp⟩ := h.jobs.2 k hk
      have : c1 = c := Option.some.inj (h1.symm.trans hc)
      subst this
      exact absurd hp (hs.before e)

/-! ### The Store Port -/

/-- The Store Port replaced. -/
theorem port_accounts {s : State} (h : BlocksAccounted s) (port : StorePort) (hp : ∀ k, RequestsSuit port k (s.slot k)) :
    BlocksAccounted { s with port := port } := ⟨h.reservations, h.claims, h.tidy, hp, h.jobs⟩

/-- Fewer requests wait. -/
theorem requestsSuit_fewer (port port' : StorePort) (k : SlotIx) (x : Slot) (hb : port'.busy = port.busy)
    (hw : ∀ r ∈ port'.waiting, r ∈ port.waiting) (h : RequestsSuit port k x) : RequestsSuit port' k x :=
  ⟨fun op ho => ⟨(h.1 op (hb ▸ ho)).1, fun r hr => (h.1 op (hb ▸ ho)).2 r (hw r hr)⟩, fun r hr => h.2 r (hw r hr)⟩

/-- The port made idle. -/
theorem requestsSuit_idle (port : StorePort) (k : SlotIx) (x : Slot) (h : RequestsSuit port k x) :
    RequestsSuit { port with busy := none } k x := ⟨fun _ ho => absurd ho (by simp), h.2⟩

/-- A request of another requester joins those that wait. -/
theorem requestsSuit_add (port : StorePort) (k : SlotIx) (x : Slot) (r : StoreRequest) (hr : r.who ≠ .slot k)
    (h : RequestsSuit port k x) : RequestsSuit { port with waiting := port.waiting ++ [r] } k x := by
  refine ⟨fun op ho => ⟨(h.1 op ho).1, fun r' hr' => ?_⟩, fun r' hr' hk => ?_⟩
  · rcases List.mem_append.1 hr' with hr' | hr'
    · exact (h.1 op ho).2 r' hr'
    · rw [List.mem_singleton.1 hr']; exact hr
  · rcases List.mem_append.1 hr' with hr' | hr'
    · exact h.2 r' hr' hk
    · rw [List.mem_singleton.1 hr'] at hk; exact absurd hk hr

/-- A state that agrees in the parts that the invariant is about. -/
theorem alike_accounts {s t : State} (h : BlocksAccounted s) (hs : t.store = s.store) (hslot : ∀ k, t.slot k = s.slot k)
    (hm : t.maint = s.maint) (hp : t.port = s.port) (hi : t.index.queue = s.index.queue) : BlocksAccounted t := by
  refine ⟨hs ▸ h.reservations, fun b => ?_, fun k => hslot k ▸ h.tidy k, fun k => by rw [hp, hslot]; exact h.requests k,
    hi ▸ h.jobs.1, fun k hj => by rw [hslot]; exact h.jobs.2 k (hi ▸ hj)⟩
  have := h.claims b
  simp only [blockClaims, hslot, hs, hm] at *
  exact this

theorem same_accounts {s t : State} (h : BlocksAccounted s) (hs : t.store = s.store) (hk : t.slots = s.slots)
    (hm : t.maint = s.maint) (hp : t.port = s.port) (hi : t.index.queue = s.index.queue) : BlocksAccounted t :=
  alike_accounts h hs (fun k => by simp only [State.slot, hk]) hm hp hi

/-! ### Grants -/

theorem granted_ownBlock (b : Nat) (y : Buffer) : ownBlock (y.granted b) = ownBlock y := by
  cases y with
  | filled d => simp only [Buffer.granted]; split <;> rfl
  | _ => rfl

theorem granted_orphan (b : Nat) (y : Buffer) : (y.granted b).orphan? = y.orphan? := by
  cases y with
  | filled d => simp only [Buffer.granted]; split <;> rfl
  | _ => rfl

/-- What a grant leaves of a slot: its claims, its order, and the head write that it has to make. -/
theorem slotGranted_spec (x : Slot) (b : Nat) (contents : List Byte) :
    (x.granted (.write b contents)).capture = x.capture ∧ slotClaims (x.granted (.write b contents)) = slotClaims x ∧
      (SlotTidy x → SlotTidy (x.granted (.write b contents))) ∧ (HeadDue x → HeadDue (x.granted (.write b contents))) ∧
      ∀ d : Staged, d.block = b → x.buffer0 = .filled d ∨ x.buffer1 = .filled d →
        (x.granted (.write b contents)).writingData = true := by
  refine ⟨rfl, ?_, fun h => ?_, ?_, fun d hd h => ?_⟩
  · simp only [slotClaims, slotListed, Slot.granted, granted_orphan]
  · simp only [SlotTidy, Slot.granted, granted_ownBlock] at *
    rcases hc : x.capture with _ | c <;> simp only [hc] at h ⊢
    · rw [h.1, h.2]; exact ⟨rfl, rfl⟩
    · exact ⟨fun he => by rw [(h.1 he).1, (h.1 he).2]; exact ⟨rfl, rfl⟩, h.2⟩
  · rintro ⟨c, rp, e, h1, h2, h3, h4, h5⟩
    exact ⟨c, rp, e, h1, h2, h3, by simp only [Slot.granted, h4, Buffer.granted], by simp only [Slot.granted, h5, Buffer.granted]⟩
  · have hg : (Buffer.filled d).granted b = .writing d false := by simp only [Buffer.granted, if_pos hd]
    rcases h with h | h <;> simp only [Slot.writingData, Slot.granted, h, hg]
    cases x.buffer0.granted b <;> rfl

/-- The grant of a waiting request by an idle port. -/
theorem grant_accounts {s : State} (h : BlocksAccounted s) (r : StoreRequest) (hr : r ∈ s.port.waiting)
    (hidle : s.port.busy = none) : BlocksAccounted (s.grant r) := by
  have hleft : ∀ r' ∈ s.port.waiting.filter (·.who != r.who), r' ∈ s.port.waiting ∧ r'.who ≠ r.who := fun r' h' => by
    simpa using List.mem_filter.1 h'
  have hfew : ∀ j, RequestsSuit { s.port with waiting := s.port.waiting.filter (·.who != r.who) } j (s.slot j) := fun j =>
    requestsSuit_fewer s.port _ j _ rfl (fun r' h' => (hleft r' h').1) (h.requests j)
  simp only [State.grant]
  split
  · rename_i k hk
    obtain ⟨b, contents, ho, hd⟩ := (h.requests k).2 r hr hk
    have hx := slotGranted_spec (s.slot k) b contents
    rw [ho]
    have h1 : BlocksAccounted { s with port := { s.port with waiting := s.port.waiting.filter (·.who != r.who) } } :=
      port_accounts h _ hfew
    have hnone : ∀ r' ∈ s.port.waiting.filter (·.who != r.who), r'.who ≠ .slot k := fun r' h' => hk ▸ (hleft r' h').2
    have h2 := setSlot_accounts h1 k ((s.slot k).granted (.write b contents)) s.store rfl h.reservations
      (fun c => by rw [hx.2.1]; exact le_refl _) (hx.2.2.1 (h.tidy k))
      ⟨fun op he => absurd he (by simp [hidle]), fun r' h' he => absurd he (hnone r' h')⟩ fun hj => by
        rw [hx.1]; exact h.jobs.2 k hj
    refine port_accounts h2 { s.port with
      busy := some r, waiting := s.port.waiting.filter (·.who != r.who), lastSlot := k } fun j => ?_
    rw [slot_setSlot]
    split
    · rename_i hj; subst hj
      refine ⟨fun op _ => ⟨?_, hnone⟩, fun r' h' he => absurd he (hnone r' h')⟩
      rcases hd with hd | ⟨d, hb, hd⟩
      · exact .inr (hx.2.2.2.1 hd)
      · exact .inl (hx.2.2.2.2 d hb hd)
    · rename_i hj
      refine ⟨fun op he => ?_, (hfew j).2⟩
      have := Option.some.inj he
      rw [this] at hk
      simp only [Requester.slot.injEq] at hk
      exact absurd hk hj
  · rename_i p hp
    refine port_accounts h _ fun j => ⟨fun op he => ?_,
      (hfew j).2⟩
    have := Option.some.inj he
    rw [this] at hp
    simp at hp
  · rename_i h1 _
    refine port_accounts h _ fun j => ⟨fun op he => ?_,
      (hfew j).2⟩
    have := Option.some.inj he
    exact absurd (by rw [this]) (h1 j)

theorem arbiterChoice_waits (s : State) (r : StoreRequest) (h : s.arbiterChoice = some r) : r ∈ s.port.waiting := by
  obtain ⟨w, _, hw⟩ := List.exists_of_findSome?_eq_some h
  exact List.mem_of_find?_eq_some hw

theorem arbitrate_accounts {s : State} (h : BlocksAccounted s) : BlocksAccounted s.arbitrate := by
  simp only [State.arbitrate]
  split
  · exact h
  · split
    · exact h
    · split
      · exact h
      · exact grant_accounts h _ (arbiterChoice_waits s _ (by assumption)) (by assumption)

/-- A request presented by a requester that is no slot. -/
theorem present_accounts {s : State} (h : BlocksAccounted s) (w : Requester) (op : StoreOp) (hw : ∀ k, w ≠ .slot k) :
    BlocksAccounted (s.present w op) :=
  arbitrate_accounts (port_accounts h _ fun k => requestsSuit_add s.port k _ ⟨w, op⟩ (hw k) (h.requests k))

/-! ### Maintenance -/

theorem indexClaims_count_le (m : StoreManager) (op op' : Option MaintenanceOp) (r : RecIx) (b : Nat)
    (h : r.val < claimedRecordings op' → r.val < claimedRecordings op) :
    (indexClaims m op' r).count b ≤ (indexClaims m op r).count b := by
  simp only [indexClaims]
  split
  · rw [if_pos (h (by assumption))]
  · simp

/-- The Store Manager and the Maintenance operation replaced: no recording claims more, and the operation's claims change
by no more than the used blocks do. -/
theorem claim_accounts {s : State} (h : BlocksAccounted s) (m : StoreManager) (op : Option MaintenanceOp)
    (hcache : m.cache = s.store.cache) (hfree : m.state ≠ .mounting → m.reserved ≤ m.free)
    (hr : claimedRecordings op ≤ claimedRecordings s.maint)
    (hc : ∀ b, (maintenanceClaims op).count b + (if b ∈ s.store.used then 1 else 0)
      ≤ (maintenanceClaims s.maint).count b + (if b ∈ m.used then 1 else 0)) :
    BlocksAccounted { s with store := m, maint := op } := by
  refine ⟨hfree, fun b => ?_, h.tidy, h.requests, h.jobs⟩
  have hsum := Finset.sum_le_sum fun r (_ : r ∈ Finset.univ) =>
    indexClaims_count_le s.store s.maint op r b fun h => lt_of_lt_of_le h hr
  have h1 := hc b
  have h2 := h.claims b
  have h3 : ∀ r, indexClaims m op r = indexClaims s.store op r := fun r => indexClaims_cache _ _ _ _ hcache
  show ∑ k, (slotClaims (s.slot k)).count b + ∑ r, (indexClaims m op r).count b + _ ≤ if b ∈ m.used then 1 else 0
  simp only [blockClaims, h3] at *
  omega

/-- The Maintenance operation replaced by one of no more claims. -/
theorem maint_accounts {s : State} (h : BlocksAccounted s) (op : Option MaintenanceOp)
    (hr : claimedRecordings op ≤ claimedRecordings s.maint)
    (hc : ∀ b, (maintenanceClaims op).count b ≤ (maintenanceClaims s.maint).count b) :
    BlocksAccounted { s with maint := op } :=
  claim_accounts h s.store op rfl h.reservations hr fun b => by have := hc b; omega

/-- One recording's entry, the rest of the Store Manager and the Maintenance operation replaced. -/
theorem recording_accounts {s : State} (h : BlocksAccounted s) (r : RecIx) (x : Option RecordingEntry) (m : StoreManager)
    (op : Option MaintenanceOp) (hcache : m.cache = tableSet s.store.cache r x)
    (hfree : m.state ≠ .mounting → m.reserved ≤ m.free)
    (hr : ∀ j, j ≠ r → j.val < claimedRecordings op → j.val < claimedRecordings s.maint)
    (hc : ∀ b, (if r.val < claimedRecordings op then x.elim [] heldBlocks else []).count b + (maintenanceClaims op).count b
        + (if b ∈ s.store.used then 1 else 0)
      ≤ (indexClaims s.store s.maint r).count b + (maintenanceClaims s.maint).count b + (if b ∈ m.used then 1 else 0)) :
    BlocksAccounted { s with store := m, maint := op } := by
  refine ⟨hfree, fun b => ?_, h.tidy, h.requests, h.jobs⟩
  have hm : indexClaims m op r = if r.val < claimedRecordings op then x.elim [] heldBlocks else [] := by
    simp only [indexClaims, StoreManager.entry, hcache, get_tableSet_same]
  have ho : ∀ j, j ≠ r → indexClaims m op j = indexClaims s.store op j := fun j hj => by
    simp only [indexClaims, StoreManager.entry, hcache, get_tableSet, if_neg hj]
  have h1 := Finset.add_sum_erase Finset.univ (fun j => (indexClaims m op j).count b) (Finset.mem_univ r)
  have h2 := Finset.add_sum_erase Finset.univ (fun j => (indexClaims s.store s.maint j).count b) (Finset.mem_univ r)
  have h3 : ∑ j ∈ Finset.univ.erase r, (indexClaims m op j).count b
      ≤ ∑ j ∈ Finset.univ.erase r, (indexClaims s.store s.maint j).count b := Finset.sum_le_sum fun j hj => by
    have hj := Finset.ne_of_mem_erase hj
    rw [ho j hj]
    exact indexClaims_count_le s.store s.maint op j b (hr j hj)
  have h4 := hc b
  have h5 := h.claims b
  rw [← hm] at h4
  show ∑ k, (slotClaims (s.slot k)).count b + ∑ r, (indexClaims m op r).count b + _ ≤ if b ∈ m.used then 1 else 0
  simp only [blockClaims] at *
  omega

/-- With no slot in use, no entry in the cache and no blocks of a CREATE or DELETE, nothing is claimed. -/
theorem unclaimed_accounts {s : State} (h : BlocksAccounted s) (he : ∀ k, (s.slot k).capture = none) (m : StoreManager)
    (op : Option MaintenanceOp) (hcache : ∀ r, m.entry r = none) (hfree : m.reserved ≤ m.free)
    (hc : maintenanceClaims op = []) : BlocksAccounted { s with store := m, maint := op } := by
  refine ⟨fun _ => hfree, fun b => ?_, h.tidy, h.requests, h.jobs⟩
  have h1 : ∀ k, slotClaims (s.slot k) = [] := fun k => by
    have ht := h.tidy k
    simp only [SlotTidy, he k] at ht
    simp only [slotClaims, slotListed, he k, ht.1, ht.2, Option.elim, Buffer.orphan?, Option.toList, List.append_nil]
  have h2 : ∀ r, indexClaims m op r = [] := fun r => by
    simp only [indexClaims, hcache r, Option.elim, ite_self]
  show ∑ k, (slotClaims (s.slot k)).count b + ∑ r, (indexClaims m op r).count b + (maintenanceClaims op).count b ≤ _
  simp only [h1, h2, hc, List.count_nil, Finset.sum_const_zero]
  omega

/-! ### Index blocks -/

/-- The index blocks held are among the blocks of the recording's list. -/
theorem heldBlocks_le (e : RecordingEntry) (b : Nat) : (heldBlocks e).count b ≤ e.blocks.count b := by
  have h : (List.range e.blocks.length).map (fun i => e.blocks.getD i 0) = e.blocks :=
    List.ext_getElem (by simp) fun i h1 h2 => by
      simp [List.getElem?_eq_getElem h2]
  have h1 : List.Sublist (heldBlocks e) ((List.range e.blocks.length).map fun i => e.blocks.getD i 0) :=
    List.Sublist.map _ List.filter_sublist
  rw [h] at h1
  exact List.Sublist.count_le b h1

theorem heldBlocks_cons (e : RecordingEntry) (b : Nat) (bs : List Nat) (t : Bool) (ts : List Bool) :
    heldBlocks { e with blocks := b :: bs, held := t :: ts }
      = (if t then [b] else []) ++ heldBlocks { e with blocks := bs, held := ts } := by
  have h : List.range (bs.length + 1) = 0 :: (List.range bs.length).map (· + 1) := by
    rw [List.range_succ_eq_map]
  simp only [heldBlocks, RecordingEntry.heldPlaces, List.length_cons, h, List.filter_cons, List.getD_cons_zero,
    List.filter_map]
  have h2 : ((fun i => (t :: ts).getD i false) ∘ fun x => x + 1) = fun i => ts.getD i false := by
    funext i; simp
  rw [h2]
  cases t <;> simp [List.map_map, Function.comp_def]

/-- The claims of the mount scan for one recording: the blocks that it comes to hold were not used, and are different
(R140). -/
theorem claimBlocks_claims (e : RecordingEntry) (bs : List Nat) : ∀ (us : List Nat) (b : Nat),
    (heldBlocks { e with blocks := bs, held := (claimBlocks us bs).2 }).count b + (if b ∈ us then 1 else 0)
      ≤ if b ∈ (claimBlocks us bs).1 then 1 else 0 := by
  induction bs with
  | nil =>
    intro us b
    show 0 + (if b ∈ us then 1 else 0) ≤ if b ∈ us then 1 else 0
    omega
  | cons x bs ih =>
    intro us b
    simp only [claimBlocks]
    split
    · rename_i hx
      simp only [Bool.and_eq_true, Bool.not_eq_true', decide_eq_false_iff_not,
        List.contains_eq_mem] at hx
      rw [heldBlocks_cons]
      have := ih (insertUsed x us) b
      simp only [mem_insertUsed] at this
      simp only [if_true, List.count_append, List.count_cons, List.count_nil, beq_iff_eq]
      by_cases hb : b = x
      · subst hb
        simp only [hx.2, true_or, if_true, if_false] at this ⊢
        omega
      · simp only [hb, false_or, Ne.symm hb, if_false] at this ⊢
        omega
    · rw [heldBlocks_cons]
      simpa using ih us b

/-- Takes choose different blocks that were not used (R99). -/
theorem takeMany_claims (n : Nat) : ∀ (m m' : StoreManager) (bs : List Nat), MapOk m → m.takeMany n = some (bs, m') →
    m'.free = m.free - n ∧
      ∀ b, bs.count b + (if b ∈ m.used then 1 else 0) ≤ if b ∈ m'.used then 1 else 0 := by
  induction n with
  | zero =>
    intro m m' bs _ h
    simp only [StoreManager.takeMany, Option.some.injEq, Prod.mk.injEq] at h
    obtain ⟨rfl, rfl⟩ := h
    exact ⟨rfl, fun b => by simp⟩
  | succ n ih =>
    intro m m' bs hm h
    simp only [StoreManager.takeMany, Option.bind_eq_bind, Option.bind_eq_some_iff, Option.some.injEq, Prod.mk.injEq,
      Prod.exists] at h
    obtain ⟨a, m1, h1, bs', m2, h2, rfl, rfl⟩ := h
    have ht := take_spec m m1 a h1
    obtain ⟨hf, hb⟩ := ih m1 m2 bs' (take_ok m m1 a hm h1) h2
    have hfresh := (chooseBlock_spec m a hm ht.1).2.1
    rw [ht.2] at hf hb
    refine ⟨by rw [hf]; simp only; omega, fun b => ?_⟩
    have := hb b
    simp only [mem_insertUsed] at this
    simp only [List.count_cons, beq_iff_eq]
    by_cases he : b = a
    · subst he
      simp only [hfresh, true_or, if_true, if_false] at this ⊢
      omega
    · simp only [he, false_or, Ne.symm he, if_false] at this ⊢
      omega

/-! ### Recordings that claim -/

theorem claimedRecordings_noMount (op : Option MaintenanceOp) (h : isMount op = false) : claimedRecordings op = 32 := by
  cases op with
  | none => rfl
  | some op => cases op <;> first | rfl | simp [isMount] at h

theorem claimedRecordings_le (op : Option MaintenanceOp) : claimedRecordings op ≤ 32 := by
  simp only [claimedRecordings]
  split <;> first | omega

end Sys2Proof.Machine
end

