-- ==== Sys2Proof/Laws/Blocks.lean ====
section
/-!
SUPPORT. The check: a run of bytes followed by its check passes, and a block that the part composes is of the kind that
its first byte says.
-/

namespace Sys2Proof

theorem length_wordBytes_two {w : Nat} (x : BitVec w) : (wordBytes 2 x).length = 2 := rfl

theorem ofBytes_wordBytes_two (x : Word16) : ofBytes (wordBytes 2 x) = x.toNat := by
  have := x.isLt
  simp [wordBytes, toBytes, ofBytes]
  omega

/-- A run of bytes followed by its check passes (R189). -/
theorem checkGood_withCheck (bs : List Byte) : checkGood (withCheck bs) = true := by
  have hl : (withCheck bs).length - 2 = bs.length := by
    simp [withCheck, length_wordBytes_two]
  have hd : ((withCheck bs).drop bs.length).take 2 = wordBytes 2 (crc16 bs) := by
    rw [withCheck, List.drop_left, List.take_of_length_le (by simp [length_wordBytes_two])]
  have ht : (withCheck bs).take bs.length = bs := by
    rw [withCheck, List.take_left]
  rw [checkGood, hl, fieldAt, hd, ht, ofBytes_wordBytes_two]
  simp

/-- A byte of a run is the same byte of the run with its check. -/
theorem byteAt_withCheck (bs : List Byte) (i : Nat) (h : i < bs.length) : byteAt (withCheck bs) i = byteAt bs i := by
  simp [byteAt, withCheck, List.getD_eq_getElem?_getD, List.getElem?_append_left h]

theorem length_padTo (k : Nat) (bs : List Byte) : (padTo k bs).length = k := by simp [padTo]

theorem byteAt_padTo (k : Nat) (b : Byte) (bs : List Byte) : byteAt (padTo (k + 1) (b :: bs)) 0 = b := by
  simp [byteAt, padTo]

namespace Machine

/-- A composed block passes its check and is of the kind of its first byte (R191). -/
theorem blockIs_blockOf (kind k : Byte) (bs : List Byte) : blockIs kind (blockOf (k :: bs)) = (k == kind) := by
  rw [blockIs, blockOf, checkGood_withCheck, byteAt_withCheck _ _ (by rw [length_padTo]; omega), byteAt_padTo 253,
    Bool.true_and]

end Machine

end Sys2Proof
end

