-- ==== Sys2Proof/Laws/Conditions.lean ====
section
/-!
SUPPORT. What the operations of the condition word do to the law of conditions (R77 to R86).
-/

namespace Sys2Proof.Machine

/-- Whether bit `c` of a byte is set after one condition's bit has been joined to it. -/
theorem getLsbD_or_bit (x : BitVec 8) (c d : Condition) :
    (x ||| c.bit).getLsbD d.number = (x.getLsbD d.number || decide (d = c)) := by
  cases c <;> cases d <;> simp [Condition.bit, Condition.number]

/-- A byte with no condition's bit set is zero. -/
theorem eq_zero_of_conditions (x : BitVec 8) (h : ∀ c : Condition, x.getLsbD c.number = false) : x = 0 := by
  refine BitVec.eq_of_getLsbD_eq fun i hi => ?_
  rw [show (0 : BitVec 8).getLsbD i = false by simp]
  have h0 := h .overflow; have h1 := h .full; have h2 := h .protect; have h3 := h .unavailable
  have h4 := h .short; have h5 := h .gap; have h6 := h .lag; have h7 := h .limit
  simp only [Condition.number] at *
  interval_cases i <;> assumption

/-- A condition is live exactly when its flag is set and it is unmasked. -/
theorem getLsbD_live (u : ConditionUnit) (c : Condition) :
    u.live.getLsbD c.number = (u.flagged c && !u.masked c) := by
  have : c.number < 8 := by cases c <;> decide
  simp [ConditionUnit.live, ConditionUnit.flagged, ConditionUnit.masked, this]

theorem mem_conditions (c : Condition) : c ∈ Condition.all := by cases c <;> decide

/-- No condition is live exactly when the live byte is zero. -/
theorem lowestLive_none (u : ConditionUnit) : u.lowestLive = none ↔ u.live = 0 := by
  constructor
  · intro h
    refine eq_zero_of_conditions _ fun c => ?_
    rw [getLsbD_live]
    have := List.find?_eq_none.1 h c (mem_conditions c)
    simpa using this
  · intro h
    refine List.find?_eq_none.2 fun c _ => ?_
    have := getLsbD_live u c
    rw [h] at this
    simpa using this.symm

/-- What a report leaves of the Condition Unit and of everything else (R80, R81). -/
theorem report_spec (s : State) (r : ConditionReport) :
    (s.report r = { s with cond := { s.cond with flags := s.cond.flags ||| r.condition.bit } } ∧
        ¬(s.cond.masked r.condition = false ∧ s.cond.state = .running)) ∨
      (s.report r = { s with
          cond := { s.cond with flags := s.cond.flags ||| r.condition.bit, state := .suspended, detail := some (.raised r) }
          mgmt := { s.mgmt with
            status := s.mgmt.status.take eventSuspended (BitVec.ofNat 16 r.condition.number) (BitVec.ofNat 16 r.rule.val) } } ∧
        s.cond.masked r.condition = false ∧ s.cond.state = .running) := by
  simp only [State.report]
  split
  · rename_i h; exact .inr ⟨rfl, h⟩
  · rename_i h; exact .inl ⟨rfl, h⟩

/-- A report keeps the law of conditions. -/
theorem report_conditionLaw (s : State) (r : ConditionReport) (h : ConditionLaw s) : ConditionLaw (s.report r) := by
  rcases report_spec s r with ⟨e, hn⟩ | ⟨e, _⟩ <;> rw [e]
  · refine ⟨fun hl => ?_, h.2⟩
    by_contra hs
    have hr : s.cond.state = .running := by
      revert hs; show s.cond.state ≠ .suspended → _; cases s.cond.state <;> simp
    have hm : s.cond.masked r.condition = true := by
      cases hb : s.cond.masked r.condition
      · exact absurd ⟨hb, hr⟩ hn
      · rfl
    have h0 : s.cond.live = 0 := by
      by_contra h0; have := h.1 h0; rw [hr] at this; exact absurd this (by decide)
    refine hl (eq_zero_of_conditions _ fun c => ?_)
    rw [getLsbD_live]
    have hc := getLsbD_live s.cond c
    rw [h0] at hc
    simp only [ConditionUnit.flagged, ConditionUnit.masked, getLsbD_or_bit] at *
    by_cases hd : c = r.condition
    · subst hd; simp [hm]
    · simpa [hd] using hc.symm
  · exact ⟨fun _ => rfl, by simp⟩

/-- The check after CONTROL SET makes the law hold whatever the masks have become (R85). -/
theorem maskCheck_conditionLaw (s : State) (h : s.cond.detail = none ↔ s.cond.state = .running) :
    ConditionLaw s.maskCheck := by
  simp only [State.maskCheck]
  split
  · exact ⟨fun _ => rfl, by simp⟩
  · rename_i hn
    refine ⟨fun hl => ?_, h⟩
    cases hs : s.cond.state
    · cases hc : s.cond.lowestLive with
      | none => exact absurd ((lowestLive_none _).1 hc) hl
      | some c => exact absurd hc (hn c hs)
    · rfl

/-- CLEAR CONDITIONS keeps the law (R86). -/
theorem clear_conditionLaw (s : State) (x : BitVec 8) (h : ConditionLaw s) :
    ConditionLaw { s with cond := s.cond.clear x } := by
  simp only [ConditionLaw, ConditionUnit.clear]
  split
  · exact ⟨fun hl => absurd (by assumption) hl, by simp⟩
  · rename_i hn
    refine ⟨fun _ => h.1 fun h0 => hn (eq_zero_of_conditions _ fun c => ?_), h.2⟩
    have hc := getLsbD_live s.cond c
    rw [h0] at hc
    rw [getLsbD_live]
    have : c.number < 8 := by cases c <;> decide
    simp only [ConditionUnit.flagged, ConditionUnit.masked] at *
    simp only [BitVec.getLsbD_and, BitVec.getLsbD_not, this, decide_true, Bool.true_and]
    have hc' : (s.cond.flags.getLsbD c.number && !s.cond.masks.getLsbD c.number) = false := by simpa using hc.symm
    cases hf : s.cond.flags.getLsbD c.number <;> simp_all

end Sys2Proof.Machine
end

