-- ==== Sys2Proof/Laws/Memory.lean ====
section
/-!
SUPPORT. What the memory operations do: a write keeps the canonical form, a read after a write, a block read
after a block write, and that memories in canonical form that read alike are equal.
-/

namespace Sys2Proof.Machine

variable {α : Type}

namespace Memory

theorem get_filter_ne (d : α) (m : List (Nat × α)) {a b : Nat} (h : b ≠ a) :
    get d (m.filter fun c => c.1 != a) b = get d m b := by
  induction m with
  | nil => rfl
  | cons c m ih =>
    by_cases hc : c.1 = a
    · have : c.1 ≠ b := fun e => h (e.symm.trans hc)
      simp [hc, ih, get, Ne.symm h]
    · simp [hc, get, ih]

theorem get_absent (d : α) (m : List (Nat × α)) (a : Nat) (h : ∀ c ∈ m, c.1 ≠ a) : get d m a = d := by
  induction m with
  | nil => rfl
  | cons c m ih =>
    simp only [get, if_neg (h c (by simp))]
    exact ih fun x hx => h x (by simp [hx])

theorem get_insert (d : α) (m : List (Nat × α)) (a b : Nat) (v : α) (h : ∀ c ∈ m, c.1 ≠ a) :
    get d (insert a v m) b = if b = a then v else get d m b := by
  induction m with
  | nil => simp [insert, get, eq_comm]
  | cons c m ih =>
    have hm : ∀ x ∈ m, x.1 ≠ a := fun x hx => h x (by simp [hx])
    simp only [insert]
    split
    · by_cases e : b = a <;> simp [get, e, eq_comm]
      intro e'; exact absurd e'.symm e
    · simp only [get, ih hm]
      by_cases e : c.1 = b
      · have : b ≠ a := fun e' => h c (by simp) (e.trans e')
        simp [e, this]
      · simp [e]

/-- A read after a write: the value written at its address, the old value anywhere else. -/
theorem get_set [DecidableEq α] (d : α) (m : List (Nat × α)) (a b : Nat) (v : α) :
    get d (set d m a v) b = if b = a then v else get d m b := by
  unfold set
  split
  · rename_i hv
    by_cases e : b = a
    · subst e; simp [hv]; exact get_absent d _ _ (by simp)
    · simp [e, get_filter_ne d m e]
  · rw [get_insert d _ a b v (by simp)]
    by_cases e : b = a
    · simp [e]
    · simp [e, get_filter_ne d m e]

theorem mem_insert (a : Nat) (v : α) (m : List (Nat × α)) (c : Nat × α) :
    c ∈ insert a v m ↔ c = (a, v) ∨ c ∈ m := by
  induction m with
  | nil => simp [insert]
  | cons x m ih =>
    simp only [insert]
    split
    · simp
    · simp only [List.mem_cons, ih]
      exact or_left_comm

/-- A write keeps the canonical form. -/
theorem set_wf [DecidableEq α] (d : α) (m : List (Nat × α)) (a : Nat) (v : α) (h : wf d m) :
    wf d (set d m a v) := by
  have hf : wf d (m.filter fun c => c.1 != a) :=
    ⟨h.1.filter _, fun c hc => h.2 c (List.mem_filter.1 hc).1⟩
  unfold set
  split
  · exact hf
  · rename_i hv
    have hn : ∀ c ∈ m.filter (fun c => c.1 != a), c.1 ≠ a := by simp
    generalize m.filter (fun c => c.1 != a) = m' at hf hn
    refine ⟨?_, fun c hc => ?_⟩
    · clear h
      induction m' with
      | nil => simp [insert]
      | cons x m' ih =>
        have hx := List.pairwise_cons.1 hf.1
        simp only [insert]
        split
        · rename_i ha
          refine List.pairwise_cons.2 ⟨fun c hc => ?_, hf.1⟩
          rcases List.mem_cons.1 hc with rfl | hc
          · exact ha
          · exact Nat.lt_trans ha (hx.1 c hc)
        · rename_i ha
          refine List.pairwise_cons.2 ⟨fun c hc => ?_, ih ⟨hx.2, fun c hc => hf.2 c (by simp [hc])⟩
            (fun c hc => hn c (by simp [hc]))⟩
          rcases (mem_insert a v m' c).1 hc with rfl | hc
          · have := hn x (by simp); show x.1 < a; omega
          · exact hx.1 c hc
    · rcases (mem_insert a v m' c).1 hc with rfl | hc
      · exact hv
      · exact hf.2 c hc

/-- A write of a run keeps the canonical form. -/
theorem setRun_wf [DecidableEq α] (d : α) (vs : List α) (m : List (Nat × α)) (a : Nat) (h : wf d m) :
    wf d (setRun d m a vs) := by
  induction vs generalizing m a with
  | nil => exact h
  | cons v vs ih => exact ih _ _ (set_wf d m a v h)

/-- A read after a write of a run. -/
theorem get_setRun [DecidableEq α] (d : α) (vs : List α) (m : List (Nat × α)) (a b : Nat) :
    get d (setRun d m a vs) b = if a ≤ b ∧ b < a + vs.length then vs.getD (b - a) d else get d m b := by
  induction vs generalizing m a with
  | nil => simp only [setRun, List.length_nil]; rw [if_neg (by omega)]
  | cons v vs ih =>
    rw [setRun, ih, get_set, List.length_cons]
    by_cases e : b = a
    · subst e; rw [if_neg (by omega), if_pos (by omega)]; simp
    · by_cases h : a + 1 ≤ b ∧ b < a + 1 + vs.length
      · rw [if_pos h, if_pos (by omega)]
        obtain ⟨k, hk⟩ : ∃ k, b - a = k + 1 := ⟨b - a - 1, by omega⟩
        rw [hk, List.getD_cons_succ]; congr 1; omega
      · rw [if_neg h, if_neg e, if_neg (by omega)]

theorem length_getRun (d : α) (m : List (Nat × α)) (a k : Nat) : (getRun d m a k).length = k := by
  induction k generalizing a with
  | zero => rfl
  | succ k ih => simp [getRun, ih]

theorem getRun_eq (d : α) (m : List (Nat × α)) (a k : Nat) : getRun d m a k = (List.range' a k).map (get d m) := by
  induction k generalizing a with
  | zero => rfl
  | succ k ih => simp [getRun, List.range'_succ, ih]

/-- Memories in canonical form that read alike at every address are equal. -/
theorem ext (d : α) (m m' : List (Nat × α)) (h : wf d m) (h' : wf d m') (e : ∀ a, get d m a = get d m' a) :
    m = m' := by
  induction m generalizing m' with
  | nil =>
    cases m' with
    | nil => rfl
    | cons c m' => exact absurd (by have := e c.1; simp [get] at this; exact this.symm) (h'.2 c (by simp))
  | cons c m ih =>
    cases m' with
    | nil => exact absurd (by have := e c.1; simpa [get] using this) (h.2 c (by simp))
    | cons c' m' =>
      have hc := List.pairwise_cons.1 h.1
      have hc' := List.pairwise_cons.1 h'.1
      have gone : ∀ (x : Nat × α) (l : List (Nat × α)) (a : Nat), a < x.1 → (∀ y ∈ l, x.1 < y.1) →
          get d (x :: l) a = d := by
        intro x l a ha hl
        refine get_absent d _ a fun y hy => ?_
        rcases List.mem_cons.1 hy with rfl | hy
        · omega
        · have := hl y hy; omega
      have key : c.1 = c'.1 := by
        rcases Nat.lt_trichotomy c.1 c'.1 with hlt | heq | hgt
        · have := e c.1
          rw [gone c' m' _ hlt hc'.1] at this
          simp [get] at this
          exact absurd this (h.2 c (by simp))
        · exact heq
        · have := e c'.1
          rw [gone c m _ hgt hc.1] at this
          simp [get] at this
          exact absurd this.symm (h'.2 c' (by simp))
      have val : c.2 = c'.2 := by have := e c.1; simpa [get, key] using this
      have cc : c = c' := Prod.ext key val
      subst cc
      congr 1
      refine ih m' ⟨hc.2, fun x hx => h.2 x (by simp [hx])⟩ ⟨hc'.2, fun x hx => h'.2 x (by simp [hx])⟩ fun a => ?_
      have := e a
      simp only [get] at this
      by_cases ha : c.1 = a
      · subst ha
        rw [get_absent d m _ fun y hy => (by have := hc.1 y hy; omega),
          get_absent d m' _ fun y hy => (by have := hc'.1 y hy; omega)]
      · simpa [ha] using this

end Memory

/-- Exactly the bytes of one block are written. -/
theorem writeBlock_length (bs : List Byte) : (writeBlock.padTo256 bs).length = 256 := by
  simp only [writeBlock.padTo256, List.length_take, List.length_append, List.length_replicate, Config.blockBytes]
  omega

/-- Writing 256 bytes writes just these. -/
theorem writeBlock_bytes (bs : List Byte) (h : bs.length = 256) : writeBlock.padTo256 bs = bs := by
  unfold writeBlock.padTo256 Config.blockBytes
  rw [List.take_append_of_le_length (by omega), List.take_of_length_le (by omega)]

/-- A block write keeps the canonical form. -/
theorem writeBlock_wf (m : List Host.Cell) (b : Nat) (bs : List Byte) (h : Memory.wf Config.unwrittenByte m) :
    Memory.wf Config.unwrittenByte (writeBlock m b bs) := Memory.setRun_wf _ _ _ _ h

/-- A block reads back as it was written (R90, R117). -/
theorem readBlock_writeBlock (m : List Host.Cell) (b : Nat) (bs : List Byte) (h : bs.length = 256) :
    readBlock (writeBlock m b bs) b = bs := by
  unfold readBlock writeBlock
  rw [Memory.getRun_eq, writeBlock_bytes bs h]
  refine List.ext_getElem (by simp [Config.blockBytes, h]) fun i h1 h2 => ?_
  simp only [List.getElem_map, List.getElem_range', Memory.get_setRun]
  rw [if_pos (by constructor <;> omega), List.getD_eq_getElem _ _ (by omega)]
  congr 1; omega

/-- A block write leaves every other block as it was (R90). -/
theorem readBlock_writeBlock_ne (m : List Host.Cell) (b b' : Nat) (bs : List Byte) (h : b' ≠ b) :
    readBlock (writeBlock m b bs) b' = readBlock m b' := by
  unfold readBlock writeBlock
  rw [Memory.getRun_eq, Memory.getRun_eq]
  refine List.map_congr_left fun a ha => ?_
  rw [Memory.get_setRun, if_neg]
  rw [writeBlock_length]
  simp only [List.mem_range', Config.blockBytes, Nat.one_mul] at ha ⊢
  obtain ⟨i, hi, rfl⟩ := ha
  omega

end Sys2Proof.Machine
end

