-- ==== Sys2Proof/Laws/Keeps.lean ====
section
/-!
SUPPORT. `Keeps s t`: what every operation below the link and the supply keeps, whatever it computes. The array,
the input lines and the queue stay, the invariants of Safety.lean are carried over, and a request that is in
progress afterwards was in progress before or was grantable (R117, R119). One lemma per shared operation.
-/

namespace Sys2Proof.Machine

/-- What an operation keeps, the places of the release queue and the blocks of slots and indexes apart. -/
structure KeepsCore (s t : State) : Prop where
  pending : t.pending = s.pending
  powered : t.powered = s.powered
  resetLine : t.resetLine = s.resetLine
  protect : t.protect = s.protect
  array : t.array = s.array
  samples : Memory.wf Config.unwrittenCell s.samples → Memory.wf Config.unwrittenCell t.samples
  cond : ConditionLaw s → ConditionLaw t
  egress : EgressBounded s → EgressBounded t
  map : MapAccounted s → MapAccounted t
  reserved : MapAccounted s → ReservationsMatch s → ReservationsMatch t
  granted : ∀ r, t.port.busy = some r → s.port.busy = some r ∨ r.op.grantable s.protect = true

/-- What an operation keeps, the places of the release queue apart. -/
structure KeepsButPlaces (s t : State) : Prop extends KeepsCore s t where
  accounts : MapAccounted s → ReservationsMatch s → BlocksAccounted s → BlocksAccounted t

/-- What an operation keeps, the blocks of slots and indexes apart: for the parts of an operation that keeps them as a
whole. -/
structure KeepsButAccounts (s t : State) : Prop extends KeepsCore s t where
  places : ReleasePlaces s → ReleasePlaces t

/-- What an operation keeps. -/
structure Keeps (s t : State) : Prop extends KeepsButPlaces s t where
  places : ReleasePlaces s → ReleasePlaces t

theorem KeepsCore.refl (s : State) : KeepsCore s s :=
  ⟨rfl, rfl, rfl, rfl, rfl, id, id, id, id, fun _ h => h, fun _ h => .inl h⟩

theorem KeepsCore.trans {s t u : State} (h : KeepsCore s t) (k : KeepsCore t u) : KeepsCore s u where
  pending := k.pending.trans h.pending
  powered := k.powered.trans h.powered
  resetLine := k.resetLine.trans h.resetLine
  protect := k.protect.trans h.protect
  array := k.array.trans h.array
  samples := k.samples ∘ h.samples
  cond := k.cond ∘ h.cond
  egress := k.egress ∘ h.egress
  map := k.map ∘ h.map
  reserved := fun hm hr => k.reserved (h.map hm) (h.reserved hm hr)
  granted := fun r hr => (k.granted r hr).elim (h.granted r) fun hg => .inr (h.protect ▸ hg)

theorem KeepsButPlaces.refl (s : State) : KeepsButPlaces s s := ⟨.refl s, fun _ _ h => h⟩

theorem KeepsButPlaces.trans {s t u : State} (h : KeepsButPlaces s t) (k : KeepsButPlaces t u) : KeepsButPlaces s u :=
  ⟨h.toKeepsCore.trans k.toKeepsCore, fun hm hr hb => k.accounts (h.map hm) (h.reserved hm hr) (h.accounts hm hr hb)⟩

theorem Keeps.refl (s : State) : Keeps s s := ⟨.refl s, id⟩

theorem Keeps.trans {s t u : State} (h : Keeps s t) (k : Keeps t u) : Keeps s u :=
  ⟨h.toKeepsButPlaces.trans k.toKeepsButPlaces, k.places ∘ h.places⟩

theorem KeepsButAccounts.trans {s t u : State} (h : KeepsButAccounts s t) (k : KeepsButAccounts t u) : KeepsButAccounts s u :=
  ⟨h.toKeepsCore.trans k.toKeepsCore, k.places ∘ h.places⟩

/-- What keeps everything keeps all but the blocks. -/
theorem Keeps.but {s t : State} (h : Keeps s t) : KeepsButAccounts s t := ⟨h.toKeepsCore, h.places⟩

/-- What keeps all but the blocks, and keeps the blocks as a whole, keeps everything. -/
theorem KeepsButAccounts.keeps {s t : State} (h : KeepsButAccounts s t)
    (ha : MapAccounted s → ReservationsMatch s → BlocksAccounted s → BlocksAccounted t) : Keeps s t :=
  ⟨⟨h.toKeepsCore, ha⟩, h.places⟩

/-- The invariants of the store carried over together. -/
theorem Keeps.store {s t : State} (h : Keeps s t) (hs : MapAccounted s ∧ ReservationsMatch s ∧ BlocksAccounted s) :
    MapAccounted t ∧ ReservationsMatch t ∧ BlocksAccounted t :=
  ⟨h.map hs.1, h.reserved hs.1 hs.2.1, h.accounts hs.1 hs.2.1 hs.2.2⟩

/-! ### Parts that no invariant is about -/

/-- A change of the streams, the rules, the ports, the pointer, the Management Unit, the free-value counter, the
waiting requests and the READ in progress. -/
theorem Keeps.loose {s : State} (streams rules ports pointer mgmt freeIx reading time) :
    Keeps s { s with streams := streams, rules := rules, ports := ports, pointer := pointer, mgmt := mgmt,
                     freeIx := freeIx, reading := reading, time := time } :=
  ⟨⟨⟨rfl, rfl, rfl, rfl, rfl, id, id, id, id, fun _ h => h, fun _ h => .inl h⟩, fun _ _ h => same_accounts h rfl rfl rfl rfl rfl⟩, id⟩

theorem setStream_keeps (s : State) (i e) : Keeps s (s.setStream i e) := .loose ..
theorem setRule_keeps (s : State) (i r) : Keeps s (s.setRule i r) := .loose ..
theorem modifyRule_keeps (s : State) (i f) : Keeps s (s.modifyRule i f) := .loose ..
theorem setReadPort_keeps (s : State) (p x) : Keeps s (s.setReadPort p x) := .loose ..
theorem sendEvent_keeps (s : State) (c a b) : Keeps s (s.sendEvent c a b) := .loose ..
theorem awaitReads_keeps (s : State) (c) : Keeps s (s.awaitReads c) := .loose ..
theorem markWithdrawn_keeps (s : State) (h) : Keeps s (s.markWithdrawn h) := .loose ..

theorem withdraw_keeps (s : State) (w) : Keeps s (s.withdraw w) :=
  ⟨⟨⟨rfl, rfl, rfl, rfl, rfl, id, id, id, id, fun _ h => h, fun _ h => .inl h⟩, fun _ _ h => port_accounts h _ fun k =>
      requestsSuit_fewer s.port _ k _ rfl (fun _ hr => List.mem_of_mem_filter hr) (h.requests k)⟩, id⟩

theorem report_keeps (s : State) (r) : Keeps s (s.report r) := by
  have hc := report_conditionLaw s r
  rcases report_spec s r with ⟨e, _⟩ | ⟨e, _⟩ <;> rw [e] at hc ⊢ <;>
    exact ⟨⟨⟨rfl, rfl, rfl, rfl, rfl, id, hc, id, id, fun _ h => h, fun _ h => .inl h⟩, fun _ _ h => same_accounts h rfl rfl rfl rfl rfl⟩, id⟩

/-! ### Slots -/

/-- A slot replaced together with the Store Manager: the reservations stay matched when the total changes as the
slot does. -/
theorem reserved_setSlot (s : State) (k : SlotIx) (x : Slot) (m : StoreManager)
    (hs : m.state = s.store.state)
    (hr : slotRemaining (s.slot k) ≤ s.store.reserved →
      m.reserved + slotRemaining (s.slot k) = s.store.reserved + slotRemaining x)
    (hc : x.capture ≠ none → (s.slot k).capture ≠ none ∨ s.store.state = .ready) (h : ReservationsMatch s) :
    ReservationsMatch ({ s with store := m }.setSlot k x) := by
  have hsum := sum_setSlot_of slotRemaining { s with store := m } k x
  have hle : slotRemaining (s.slot k) ≤ ∑ j : SlotIx, slotRemaining (s.slot j) :=
    Finset.single_le_sum (f := fun j => slotRemaining (s.slot j)) (fun _ _ => Nat.zero_le _) (Finset.mem_univ k)
  have h1 := h.1
  refine ⟨?_, fun j hj => ?_⟩
  · have := hr (by omega)
    simp only [setSlot_store]
    have hslot : ∀ j, ({ s with store := m } : State).slot j = s.slot j := fun _ => rfl
    simp only [hslot] at hsum
    omega
  · simp only [setSlot_store, hs]
    rw [slot_setSlot] at hj
    split at hj
    · rcases hc hj with hc | hc
      · exact h.2 k hc
      · exact hc
    · exact h.2 j hj

/-- A slot replaced by one with the same remaining reservation, and a capture only where one was. -/
theorem setSlot_but (s : State) (k : SlotIx) (x : Slot) (hr : slotRemaining x = slotRemaining (s.slot k))
    (hc : x.capture ≠ none → (s.slot k).capture ≠ none) : KeepsButAccounts s (s.setSlot k x) :=
  ⟨⟨rfl, rfl, rfl, rfl, rfl, id, id, id, id,
      fun _ h => reserved_setSlot s k x s.store rfl (fun _ => by rw [hr]) (fun hx => .inl (hc hx)) h,
      fun _ h => .inl h⟩, id⟩

/-- A capture of a slot replaced by one of the same blocks and remaining reservation. -/
theorem setCapture_keeps (s : State) (k : SlotIx) (c c' : Capture) (h : (s.slot k).capture = some c)
    (hr : c'.remaining = c.remaining) (hs : SameBlocks c c') : Keeps s (s.setCapture k (some c')) :=
  (setSlot_but s k _ (by simp [slotRemaining, h, hr]) fun _ => by simp [h]).keeps fun _ _ hb =>
    setCapture_accounts hb k c c' h hs

/-- A slot and the Store Manager replaced together. -/
theorem setSlot_store_but (s : State) (k : SlotIx) (x : Slot) (m : StoreManager) (hm : MapOk s.store → MapOk m)
    (hs : m.state = s.store.state)
    (hr : slotRemaining (s.slot k) ≤ s.store.reserved →
      m.reserved + slotRemaining (s.slot k) = s.store.reserved + slotRemaining x)
    (hc : x.capture ≠ none → (s.slot k).capture ≠ none ∨ s.store.state = .ready) :
    KeepsButAccounts s ({ s with store := m }.setSlot k x) :=
  ⟨⟨rfl, rfl, rfl, rfl, rfl, id, id, id, fun h => ⟨hm h.1, hs ▸ h.2⟩,
      fun _ h => reserved_setSlot s k x m hs hr hc h, fun _ h => .inl h⟩, id⟩

/-- The Store Manager replaced by one of the same state and reservation total. -/
theorem store_but (s : State) (m : StoreManager) (hm : MapOk s.store → MapOk m) (hs : m.state = s.store.state)
    (hr : m.reserved = s.store.reserved) : KeepsButAccounts s { s with store := m } :=
  ⟨⟨rfl, rfl, rfl, rfl, rfl, id, id, id, fun h => ⟨hm h.1, hs ▸ h.2⟩,
      fun _ h => ⟨hr ▸ h.1, fun k hk => hs ▸ h.2 k hk⟩, fun _ h => .inl h⟩, id⟩

/-- The Store Manager replaced by one of the same map, cache, counts and state. -/
theorem store_keeps (s : State) (m : StoreManager) (hm : MapOk s.store → MapOk m) (hs : m.state = s.store.state)
    (hr : m.reserved = s.store.reserved) (hc : m.cache = s.store.cache) (hu : m.used = s.store.used)
    (hf : m.free = s.store.free) : Keeps s { s with store := m } :=
  (store_but s m hm hs hr).keeps fun _ _ h => store_accounts h m hc (fun hn => by rw [hr, hf]; exact h.reservations (hs ▸ hn))
    fun b hb _ => hu ▸ hb

theorem freeBlock_state (m : StoreManager) (b) : (m.freeBlock b).state = m.state := by rw [freeBlock_spec]
theorem freeBlock_reserved (m : StoreManager) (b) : (m.freeBlock b).reserved = m.reserved := by rw [freeBlock_spec]
theorem freeBlocks_state (m : StoreManager) (bs) : (m.freeBlocks bs).state = m.state := by rw [freeBlocks_spec]
theorem freeBlocks_reserved (m : StoreManager) (bs) : (m.freeBlocks bs).reserved = m.reserved := by rw [freeBlocks_spec]

theorem freeBlock_but (s : State) (b) : KeepsButAccounts s (s.modifyStore (·.freeBlock b)) :=
  store_but s _ (freeBlock_ok _ b) (freeBlock_state ..) (freeBlock_reserved ..)
theorem freeBlocks_but (s : State) (bs) : KeepsButAccounts s (s.modifyStore (·.freeBlocks bs)) :=
  store_but s _ (freeBlocks_ok bs _) (freeBlocks_state ..) (freeBlocks_reserved ..)

/-! ### The Store Port -/

theorem slotGranted_capture (x : Slot) (op : StoreOp) : (x.granted op).capture = x.capture := by cases op <;> rfl

/-- A grant, which the arbiter makes of a grantable request only. -/
theorem grant_but (s : State) (r : StoreRequest) (h : r.op.grantable s.protect = true) : KeepsButAccounts s (s.grant r) := by
  have h1 : ∀ port : StorePort, port.busy = some r → KeepsButAccounts s { s with port := port } := fun port hp =>
    ⟨⟨rfl, rfl, rfl, rfl, rfl, id, id, id, id, fun _ h => h, fun r' h' => .inr (by
      have : r = r' := Option.some.inj (hp.symm.trans h')
      exact this ▸ h)⟩, id⟩
  simp only [State.grant]
  split
  · rename_i k _
    exact (h1 { s.port with busy := some r, waiting := s.port.waiting.filter (·.who != r.who), lastSlot := k } rfl).trans
      (setSlot_but _ k _ (by simp only [slotRemaining, slotGranted_capture]; rfl) fun hc => by
        rw [slotGranted_capture] at hc; exact hc)
  · exact h1 _ rfl
  · exact h1 _ rfl

theorem arbiterChoice_grantable (s : State) (r : StoreRequest) (h : s.arbiterChoice = some r) :
    r.op.grantable s.protect = true := by
  obtain ⟨w, _, hw⟩ := List.exists_of_findSome?_eq_some h
  have := List.find?_some hw
  simp only [Bool.and_eq_true] at this
  exact this.2

/-- Everything the arbiter's test can do: nothing, or the grant of a request that waits and is grantable (R118). -/
theorem arbitrate_cases (s : State) :
    s.arbitrate = s ∨ ∃ r ∈ s.port.waiting, s.port.busy = none ∧ r.op.grantable s.protect = true ∧ s.arbitrate = s.grant r := by
  simp only [State.arbitrate]
  split
  · exact .inl rfl
  · split
    · exact .inl rfl
    · split
      · exact .inl rfl
      · rename_i hb _ _ r hr
        obtain ⟨w, _, hw⟩ := List.exists_of_findSome?_eq_some hr
        exact .inr ⟨r, List.mem_of_find?_eq_some hw, hb, arbiterChoice_grantable s r hr, rfl⟩

/-- A grant changes the Store Port and the slots only. -/
theorem grant_within (s : State) (r : StoreRequest) :
    s.grant r = { s with port := (s.grant r).port, slots := (s.grant r).slots } := by
  simp only [State.grant]
  split <;> rfl

theorem arbitrate_within (s : State) : s.arbitrate = { s with port := s.arbitrate.port, slots := s.arbitrate.slots } := by
  rcases arbitrate_cases s with e | ⟨r, _, _, _, e⟩ <;> rw [e]
  exact grant_within s r

/-- A slot with no waiting request is as it was after the arbiter's test. -/
theorem arbitrate_slot (s : State) (k : SlotIx) (h : ∀ r ∈ s.port.waiting, r.who ≠ .slot k) :
    s.arbitrate.slot k = s.slot k := by
  rcases arbitrate_cases s with e | ⟨r, hr, _, _, e⟩ <;> rw [e]
  simp only [State.grant]
  split
  · rename_i j hj
    rw [slot_setSlot, if_neg fun hk : k = j => h r hr (hk ▸ hj)]
    rfl
  · rfl
  · rfl

theorem arbitrate_keeps (s : State) : Keeps s s.arbitrate := by
  refine KeepsButAccounts.keeps ?_ fun _ _ h => arbitrate_accounts h
  rcases arbitrate_cases s with e | ⟨r, _, _, hg, e⟩ <;> rw [e]
  · exact (Keeps.refl s).but
  · exact grant_but s r hg

/-- The test that may hold back a grant leaves the state, or is the arbiter's. -/
theorem arbitrateForCommit_cases (s : State) : s.arbitrateForCommit = s ∨ s.arbitrateForCommit = s.arbitrate := by
  simp only [State.arbitrateForCommit]
  split
  · exact .inl rfl
  · split
    · exact .inl rfl
    · exact .inr rfl

theorem arbitrateForCommit_keeps (s : State) : Keeps s s.arbitrateForCommit := by
  rcases arbitrateForCommit_cases s with h | h <;> rw [h]
  · exact .refl s
  · exact arbitrate_keeps s

/-- A busy port is tested in vain (R118). -/
theorem arbitrateForCommit_busy (s : State) (h : s.port.busy ≠ none) : s.arbitrateForCommit = s := by
  rcases arbitrateForCommit_cases s with e | e
  · exact e
  · rcases arbitrate_cases s with a | ⟨_, _, hb, _⟩
    · rw [e, a]
    · exact absurd hb h

/-- A change of the waiting requests. -/
theorem waiting_but (s : State) (ws) : KeepsButAccounts s { s with port := { s.port with waiting := ws } } :=
  ⟨⟨rfl, rfl, rfl, rfl, rfl, id, id, id, id, fun _ h => h, fun _ h => .inl h⟩, id⟩

theorem present_but (s : State) (w op) : KeepsButAccounts s (s.present w op) := (waiting_but s _).trans (arbitrate_keeps _).but

/-- A request presented by a requester that is no slot. -/
theorem present_keeps (s : State) (w op) (h : ∀ k, w ≠ .slot k) : Keeps s (s.present w op) :=
  ((waiting_but s _).keeps fun _ _ hb => port_accounts hb _ fun k =>
    requestsSuit_add s.port k _ ⟨w, op⟩ (h k) (hb.requests k)).trans (arbitrate_keeps _)

/-! ### The Maintenance Unit, the link and the answer -/

/-- A change of the Maintenance operation: a mount scan exactly where one was in progress. -/
theorem maint_but (s : State) (m : Option MaintenanceOp) (h : isMount m = isMount s.maint) :
    KeepsButAccounts s { s with maint := m } :=
  ⟨⟨rfl, rfl, rfl, rfl, rfl, id, id, id, fun k => ⟨k.1, by rw [show isMount m = _ from h]; exact k.2⟩, fun _ h => h,
    fun _ h => .inl h⟩, id⟩

/-- A change of the Maintenance operation that adds no claims. -/
theorem maint_keeps (s : State) (m : Option MaintenanceOp) (h : isMount m = isMount s.maint)
    (hr : claimedRecordings m ≤ claimedRecordings s.maint)
    (hc : ∀ b, (maintenanceClaims m).count b ≤ (maintenanceClaims s.maint).count b) : Keeps s { s with maint := m } :=
  (maint_but s m h).keeps fun _ _ hb => maint_accounts hb m hr hc

theorem beginMaintenance_but (s : State) (m op) (h : isMount (some m) = isMount s.maint) :
    KeepsButAccounts s (s.beginMaintenance m op) := (maint_but s _ h).trans (present_but _ _ _)

theorem beginMaintenance_keeps (s : State) (m op) (h : isMount (some m) = isMount s.maint)
    (hr : claimedRecordings (some m) ≤ claimedRecordings s.maint)
    (hc : ∀ b, (maintenanceClaims (some m)).count b ≤ (maintenanceClaims s.maint).count b) :
    Keeps s (s.beginMaintenance m op) := (maint_keeps s _ h hr hc).trans (present_keeps _ _ _ (by simp))

/-- An operation that is no mount scan comes to an end. -/
theorem maintenanceDone_keeps (s : State) (k n) (h : isMount s.maint = false) : Keeps s (s.maintenanceDone k n) :=
  (maint_keeps s none h.symm (by rw [claimedRecordings_noMount _ h]; exact claimedRecordings_le _) (fun b => Nat.zero_le _)).trans
    (sendEvent_keeps _ _ _ _)

/-- A change of the link that leaves its FIFOs bounded. -/
theorem link_keeps (s : State) (l : Link)
    (h : EgressBounded s → l.fifoB.length ≤ 4 ∧ l.fifoA.length ≤ 4) : Keeps s { s with link := l } :=
  ⟨⟨⟨rfl, rfl, rfl, rfl, rfl, id, id, h, id, fun _ h => h, fun _ h => .inl h⟩, fun _ _ h => same_accounts h rfl rfl rfl rfl rfl⟩, id⟩

/-- A choice of the send side of port B takes frames out of its FIFO only. -/
theorem chooseB_fifos (l : Link) : l.chooseB.fifoB.length ≤ l.fifoB.length ∧ l.chooseB.fifoA = l.fifoA := by
  simp only [Link.chooseB]
  split
  · split
    · rename_i h; exact ⟨by simp [h], rfl⟩
    · split <;> exact ⟨le_refl _, rfl⟩
  · exact ⟨le_refl _, rfl⟩

/-- A choice of the send side of port A takes frames out of its FIFO only. -/
theorem chooseA_fifos (l : Link) : l.chooseA.fifoA.length ≤ l.fifoA.length ∧ l.chooseA.fifoB = l.fifoB := by
  simp only [Link.chooseA]
  split
  · split
    · rename_i h; exact ⟨by simp [h], rfl⟩
    · exact ⟨le_refl _, rfl⟩
  · exact ⟨le_refl _, rfl⟩

theorem chooseB_keeps (s : State) (l : Link) (hb : l.fifoB = s.link.fifoB) (ha : l.fifoA = s.link.fifoA) :
    Keeps s { s with link := l.chooseB } :=
  link_keeps s _ fun h => ⟨le_trans (chooseB_fifos l).1 (hb ▸ h.1), (chooseB_fifos l).2 ▸ ha ▸ h.2⟩

theorem chooseA_keeps (s : State) (l : Link) (hb : l.fifoB = s.link.fifoB) (ha : l.fifoA = s.link.fifoA) :
    Keeps s { s with link := l.chooseA } :=
  link_keeps s _ fun h => ⟨(chooseA_fifos l).2 ▸ hb ▸ h.1, le_trans (chooseA_fifos l).1 (ha ▸ h.2)⟩

theorem placeB_keeps (s : State) (f : Frame) : Keeps s (s.modifyLink (·.placeB f)) := by
  refine link_keeps s _ fun h => ?_
  simp only [Link.placeB]
  split
  · exact h
  · rename_i hn
    simp only [Config.egressPlaces] at hn
    have := chooseB_fifos { s.link with fifoB := s.link.fifoB ++ [f] }
    refine ⟨le_trans this.1 ?_, by rw [this.2]; exact h.2⟩
    simp only [List.length_append, List.length_singleton]; omega

theorem placeA_keeps (s : State) (f : Frame) : Keeps s (s.modifyLink (·.placeA f)) := by
  refine link_keeps s _ fun h => ?_
  simp only [Link.placeA]
  split
  · exact h
  · rename_i hn
    simp only [Config.egressPlaces] at hn
    have := chooseA_fifos { s.link with fifoA := s.link.fifoA ++ [f] }
    refine ⟨by rw [this.2]; exact h.1, le_trans this.1 ?_⟩
    simp only [List.length_append, List.length_singleton]; omega

theorem countLink_keeps (s : State) (f) : Keeps s (s.countLink f) := link_keeps s _ id

/-- Everything that an answer can do (R178, R179): it changes the link and the Management Unit only. -/
theorem respondWith_keeps (s : State) (st word result restart) : Keeps s (s.respondWith st word result restart) := by
  simp only [State.respondWith]
  split
  · exact .refl s
  · split
    · exact (chooseB_keeps s { s.link with response := some _ } rfl rfl).trans (Keeps.loose (mgmt := _) ..)
    · exact .loose ..

theorem respond_keeps (s : State) (st result) : Keeps s (s.respond st result) := respondWith_keeps ..
theorem refuse_keeps (s : State) (st) : Keeps s (s.refuse st) := respondWith_keeps ..
theorem portAnswer_keeps (s : State) (p st result) : Keeps s (s.portAnswer p st result) := respondWith_keeps ..

/-- A row of an owner keeps what its effect keeps. -/
theorem ownerStep_keeps (s : State) (c f) (h : ∀ q, s.mgmt.request = some q → q.stage = .owner c → Keeps s (f q s)) :
    Keeps s (s.ownerStep c f) := by
  simp only [State.ownerStep]
  split
  · rename_i q hq
    split
    · exact h q hq (by assumption)
    · exact .refl s
  · exact .refl s

end Sys2Proof.Machine
end

