-- ==== Sys2Proof/Laws/KeepsCapture.lean ====
section
/-!
SUPPORT. `Keeps` for the Capture Engine, the Rule Evaluator and the Stream Tracker (chapters 1 to 3).
-/

namespace Sys2Proof.Machine

/-- A fold of operations that each keep keeps. -/
theorem foldl_keeps {α : Type} (f : State → α → State) (h : ∀ s a, Keeps s (f s a)) (l : List α) :
    ∀ s, Keeps s (l.foldl f s) := by
  induction l with
  | nil => exact Keeps.refl
  | cons a l ih => intro s; exact (h s a).trans (ih _)

theorem forSlotsOf_keeps (i : StreamIx) (f : SlotIx → State → State) (h : ∀ k s, Keeps s (f k s)) (s : State) :
    Keeps s (s.forSlotsOf i f) :=
  foldl_keeps _ (fun s k => by split; exacts [h k s, .refl s]) _ s

/-! ### Checks of a slot -/

theorem takeReserved_state (m m' : StoreManager) (b) (h : m.takeReserved = some (b, m')) : m'.state = m.state := by
  obtain ⟨m1, h1, rfl⟩ := takeReserved_spec m m' b h
  rw [(take_spec m m1 b h1).2]

theorem takeReserved_reserved (m m' : StoreManager) (b) (h : m.takeReserved = some (b, m')) :
    m'.reserved = m.reserved - 1 := by
  obtain ⟨m1, h1, rfl⟩ := takeReserved_spec m m' b h
  rw [(take_spec m m1 b h1).2]

/-- All that a take of a reserved block does. -/
theorem takeReserved_all (m m' : StoreManager) (b) (h : m.takeReserved = some (b, m')) :
    m.chooseBlock = some b ∧ m' = { m with
      used := insertUsed b m.used, free := m.free - 1, reserved := m.reserved - 1, cursor := cursorAfter b } := by
  obtain ⟨m1, h1, rfl⟩ := takeReserved_spec m m' b h
  have h2 := take_spec m m1 b h1
  exact ⟨h2.1, by rw [h2.2]⟩

/-- A FREE buffer filled: what the slot's buffers are then. -/
theorem fill_spec (x : Slot) (d : Staged) (h : x.hasFree = true) :
    (x.buffer0 = .free ∧ x.fill d = { x with buffer0 := .filled d }) ∨
      (x.buffer0 ≠ .free ∧ x.buffer1 = .free ∧ x.fill d = { x with buffer1 := .filled d }) := by
  simp only [Slot.hasFree, Bool.or_eq_true, beq_iff_eq] at h
  by_cases h0 : x.buffer0 = .free
  · exact .inl ⟨h0, by simp only [Slot.fill, if_pos h0]⟩
  · exact .inr ⟨h0, h.resolve_left h0, by simp only [Slot.fill, if_neg h0, if_pos (h.resolve_left h0)]⟩

/-- One fill takes a block that nothing claims, and lists it (R59). -/
theorem fill_accounts {s : State} (hb : BlocksAccounted s) (hm : MapOk s.store) (k : SlotIx) (c : Capture) (n b : Nat)
    (m : StoreManager) (d : Staged) (hc : (s.slot k).capture = some c) (hn : n = c.fillCount (s.newest c.request.stream))
    (h0 : n ≠ 0) (hf : (s.slot k).hasFree = true) (ht : s.store.takeReserved = some (b, m)) (hd : d.block = b) :
    BlocksAccounted ({ s with store := m }.setSlot k { (s.slot k).fill d with capture := some (c.staged n b) }) := by
  obtain ⟨hch, rfl⟩ := takeReserved_all _ _ _ ht
  have hfresh := (chooseBlock_spec s.store b hm hch).2.1
  have hnc : ∀ e, c.phase ≠ .committing e := fun e he => h0 (by rw [hn]; simp only [Capture.fillCount, he])
  have hhd : ¬HeadDue (s.slot k) := not_headDue _ c hc fun rp e he => by
    by_contra hlt
    apply h0
    simp only [hn, Capture.fillCount, he]
    omega
  have htidy := hb.tidy k
  simp only [SlotTidy, hc] at htidy
  have hblocks : ∀ b', b' ∈ c.blocks → b' ≠ b := fun b' h' he => hfresh (he ▸ slotClaims_used s k hb b' (by
    simp only [slotClaims, slotListed, hc, Option.elim, List.mem_append, List.mem_cons]; exact .inl (.inl (.inr h'))))
  have hstaged : ∀ e, (c.staged n b).phase ≠ .committing e := fun e he => by
    simp only [Capture.staged] at he
    split at he
    · simp at he
    · simp at he
    · rename_i h; exact absurd h (hnc _)
  refine setSlot_accounts hb k _ _ rfl (fun hs => ?_) (fun b' => ?_) ⟨fun ⟨e, he⟩ => absurd he (hstaged e), ?_, ?_⟩ ?_ fun hk => ?_
  · have := hb.reservations hs
    show s.store.reserved - 1 ≤ s.store.free - 1
    omega
  · have hcl : (slotClaims { (s.slot k).fill d with capture := some (c.staged n b) }).count b'
        = (slotClaims (s.slot k)).count b' + [b].count b' := by
      simp only [slotClaims, slotListed, hc, Option.elim, Capture.staged]
      rcases fill_spec (s.slot k) d hf with ⟨e, h⟩ | ⟨_, e, h⟩ <;> rw [h] <;>
        simp only [e, Buffer.orphan?, List.count_append, List.count_cons, Option.toList, List.count_nil] <;> omega
    rw [hcl]
    show _ + _ + _ ≤ _ + if b' ∈ insertUsed b s.store.used then 1 else 0
    by_cases he : b' = b
    · subst he
      simp [hfresh, mem_insertUsed]
    · have : [b].count b' = 0 := by simp [Ne.symm he]
      simp only [mem_insertUsed, he, false_or, this]
      omega
  · intro b' ho
    rcases fill_spec (s.slot k) d hf with ⟨e, h⟩ | ⟨_, e, h⟩ <;> simp only [h] at ho ⊢
    · simp only [ownBlock, Option.some.injEq] at ho
      refine ⟨by simp [Capture.staged, ← ho, hd], fun h1 => hblocks b' (htidy.2.2 b' h1) (by rw [← ho, hd])⟩
    · refine ⟨by simp [Capture.staged, (htidy.2.1 b' ho).1], fun h1 => ?_⟩
      simp only [ownBlock, Option.some.injEq] at h1
      exact hblocks b' (htidy.2.1 b' ho).1 (by rw [← h1, hd])
  · intro b' ho
    rcases fill_spec (s.slot k) d hf with ⟨e, h⟩ | ⟨_, e, h⟩ <;> simp only [h] at ho ⊢
    · simp [Capture.staged, htidy.2.2 b' ho]
    · simp only [ownBlock, Option.some.injEq] at ho
      simp [Capture.staged, ← ho, hd]
  · have hreq := hb.requests k
    refine ⟨fun op ho => ⟨.inl ?_, (hreq.1 op ho).2⟩, fun r hr hk => ?_⟩
    · have hw := (hreq.1 op ho).1.resolve_right hhd
      simp only [Slot.writingData] at hw ⊢
      rcases fill_spec (s.slot k) d hf with ⟨e, h⟩ | ⟨_, e, h⟩ <;> rw [h] <;> simp only [e] at hw ⊢
      · cases h1 : (s.slot k).buffer1 <;> simp_all
      · cases h1 : (s.slot k).buffer0 <;> simp_all
    · obtain ⟨b', contents, he, hf'⟩ := hreq.2 r hr hk
      obtain ⟨d', hd', hfd⟩ := hf'.resolve_left hhd
      refine ⟨b', contents, he, .inr ⟨d', hd', ?_⟩⟩
      rcases fill_spec (s.slot k) d hf with ⟨e, h⟩ | ⟨_, e, h⟩ <;> rw [h] <;> simp only [e] at hfd ⊢
      · exact .inr (hfd.resolve_left (by simp))
      · exact .inl (hfd.resolve_right (by simp))
  · obtain ⟨c1, e, h1, h2⟩ := hb.jobs.2 k hk
    have : c1 = c := Option.some.inj (h1.symm.trans hc)
    subst this
    exact absurd h2 (hnc e)

theorem fillOnce_keeps (k : SlotIx) (s : State) : Keeps s (s.fillOnce k) := by
  simp only [State.fillOnce]
  split
  · exact .refl s
  · rename_i c hc
    split
    · exact .refl s
    · rename_i hn
      simp only [not_or] at hn
      split
      · exact .refl s
      · rename_i b m hm
        refine KeepsButAccounts.keeps (setSlot_store_but s k _ m (fun h => takeReserved_ok _ _ _ h hm)
          (takeReserved_state _ _ _ hm) (fun hle => ?_) fun _ => .inl (by simp [hc])) fun ha _ hb =>
            fill_accounts hb ha.1 k c _ b m _ hc rfl hn.1 (by simpa using hn.2.2) hm rfl
        have := takeReserved_reserved _ _ _ hm
        simp only [slotRemaining, hc, Option.elim, Capture.staged] at *
        omega

theorem endCheck_keeps (k : SlotIx) (s : State) : Keeps s (s.endCheck k) := by
  simp only [State.endCheck]
  split
  · rename_i c hc
    split
    · rename_i rp t hp
      split
      · exact setCapture_keeps s k c { c with phase := .draining rp .complete } hc rfl
          (sameBlocks_collecting hp rfl rfl (by simp))
      · exact .refl s
    · exact .refl s
  · exact .refl s

/-- The FILLED buffer that is lowest is a FILLED buffer of the slot. -/
theorem lowestFilled_mem (x : Slot) (d : Staged) (h : x.lowestFilled = some d) : x.buffer0 = .filled d ∨ x.buffer1 = .filled d := by
  simp only [Slot.lowestFilled] at h
  have hf : ∀ (y : Buffer) (d : Staged), y.filled? = some d → y = .filled d := fun y d hy => by
    cases y <;> simp_all [Buffer.filled?]
  split at h
  · rename_i d0 d1 h0 h1
    split at h
    · exact .inl (hf _ _ (h0.trans h))
    · exact .inr (hf _ _ (h1.trans h))
  · rename_i h0 _; exact .inl (hf _ _ (h0.trans h))
  · exact .inr (hf _ _ h)

/-- The write that a slot has to present is asked for with no request outstanding, and suits it (R60, R66). -/
theorem ownWrite_spec (s : State) (k : SlotIx) (op : StoreOp) (h : s.ownWrite k = some op) :
    s.outstanding (.slot k) = false ∧ ∃ b contents, op = .write b contents ∧
      (HeadDue (s.slot k) ∨
        ∃ d : Staged, d.block = b ∧ ((s.slot k).buffer0 = .filled d ∨ (s.slot k).buffer1 = .filled d)) := by
  simp only [State.ownWrite] at h
  split at h
  · simp at h
  · rename_i ho
    refine ⟨by simpa using ho, ?_⟩
    split at h
    · simp at h
    · rename_i c hc
      split at h
      · rename_i d hd
        exact ⟨_, _, (Option.some.inj h).symm, .inr ⟨d, rfl, lowestFilled_mem _ d hd⟩⟩
      · split at h
        · rename_i rp cause hp
          split at h
          · rename_i he
            simp only [Slot.buffersFree, Bool.and_eq_true, beq_iff_eq] at he
            exact ⟨_, _, (Option.some.inj h).symm, .inl ⟨c, rp, cause, hc, hp, he⟩⟩
          · simp at h
        · simp at h

/-- A slot asks for a write that suits it (R60). -/
theorem askOwnWrite_keeps (k : SlotIx) (s : State) : Keeps s (s.askOwnWrite k) := by
  simp only [State.askOwnWrite]
  split
  · exact .refl s
  · rename_i op h
    obtain ⟨ho, b, contents, rfl, hs⟩ := ownWrite_spec s k op h
    simp only [State.outstanding, Bool.or_eq_false_iff, List.any_eq_false, beq_iff_eq] at ho
    refine (waiting_but s _).keeps fun _ _ hb => port_accounts hb _ fun j => ?_
    by_cases hj : j = k
    · subst hj
      refine ⟨fun op hbusy => absurd ho.1 (by rw [show s.port.busy = _ from hbusy]; simp), fun r hr hk => ?_⟩
      rcases List.mem_append.1 hr with hr | hr
      · exact absurd hk (ho.2 r hr)
      · rw [List.mem_singleton.1 hr]
        exact ⟨b, contents, rfl, hs⟩
    · exact requestsSuit_add s.port j _ ⟨.slot k, _⟩ (by simp [Ne.symm hj]) (hb.requests j)

/-- A slot presents by asking, and the arbiter tests. -/
theorem presentSlot_eq (k : SlotIx) (s : State) :
    s.presentSlot k = if s.ownWrite k = none then s else (s.askOwnWrite k).arbitrate := by
  simp only [State.presentSlot, State.askOwnWrite]
  rcases s.ownWrite k <;> rfl

theorem presentSlot_keeps (k : SlotIx) (s : State) : Keeps s (s.presentSlot k) := by
  rw [presentSlot_eq]
  split
  · exact .refl s
  · exact (askOwnWrite_keeps k s).trans (arbitrate_keeps _)

theorem slotStages_keeps (k : SlotIx) (s : State) : Keeps s (s.slotStages k) :=
  (endCheck_keeps k s).trans <| (fillOnce_keeps k _).trans (fillOnce_keeps k _)

theorem slotChecks_keeps (k : SlotIx) (s : State) : Keeps s (s.slotChecks k) :=
  (slotStages_keeps k s).trans (presentSlot_keeps k _)

/-- What a LAG ending leaves of a capture (R67). -/
theorem lagged_spec (c c' : Capture) (h : c.lagged = some c') : c'.remaining = c.remaining ∧ SameBlocks c c' := by
  simp only [Capture.lagged] at h
  split at h
  · rename_i hp
    simp only [Option.some.injEq] at h; subst h
    exact ⟨rfl, sameBlocks_collecting hp rfl rfl (by simp)⟩
  · rename_i rp e hp
    split at h
    · rename_i hle
      simp only [Option.some.injEq] at h; subst h
      exact ⟨rfl, rfl, rfl, by simp [hp], by simp, fun rp' e' h' => by rw [hp] at h'; simp at h'; omega⟩
    · simp at h
  · simp at h

theorem endLag_keeps (k : SlotIx) (s : State) : Keeps s (s.endLag k) := by
  simp only [State.endLag]
  split
  · exact .refl s
  · split
    · exact .refl s
    · rename_i hl
      exact (setCapture_keeps s k _ _ (by assumption) (lagged_spec _ _ hl).1 (lagged_spec _ _ hl).2).trans <|
        (report_keeps _ _).trans (slotChecks_keeps k _)

theorem exhaustionTest_keeps (k : SlotIx) (s : State) : Keeps s (s.exhaustionTest k) := by
  simp only [State.exhaustionTest]
  split
  · split
    · split
      · exact endLag_keeps k s
      · exact .refl s
    · exact .refl s
  · exact .refl s

theorem advanceChecks_keeps (k : SlotIx) (s : State) : Keeps s (s.advanceChecks k) :=
  (slotChecks_keeps k s).trans (exhaustionTest_keeps k _)

theorem endEarly_keeps (cause : EndCause) (k : SlotIx) (s : State) : Keeps s (s.endEarly cause k) := by
  simp only [State.endEarly]
  split
  · rename_i c hc
    split
    · rename_i rp t hp
      exact (setCapture_keeps s k c { c with
          phase := .draining rp cause, endSample := min c.endSample (s.newest c.request.stream) } hc rfl
        (sameBlocks_collecting hp rfl rfl (by simp))).trans (slotChecks_keeps k _)
    · exact .refl s
  · exact .refl s

/-! ### Signals -/

theorem reloadTimer_keeps (k : SlotIx) (s : State) : Keeps s (s.reloadTimer k) := by
  simp only [State.reloadTimer]
  split
  · rename_i c hc
    split
    · rename_i hp
      exact setCapture_keeps s k c _ hc rfl (sameBlocks_collecting hp rfl rfl (by simp))
    · exact .refl s
  · exact .refl s

theorem tickSlot_keeps (k : SlotIx) (s : State) : Keeps s (s.tickSlot k) := by
  simp only [State.tickSlot]
  split
  · rename_i c hc
    split
    · rename_i hp
      split
      · exact endEarly_keeps ..
      · exact setCapture_keeps s k c _ hc rfl (sameBlocks_collecting hp rfl rfl (by simp))
    · exact .refl s
  · exact .refl s

theorem gapSignal_keeps (d g : Nat) (k : SlotIx) (s : State) : Keeps s (s.gapSignal d g k) := by
  simp only [State.gapSignal]
  split
  · rename_i c hc
    split
    · rename_i hp
      split
      · exact (setCapture_keeps s k c { c with gaps := c.gaps ++ [⟨g - c.first, d⟩], gapped := true } hc rfl
          (sameBlocks_collecting hp rfl rfl (by simp [hp]))).trans (report_keeps _ _)
      · exact (setCapture_keeps s k c { c with gapOverflow := true } hc rfl
          (sameBlocks_collecting hp rfl rfl (by simp [hp]))).trans (report_keeps _ _)
    · exact .refl s
  · exact .refl s

theorem overtake_keeps (n : Nat) (k : SlotIx) (s : State) : Keeps s (s.overtake n k) := by
  simp only [State.overtake]
  split
  · split
    · exact endLag_keeps k s
    · exact .refl s
  · exact .refl s

/-! ### Allocation -/

/-- What an abandonment leaves: the slot EMPTY, the pointer and the store state as they were (R57). -/
theorem abandon_spec (k : SlotIx) (s : State) :
    ((s.abandon k).slot k).capture = none ∧ (s.abandon k).pointer = s.pointer ∧
      (s.abandon k).store.state = s.store.state := by
  simp only [State.abandon]
  split
  · exact ⟨by assumption, rfl, rfl⟩
  · refine ⟨?_, rfl, ?_⟩
    · show (((s.withdraw (.slot k)).setSlot k _).slot k).capture = none
      rw [slot_setSlot_same]
    · exact freeBlocks_state ..

theorem abandon_but (k : SlotIx) (s : State) : KeepsButAccounts s (s.abandon k) := by
  simp only [State.abandon]
  split
  · exact (Keeps.refl s).but
  · rename_i c hc
    refine (withdraw_keeps s (.slot k)).but.trans (KeepsButAccounts.trans ?_ (modifyRule_keeps _ c.request.rule _).but)
    refine setSlot_store_but (s.withdraw (.slot k)) k ⟨none, (s.slot k).buffer0.abandoned, (s.slot k).buffer1.abandoned⟩
      ((s.store.freeBlocks ((s.slot k).freedAtOnce c)).returnReserved c.remaining)
      (fun h => freeBlocks_ok _ _ h) (freeBlocks_state ..) (fun hle => ?_) (fun h => absurd rfl h)
    have hr : slotRemaining ((s.withdraw (.slot k)).slot k) = c.remaining := by
      show slotRemaining (s.slot k) = _; simp [slotRemaining, hc]
    rw [hr] at hle ⊢
    have : ((s.store.freeBlocks ((s.slot k).freedAtOnce c)).returnReserved c.remaining).reserved
        = s.store.reserved - c.remaining := by
      simp only [StoreManager.returnReserved, freeBlocks_reserved]
    rw [this]
    simp only [withdraw_store, slotRemaining, Option.elim] at *
    omega

/-- An allocation in an EMPTY slot of a READY store, up to the checks (R54). -/
theorem allocated_but (q : CaptureRequest) (s : State) (b m) (c : Capture) (hm : (s.store.reserve q.blocks).takeReserved = some (b, m))
    (hc : c.remaining = q.blocks - 1) (he : (s.slot s.pointer).capture = none) (hs : s.store.state = .ready) :
    KeepsButAccounts s
      (({ s with store := m, pointer := Fin.ofNat 8 (s.pointer.val + 1) }).setCapture s.pointer (some c)) := by
  refine KeepsButAccounts.trans (t := { s with pointer := Fin.ofNat 8 (s.pointer.val + 1) }) (Keeps.loose ..).but ?_
  refine setSlot_store_but { s with pointer := Fin.ofNat 8 (s.pointer.val + 1) } s.pointer
    { s.slot s.pointer with capture := some c } m
    (fun h => takeReserved_ok (s.store.reserve q.blocks) m b h hm)
    (takeReserved_state (s.store.reserve q.blocks) m b hm) (fun _ => ?_) fun _ => .inr hs
  have h1 := takeReserved_reserved _ _ _ hm
  have h2 : slotRemaining (({ s with pointer := Fin.ofNat 8 (s.pointer.val + 1) } : State).slot s.pointer) = 0 := by
    show slotRemaining (s.slot s.pointer) = 0; simp [slotRemaining, he]
  rw [h2]
  simp only [StoreManager.reserve, CaptureRequest.blocks, slotRemaining, Option.elim, hc] at *
  omega

/-- The blocks of an allocation: those of the occupant are freed but for the block of a write in progress, which is
orphaned, and the head is a block that nothing claims (R53, R54, R57). -/
theorem allocated_accounts {s : State} (hb : BlocksAccounted s) (hm : MapOk s.store) (k : SlotIx) (q : CaptureRequest)
    (freed : List Nat) (returned b : Nat) (m : StoreManager) (x : Slot) (c : Capture)
    (ht : (((s.store.freeBlocks freed).returnReserved returned).reserve q.blocks).takeReserved = some (b, m))
    (hr : returned ≤ s.store.reserved) (hfit : s.store.reserved + q.blocks ≤ s.store.free + returned + freed.length)
    (hfreed : freed.Nodup) (hused : ∀ b' ∈ freed, b' ∈ s.store.used)
    (hcl : ∀ b', (x.buffer0.orphan?.toList ++ x.buffer1.orphan?.toList).count b' + freed.count b'
      ≤ (slotClaims (s.slot k)).count b')
    (hx : x.capture = some c) (hh : c.head = b) (hl : c.blocks = []) (hp : ∃ rp t, c.phase = .collecting rp t)
    (h0 : ownBlock x.buffer0 = none) (h1 : ownBlock x.buffer1 = none)
    (hw : ∀ op, s.port.busy = some ⟨.slot k, op⟩ → x.writingData = true) (hn : ∀ r ∈ s.port.waiting, r.who ≠ .slot k)
    (hj : k ∉ s.index.queue.filterMap commitSlot?) : BlocksAccounted ({ s with store := m }.setSlot k x) := by
  obtain ⟨rp, t, hp⟩ := hp
  have hf := freeBlocks_spec freed s.store
  have hlen := freeBlocks_free_eq freed s.store hfreed hused
  obtain ⟨hch, rfl⟩ := takeReserved_all _ _ _ ht
  have hfresh : b ∉ (s.store.freeBlocks freed).used :=
    (chooseBlock_spec ((s.store.freeBlocks freed).returnReserved returned) b (freeBlocks_ok freed _ hm) hch).2.1
  refine setSlot_accounts hb k x _ (by rw [hf]; rfl) (fun _ => ?_) (fun b' => ?_) ?_
    ⟨fun op ho => ⟨.inl (hw op ho), hn⟩, fun r hr' hk => absurd hk (hn r hr')⟩ fun h => absurd h hj
  · have hres : (s.store.freeBlocks freed).reserved = s.store.reserved := by rw [hf]
    simp only [StoreManager.reserve, StoreManager.returnReserved, hlen, hres]
    omega
  · have h2 := hcl b'
    have h3 : (slotClaims x).count b' = [b].count b'
        + (x.buffer0.orphan?.toList ++ x.buffer1.orphan?.toList).count b' := by
      simp only [slotClaims, slotListed, hx, Option.elim, hh, hl, List.count_append]
      omega
    rw [h3]
    show _ + _ ≤ _ + if b' ∈ insertUsed b (s.store.freeBlocks freed).used then 1 else 0
    simp only [mem_insertUsed, mem_freeBlocks] at hfresh ⊢
    by_cases he : b' = b
    · subst he
      rw [List.count_singleton_self, if_pos (Or.inl rfl)]
      by_cases hu : b' ∈ s.store.used
      · have := List.count_pos_iff.2 (not_not.1 fun hn => hfresh ⟨hu, hn⟩)
        rw [if_pos hu]
        omega
      · rw [if_neg hu]
        omega
    · have h4 : [b].count b' = 0 := by simp [Ne.symm he]
      rw [h4]
      simp only [he, false_or]
      by_cases hu : b' ∈ s.store.used <;> by_cases hb' : b' ∈ freed
      · have := List.count_pos_iff.2 hb'
        simp only [hu, hb', if_true, not_true, and_false, if_false]; omega
      · simp only [hu, hb', if_true, not_false_iff, and_true, if_true]; omega
      all_goals simp only [hu, false_and, if_false]; omega
  · simp only [SlotTidy, hx, h0, h1, hp]
    simp

/-- The tests pass where the slot at the pointer is EMPTY or COLLECTING (R51, R52). -/
theorem allocationTests_mayTake (s : State) (q) (h : s.allocationTests q = none) :
    (∀ c, (s.slot s.pointer).capture = some c → ∃ rp t, c.phase = .collecting rp t) ∧
      s.store.reserved + q.blocks ≤ s.store.free + (s.slot s.pointer).gain := by
  simp only [State.allocationTests] at h
  split at h
  · simp at h
  split at h
  · simp at h
  split at h
  · simp at h
  split at h
  · simp at h
  rename_i hmay
  split at h
  · simp at h
  refine ⟨fun c hc => ?_, by omega⟩
  simp only [Slot.mayTake, hc] at hmay
  split at hmay
  · exact ⟨_, _, by assumption⟩
  · simp at hmay

/-- A slot that presents nothing of its own (R60). -/
theorem requestsSuit_none (port : StorePort) (k : SlotIx) (x : Slot) (h : RequestsSuit port k x) (hd : ¬HeadDue x)
    (hw : x.writingData = false) (hf : ∀ d : Staged, x.buffer0 ≠ .filled d ∧ x.buffer1 ≠ .filled d) :
    (∀ op, port.busy ≠ some ⟨.slot k, op⟩) ∧ ∀ r ∈ port.waiting, r.who ≠ .slot k := by
  refine ⟨fun op ho => ?_, fun r hr hk => ?_⟩
  · rcases (h.1 op ho).1 with h1 | h1
    · rw [hw] at h1; exact absurd h1 (by decide)
    · exact hd h1
  · obtain ⟨b, contents, _, h1 | ⟨d, _, h1 | h1⟩⟩ := h.2 r hr hk
    · exact hd h1
    · exact (hf d).1 h1
    · exact (hf d).2 h1

/-- No slot with a COMMIT job is EMPTY or COLLECTING. -/
theorem notCommitting {s : State} (hb : BlocksAccounted s) (k : SlotIx)
    (h : ∀ c e, (s.slot k).capture = some c → c.phase ≠ .committing e) : k ∉ s.index.queue.filterMap commitSlot? :=
  fun hk => by
    obtain ⟨c, e, h1, h2⟩ := hb.jobs.2 k hk
    exact h c e h1 h2

/-- The tests pass in a READY store only (R51). -/
theorem allocationTests_ready (s : State) (q) (h : s.allocationTests q = none) : s.store.state = .ready := by
  by_contra hn
  simp only [State.allocationTests] at h
  split at h
  · simp at h
  · split at h
    · simp at h
    · rename_i h2
      exact h2 fun hc => hn hc.1

theorem abandoned_own (y : Buffer) : ownBlock y.abandoned = none := by
  cases y <;> rfl

/-- What an abandoned buffer leaves to an orphaned write. -/
theorem abandoned_orphan (y : Buffer) (b : Nat) :
    y.abandoned.orphan?.toList.count b = y.orphan?.toList.count b + y.ownWriting.toList.count b := by
  cases y with
  | writing d orphan => cases orphan <;> simp [Buffer.abandoned, Buffer.orphan?, Buffer.ownWriting]
  | _ => rfl

theorem ownWriting_own (y : Buffer) (b : Nat) (h : y.ownWriting = some b) : ownBlock y = some b := by
  cases y with
  | writing d orphan => cases orphan <;> simp_all [Buffer.ownWriting, ownBlock]
  | _ => simp [Buffer.ownWriting] at h

/-- The blocks freed at once and those in progress are among the blocks that the slot claims (R57). -/
theorem freedAtOnce_claims (x : Slot) (c : Capture) (hc : x.capture = some c) (ht : SlotTidy x) (b : Nat) :
    (x.buffer0.abandoned.orphan?.toList ++ x.buffer1.abandoned.orphan?.toList).count b + (x.freedAtOnce c).count b
      ≤ (slotClaims x).count b := by
  simp only [SlotTidy, hc] at ht
  have hown : x.buffer0.ownWriting.toList.count b + x.buffer1.ownWriting.toList.count b
      + (c.blocks.filter fun b => !(x.inProgress.contains b)).count b ≤ c.blocks.count b := by
    have h0 : ∀ y : Buffer, y.ownWriting.toList.count b = if y.ownWriting = some b then 1 else 0 := fun y => by
      cases y.ownWriting <;> simp [List.count_singleton]
    have hle : (c.blocks.filter fun b => !(x.inProgress.contains b)).count b ≤ c.blocks.count b :=
      List.Sublist.count_le b List.filter_sublist
    rw [h0, h0]
    by_cases hb : b ∈ x.inProgress
    · have h1 : (c.blocks.filter fun b => !(x.inProgress.contains b)).count b = 0 :=
        List.count_eq_zero.2 fun h => by simp [hb] at h
      rw [h1]
      by_cases h2 : x.buffer0.ownWriting = some b
      · have h3 := ht.2.1 b (ownWriting_own _ _ h2)
        have h4 : x.buffer1.ownWriting ≠ some b := fun h => h3.2 (ownWriting_own _ _ h)
        have := List.count_pos_iff.2 h3.1
        simp only [h2, h4, if_true, if_false]
        omega
      · rw [if_neg h2]
        split
        · have := List.count_pos_iff.2 (ht.2.2 b (ownWriting_own _ _ (by assumption)))
          omega
        · omega
    · simp only [Slot.inProgress, List.mem_append, Option.mem_toList, not_or] at hb
      rw [if_neg hb.1, if_neg hb.2]
      omega
  simp only [slotClaims, slotListed, hc, Option.elim, Slot.freedAtOnce, List.count_append, List.count_cons, abandoned_orphan] at *
  omega

/-- What an abandonment gives back and leaves, in a state in which the tests have passed (R53, R57). -/
theorem abandon_frees {s : State} (hb : BlocksAccounted s) (hr : ReservationsMatch s) (q : CaptureRequest)
    (h : s.allocationTests q = none) :
    ∃ freed returned, (s.abandon s.pointer).store = (s.store.freeBlocks freed).returnReserved returned ∧
      returned ≤ s.store.reserved ∧ s.store.reserved + q.blocks ≤ s.store.free + returned + freed.length ∧ freed.Nodup ∧
      (∀ b ∈ freed, b ∈ s.store.used) ∧
      (∀ b, (((s.abandon s.pointer).slot s.pointer).buffer0.orphan?.toList
          ++ ((s.abandon s.pointer).slot s.pointer).buffer1.orphan?.toList).count b + freed.count b
        ≤ (slotClaims (s.slot s.pointer)).count b) ∧
      ownBlock ((s.abandon s.pointer).slot s.pointer).buffer0 = none ∧
      ownBlock ((s.abandon s.pointer).slot s.pointer).buffer1 = none ∧
      (∀ op, s.port.busy = some ⟨.slot s.pointer, op⟩ → ((s.abandon s.pointer).slot s.pointer).writingData = true) ∧
      BlocksAccounted { s with port := (s.abandon s.pointer).port } ∧ (s.abandon s.pointer).port.busy = s.port.busy ∧
      ∀ r ∈ (s.abandon s.pointer).port.waiting, r.who ≠ .slot s.pointer := by
  obtain ⟨hcol, hfit⟩ := allocationTests_mayTake s q h
  have htidy := hb.tidy s.pointer
  rcases hc : (s.slot s.pointer).capture with _ | c
  · have he : s.abandon s.pointer = s := by simp only [State.abandon, hc]
    simp only [SlotTidy, hc] at htidy
    have hreq := requestsSuit_none s.port s.pointer _ (hb.requests _) (by rintro ⟨c, _, _, h1, _⟩; rw [hc] at h1; simp at h1)
      (by simp [Slot.writingData, htidy]) (by simp [htidy])
    simp only [he, htidy.1, htidy.2]
    refine ⟨[], 0, rfl, Nat.zero_le _, ?_, List.nodup_nil, by simp, by simp [Buffer.orphan?], rfl, rfl,
      fun op ho => absurd ho (hreq.1 op), hb, trivial, hreq.2⟩
    simp only [Slot.gain, hc] at hfit
    simpa using hfit
  · obtain ⟨rp, t, hp⟩ := hcol c hc
    have hslot : (s.abandon s.pointer).slot s.pointer
        = ⟨none, (s.slot s.pointer).buffer0.abandoned, (s.slot s.pointer).buffer1.abandoned⟩ := by
      simp only [State.abandon, hc]
      show ((s.withdraw (.slot s.pointer)).setSlot s.pointer _).slot s.pointer = _
      rw [slot_setSlot_same]
    have hport : (s.abandon s.pointer).port = (s.withdraw (.slot s.pointer)).port := by simp only [State.abandon, hc]; rfl
    have hcount := freedAtOnce_claims (s.slot s.pointer) c hc htidy
    have hone : ∀ b, (slotClaims (s.slot s.pointer)).count b ≤ 1 := fun b =>
      List.nodup_iff_count_le_one.1 (slotClaims_nodup s _ hb) b
    rw [hslot, hport]
    refine ⟨(s.slot s.pointer).freedAtOnce c, c.remaining, by simp only [State.abandon, hc]; rfl, ?_, ?_, ?_, ?_, hcount,
      abandoned_own _, abandoned_own _, fun op ho => ?_, port_accounts hb _ fun k =>
        requestsSuit_fewer s.port _ k _ rfl (fun _ hr => List.mem_of_mem_filter hr) (hb.requests k), rfl, ?_⟩
    · have : slotRemaining (s.slot s.pointer) ≤ ∑ j : SlotIx, slotRemaining (s.slot j) :=
        Finset.single_le_sum (f := fun j => slotRemaining (s.slot j)) (fun _ _ => Nat.zero_le _) (Finset.mem_univ _)
      rw [← hr.1] at this
      simpa [slotRemaining, hc] using this
    · simp only [Slot.gain, hc] at hfit
      omega
    · exact List.nodup_iff_count_le_one.2 fun b => by have := hcount b; have := hone b; omega
    · intro b hm
      refine slotClaims_used s s.pointer hb b (List.count_pos_iff.1 ?_)
      have := List.count_pos_iff.2 hm
      have := hcount b
      omega
    · have hw := ((hb.requests _).1 op ho).1.resolve_right
        (not_headDue _ c hc fun _ _ he => by rw [hp] at he; simp at he)
      simp only [Slot.writingData] at hw ⊢
      cases h0 : (s.slot s.pointer).buffer0 <;> cases h1 : (s.slot s.pointer).buffer1 <;>
        simp_all [Buffer.abandoned]
    · intro r hr'
      have := List.mem_filter.1 hr'
      simpa using this.2

/-- An abandonment changes the rules, the slots, the Store Manager and the Store Port's requests. -/
theorem abandon_frame (k : SlotIx) (s : State) :
    (s.abandon k).maint = s.maint ∧ (s.abandon k).index = s.index ∧ ∀ j, j ≠ k → (s.abandon k).slot j = s.slot j := by
  simp only [State.abandon]
  split
  · exact ⟨rfl, rfl, fun _ _ => rfl⟩
  · refine ⟨rfl, rfl, fun j hj => ?_⟩
    show ((s.withdraw (.slot k)).setSlot k _).slot j = _
    rw [slot_setSlot, if_neg hj]
    rfl

/-- A READY store with a free block gives one (R99). -/
theorem takeReserved_some (m : StoreManager) (h : MapOk m) (hs : m.state ≠ .mounting) (hf : 0 < m.free) :
    m.takeReserved ≠ none := by
  obtain ⟨b, hb⟩ := chooseBlock_some m h.1 (by have := h.2.2.2 hs; omega)
  simp [StoreManager.takeReserved, StoreManager.take, hb]

/-- The allocation after passed tests, up to the checks of the slot (R53, R54, R57). -/
theorem allocated_keeps (q : CaptureRequest) (s : State) (h : s.allocationTests q = none) (b m) (c : Capture)
    (hm : ((s.abandon s.pointer).store.reserve q.blocks).takeReserved = some (b, m)) (hc : c.remaining = q.blocks - 1)
    (hh : c.head = b) (hl : c.blocks = []) (hp : ∃ rp t, c.phase = .collecting rp t) :
    Keeps s (({ s.abandon s.pointer with store := m, pointer := Fin.ofNat 8 (s.pointer.val + 1) }).setCapture s.pointer
      (some c)) := by
  have ha := abandon_spec s.pointer s
  refine KeepsButAccounts.keeps ((abandon_but s.pointer s).trans (by
    have h1 := allocated_but q (s.abandon s.pointer) b m c hm hc (by rw [ha.2.1]; exact ha.1)
      (ha.2.2.trans (allocationTests_ready s q h))
    rwa [ha.2.1] at h1)) fun hma hr hb => ?_
  obtain ⟨freed, returned, h1, h2, h3, h4, h5, h6, h7, h8, h9, h10, h11, h12⟩ := abandon_frees hb hr q h
  rw [h1] at hm
  have hf := abandon_frame s.pointer s
  have hk := notCommitting (s := { s with port := (s.abandon s.pointer).port }) h10 s.pointer fun c' e hc' => by
    obtain ⟨rp, t, he⟩ := (allocationTests_mayTake s q h).1 c' hc'
    rw [he]; simp
  refine alike_accounts (allocated_accounts h10 hma.1 s.pointer q freed returned b m
    { (s.abandon s.pointer).slot s.pointer with capture := some c } c hm h2 h3 h4 h5 h6 rfl hh hl hp h7 h8
    (fun op ho => h9 op (h11 ▸ ho)) h12 hk) rfl (fun j => ?_) hf.1 rfl (by rw [setCapture_index]; exact congrArg _ hf.2.1)
  rw [slot_setSlot]
  show (State.setSlot _ s.pointer _).slot j = _
  rw [slot_setSlot]
  split
  · rfl
  · rename_i hj; exact hf.2.2 j hj

/-- After passed tests the allocation finds a block for its head (R53, R54). -/
theorem allocation_takes {s : State} (hm : MapAccounted s) (hr : ReservationsMatch s) (hb : BlocksAccounted s)
    (q : CaptureRequest) (h : s.allocationTests q = none) :
    ((s.abandon s.pointer).store.reserve q.blocks).takeReserved ≠ none := by
  obtain ⟨freed, returned, h1, h2, h3, h4, h5, _⟩ := abandon_frees hb hr q h
  rw [h1]
  refine takeReserved_some _ (freeBlocks_ok freed _ hm.1) ?_ ?_
  · show (s.store.freeBlocks freed).state ≠ _
    rw [freeBlocks_state, allocationTests_ready s q h]
    decide
  · show 0 < (s.store.freeBlocks freed).free
    have := hb.reservations (by rw [allocationTests_ready s q h]; decide)
    rw [freeBlocks_free_eq freed _ h4 h5]
    simp only [CaptureRequest.blocks] at h3
    omega

theorem captureRequest_keeps (q : CaptureRequest) (s : State) : Keeps s (s.captureRequest q).1 := by
  simp only [State.captureRequest]
  split
  · exact .refl s
  · exact report_keeps ..
  · rename_i h
    have ha := abandon_spec s.pointer s
    simp only [State.allocate]
    split
    · rename_i hn
      exact (abandon_but _ s).keeps fun hma hr hb => absurd hn (allocation_takes hma hr hb q h)
    · rename_i b m hm
      refine (allocated_keeps q s h b m (newCapture q ((s.abandon s.pointer).ringLength q.stream) b) hm rfl rfl rfl
        ⟨_, _, rfl⟩).trans ?_
      rw [ha.2.1]
      refine Keeps.trans ?_ (advanceChecks_keeps _ _)
      split
      · exact report_keeps ..
      · exact .refl _

/-! ### Completions and reports -/

/-- The completion of a data block write, the port idle: the blocks of orphaned writes are claimed no more (R58). -/
theorem dataWritten_accounts {s : State} (hb : BlocksAccounted s) (hi : s.port.busy = none) (k : SlotIx) (x : Slot)
    (hx : s.slot k = x) :
    BlocksAccounted ({ s with store := s.store.freeBlocks (x.buffer0.orphan?.toList ++ x.buffer1.orphan?.toList) }.setSlot k
      { x with buffer0 := x.buffer0.written, buffer1 := x.buffer1.written }) := by
  subst hx
  have hs := freeBlocks_spec ((s.slot k).buffer0.orphan?.toList ++ (s.slot k).buffer1.orphan?.toList) s.store
  have howned : ∀ (y : Buffer) b, ownBlock y.written = some b → ownBlock y = some b := fun y b h => by
    cases y <;> simp_all [Buffer.written, ownBlock]
  have hno : ∀ y : Buffer, y.written.orphan? = none := fun y => by cases y <;> rfl
  have htidy := hb.tidy k
  have hreq := hb.requests k
  refine setSlot_accounts hb k _ _ (by rw [hs]) (fun hm => ?_) (fun b => ?_) ?_ ⟨fun op ho => absurd ho (by simp [hi]), ?_⟩
    fun hk => hb.jobs.2 k hk
  · have h1 := freeBlocks_free ((s.slot k).buffer0.orphan?.toList ++ (s.slot k).buffer1.orphan?.toList) s.store
    have h2 := hb.reservations (by rw [hs] at hm; exact hm)
    rw [freeBlocks_reserved]
    omega
  · simp only [mem_freeBlocks, slotClaims, slotListed, hno, Option.toList_none, List.append_nil, List.count_append]
    by_cases hu : b ∈ s.store.used
    · by_cases ho : b ∈ (s.slot k).buffer0.orphan?.toList ++ (s.slot k).buffer1.orphan?.toList
      · have := List.count_pos_iff.2 ho
        rw [List.count_append] at this
        simp only [hu, ho, not_true, and_false, if_false, if_true]
        omega
      · simp only [hu, ho, not_false_iff, and_true, if_true]
        omega
    · simp only [hu, false_and, if_false]
      omega
  · simp only [SlotTidy] at htidy ⊢
    rcases hc : (s.slot k).capture with _ | c <;> simp only [hc] at htidy ⊢
    · rw [htidy.1, htidy.2]; exact ⟨rfl, rfl⟩
    · refine ⟨fun he => ?_, fun b h => ⟨(htidy.2.1 b (howned _ _ h)).1, fun h1 => ?_⟩, fun b h => htidy.2.2 b (howned _ _ h)⟩
      · rw [(htidy.1 he).1, (htidy.1 he).2]; exact ⟨rfl, rfl⟩
      · exact (htidy.2.1 b (howned _ _ h)).2 (howned _ _ h1)
  · intro r hr hk
    obtain ⟨b, contents, he, hd⟩ := hreq.2 r hr hk
    refine ⟨b, contents, he, ?_⟩
    rcases hd with ⟨c, rp, cause, h1, h2, h3, h4, h5⟩ | ⟨d, hd, h1 | h1⟩
    · exact .inl ⟨c, rp, cause, h1, h2, h3, by rw [h4]; rfl, by rw [h5]; rfl⟩
    · exact .inr ⟨d, hd, .inl (by rw [h1]; rfl)⟩
    · exact .inr ⟨d, hd, .inr (by rw [h1]; rfl)⟩

theorem slotDataWritten_keeps (k : SlotIx) (s : State) (hi : s.port.busy = none) : Keeps s (s.slotDataWritten k) := by
  simp only [State.slotDataWritten]
  refine Keeps.trans ?_ ((slotStages_keeps k _).trans (askOwnWrite_keeps k _))
  exact ((freeBlocks_but s _).trans (setSlot_but _ k
    { s.slot k with buffer0 := (s.slot k).buffer0.written, buffer1 := (s.slot k).buffer1.written } rfl id)).keeps fun _ _ hb => dataWritten_accounts hb hi k _ rfl

/-- A change of the Index Unit's queue. -/
theorem indexQueue_but (s : State) (q) : KeepsButAccounts s { s with index := { s.index with queue := q } } :=
  ⟨⟨rfl, rfl, rfl, rfl, rfl, id, id, id, id, fun _ h => h, fun _ h => .inl h⟩, id⟩

/-- A job that is no COMMIT job joins the Index Unit's queue. -/
theorem indexQueue_keeps (s : State) (j : IndexJob) (h : commitSlot? j = none) :
    Keeps s { s with index := { s.index with queue := s.index.queue ++ [j] } } :=
  (indexQueue_but s _).keeps fun _ _ hb => ⟨hb.reservations, hb.claims, hb.tidy, hb.requests, by
    have : (s.index.queue ++ [j]).filterMap commitSlot? = s.index.queue.filterMap commitSlot? := by simp [h]
    exact ⟨this ▸ hb.jobs.1, fun k hk => hb.jobs.2 k (this ▸ hk)⟩⟩

theorem slotHeadWritten_but (k : SlotIx) (s : State) : KeepsButAccounts s (s.slotHeadWritten k) := by
  simp only [State.slotHeadWritten]
  split
  · rename_i c hc
    split
    · refine KeepsButAccounts.trans ?_ (indexQueue_but _ _)
      exact setSlot_but s k _ (by simp [slotRemaining, hc]) fun _ => by simp [hc]
    · exact (Keeps.refl s).but
  · exact (Keeps.refl s).but

/-- The head write of a slot completes, the port idle: the slot is COMMITTING, and its job is the only one (R69). -/
theorem slotHeadWritten_accounts {s : State} (hb : BlocksAccounted s) (k : SlotIx) (hd : HeadDue (s.slot k))
    (hi : s.port.busy = none) (hw : ∀ r ∈ s.port.waiting, r.who ≠ .slot k) : BlocksAccounted (s.slotHeadWritten k) := by
  obtain ⟨c, rp, cause, hc, hp, hlt, h0, h1⟩ := hd
  have hk := notCommitting hb k fun c' e hc' he => by
    have : c' = c := Option.some.inj (hc'.symm.trans hc)
    rw [this, hp] at he
    simp at he
  simp only [State.slotHeadWritten, hc, hp]
  have h2 : BlocksAccounted (s.setCapture k (some { c with phase := .committing cause })) :=
    setSlot_accounts hb k _ s.store rfl hb.reservations (fun b => by simp only [slotClaims, slotListed, hc, Option.elim]; exact le_refl _)
      ⟨fun _ => ⟨h0, h1⟩, fun b hb' => absurd hb' (by simp [h0, ownBlock]), fun b hb' => absurd hb' (by simp [h1, ownBlock])⟩
      ⟨fun op ho => absurd ho (by simp [hi]), fun r hr he => absurd he (hw r hr)⟩ fun h => absurd h hk
  refine ⟨h2.reservations, h2.claims, h2.tidy, h2.requests, ?_, fun j hj => ?_⟩
  · show ((s.index.queue ++ [_]).filterMap commitSlot?).Nodup
    rw [List.filterMap_append]
    refine List.nodup_append.2 ⟨hb.jobs.1, by simp [commitSlot?], ?_⟩
    intro a ha b hb' he
    simp only [List.filterMap_cons, List.filterMap_nil, commitSlot?, List.mem_singleton] at hb'
    exact hk (hb' ▸ he ▸ ha)
  · show ∃ c' e, ((s.setSlot k { s.slot k with capture := some { c with phase := .committing cause } }).slot j).capture = some c' ∧ _
    have hj : j ∈ (s.index.queue ++ [IndexJob.commit k c.request.recording c.head c.total]).filterMap commitSlot? := hj
    rw [List.filterMap_append, List.mem_append] at hj
    rw [slot_setSlot]
    split
    · exact ⟨_, cause, rfl, rfl⟩
    · rename_i hne
      rcases hj with hj | hj
      · exact hb.jobs.2 j hj
      · simp only [List.filterMap_cons, List.filterMap_nil, commitSlot?, List.mem_singleton] at hj
        exact absurd hj hne

/-- A COMMITTING slot whose job has left the Index Unit's queue becomes EMPTY, and the blocks of its capture are claimed
no more (R70). -/
theorem emptied_accounts {s : State} (hb : BlocksAccounted s) (k : SlotIx) (c : Capture) (e : EndCause) (freed : List Nat)
    (hc : (s.slot k).capture = some c) (hp : c.phase = .committing e)
    (hk : k ∉ s.index.queue.filterMap commitSlot?) (hf : freed = [] ∨ freed = c.head :: c.blocks) :
    BlocksAccounted ({ s with store := (s.store.freeBlocks freed).returnReserved c.remaining }.setSlot k
      { s.slot k with capture := none }) := by
  have hs := freeBlocks_spec freed s.store
  have ht := hb.tidy k
  simp only [SlotTidy, hc] at ht
  have h0 := (ht.1 ⟨e, hp⟩).1
  have h1 := (ht.1 ⟨e, hp⟩).2
  have hreq := requestsSuit_none s.port k _ (hb.requests k)
    (not_headDue _ c hc fun _ _ he => by rw [hp] at he; simp at he) (by simp [Slot.writingData, h0, h1]) (by simp [h0, h1])
  refine setSlot_accounts hb k _ _ (by rw [hs]; rfl) (fun hm => ?_) (fun b => ?_) ⟨h0, h1⟩
    ⟨fun op ho => absurd ho (hreq.1 op), fun r hr he => absurd he (hreq.2 r hr)⟩ fun h => absurd h hk
  · have h1 := freeBlocks_free freed s.store
    have h2 := hb.reservations (by rw [hs] at hm; exact hm)
    show (s.store.freeBlocks freed).reserved - _ ≤ (s.store.freeBlocks freed).free
    rw [freeBlocks_reserved]
    omega
  · show _ + _ ≤ _ + if b ∈ (s.store.freeBlocks freed).used then 1 else 0
    simp only [mem_freeBlocks, slotClaims, slotListed, hc, h0, h1, Buffer.orphan?, Option.elim, Option.toList, List.append_nil]
    by_cases hu : b ∈ s.store.used
    · by_cases ho : b ∈ freed
      · rcases hf with rfl | rfl
        · simp at ho
        · have := List.count_pos_iff.2 ho
          simp only [hu, ho, not_true, and_false, if_false, if_true, List.count_nil]
          omega
      · simp [hu, ho]
    · simp [hu]

theorem slotCommitted_but (k : SlotIx) (s : State) : KeepsButAccounts s (s.slotCommitted k) := by
  simp only [State.slotCommitted]
  split
  · rename_i c hc
    refine setSlot_store_but s k { s.slot k with capture := none } (s.store.returnReserved c.remaining) id rfl (fun hle => ?_)
      (fun h => absurd rfl h)
    simp only [slotRemaining, hc, Option.elim, StoreManager.returnReserved] at *
    omega
  · exact (Keeps.refl s).but

theorem slotCommitted_accounts {s : State} (hb : BlocksAccounted s) (k : SlotIx) (c e) (hc : (s.slot k).capture = some c)
    (hp : c.phase = .committing e) (hk : k ∉ s.index.queue.filterMap commitSlot?) : BlocksAccounted (s.slotCommitted k) := by
  simp only [State.slotCommitted, hc]
  exact emptied_accounts hb k c e [] hc hp hk (.inl rfl)

theorem slotLimited_but (k : SlotIx) (s : State) : KeepsButAccounts s (s.slotLimited k) := by
  simp only [State.slotLimited]
  split
  · rename_i c hc
    refine (report_keeps s (reportOf .limit k c.request)).but.trans ?_
    have h2 : ((s.report (reportOf .limit k c.request)).slot k).capture = some c := by
      rcases report_spec s (reportOf .limit k c.request) with ⟨e, _⟩ | ⟨e, _⟩ <;> rw [e] <;> exact hc
    generalize s.report (reportOf .limit k c.request) = u at h2
    refine setSlot_store_but u k { u.slot k with capture := none }
      ((u.store.freeBlocks (c.head :: c.blocks)).returnReserved c.remaining) (fun h => freeBlocks_ok _ _ h)
      (freeBlocks_state ..) (fun hle => ?_) (fun h => absurd rfl h)
    have : ((u.store.freeBlocks (c.head :: c.blocks)).returnReserved c.remaining).reserved = u.store.reserved - c.remaining := by
      simp only [StoreManager.returnReserved, freeBlocks_reserved]
    rw [this]
    simp only [slotRemaining, h2, Option.elim] at *
    omega
  · exact (Keeps.refl s).but

theorem slotLimited_accounts {s : State} (hm : MapAccounted s) (hr : ReservationsMatch s) (hb : BlocksAccounted s)
    (k : SlotIx) (c e) (hc : (s.slot k).capture = some c) (hp : c.phase = .committing e)
    (hk : k ∉ s.index.queue.filterMap commitSlot?) : BlocksAccounted (s.slotLimited k) := by
  simp only [State.slotLimited, hc]
  have h1 := (report_keeps s (reportOf .limit k c.request)).accounts hm hr hb
  have h2 : ((s.report (reportOf .limit k c.request)).slot k).capture = some c ∧
      (s.report (reportOf .limit k c.request)).index = s.index := by
    rcases report_spec s (reportOf .limit k c.request) with ⟨e, _⟩ | ⟨e, _⟩ <;> rw [e] <;> exact ⟨hc, rfl⟩
  exact emptied_accounts h1 k c e _ h2.1 hp (by rw [h2.2]; exact hk) (.inr rfl)

/-! ### Rules -/

theorem requestFor_keeps (i : RuleIx) (r : Rule) (t stamp) (s : State) : Keeps s (s.requestFor i r t stamp) := by
  simp only [State.requestFor]
  split
  · exact .refl s
  · rename_i target _
    have := captureRequest_keeps (r.request i target t stamp) s
    split
    · exact this
    · exact this.trans (modifyRule_keeps _ _ _)

theorem fireRule_keeps (i : RuleIx) (r : Rule) (t stamp) (s : State) : Keeps s (s.fireRule i r t stamp) :=
  (modifyRule_keeps _ _ _).trans <| (requestFor_keeps ..).trans (modifyRule_keeps _ _ _)

theorem evalRule_keeps (stream t v p stamp) (x : State × Bool) (i : RuleIx) :
    Keeps x.1 (evalRule stream t v p stamp x i).1 := by
  simp only [evalRule]
  split
  · exact .refl _
  · split
    · split
      · exact setRule_keeps ..
      · exact fireRule_keeps ..
    · exact .refl _

/-- A fold over a state and a flag. -/
theorem foldl_fst_keeps {α : Type} (f : State × Bool → α → State × Bool) (h : ∀ x a, Keeps x.1 (f x a).1) (l : List α) :
    ∀ x, Keeps x.1 (l.foldl f x).1 := by
  induction l with
  | nil => intro x; exact .refl _
  | cons a l ih => intro x; exact (h x a).trans (ih _)

theorem evalRules_keeps (stream t v p stamp) (x : State × Bool) : Keeps x.1 (evalRules stream t v p stamp x).1 :=
  foldl_fst_keeps _ (fun x i => evalRule_keeps stream t v p stamp x i) _ x

theorem gapRules_keeps (i : StreamIx) (s : State) : Keeps s (s.gapRules i) :=
  foldl_keeps _ (fun s _ => modifyRule_keeps s _ _) _ s

theorem tickRules_keeps (s : State) : Keeps s s.tickRules := foldl_keeps _ (fun s _ => modifyRule_keeps s _ _) _ s

theorem tickSlots_keeps (s : State) : Keeps s s.tickSlots := foldl_keeps _ (fun s k => tickSlot_keeps k s) _ s

/-! ### Streams -/

theorem modifyStream_keeps (s : State) (i f) : Keeps s (s.modifyStream i f) := setStream_keeps ..

/-- A write of one sample cell (R6). -/
theorem samples_keeps (s : State) (a : Nat) (v : Sample) :
    Keeps s { s with samples := Memory.set Config.unwrittenCell s.samples a v } :=
  ⟨⟨⟨rfl, rfl, rfl, rfl, rfl, Memory.set_wf _ _ _ _, id, id, id, fun _ h => h, fun _ h => .inl h⟩,
    fun _ _ h => same_accounts h rfl rfl rfl rfl rfl⟩, id⟩

theorem writeSample_keeps (i : StreamIx) (e : StreamEntry) (v : Sample) (s : State) : Keeps s (s.writeSample i e v) := by
  simp only [State.writeSample]
  refine Keeps.trans ?_ ((samples_keeps _ _ _).trans (modifyStream_keeps _ _ _))
  split
  · exact forSlotsOf_keeps i _ (fun k s => overtake_keeps _ k s) s
  · exact .refl s

theorem takeSample_keeps (i : StreamIx) (x : State × Bool) (v : Sample) : Keeps x.1 (takeSample i x v).1 := by
  simp only [takeSample]
  split
  · exact .refl _
  · rename_i e _
    have h1 := (writeSample_keeps i e v x.1).trans (forSlotsOf_keeps i _ advanceChecks_keeps _)
    generalize (x.1.writeSample i e v).forSlotsOf i State.advanceChecks = u at h1
    have h2 := evalRules_keeps i e.next v e.previous u.time (u, x.2)
    generalize evalRules i e.next v e.previous u.time (u, x.2) = y at h2
    exact h1.trans (h2.trans (modifyStream_keeps _ _ _))

theorem takeGap_keeps (i : StreamIx) (e : StreamEntry) (d : Nat) (s : State) : Keeps s (s.takeGap i e d) :=
  (modifyStream_keeps _ _ _).trans <| (forSlotsOf_keeps i _ (fun k s => gapSignal_keeps _ _ k s) _).trans <|
    (gapRules_keeps _ _).trans (modifyStream_keeps _ _ _)

theorem acceptFrame_keeps (i : StreamIx) (seq : Byte) (vs) (s : State) : Keeps s (s.acceptFrame i seq vs).1 := by
  simp only [State.acceptFrame]
  have h1 := (modifyStream_keeps s i fun e => { e with framesTaken := satSucc e.framesTaken, state := .live }).trans
    (forSlotsOf_keeps i _ reloadTimer_keeps _)
  generalize State.forSlotsOf i State.reloadTimer _ = u at h1 ⊢
  have h2 := foldl_fst_keeps _ (takeSample_keeps i) vs (u, false)
  generalize vs.foldl (takeSample i) (u, false) = y at h2
  exact h1.trans (h2.trans ((modifyStream_keeps _ _ _).trans (arbitrateForCommit_keeps _)))

/-- Taking a frame by the Stream Tracker, with all that its samples cause. -/
theorem offerFrame_keeps (f : Frame) (s : State) : Keeps s (s.offerFrame f).1 := by
  simp only [State.offerFrame]
  split
  · exact .refl s
  · split
    · exact .refl s
    · split
      · exact modifyStream_keeps ..
      · exact (takeGap_keeps ..).trans (acceptFrame_keeps ..)
      · exact acceptFrame_keeps ..
      · exact acceptFrame_keeps ..

end Sys2Proof.Machine
end

