-- ==== Sys2Proof/Laws/KeepsStore.lean ====
section
/-!
SUPPORT. `Keeps` for the store commands, the Maintenance Unit, the Index Unit, the Release Unit, the readout ports and
the Management Unit (chapters 5 to 7 and 9), and what a completion row does to the state.
-/

namespace Sys2Proof.Machine

/-- The Store Manager replaced by one of the same state and reservation total, the map in order. -/
theorem storeOk_but (s : State) (m : StoreManager) (hm : MapAccounted s → MapOk m) (hs : m.state = s.store.state)
    (hr : m.reserved = s.store.reserved) : KeepsButAccounts s { s with store := m } :=
  ⟨⟨rfl, rfl, rfl, rfl, rfl, id, id, id, fun h => ⟨hm h, hs ▸ h.2⟩,
      fun _ h => ⟨hr ▸ h.1, fun k hk => hs ▸ h.2 k hk⟩, fun _ h => .inl h⟩, id⟩

theorem setEntry_but (s : State) (r e) : KeepsButAccounts s (s.modifyStore fun m => m.setEntry r e) :=
  store_but s _ id rfl rfl
theorem setRecording_keeps (s : State) (r x) : Keeps s (s.modifyStore fun m => m.setRecording r x) :=
  store_keeps s _ id rfl rfl rfl rfl rfl
theorem setLabel_keeps (s : State) (l) : Keeps s (s.modifyStore fun m => { m with label := l }) :=
  store_keeps s _ id rfl rfl rfl rfl rfl
theorem count_keeps (s : State) (r n p) : Keeps s (s.modifyStore fun m => m.count r n p) :=
  store_keeps s _ id rfl rfl rfl rfl rfl
theorem countDamage_keeps (s : State) : Keeps s (s.modifyStore (·.countDamage)) := store_keeps s _ id rfl rfl rfl rfl rfl

/-! ### Completions -/

/-- Everything that a completion row of a requester can do (R117). -/
theorem onCompletion_spec (s : State) (w : Requester) (f : StoreOp → State → State) :
    (s.onCompletion w f = s ∧ ∀ op, ¬Granted s w op) ∨
      ∃ op, Granted s w op ∧ s.onCompletion w f = (f op (s.complete op)).arbitrate := by
  simp only [State.onCompletion, Granted]
  split
  · rename_i r hr
    split
    · rename_i hw; subst hw; exact .inr ⟨r.op, hr, rfl⟩
    · rename_i hw
      refine .inl ⟨rfl, fun op h => hw ?_⟩
      have := Option.some.inj (hr.symm.trans h)
      rw [this]
  · rename_i hn; exact .inl ⟨rfl, fun op h => by rw [hn] at h; simp at h⟩

/-- Everything that a Maintenance completion row can do (R117). -/
theorem onMaintenance_spec (s : State) (p : MaintenanceOp → Option (List Byte → State → State)) :
    s.onMaintenance p = s ∨
      ∃ op m f, Granted s .maintenance op ∧ s.maint = some m ∧ p m = some f ∧
        s.onMaintenance p = (f (op.contents s.array) (s.complete op)).arbitrate := by
  simp only [State.onMaintenance, Granted]
  split
  · rename_i op f hb hf
    obtain ⟨m, hm, hp⟩ := Option.bind_eq_some_iff.1 hf
    exact .inr ⟨op, m, f, hb, hm, hp, rfl⟩
  · exact .inl rfl

/-- Everything that a slot's completion row can do. -/
theorem onSlotCompletion_spec (s : State) (data : Bool) (f : SlotIx → State → State) :
    s.onSlotCompletion data f = s ∨
      ∃ k op, Granted s (.slot k) op ∧ (s.slot k).writingData = data ∧
        s.onSlotCompletion data f = f k (s.complete op) := by
  simp only [State.onSlotCompletion, Granted]
  split
  · rename_i k op hb
    split
    · exact .inr ⟨k, op, hb, by assumption, rfl⟩
    · exact .inl rfl
  · exact .inl rfl

/-- The test after a data block write is the arbiter's, but where a preempting request meets the completion (R74, log 30). -/
theorem arbitrateAfterWrite_cases (k : SlotIx) (s : State) :
    s.arbitrateAfterWrite k = s ∨ s.arbitrateAfterWrite k = s.arbitrate := by
  simp only [State.arbitrateAfterWrite]
  split
  · exact .inl rfl
  · split
    · exact .inl rfl
    · exact .inr rfl

theorem arbitrateAfterWrite_keeps (k : SlotIx) (s : State) : Keeps s (s.arbitrateAfterWrite k) := by
  rcases arbitrateAfterWrite_cases k s with h | h <;> rw [h]
  · exact .refl s
  · exact arbitrate_keeps s

/-- The port made idle by a completion. -/
theorem complete_accounts {s : State} (h : BlocksAccounted s) (op : StoreOp) : BlocksAccounted (s.complete op) :=
  alike_accounts (port_accounts h { s.port with busy := none } fun k => requestsSuit_idle _ k _ (h.requests k)) rfl
    (fun _ => rfl) rfl rfl rfl

/-! ### Store commands -/

theorem mem_ascending {n : Nat} (k : Fin n) : k ∈ ascending n := List.mem_finRange k

/-- With no slot in use, the reservations match a total of 0. -/
theorem sum_empty (s : State) (h : ∀ k, (s.slot k).capture = none) : ∑ k : SlotIx, slotRemaining (s.slot k) = 0 :=
  Finset.sum_eq_zero fun k _ => by simp [slotRemaining, h k]

theorem clearAll_entry (m : StoreManager) (r : RecIx) : m.clearAll.entry r = none := by
  simp [StoreManager.entry, StoreManager.clearAll, Vector.get_eq_getElem]

/-- FORMAT's acceptance, in a state in which no slot is in use (R107, R108). -/
theorem formatAccept_keeps (s : State) (name : List Byte) (h : s.storeInUse = false) :
    Keeps s ((s.modifyStore fun m => { m.clearAll with state := .formatting }).beginMaintenance
      (.format name (.readDirectory 1 [])) (.read 1)) := by
  have he : ∀ k, (s.slot k).capture = none := fun k => by
    simp only [State.storeInUse, Bool.or_eq_false_iff, List.any_eq_false] at h
    simpa using h.1.1.1.1 k (mem_ascending k)
  refine Keeps.trans (t := { s with store := { s.store.clearAll with state := .formatting },
                                    maint := some (.format name (.readDirectory 1 [])) }) ?_ (present_keeps _ _ _ (by simp))
  refine KeepsButAccounts.keeps ?_ fun _ _ hb => unclaimed_accounts hb he _ _ (clearAll_entry s.store) (Nat.zero_le _) rfl
  exact ⟨⟨rfl, rfl, rfl, rfl, rfl, id, id, id, fun _ => ⟨⟨List.Pairwise.nil, fun _ h => absurd h (List.not_mem_nil), rfl,
      fun _ => rfl⟩, by simp [isMount]⟩, fun _ _ => ⟨(sum_empty s he).symm, fun k hk => absurd (he k) hk⟩,
      fun _ h => .inl h⟩, id⟩

theorem takeMany_but (s : State) (n bs m) (h : s.store.takeMany n = some (bs, m)) : KeepsButAccounts s { s with store := m } := by
  have hs := takeMany_spec n s.store m bs h
  exact store_but s m hs.2.2 (by rw [hs.2.1]) (by rw [hs.2.1])

/-- CREATE's acceptance, with no Maintenance operation in progress: the blocks taken are those of the entry (R110). -/
theorem createAccept_keeps (s : State) (r : RecIx) (e : RecordingEntry) (p op) (m) (n : Nat) (hn : s.maint = none)
    (h : s.store.takeMany n = some (e.blocks, m)) (hf : s.store.reserved + n ≤ s.store.free) :
    Keeps s ({ s with store := m }.beginMaintenance (.create r e p) op) := by
  refine Keeps.trans (t := { s with store := m, maint := some (.create r e p) }) ?_ (present_keeps _ _ _ (by simp))
  refine ((takeMany_but s n _ m h).trans (maint_but _ _ (by simp [isMount, hn]))).keeps fun hma _ hb => ?_
  have hs := takeMany_spec n s.store m _ h
  have hc := takeMany_claims n s.store m _ hma.1 h
  refine claim_accounts hb m _ (by rw [hs.2.1]) (fun _ => ?_) (by rw [hn]; exact le_refl _) fun b => ?_
  · have : m.reserved = s.store.reserved := by rw [hs.2.1]
    rw [hc.1, this]
    omega
  · have := hc.2 b
    simp only [maintenanceClaims]
    omega

/-- A Maintenance operation goes on as one that claims no blocks, neither of them the mount scan. -/
theorem maintFree_keeps (s : State) (op : MaintenanceOp) (hn : isMount s.maint = false) (h : isMount (some op) = false)
    (hc : maintenanceClaims (some op) = []) : Keeps s { s with maint := some op } :=
  maint_keeps s _ (h.trans hn.symm) (by rw [claimedRecordings_noMount _ hn]; exact claimedRecordings_le _)
    fun b => by rw [hc]; exact Nat.zero_le _

theorem beginFree_keeps (s : State) (op : MaintenanceOp) (o) (hn : isMount s.maint = false) (h : isMount (some op) = false)
    (hc : maintenanceClaims (some op) = []) : Keeps s (s.beginMaintenance op o) :=
  (maintFree_keeps s op hn h hc).trans (present_keeps _ _ _ (by simp))

theorem eraseNext_keeps (r : RecIx) (a b rest count) (s : State) (hn : isMount s.maint = false) : Keeps s (s.eraseNext r a b rest count) := by
  simp only [State.eraseNext]
  split
  · exact maintenanceDone_keeps _ _ _ hn
  · rename_i p rest
    exact Keeps.trans (maintFree_keeps s (.erase r a b rest count) hn rfl rfl) (indexQueue_keeps _ (.voidSet r p a b) rfl)

/-! ### Maintenance completions -/

theorem formatRead_keeps (name block found contents) (s : State) (hn : isMount s.maint = false) : Keeps s (formatRead name block found contents s) := by
  simp only [formatRead]
  split <;> exact beginFree_keeps s _ _ hn rfl rfl

theorem formatLabelled_keeps (name serial) (s : State) (hn : isMount s.maint = false) : Keeps s (formatLabelled name serial s) :=
  (setLabel_keeps s _).trans (beginFree_keeps _ (.format name (.writeDirectory 1 serial)) _ hn rfl rfl)

/-- The last directory write of a FORMAT makes the store READY; it is not MOUNTING, since the operation is no mount. -/
theorem formatWrote_keeps (name block serial) (s : State) (hn : isMount s.maint = false) :
    Keeps s (formatWrote name block serial s) := by
  simp only [formatWrote]
  split
  · exact beginFree_keeps s _ _ hn rfl rfl
  · refine Keeps.trans (t := { s with store := { s.store with state := .ready }, maint := none }) ?_ (sendEvent_keeps ..)
    have hm : ∀ h : MapAccounted s, s.store.state ≠ .mounting := fun h hm => by
      have := h.2.2 hm; rw [hn] at this; exact absurd this (by decide)
    refine KeepsButAccounts.keeps ⟨⟨rfl, rfl, rfl, rfl, rfl, id, id, id, fun h => ⟨⟨h.1.1, h.1.2.1, h.1.2.2.1, fun _ =>
      h.1.2.2.2 (hm h)⟩, by simp [isMount]⟩, fun _ h => ⟨h.1, fun k hk => rfl⟩, fun _ h => .inl h⟩, id⟩ fun h _ hb => ?_
    exact claim_accounts hb _ none rfl (fun _ => hb.reservations (hm h)) (by rw [claimedRecordings_noMount _ hn]; exact le_refl _)
      fun b => Nat.add_le_add_right (Nat.zero_le _) _

theorem createWrote_keeps (r e p q) (s : State) (hn : s.maint = some (.create r e q)) : Keeps s (createWrote r e p s) := by
  have h : ∀ p' op, Keeps s (s.beginMaintenance (.create r e p') op) := fun p' op =>
    beginMaintenance_keeps s _ _ (by rw [hn]; rfl) (by rw [hn]; exact le_refl _) fun b => by rw [hn]; exact le_refl _
  simp only [createWrote]
  split <;> exact h _ _

/-- CREATE's commit point: the recording claims the blocks that the operation claimed (R111). -/
theorem createCommitted_keeps (r e p) (s : State) (hn : s.maint = some (.create r e p)) : Keeps s (createCommitted r e s) := by
  refine Keeps.trans (t := { s with store := (s.store.setEntry r (some e)).setRecording r (.defined 0 0), maint := none })
    (KeepsButAccounts.keeps ?_ fun _ _ hb => ?_) (sendEvent_keeps ..)
  · exact (store_but s ((s.store.setEntry r (some e)).setRecording r (.defined 0 0)) id rfl rfl).trans
      (maint_but _ none (by rw [show _ = s.maint from rfl, hn]; rfl))
  · refine recording_accounts hb r (some e) _ none rfl hb.reservations (fun _ _ h => by rw [hn]; exact h) fun b => ?_
    have := heldBlocks_le e b
    simp only [hn, maintenanceClaims, claimedRecordings, r.isLt, if_true, Option.elim, List.count_nil]
    show _ ≤ _ + _ + if b ∈ s.store.used then 1 else 0
    omega

/-- DELETE's acceptance: the operation claims the index blocks that the recording claimed (R112, R113). -/
theorem deleteAccept_keeps (s : State) (r : RecIx) (e : RecordingEntry) (x op) (hn : s.maint = none) (he : s.store.entry r = some e) :
    Keeps s ((s.modifyStore fun m => (m.setEntry r none).setRecording r x).beginMaintenance (.delete r e .directory 0) op) := by
  refine Keeps.trans (t := { s with store := (s.store.setEntry r none).setRecording r x,
                                    maint := some (.delete r e .directory 0) })
    (KeepsButAccounts.keeps ?_ fun _ _ hb => ?_) (present_keeps _ _ _ (by simp))
  · exact (store_but s ((s.store.setEntry r none).setRecording r x) id rfl rfl).trans
      (maint_but _ (some (.delete r e .directory 0)) (by rw [show _ = s.maint from rfl, hn]; rfl))
  · refine recording_accounts hb r none _ _ rfl hb.reservations (fun _ _ h => by rw [hn]; exact h) fun b => ?_
    simp only [hn, maintenanceClaims, claimedRecordings, r.isLt, if_true, Option.elim, List.count_nil, indexClaims, he]
    show _ + _ + (if b ∈ s.store.used then 1 else 0) ≤ _ + _ + if b ∈ s.store.used then 1 else 0
    omega

/-- The walk of a DELETE goes on to blocks that the operation claims. -/
theorem deleteWalk_keeps (r e count rest) (s : State) (hn : isMount s.maint = false)
    (hc : ∀ b, (rest.map fun i => e.blocks.getD i 0).count b ≤ (maintenanceClaims s.maint).count b) :
    Keeps s (deleteWalk r e count rest s) := by
  simp only [deleteWalk]
  split
  · exact maintenanceDone_keeps _ _ _ hn
  · exact beginMaintenance_keeps s _ _ hn.symm (by rw [claimedRecordings_noMount _ hn]; exact le_refl _) hc

/-- An index block of a DELETE is freed and claimed no more, and the walk goes on (R113). -/
theorem deleteFreed_keeps (r e p count rest) (s : State) (hn : isMount s.maint = false)
    (hc : maintenanceClaims s.maint = (p :: rest).map fun i => e.blocks.getD i 0) :
    Keeps s (deleteFreed r e p count rest s) := by
  have hfree := freeBlock_spec s.store (e.blocks.getD p 0)
  have h1 : KeepsButAccounts s { s with store := s.store.freeBlock (e.blocks.getD p 0),
                                        maint := some (.delete r e (.place p [] []) count) } :=
    (freeBlock_but s _).trans (maint_but _ _ hn.symm)
  have ha : ∀ (op : Option MaintenanceOp), claimedRecordings op ≤ 32 →
      (∀ b, (maintenanceClaims op).count b ≤ (rest.map fun i => e.blocks.getD i 0).count b) →
      BlocksAccounted s → BlocksAccounted { s with store := s.store.freeBlock (e.blocks.getD p 0), maint := op } :=
    fun op hr ho hb => by
      refine claim_accounts hb _ op (by rw [hfree]) (fun hm => ?_) (by rw [claimedRecordings_noMount _ hn]; exact hr) fun b => ?_
      · have h1 := freeBlocks_free [e.blocks.getD p 0] s.store
        have h2 := hb.reservations (by rw [hfree] at hm; exact hm)
        have h3 := freeBlock_reserved s.store (e.blocks.getD p 0)
        show (s.store.freeBlock _).reserved ≤ _
        rw [h3]
        exact le_trans h2 h1
      · have := ho b
        simp only [hc, List.map_cons, List.count_cons, beq_iff_eq, mem_freeBlock]
        by_cases hu : b ∈ s.store.used <;> by_cases he : e.blocks.getD p 0 = b
        · simp only [hu, he, if_true, ne_eq, not_true, and_false, if_false]; omega
        · simp only [hu, he, Ne.symm he, if_true, ne_eq, not_false_iff, and_true, if_false]; omega
        all_goals simp only [hu, he, false_and, if_true, if_false]; omega
  simp only [deleteFreed, deleteWalk]
  split
  · refine Keeps.trans (t := { s with store := s.store.freeBlock (e.blocks.getD p 0), maint := none })
      (KeepsButAccounts.keeps ?_ fun _ _ hb => ha none (le_refl _) (fun b => Nat.zero_le _) hb) (sendEvent_keeps ..)
    exact (freeBlock_but s _).trans (maint_but _ none hn.symm)
  · rename_i q rest
    refine Keeps.trans (t := { s with store := s.store.freeBlock (e.blocks.getD p 0), maint := some (.delete r e (.read q rest) count) })
      (KeepsButAccounts.keeps ?_ fun _ _ hb => ha _ (le_refl _) (fun b => le_refl _) hb) (present_keeps _ _ _ (by simp))
    exact (freeBlock_but s _).trans (maint_but _ _ hn.symm)

/-- A release job placed at the tail of the queue, with room for it (R130). -/
theorem enqueue_keeps (s : State) (j : ReleaseJob) (h : 1 ≤ s.releaseRoom) : Keeps s (s.enqueueRelease j) :=
  ⟨⟨⟨rfl, rfl, rfl, rfl, rfl, id, id, id, id, fun _ h => h, fun _ h => .inl h⟩,
    fun _ _ hb => same_accounts hb rfl rfl rfl rfl rfl⟩, fun hp => by
    simp only [ReleasePlaces, State.releaseRoom, enqueueRelease_release, enqueueRelease_index, List.length_append,
      List.length_singleton] at *
    exact ⟨by omega, hp.2⟩⟩

theorem deleteHeads_keeps (r e p rest) : ∀ (heads : List Nat) (count : Nat) (s : State), isMount s.maint = false →
    maintenanceClaims s.maint = ((p :: rest).map fun i => e.blocks.getD i 0) → Keeps s (deleteHeads r e p rest heads count s)
  | [], count, s, hn, hm => deleteFreed_keeps _ _ _ _ _ s hn hm
  | h :: hs, count, s, hn, hm => by
    simp only [deleteHeads]
    split
    · rename_i hc
      simp only [Bool.and_eq_true, decide_eq_true_eq] at hc
      exact (enqueue_keeps s ⟨h, r⟩ hc.1).trans (deleteHeads_keeps r e p rest hs (count + 1) _ hn hm)
    · exact maint_keeps s _ hn.symm (by rw [claimedRecordings_noMount _ hn]; exact le_refl _) fun b => by rw [hm]; exact le_refl _

/-! ### The mount scan (every step of it runs while the operation in progress is the scan) -/

theorem claimBlocks_ok (bs : List Nat) : ∀ us : List Nat, us.Pairwise (· < ·) → (∀ b ∈ us, inDataArea b = true) →
    (claimBlocks us bs).1.Pairwise (· < ·) ∧ ∀ b ∈ (claimBlocks us bs).1, inDataArea b = true := by
  induction bs with
  | nil => intro us h1 h2; exact ⟨h1, h2⟩
  | cons b bs ih =>
    intro us h1 h2
    simp only [claimBlocks]
    split
    · rename_i hb
      simp only [Bool.and_eq_true] at hb
      exact ih _ (insertUsed_pairwise b us h1) fun x hx => by
        rcases (mem_insertUsed b x us).1 hx with rfl | hx
        · exact hb.1
        · exact h2 x hx
    · exact ih us h1 h2

/-- While the mount scan is in progress every slot is EMPTY. -/
theorem mounting_empty (s : State) (h : isMount s.maint = true) (hm : MapAccounted s) (hr : ReservationsMatch s) (k : SlotIx) :
    (s.slot k).capture = none := by
  by_contra hk
  have := hr.2 k hk
  rw [hm.2.1 h] at this
  exact absurd this (by decide)

/-- The end of the scan: the store becomes READY with every unclaimed block free (R142). -/
theorem mountEnd_but (s : State) (h : isMount s.maint = true) : KeepsButAccounts s s.mountEnd := by
  refine KeepsButAccounts.trans ?_ (sendEvent_keeps ..).but
  refine ⟨⟨rfl, rfl, rfl, rfl, rfl, id, id, id, fun k => ⟨⟨k.1.1, k.1.2.1, rfl, fun _ => ?_⟩, by simp [isMount]⟩,
      fun k hr => ⟨(sum_empty s (mounting_empty s h k hr)).symm, fun _ _ => rfl⟩, fun _ h => .inl h⟩, id⟩
  have := used_length_le _ k.1.1 k.1.2.1
  show Config.dataBlocks - s.store.used.length + s.store.used.length = Config.dataBlocks
  omega

theorem mountRecordings_but : ∀ (rs : List RecIx) (s : State), isMount s.maint = true → KeepsButAccounts s (s.mountRecordings rs)
  | [], s, h => mountEnd_but s h
  | r :: rs, s, h => by
    simp only [State.mountRecordings]
    split
    · exact (setRecording_keeps s r _).but.trans (mountRecordings_but rs _ h)
    · rename_i e _
      generalize hc : claimBlocks s.store.used e.blocks = c
      obtain ⟨used, held⟩ := c
      have h1 : KeepsButAccounts s (s.modifyStore fun m => { m with used := used }.setEntry r (some { e with held := held })) :=
        storeOk_but s _ (fun k => by
          have := claimBlocks_ok e.blocks _ k.1.1 k.1.2.1
          rw [hc] at this
          exact ⟨this.1, this.2, k.1.2.2.1, fun hm => absurd (k.2.1 h) hm⟩) rfl rfl
      simp only
      split
      · exact h1.trans <| (setRecording_keeps _ r _).but.trans (mountRecordings_but rs _ h)
      · exact h1.trans (beginMaintenance_but _ _ _ h.symm)

/-- The scan of the recordings from number `n` on, those before it holding their blocks: it ends, or comes to one of
them, which holds blocks that nothing claimed (R140). -/
theorem mountRecordings_accounts (rs : List RecIx) : ∀ (n : Nat) (s : State) (op : Option MaintenanceOp),
    rs = (ascending 32).drop n → s.store.state = .mounting → claimedRecordings op = n → maintenanceClaims op = [] →
      BlocksAccounted { s with maint := op } → BlocksAccounted (s.mountRecordings rs) := by
  induction rs with
  | nil =>
    intro n s op hrs hm hn ho hb
    have h32 : 32 ≤ n := by
      have := congrArg List.length hrs
      simp only [List.length_nil, List.length_drop, ascending, List.length_finRange] at this
      omega
    refine same_accounts (claim_accounts hb { s.store with
      free := Config.dataBlocks - s.store.used.length, reserved := 0, cursor := Config.dataFirst, state := .ready } none rfl
      (fun _ => Nat.zero_le _) (by show 32 ≤ claimedRecordings op; omega) fun b => ?_) rfl rfl rfl rfl rfl
    exact Nat.add_le_add_right (Nat.zero_le _) _
  | cons r rs ih =>
    intro n s op hrs hm hn ho hb
    have hlt : n < (ascending 32).length := by
      by_contra hge
      rw [List.drop_of_length_le (by omega)] at hrs
      simp at hrs
    rw [List.drop_eq_getElem_cons hlt] at hrs
    obtain ⟨hr, hrest⟩ := List.cons.inj hrs
    have hv : r.val = n := by rw [hr]; simp [ascending]
    have hlevel : ∀ (x : Option RecordingEntry) (m : StoreManager) (op' : Option MaintenanceOp),
        m.cache = tableSet s.store.cache r x → m.state = .mounting → claimedRecordings op' = n + 1 →
        maintenanceClaims op' = [] →
        (∀ b, (x.elim [] heldBlocks).count b + (if b ∈ s.store.used then 1 else 0) ≤ if b ∈ m.used then 1 else 0) →
        BlocksAccounted { s with store := m, maint := op' } := fun x m op' h1 h2 h3 h4 h5 => by
      refine recording_accounts hb r x m op' h1 (fun h => absurd h2 h) (fun j hj hlt => ?_) fun b => ?_
      · have : j.val ≠ r.val := fun he => hj (Fin.ext he)
        show j.val < claimedRecordings op
        omega
      · rw [h3, if_pos (by omega), h4]
        exact le_trans (h5 b) (Nat.le_add_left ..)
    simp only [State.mountRecordings]
    split
    · rename_i he
      refine ih (n + 1) _ (some (.mount (.index r [] [] false))) hrest hm (by simp [claimedRecordings, hv]) rfl ?_
      refine hlevel none (s.store.setRecording r .free) _ ?_ hm (by simp [claimedRecordings, hv]) rfl fun b => by
        show 0 + (if b ∈ s.store.used then 1 else 0) ≤ if b ∈ s.store.used then 1 else 0
        omega
      have : s.store.cache.get r = none := he
      refine Vector.ext fun i hi => ?_
      simp only [tableSet, Vector.getElem_set]
      split
      · rename_i h
        rw [← this, Vector.get_eq_getElem]
        simp only [StoreManager.setRecording, h]
      · rfl
    · rename_i e _
      have hclaims := claimBlocks_claims e e.blocks s.store.used
      generalize hc : claimBlocks s.store.used e.blocks = c at hclaims
      obtain ⟨used, held⟩ := c
      dsimp only at hclaims ⊢
      split
      · refine ih (n + 1) _ (some (.mount (.index r [] [] false))) hrest hm (by simp [claimedRecordings, hv]) rfl ?_
        exact hlevel (some { e with held := held })
          ((({ s.store with used := used } : StoreManager).setEntry r (some { e with held := held })).setRecording r (.damaged 0 0)) _ rfl hm
          (by simp [claimedRecordings, hv]) rfl hclaims
      · refine present_accounts ?_ _ _ (by simp)
        exact hlevel (some { e with held := held }) (({ s.store with used := used } : StoreManager).setEntry r (some { e with held := held })) _
          rfl hm (by simp [claimedRecordings, hv]) rfl hclaims

/-- A mount scan claims no blocks of its own. -/
theorem mount_unclaimed (op : Option MaintenanceOp) (h : isMount op = true) : maintenanceClaims op = [] := by
  cases op with
  | none => rfl
  | some op => cases op <;> first | rfl | simp [isMount] at h

/-- The scan of the recordings from number `n` on (R139, R140). -/
theorem mountRecordings_keeps (n : Nat) (s : State) (h : isMount s.maint = true) (hn : claimedRecordings s.maint = n) :
    Keeps s (s.mountRecordings ((ascending 32).drop n)) :=
  (mountRecordings_but _ s h).keeps fun hm _ hb =>
    mountRecordings_accounts _ n s s.maint rfl (hm.2.1 h) hn (mount_unclaimed _ h) hb

/-- The mount scan goes on, and no recording comes to hold blocks. -/
theorem scan_keeps (s : State) (p : MountPhase) (h : isMount s.maint = true)
    (hn : claimedRecordings (some (.mount p)) ≤ claimedRecordings s.maint) : Keeps s { s with maint := some (.mount p) } :=
  maint_keeps s _ h.symm hn fun _ => Nat.zero_le _

theorem scanOn_keeps (s : State) (p : MountPhase) (op) (h : isMount s.maint = true)
    (hn : claimedRecordings (some (.mount p)) ≤ claimedRecordings s.maint) : Keeps s (s.beginMaintenance (.mount p) op) :=
  (scan_keeps s p h hn).trans (present_keeps _ _ _ (by simp))

theorem mountRecorded_keeps (w) (s : State) (h : isMount s.maint = true)
    (hn : claimedRecordings s.maint = w.recording.val + 1) : Keeps s (s.mountRecorded w) :=
  (setRecording_keeps s _ _).trans (mountRecordings_keeps _ _ h hn)

theorem mountRepair_keeps (w x) (s : State) (h : isMount s.maint = true)
    (hn : claimedRecordings s.maint = w.recording.val + 1) : Keeps s (s.mountRepair w x) :=
  Keeps.trans (scan_keeps s (.repair w) h (by rw [hn]; exact le_refl _))
    (indexQueue_keeps _ (.repair w.recording x.position x.entry) rfl)

theorem mountWalk_keeps (w) (s : State) (h : isMount s.maint = true)
    (hn : claimedRecordings s.maint = w.recording.val + 1) : Keeps s (s.mountWalk w) := by
  simp only [State.mountWalk]
  split
  · exact mountRecorded_keeps w s h hn
  · split
    · exact scanOn_keeps s (.head w) _ h (by rw [hn]; exact le_refl _)
    · exact mountRepair_keeps w _ s h hn

theorem repairReported_keeps (s : State) : Keeps s s.repairReported := by
  simp only [State.repairReported]
  split
  · rename_i w hw
    exact (countDamage_keeps s).trans (mountWalk_keeps _ _ (by simp [hw, isMount]) (by simp [hw, claimedRecordings]))
  · exact .refl s

/-- The label read of the scan: the directory reads begin, or the store becomes UNFORMATTED (R138). -/
theorem mountLabel_keeps (contents) (s : State) (h : isMount s.maint = true) : Keeps s (mountLabel contents s) := by
  simp only [mountLabel]
  split
  · refine Keeps.trans (t := { s with store := { s.store.clearAll with state := .unformatted, label := none }, maint := none })
      (KeepsButAccounts.keeps ?_ fun hm hr hb => unclaimed_accounts hb (mounting_empty s h hm hr) _ none
        (clearAll_entry s.store) (Nat.zero_le _) rfl) (sendEvent_keeps ..)
    exact ⟨⟨rfl, rfl, rfl, rfl, rfl, id, id, id, fun _ => ⟨⟨List.Pairwise.nil, fun _ h => absurd h (List.not_mem_nil), rfl,
      fun _ => rfl⟩, by simp [isMount]⟩, fun k hr => ⟨(sum_empty s (mounting_empty s h k hr)).symm,
        fun j hj => absurd (mounting_empty s h k hr j) hj⟩, fun _ h => .inl h⟩, id⟩
  · rename_i l _
    exact (setLabel_keeps s _).trans (scanOn_keeps _ (.directory 1) _ h (Nat.zero_le _))

/-- An entry loaded by a directory read, while the scan has come to no recording yet. -/
theorem setEntry_keeps (s : State) (r e) (h : claimedRecordings s.maint = 0) : Keeps s (s.modifyStore fun m => m.setEntry r e) :=
  (setEntry_but s r e).keeps fun _ _ hb => same_accounts
    (recording_accounts hb r e (s.store.setEntry r e) s.maint rfl hb.reservations (fun _ _ hj => hj) fun b => by
      rw [h, if_neg (Nat.not_lt_zero _), List.count_nil, Nat.zero_add]
      show _ + (if b ∈ s.store.used then 1 else 0) ≤ _ + _ + if b ∈ s.store.used then 1 else 0
      omega) rfl rfl rfl rfl rfl

theorem mountDirectory_keeps (block contents) (s : State) (h : isMount s.maint = true) (hn : claimedRecordings s.maint = 0) :
    Keeps s (mountDirectory block contents s) := by
  simp only [mountDirectory]
  have h1 : ∀ u : State, Keeps s u → u.maint = s.maint →
      Keeps s (if block < 16 then u.beginMaintenance (.mount (.directory (block + 1))) (.read (block + 1))
        else u.mountRecordings (ascending 32)) := fun u hu hm => by
    split
    · exact hu.trans (scanOn_keeps u (.directory (block + 1)) _ (by rw [hm]; exact h) (Nat.zero_le _))
    · exact hu.trans (mountRecordings_keeps 0 u (by rw [hm]; exact h) (by rw [hm]; exact hn))
  refine h1 _ ?_ ?_
  · split
    · rename_i e0 e1 _
      exact (setEntry_keeps s (directoryFirst block) e0 hn).trans
        (setEntry_keeps (s.modifyStore fun m => m.setEntry (directoryFirst block) e0) (directorySecond block) e1 hn)
    · exact (setEntry_keeps s (directoryFirst block) none hn).trans <|
        (setEntry_keeps (s.modifyStore fun m => m.setEntry (directoryFirst block) none) (directorySecond block) none hn).trans
          (countDamage_keeps _)
  · split <;> rfl

theorem mountIndex_keeps (r p rest kept damaged contents) (s : State) (h : isMount s.maint = true)
    (hn : claimedRecordings s.maint = r.val + 1) : Keeps s (mountIndex r p rest kept damaged contents s) := by
  simp only [mountIndex]
  split
  · exact scanOn_keeps s (.index r _ _ _) _ h (by rw [hn]; exact le_refl _)
  · exact mountWalk_keeps _ s h hn

/-- The blocks of a head that mounts an entry lie in the data area (R141). -/
theorem mountedHead_inDataArea (used m newest r x contents hd) (h : mountedHead used m newest r x contents = some hd) :
    ∀ b ∈ x.head :: hd.blocks, inDataArea b = true := by
  simp only [mountedHead, Option.filter_eq_some_iff, Bool.and_eq_true, decide_eq_true_eq] at h
  obtain ⟨hr, ⟨⟨⟨_, hx⟩, _⟩, _⟩, _⟩ := h
  intro b hb
  rcases List.mem_cons.1 hb with rfl | hb
  · exact hx
  · simp only [readHead, Option.bind_eq_bind, Option.bind_eq_some_iff] at hr
    obtain ⟨h', _, hh⟩ := hr
    split at hh
    · rename_i hc
      simp only [Option.some.injEq] at hh; subst hh
      simp only [Bool.and_eq_true, List.all_eq_true] at hc
      exact hc.2 b hb
    · simp at hh

/-- Marked blocks join those that are used. -/
theorem mem_markBlocks (bs : List Nat) : ∀ (m : StoreManager) (b : Nat), b ∈ m.used → b ∈ (bs.foldl (·.markBlock ·) m).used := by
  induction bs with
  | nil => intro m b h; exact h
  | cons x bs ih => intro m b h; exact ih _ b ((mem_insertUsed x b m.used).2 (.inr h))

theorem mountHead_keeps (w x contents) (s : State) (h : isMount s.maint = true)
    (hn : claimedRecordings s.maint = w.recording.val + 1) : Keeps s (mountHead w x contents s) := by
  simp only [mountHead]
  split
  · rename_i hd hh
    have hspec := markBlocks_spec (x.head :: hd.blocks) s.store
    refine Keeps.trans ((storeOk_but s ((x.head :: hd.blocks).foldl (·.markBlock ·) s.store) (fun k =>
      markBlocks_ok _ _ k.1 (mountedHead_inDataArea _ _ _ _ _ _ _ hh) (k.2.1 h)) (by rw [hspec]) (by rw [hspec])).keeps
        fun hm _ hb => store_accounts hb _ (by rw [hspec]) (fun hne => absurd (hm.2.1 h) (by rw [hspec] at hne; exact hne))
          fun b hu _ => mem_markBlocks _ _ b hu) (mountWalk_keeps _ _ h hn)
  · exact mountRepair_keeps w x s h hn

/-! ### The Release Unit -/

/-- A job parked in the place that it already occupied: what changes is where the places are. -/
theorem park_butPlaces (s : State) (j) : KeepsButPlaces s (s.park j) :=
  ⟨⟨rfl, rfl, rfl, rfl, rfl, id, id, id, id, fun _ h => h, fun _ h => .inl h⟩, fun _ _ h => same_accounts h rfl rfl rfl rfl rfl⟩

theorem release_butPlaces (s : State) (u : ReleaseUnit) : KeepsButPlaces s { s with release := u } :=
  ⟨⟨rfl, rfl, rfl, rfl, rfl, id, id, id, id, fun _ h => h, fun _ h => .inl h⟩, fun _ _ h => same_accounts h rfl rfl rfl rfl rfl⟩

theorem index_butPlaces (s : State) (u : IndexUnit) (hq : u.queue = s.index.queue) : KeepsButPlaces s { s with index := u } :=
  ⟨⟨rfl, rfl, rfl, rfl, rfl, id, id, id, id, fun _ h => h, fun _ h => .inl h⟩, fun _ _ h => same_accounts h rfl rfl rfl rfl hq⟩

/-- A change of the Release Unit that occupies no more places than before. -/
theorem release_keeps (s : State) (u : ReleaseUnit)
    (h : u.queue.length + u.parked.length ≤ s.release.queue.length + s.release.parked.length) :
    Keeps s { s with release := u } :=
  ⟨release_butPlaces s u, fun hp => ⟨by have := hp.1; simp only [Config.releasePlaces] at *; omega, hp.2⟩⟩

theorem pinRemoved_keeps (s : State) (head) : Keeps s (s.pinRemoved head) := by
  simp only [State.pinRemoved]
  split
  · exact .refl s
  · refine release_keeps s _ ?_
    have h : ∀ l : List ReleaseJob,
        (l.filter (·.head != head)).length + (l.filter (·.head == head)).length = l.length := by
      intro l
      induction l with
      | nil => rfl
      | cons j l ih => by_cases hj : j.head = head <;> simp [hj] <;> omega
    have := h s.release.parked
    simp only [List.length_append]
    omega

theorem closePort_keeps (s : State) (p) : Keeps s (s.closePort p) := by
  simp only [State.closePort]
  split
  · exact (setReadPort_keeps s p _).trans (pinRemoved_keeps _ _)
  · exact setReadPort_keeps s p _

/-- The job at the head of the queue is parked (R131, R133). -/
theorem parkTaken_keeps (s : State) (j js) (reading : Bool) (h : s.release.queue = j :: js) :
    Keeps s (({ s with release := { s.release with queue := js, reading := reading } }).park j) :=
  ⟨(release_butPlaces s _).trans (park_butPlaces _ j), fun hp => by
    refine ⟨?_, hp.2⟩
    have := hp.1
    rw [h] at this
    show js.length + (s.release.parked ++ [j]).length + s.index.held ≤ _
    simp only [List.length_cons, List.length_append, List.length_nil] at *
    omega⟩

theorem releaseHead_spec (m : StoreManager) (j contents) :
    (MapOk m → MapOk (m.releaseHead j contents)) ∧ (m.releaseHead j contents).state = m.state ∧
      (m.releaseHead j contents).reserved = m.reserved := by
  simp only [StoreManager.releaseHead]
  split
  · exact ⟨fun h => freeBlock_ok _ _ (freeBlocks_ok _ _ h), by rw [freeBlock_state, freeBlocks_state],
      by rw [freeBlock_reserved, freeBlocks_reserved]⟩
  · exact ⟨fun h => freeBlock_ok _ _ h, freeBlock_state .., freeBlock_reserved ..⟩

/-- The blocks that a head read brings back, the head among them (R131). -/
def releasedBlocks (j : ReleaseJob) (contents : List Byte) : List Nat :=
  ((readHead j.recording contents).elim [] (·.blocks)) ++ [j.head]

theorem releaseHead_freeBlocks (m : StoreManager) (j contents) :
    m.releaseHead j contents = m.freeBlocks (releasedBlocks j contents) ∨
      m.releaseHead j contents = (m.freeBlocks (releasedBlocks j contents)).countDamage := by
  simp only [StoreManager.releaseHead, releasedBlocks]
  split
  · rename_i h hh; left; simp [hh, StoreManager.freeBlocks]
  · rename_i hh; right; simp [hh, StoreManager.freeBlocks]

theorem releaseRead_but (s : State) (j js contents) (h : s.release.queue = j :: js) :
    KeepsButAccounts s (s.releaseRead j js contents) := by
  simp only [State.releaseRead]
  split
  · exact (release_keeps s _ (by rw [h]; simp)).but
  · split
    · exact (parkTaken_keeps s j js false h).but
    · have hs := releaseHead_spec s.store j contents
      exact (release_keeps s _ (by rw [h]; simp)).but.trans (store_but _ _ hs.1 hs.2.1 hs.2.2)

/-- A head read that brings back no block that a slot or a recording's index claims (R131). -/
theorem releaseRead_accounts {s : State} (hb : BlocksAccounted s) (j js contents)
    (hf : ∀ b ∈ releasedBlocks j contents, blockClaims s b = 0) : BlocksAccounted (s.releaseRead j js contents) := by
  simp only [State.releaseRead]
  have h1 : BlocksAccounted { s with release := { s.release with queue := js, reading := false } } :=
    same_accounts hb rfl rfl rfl rfl rfl
  split
  · exact h1
  · split
    · exact same_accounts h1 rfl rfl rfl rfl rfl
    · have h2 := freeBlocks_accounts h1 _ hf
      rcases releaseHead_freeBlocks s.store j contents with h | h <;> simp only [State.modifyStore, h]
      · exact h2
      · exact store_accounts h2 _ rfl h2.reservations fun b hu _ => hu

/-! ### The Index Unit -/

/-- The job in progress leaves the queue and holds no places any more. -/
theorem jobFinished_keeps (s : State) : Keeps s s.jobFinished :=
  ⟨⟨⟨rfl, rfl, rfl, rfl, rfl, id, id, id, id, fun _ h => h, fun _ h => .inl h⟩, fun _ _ h =>
      ⟨h.reservations, h.claims, h.tidy, h.requests, h.jobs.1.sublist ((List.tail_sublist _).filterMap _), fun k hk =>
        h.jobs.2 k (((List.tail_sublist _).filterMap _).subset hk)⟩⟩, fun hp => ⟨by
    have := hp.1
    show s.release.queue.length + s.release.parked.length + 0 ≤ _
    omega, rfl⟩⟩

/-- The slot of the COMMIT job in progress is COMMITTING, and has no other job (R69). -/
theorem commitJob {s : State} (hb : BlocksAccounted s) (k r h t js) (hq : s.index.queue = .commit k r h t :: js) :
    (∃ c e, (s.slot k).capture = some c ∧ c.phase = .committing e) ∧ k ∉ s.jobFinished.index.queue.filterMap commitSlot? := by
  have hj := hb.jobs
  rw [CommitJobsSuit, hq] at hj
  simp only [List.filterMap_cons, commitSlot?, List.nodup_cons] at hj
  refine ⟨hj.2 k (List.mem_cons_self ..), ?_⟩
  show k ∉ s.index.queue.tail.filterMap commitSlot?
  rw [hq]
  exact hj.1.1

theorem voidSetReported_keeps (n) (s : State) : Keeps s (s.voidSetReported n) := by
  simp only [State.voidSetReported]
  split
  · exact eraseNext_keeps _ _ _ _ _ s (by simp [isMount, *])
  · exact .refl s

theorem endsUnwritten_keeps (j : IndexJob) (js) (s : State) (hq : s.index.queue = j :: js) : Keeps s (j.endsUnwritten s) := by
  cases j with
  | commit k r h t =>
    refine ((jobFinished_keeps s).but.trans (slotLimited_but k _)).keeps fun hm hr hb => ?_
    obtain ⟨⟨c, e, hc, hp⟩, hk⟩ := commitJob hb k r h t js hq
    have hs := (jobFinished_keeps s).store ⟨hm, hr, hb⟩
    exact slotLimited_accounts hs.1 hs.2.1 hs.2.2 k c e hc hp hk
  | voidSet => exact (jobFinished_keeps s).trans (voidSetReported_keeps _ _)
  | repair => exact (jobFinished_keeps s).trans (repairReported_keeps _)

/-- A change of phase by which no places are held or due. -/
theorem phase_keeps (s : State) (p : IndexPhase) (h : placesDue p = placesDue s.index.phase) :
    Keeps s { s with index := { s.index with phase := p } } :=
  ⟨index_butPlaces s _ rfl, fun hp => ⟨hp.1, hp.2.trans h.symm⟩⟩

/-- The hold of a job that is not writing: exactly the places that its write sends, and no more than there is room
for (R130). -/
theorem holdAndWrite_keeps (n w) (s : State) (h : placesDue s.index.phase = 0) : Keeps s (s.holdAndWrite n w) := by
  simp only [State.holdAndWrite]
  split
  · rename_i hr
    refine Keeps.trans (t := { s with index := { s.index with phase := .writing n w, held := w.sends.length } })
      ⟨index_butPlaces s _ rfl, fun hp => ⟨?_, rfl⟩⟩ (present_keeps _ _ _ (by simp))
    have h1 := hp.1
    have h2 := hp.2.trans h
    simp only [State.releaseRoom] at hr
    show s.release.queue.length + s.release.parked.length + w.sends.length ≤ _
    simp only [Config.releasePlaces] at *
    omega
  · exact phase_keeps s _ h.symm

theorem indexRead_keeps (j js n contents) (s : State) (h : placesDue s.index.phase = 0) (hq : s.index.queue = j :: js) :
    Keeps s (indexRead j n contents s) := by
  simp only [indexRead]
  split
  · exact (countDamage_keeps s).trans (endsUnwritten_keeps j js _ hq)
  · split
    · exact endsUnwritten_keeps j js s hq
    · exact holdAndWrite_keeps _ _ s h

/-- A job placed in a held place: the places occupied stay the same in number. -/
theorem placeHeld_spec (s : State) (j : ReleaseJob) :
    KeepsButPlaces s (s.placeHeld j) ∧ (s.placeHeld j).index = { s.index with held := s.index.held - 1 } ∧
      (s.placeHeld j).slots = s.slots ∧
      (s.placeHeld j).release.queue.length + (s.placeHeld j).release.parked.length
        = s.release.queue.length + s.release.parked.length + 1 := by
  simp only [State.placeHeld]
  split
  · exact ⟨(index_butPlaces s { s.index with held := s.index.held - 1 } rfl).trans (park_butPlaces _ j), rfl, rfl, by
      show s.release.queue.length + (s.release.parked ++ [j]).length = _
      simp only [List.length_append, List.length_singleton]; omega⟩
  · exact ⟨(index_butPlaces s { s.index with held := s.index.held - 1 } rfl).trans (release_butPlaces _ _), rfl, rfl, by
      show (s.release.queue ++ [j]).length + s.release.parked.length = _
      simp only [List.length_append, List.length_singleton]; omega⟩

theorem placeAllHeld_spec (r : RecIx) (hs : List Nat) : ∀ s : State,
    KeepsButPlaces s (s.placeAllHeld r hs) ∧ (s.placeAllHeld r hs).index = { s.index with held := s.index.held - hs.length } ∧
      (s.placeAllHeld r hs).slots = s.slots ∧
      (s.placeAllHeld r hs).release.queue.length + (s.placeAllHeld r hs).release.parked.length
        = s.release.queue.length + s.release.parked.length + hs.length := by
  induction hs with
  | nil => intro s; exact ⟨.refl s, rfl, rfl, rfl⟩
  | cons h hs ih =>
    intro s
    have h1 := placeHeld_spec s ⟨h, r⟩
    have h2 := ih (s.placeHeld ⟨h, r⟩)
    refine ⟨h1.1.trans h2.1, ?_, h2.2.2.1.trans h1.2.2.1, ?_⟩
    · show (State.placeAllHeld r hs (s.placeHeld ⟨h, r⟩)).index = _
      rw [h2.2.1, h1.2.1]
      simp only [List.length_cons]
      congr 1
      omega
    · show (State.placeAllHeld r hs (s.placeHeld ⟨h, r⟩)).release.queue.length
        + (State.placeAllHeld r hs (s.placeHeld ⟨h, r⟩)).release.parked.length = _
      rw [h2.2.2.2, h1.2.2.2, List.length_cons]
      omega

/-- The release jobs of a written job placed, and the job finished: the places held become places of the queue and the
parked list (R126, R130). -/
theorem placedAndFinished_keeps (r : RecIx) (s : State) (n w) (h : s.index.phase = .writing n w) :
    Keeps s (s.placeAllHeld r w.sends).jobFinished := by
  have hs := placeAllHeld_spec r w.sends s
  refine ⟨hs.1.trans (jobFinished_keeps _).toKeepsButPlaces, fun hp => ⟨?_, rfl⟩⟩
  have h1 := hp.1
  have h2 := hp.2
  rw [h] at h2
  simp only [placesDue] at h2
  show (s.placeAllHeld r w.sends).release.queue.length + (s.placeAllHeld r w.sends).release.parked.length + 0 ≤ _
  rw [hs.2.2.2]
  omega

theorem indexWrote_keeps (j js n w) (s : State) (h : s.index.phase = .writing n w) (hq : s.index.queue = j :: js) :
    Keeps s (indexWrote j n w s) := by
  cases j with
  | commit k r head t =>
    have h1 : Keeps s ((s.modifyStore fun m => m.count r n
        (if w.sends = [] then (s.store.recording r).present + 1 else (s.store.recording r).present)).placeAllHeld r
          w.sends).jobFinished :=
      (count_keeps s r n _).trans (placedAndFinished_keeps r (s.modifyStore _) n w h)
    refine (h1.but.trans (slotCommitted_but k _)).keeps fun hm hr hb => ?_
    obtain ⟨⟨c, e, hc, hp⟩, hk⟩ := commitJob hb k r head t js hq
    have hs := placeAllHeld_spec r w.sends
      (s.modifyStore fun m => m.count r n
        (if w.sends = [] then (s.store.recording r).present + 1 else (s.store.recording r).present))
    refine slotCommitted_accounts (h1.accounts hm hr hb) k c e ?_ hp ?_
    · simp only [State.slot] at hc ⊢
      show (Vector.get (State.placeAllHeld _ _ _).slots k).capture = _
      rw [hs.2.2.1]
      exact hc
    · show k ∉ (State.placeAllHeld _ _ _).index.queue.tail.filterMap commitSlot?
      rw [hs.2.1]
      exact hk
  | voidSet =>
    exact (count_keeps s _ _ _).trans <| (placedAndFinished_keeps _ (s.modifyStore _) n w h).trans (voidSetReported_keeps _ _)
  | repair => exact (jobFinished_keeps s).trans (repairReported_keeps _)

/-! ### Readout -/

theorem openFailed_keeps (s : State) (p) : Keeps s (s.openFailed p) := (closePort_keeps s p).trans (refuse_keeps _ _)

theorem readOn_keeps (p r k) : ∀ (needed : List Nat) (taken : List CachedBlock) (s : State),
    Keeps s (State.readOn p r k taken needed s)
  | [], taken, s => Keeps.trans (Keeps.trans (.loose ..) (setReadPort_keeps { s with reading := none } p _)) (portAnswer_keeps ..)
  | j :: js, taken, s => by
    simp only [State.readOn]
    split
    · exact readOn_keeps p r k js _ s
    · exact Keeps.trans (Keeps.trans (.loose ..) (awaitReads_keeps { s with reading := _ } _)) (present_keeps _ _ _ (by simp))

theorem readBlockRead_keeps (s : State) (x r j js contents) : Keeps s (s.readBlockRead x r j js contents) := by
  simp only [State.readBlockRead]
  split
  · exact readOn_keeps ..
  · exact Keeps.trans (Keeps.trans (.loose ..) (setReadPort_keeps { s with reading := none } x.port _)) (portAnswer_keeps ..)

theorem portStep_keeps (s : State) (c f) (h : ∀ q p, Keeps s (f q p s)) : Keeps s (s.portStep c f) := by
  refine ownerStep_keeps s c _ fun q _ _ => ?_
  split
  · exact h ..
  · exact refuse_keeps ..

theorem onOpenPort_keeps (s : State) (p f) (h : ∀ r, s.readPort p = .opened r → Keeps s (f r)) : Keeps s (s.onOpenPort p f) := by
  simp only [State.onOpenPort]
  split
  · exact h _ (by assumption)
  · exact refuse_keeps ..

/-! ### The Management Unit -/

theorem placeResponse_keeps (s : State) (f restart) : Keeps s (s.placeResponse f restart) :=
  (chooseB_keeps s { s.link with response := some f } rfl rfl).trans (Keeps.loose (mgmt := _) ..)

theorem handOver_keeps (s : State) (f) : Keeps s (s.handOver f) := by
  simp only [State.handOver]
  split
  · split
    · exact .loose ..
    · exact Keeps.trans (.loose (mgmt := _) ..) (refuse_keeps _ _)
  · exact .loose ..

theorem takeData_keeps (f) (s : State) : Keeps s (s.takeData f) := by
  simp only [State.takeData]
  split
  · refine (offerFrame_keeps f s).trans ?_
    generalize s.offerFrame f = y
    split
    · exact (countLink_keeps _ _).trans (placeB_keeps _ _)
    · exact placeB_keeps _ _
  · exact (countLink_keeps s _).trans (placeB_keeps _ _)

theorem takeOnA_keeps (f) (s : State) : Keeps s (s.takeOnA f) := by
  simp only [State.takeOnA]
  split
  · exact (countLink_keeps s _).trans (placeB_keeps _ _)
  · exact (countLink_keeps s _).trans (takeData_keeps _ _)
  · exact (countLink_keeps s _).trans (placeB_keeps _ _)

theorem takeCycle_keeps (f) (s : State) : Keeps s (s.takeCycle f) :=
  Keeps.trans (t := { s with time := s.time.afterCycle (epochFlag f) }) (.loose ..) <|
    (tickRules_keeps _).trans <| (tickSlots_keeps _).trans (placeA_keeps _ _)

theorem takeOnB_keeps (f) (s : State) : Keeps s (s.takeOnB f) := by
  simp only [State.takeOnB]
  split
  · exact (countLink_keeps s _).trans (placeA_keeps _ _)
  · exact (countLink_keeps s _).trans (takeCycle_keeps _ _)
  · split
    · exact (countLink_keeps s _).trans (handOver_keeps _ _)
    · exact (countLink_keeps s _).trans (placeA_keeps _ _)
  · exact (countLink_keeps s _).trans (placeA_keeps _ _)

end Sys2Proof.Machine
end

