-- ==== Sys2Proof/Laws/PerInstr.lean ====
section
/-!
SUPPORT. What holds of every command as syntax, one lemma per constructor. Family Arrival: a command is ill formed only
if it brings a frame, and then that frame is not of the command's kind (R160).
-/

namespace Sys2Proof.Laws.Arrival

/-- An ill-formed command is an arrival, and the kind of its frame is one that the command does not bring. -/
def Statement (i : Instr) : Prop :=
  i.WellFormed = false → ∃ f, i.frame? = some f ∧
    match i with
    | .dataFrameArrival _ => frameKind f ≠ .data
    | .cycleFrameArrival _ => frameKind f ≠ .cycle
    | .mreqArrival _ => frameKind f ≠ .mreq
    | .frameForward .a _ => frameKind f = .data
    | .frameForward .b _ => frameKind f = .cycle
    | _ => False

theorem powerOn (straps : BitVec 6) : Statement (.powerOn straps) := fun h => by simp [Instr.WellFormed] at h
theorem resetAssert : Statement .resetAssert := fun h => absurd h (by decide)
theorem bypassEntry (d : Direction) : Statement (.bypassEntry d) := fun h => by simp [Instr.WellFormed] at h
theorem resetRelease (straps : BitVec 6) : Statement (.resetRelease straps) := fun h => by simp [Instr.WellFormed] at h
theorem bypassTakeover (d : Direction) : Statement (.bypassTakeover d) := fun h => by simp [Instr.WellFormed] at h
theorem protectAssert : Statement .protectAssert := fun h => absurd h (by decide)
theorem protectRelease : Statement .protectRelease := fun h => absurd h (by decide)
theorem dataFrameArrival (f : Frame) : Statement (.dataFrameArrival f) :=
  fun h => ⟨f, rfl, fun e => by simp [Instr.WellFormed, e] at h⟩
theorem cycleFrameArrival (f : Frame) : Statement (.cycleFrameArrival f) :=
  fun h => ⟨f, rfl, fun e => by simp [Instr.WellFormed, e] at h⟩
theorem mreqArrival (f : Frame) : Statement (.mreqArrival f) :=
  fun h => ⟨f, rfl, fun e => by simp [Instr.WellFormed, e] at h⟩
theorem frameForward (p : LinkPort) (f : Frame) : Statement (.frameForward p f) := by
  intro h
  refine ⟨f, rfl, ?_⟩
  cases p
  · by_contra hk
    simp [Instr.WellFormed, hk] at h
  · by_contra hk
    simp [Instr.WellFormed, hk] at h
theorem portBSendDone : Statement .portBSendDone := fun h => absurd h (by decide)
theorem portASendDone : Statement .portASendDone := fun h => absurd h (by decide)
theorem periodExpiry (i : Fin 64) : Statement (.periodExpiry i) := fun h => by simp [Instr.WellFormed] at h
theorem silenceTimerExpiry (k : Fin 8) : Statement (.silenceTimerExpiry k) := fun h => by simp [Instr.WellFormed] at h
theorem responseHeldPlaced : Statement .responseHeldPlaced := fun h => absurd h (by decide)
theorem streamLoad : Statement .streamLoad := fun h => absurd h (by decide)
theorem streamDrop : Statement .streamDrop := fun h => absurd h (by decide)
theorem streamQuery : Statement .streamQuery := fun h => absurd h (by decide)
theorem ruleLoad : Statement .ruleLoad := fun h => absurd h (by decide)
theorem ruleEnable : Statement .ruleEnable := fun h => absurd h (by decide)
theorem ruleDisable : Statement .ruleDisable := fun h => absurd h (by decide)
theorem ruleUnload : Statement .ruleUnload := fun h => absurd h (by decide)
theorem ruleQuery : Statement .ruleQuery := fun h => absurd h (by decide)
theorem fire : Statement .fire := fun h => absurd h (by decide)
theorem unfire : Statement .unfire := fun h => absurd h (by decide)
theorem slotsQuery : Statement .slotsQuery := fun h => absurd h (by decide)
theorem cut : Statement .cut := fun h => absurd h (by decide)
theorem controlSet : Statement .controlSet := fun h => absurd h (by decide)
theorem clearConditions : Statement .clearConditions := fun h => absurd h (by decide)
theorem conditionsQuery : Statement .conditionsQuery := fun h => absurd h (by decide)
theorem format : Statement .format := fun h => absurd h (by decide)
theorem create : Statement .create := fun h => absurd h (by decide)
theorem delete : Statement .delete := fun h => absurd h (by decide)
theorem erase : Statement .erase := fun h => absurd h (by decide)
theorem storeQuery : Statement .storeQuery := fun h => absurd h (by decide)
theorem recordingQuery : Statement .recordingQuery := fun h => absurd h (by decide)
theorem status : Statement .status := fun h => absurd h (by decide)
theorem identify : Statement .identify := fun h => absurd h (by decide)
theorem restart : Statement .restart := fun h => absurd h (by decide)
theorem restartPoint : Statement .restartPoint := fun h => absurd h (by decide)
theorem portOpen : Statement .portOpen := fun h => absurd h (by decide)
theorem portPosition : Statement .portPosition := fun h => absurd h (by decide)
theorem portRead : Statement .portRead := fun h => absurd h (by decide)
theorem portInfo : Statement .portInfo := fun h => absurd h (by decide)
theorem portClose : Statement .portClose := fun h => absurd h (by decide)
theorem slotDataWriteComplete : Statement .slotDataWriteComplete := fun h => absurd h (by decide)
theorem slotHeadWriteComplete : Statement .slotHeadWriteComplete := fun h => absurd h (by decide)
theorem indexJobTake : Statement .indexJobTake := fun h => absurd h (by decide)
theorem indexReadComplete : Statement .indexReadComplete := fun h => absurd h (by decide)
theorem indexReleaseHold : Statement .indexReleaseHold := fun h => absurd h (by decide)
theorem indexWriteComplete : Statement .indexWriteComplete := fun h => absurd h (by decide)
theorem releaseJobTake : Statement .releaseJobTake := fun h => absurd h (by decide)
theorem releaseHeadReadComplete : Statement .releaseHeadReadComplete := fun h => absurd h (by decide)
theorem deleteReleaseJobPlace : Statement .deleteReleaseJobPlace := fun h => absurd h (by decide)
theorem formatDirectoryReadComplete : Statement .formatDirectoryReadComplete := fun h => absurd h (by decide)
theorem formatLabelWriteComplete : Statement .formatLabelWriteComplete := fun h => absurd h (by decide)
theorem formatDirectoryWriteComplete : Statement .formatDirectoryWriteComplete := fun h => absurd h (by decide)
theorem createIndexWriteComplete : Statement .createIndexWriteComplete := fun h => absurd h (by decide)
theorem createDirectoryWriteComplete : Statement .createDirectoryWriteComplete := fun h => absurd h (by decide)
theorem deleteDirectoryWriteComplete : Statement .deleteDirectoryWriteComplete := fun h => absurd h (by decide)
theorem deleteIndexReadComplete : Statement .deleteIndexReadComplete := fun h => absurd h (by decide)
theorem mountLabelReadComplete : Statement .mountLabelReadComplete := fun h => absurd h (by decide)
theorem mountDirectoryReadComplete : Statement .mountDirectoryReadComplete := fun h => absurd h (by decide)
theorem mountIndexReadComplete : Statement .mountIndexReadComplete := fun h => absurd h (by decide)
theorem mountHeadReadComplete : Statement .mountHeadReadComplete := fun h => absurd h (by decide)
theorem openIndexReadComplete : Statement .openIndexReadComplete := fun h => absurd h (by decide)
theorem openHeadReadComplete : Statement .openHeadReadComplete := fun h => absurd h (by decide)
theorem readDataBlockComplete : Statement .readDataBlockComplete := fun h => absurd h (by decide)
theorem powerLoss : Statement .powerLoss := fun h => absurd h (by decide)

end Sys2Proof.Laws.Arrival
end

