-- ==== Sys2Proof/Laws/Placement.lean ====
section
/-!
SUPPORT. First fit (R4): the cell that `firstFit` gives is the lowest at which a run of the length is free, and it
gives none only when there is none.
-/

namespace Sys2Proof.Laws

open Machine

theorem runFree_iff (rings : List (Nat × Nat)) (length b : Nat) :
    runFree rings length b = true ↔
      b + length ≤ Config.sampleCells ∧ ∀ r ∈ rings, b + length ≤ r.1 ∨ r.1 + r.2 ≤ b := by
  simp [runFree]

/-- The lowest free cell is 0 or the cell after a ring. -/
theorem least_mem (rings : List (Nat × Nat)) (length b : Nat) (h : runFree rings length b = true)
    (hl : ∀ x, x < b → runFree rings length x = false) : b ∈ (0 :: rings.map fun r => r.1 + r.2) := by
  by_cases h0 : b = 0
  · simp [h0]
  · have hn := hl (b - 1) (by omega)
    rw [runFree_iff] at h
    have : ¬(b - 1 + length ≤ Config.sampleCells ∧ ∀ r ∈ rings, b - 1 + length ≤ r.1 ∨ r.1 + r.2 ≤ b - 1) := by
      rw [← runFree_iff, hn]; decide
    have hx : ¬∀ r ∈ rings, b - 1 + length ≤ r.1 ∨ r.1 + r.2 ≤ b - 1 := fun hx => this ⟨by omega, hx⟩
    simp only [not_forall] at hx
    obtain ⟨r, hr, hx⟩ := hx
    have := h.2 r hr
    exact List.mem_cons_of_mem _ (List.mem_map.2 ⟨r, hr, by omega⟩)

/-- First fit gives the lowest free cell. -/
theorem firstFit_least (rings : List (Nat × Nat)) (length b : Nat) (h : firstFit rings length = some b) :
    runFree rings length b = true ∧ ∀ x, x < b → runFree rings length x = false := by
  simp only [firstFit, List.min?_eq_some_iff, List.mem_filter] at h
  refine ⟨h.1.2, fun x => ?_⟩
  induction x using Nat.strong_induction_on with
  | _ x ih =>
    intro hx
    cases hf : runFree rings length x
    · rfl
    · have := h.2 x ⟨least_mem rings length x hf fun y hy => ih y hy (by omega), hf⟩
      omega

/-- First fit gives none only when no run is free. -/
theorem firstFit_none (rings : List (Nat × Nat)) (length : Nat) (h : firstFit rings length = none) (b : Nat) :
    runFree rings length b = false := by
  simp only [firstFit, List.min?_eq_none_iff, List.filter_eq_nil_iff] at h
  induction b using Nat.strong_induction_on with
  | _ b ih =>
    cases hf : runFree rings length b
    · rfl
    · exact absurd hf (h b (least_mem rings length b hf ih))

end Sys2Proof.Laws
end

