-- ==== Sys2Proof/Tests/Slice0.lean ====
section
/-!
SUPPORT. Own tests: the WellFormed smoke, values that the spec writes out (its worked examples), and for each
statement that has hypotheses a state and operands that meet them.
-/

namespace Sys2Proof.Tests

set_option Elab.async false

open Machine

/-! ### Frames and commands (R189, section 10.1) -/

/-- A DATA frame of node 21, stream 3 with the given sequence, flags byte and samples. -/
def dataFrame (seq flags : Byte) (vs : List Sample) : Frame :=
  withCheck ([0xD1, 21, 3, seq, flags, BitVec.ofNat 8 vs.length] ++ (vs.map (wordBytes 2)).flatten)

/-- A CYCLE frame. -/
def cycleFrame (flags : Byte) : Frame := withCheck [0xC2, flags]

/-- An MREQ from node 63 with tag 9. -/
def mreq (destination port code : Byte) (args : List Byte) : Frame :=
  withCheck ([0xA3, destination, 63, 9, port, code] ++ args)

/-- Node 0 is outside 1 to 62. -/
def malformed : Frame := withCheck [0xD1, 0, 3, 1, 0, 1, 0, 5]

/-- A run of bytes whose check does not match. -/
def damaged : Frame := [0xC2, 0, 1, 2]

theorem test_crc_check_value : crc16 [0x31, 0x32, 0x33, 0x34, 0x35, 0x36, 0x37, 0x38, 0x39] = 0x29B1 := by decide +kernel
theorem test_frame_kinds : frameKind (dataFrame 1 0 [5]) = .data ∧ frameKind (cycleFrame 1) = .cycle ∧
    frameKind (mreq 1 0 60 []) = .mreq ∧ frameKind damaged = .badCheck ∧ frameKind malformed = .data := by decide +kernel
theorem test_wellFormed_data_rejects_cycle : Instr.WellFormed (.dataFrameArrival (cycleFrame 0)) = false := by decide +kernel
theorem test_wellFormed_cycle_rejects_data : Instr.WellFormed (.cycleFrameArrival (dataFrame 1 0 [5])) = false := by decide +kernel
theorem test_wellFormed_mreq_rejects_damaged : Instr.WellFormed (.mreqArrival damaged) = false := by decide +kernel
theorem test_wellFormed_forward_a_rejects_data : Instr.WellFormed (.frameForward .a (dataFrame 1 0 [5])) = false := by decide +kernel
theorem test_wellFormed_forward_b_rejects_cycle : Instr.WellFormed (.frameForward .b (cycleFrame 0)) = false := by decide +kernel
theorem test_wellFormed_accepts : Instr.WellFormed (.dataFrameArrival (dataFrame 1 0 [5])) = true ∧
    Instr.WellFormed (.frameForward .b (mreq 2 0 60 [])) = true ∧ Instr.WellFormed .status = true := by decide +kernel

/-- R164: the event flag is set, bits 1 to 7 are kept, the check is good again. -/
theorem test_mark : markFrame (dataFrame 1 0x82 [5]) = dataFrame 1 0x83 [5] := by decide +kernel

/-! ### Small states -/

/-- Both directions through, node address 1. -/
def live : State := { State.reset with link := { State.reset.link with aToB := .through, bToA := .through } }

/-- A READY store with nothing in it, Maintenance and the Store Port idle, status record empty. -/
def ready : State := { live with
  store := { StoreManager.start with state := .ready, label := some ⟨[0x41], 7⟩ }
  maint := none, port := .start, mgmt := { live.mgmt with status := .empty } }

/-- A request from node 63 with tag 9. -/
def asked (c : Command) (port : Byte) (args : List Byte) : Request := ⟨63, 9, port, 0, args, .owner c⟩

/-- The state with a request handed to its owner. -/
def handed (c : Command) (port : Byte) (args : List Byte) (s : State) : State :=
  { s with mgmt := { s.mgmt with phase := .processing, request := some (asked c port args) } }

theorem handed_meets (c : Command) (port : Byte) (args : List Byte) (s : State) :
    Handed (handed c port args s) c (asked c port args) := ⟨rfl, rfl⟩

theorem handedToPort_meets (c : Command) (args : List Byte) (s : State) :
    HandedToPort (handed c 1 args s) c (asked c 1 args) 0 := ⟨⟨rfl, rfl⟩, rfl⟩

/-- Stream 0 of node 21, stream number 3: ring of 512 cells from 0, LIVE, next 100, expected sequence 7. -/
def stream : StreamEntry :=
  { node := 21, stream := 3, base := 0, length := 512, next := 100, expected := some 7, previous := some 950,
    state := .live, framesTaken := 5, gapEvents := 0, oldFrames := 0 }

/-- Rule 7 of section 2.9 in a state. -/
def rule (st : RuleState) : Rule :=
  { kind := .above 1000 100 3, stream := 0, priority := 1, pre := 200, post := 300, silence := 0, recording := some 3,
    mark := true, once := false, state := st, periodCounter := none, fired := 0, missed := 0, cut := 0 }

/-- A MANUAL rule in a state. -/
def manual (st : RuleState) : Rule := { rule st with kind := .manual }

/-- A PERIODIC rule with its period counter at 1. -/
def periodic (st : RuleState) : Rule := { rule st with kind := .periodic 10, periodCounter := some 1 }

/-- Recording 4: WRAP, max 100, index blocks 17 to 19. -/
def recording : RecordingEntry := ⟨[0x52], .wrap, 100, [17, 18, 19], [true, true, true]⟩

/-- The ready state with stream 0, rule 7 and recording 4 (newest 2, present 2). -/
def work (st : RuleState) : State :=
  ({ ready with store := { ready.store with
      cache := tableSet ready.store.cache 3 (some recording)
      recordings := tableSet ready.store.recordings 3 (.defined 2 2), used := [17, 18, 19], free := 8172, cursor := 20 } } : State)
    |>.setStream 0 (some stream) |>.setRule 7 (some (rule st))

/-- A capture request of rule 7 on sample 99. -/
def captureAsked : CaptureRequest := ⟨7, 1, 0, 99, ⟨0, 5⟩, 200, 300, 0, 3⟩

/-- A capture of that request in a phase, with its head at 20 and one data block at 21. -/
def capture (p : CapturePhase) : Capture :=
  { request := captureAsked, phase := p, preActual := 99, first := 0, endSample := 398, head := 20, blocks := [21],
    remaining := 4, gaps := [], short := true, gapped := false, gapOverflow := false }

/-- The working state with that capture in slot 0, with its blocks taken and its reservation counted. -/
def busy (p : CapturePhase) : State :=
  ({ work .tripped with pointer := 1, store := { (work .tripped).store with
      used := [17, 18, 19, 20, 21], free := 8170, reserved := 4, cursor := 22 } } : State).setCapture 0 (some (capture p))

/-- The state with the Store Port busy with a request. -/
def granted (w : Requester) (op : StoreOp) (s : State) : State := { s with port := { s.port with busy := some ⟨w, op⟩ } }

/-! ### Values of the spec's worked examples -/

/-- Section 1.2, steps 2, 5 and 6. -/
theorem test_firstFit : firstFit [(0, 4096)] 8192 = some 4096 ∧ firstFit [(0, 4096), (12288, 2048)] 1000 = some 4096 ∧
    firstFit [(0, 4096), (4096, 1000), (12288, 2048)] 8192 = some 14336 := by decide +kernel

/-- The table of section 2.9: the states of rule 7 over samples 100 to 114; `none` is the firing at 111. -/
theorem test_rule_table :
    ((rule (.priming 3)).next 950 none = some (.priming 2)) ∧ ((rule (.priming 0)).next 1100 none = some .tripped) ∧
      ((rule .tripped).next 980 none = some .tripped) ∧ ((rule .tripped).next 850 none = some .armed) ∧
      ((rule .armed).next 1050 none = some (.pending 1)) ∧ ((rule (.pending 1)).next 1010 none = some (.pending 2)) ∧
      ((rule (.pending 2)).next 990 none = some .armed) ∧ ((rule (.pending 2)).next 1060 none = none) := by decide +kernel

/-- R55: all 200 samples before sample 2150 are in a ring of 512; of 20 samples before sample 5 only 5 exist. -/
theorem test_preActual : preActual 200 2150 512 = 200 ∧ preActual 20 5 512 = 5 ∧ preActual 480 2000 512 = 480 := by decide

/-- Section 11.2, step 2: the gain of slot 0 is 37. -/
theorem test_gain : Slot.gain
    { capture := some { capture (.collecting 480 none) with head := 100, blocks := [101, 102, 103, 104], remaining := 33 }
      buffer0 := .writing ⟨[], 103, 2⟩ false, buffer1 := .filled ⟨[], 104, 3⟩ } = 37 := by decide

/-- The close of section 11.2: had d2's completion been taken first, the gain would have been 38. -/
theorem test_gain_after_d2 : Slot.gain
    { capture := some { capture (.collecting 480 none) with head := 100, blocks := [101, 102, 103, 104], remaining := 33 }
      buffer0 := .free, buffer1 := .filled ⟨[], 104, 3⟩ } = 38 := by decide

/-- Sections 11.3 and 11.5: windows and places. -/
theorem test_window : windowStart 4 3 = 2 ∧ windowStart 7 3 = 5 ∧ windowStart 2 48 = 1 ∧ placeOf 3 7 = 0 ∧ placeOf 100 157 = 56 := by
  decide

theorem test_erasePositions : erasePositions 100 1 2 = [0] ∧ erasePositions 100 90 110 = [0, 1, 2] ∧
    erasePositions 100 149 160 = [1] ∧ erasePositions 100 1 100 = [0, 1, 2] := by decide +kernel

/-- R192: an index block written and read again gives its entries. -/
theorem test_index_block : readIndex 3 0 100 (indexBlock 3 0 100 (.present 101 20 500 :: .void 2 30 100 :: List.replicate 46 .unused))
    = some (.present 101 20 500 :: .void 2 30 100 :: List.replicate 46 .unused) := by
  simp only [readIndex, indexBlock, List.cons_append, blockIs_blockOf]
  decide +kernel

theorem test_label_block : readLabel (labelBlock [0x41, 0x42] 7) = some ⟨[0x41, 0x42], 7⟩ := by
  simp only [readLabel, labelBlock, List.cons_append, blockIs_blockOf]
  decide +kernel

theorem test_directory_block : readDirectory 2 7 (directoryBlock 2 7 none (some recording)) = some (none, some recording) := by
  simp only [readDirectory, directorySerial?, directoryBlock, List.cons_append, blockIs_blockOf]
  decide +kernel

/-- Section 11.1: 500 samples from a rule of 200 + 300 give a head that reads back. -/
def head : HeadInfo :=
  { recording := 4, rule := 7, priority := 1, node := 21, stream := 3, stamp := ⟨0, 5⟩, preRequested := 200, preActual := 200,
    postActual := 300, total := 500, cause := .complete, short := false, gapped := false, gapOverflow := false, gaps := [],
    blocks := [21, 22, 23, 24, 25] }

theorem test_head_block : readHead 3 (headBlock head) = some head := by
  simp only [readHead, decodeHead, headBlock, List.cons_append, blockIs_blockOf]
  decide +kernel

theorem test_data_block : readData 20 4 (dataBlock 20 4 [1, 2, 0xFFFF]) = some [1, 2, 0xFFFF] := by
  simp only [readData, dataBlock, List.cons_append, blockIs_blockOf]
  decide +kernel

theorem test_block_refused : readLabel [0x4C, 0, 0] = none ∧ readHead 3 (labelBlock [] 7) = none := by
  refine ⟨by decide +kernel, ?_⟩
  simp only [readHead, decodeHead, labelBlock, List.cons_append, blockIs_blockOf]
  decide +kernel

/-- Section 11.4, step 2: unmasking FULL with its flag set suspends capture with the event SUSPENDED(1, 65535). -/
theorem test_mask_change :
    let s : State := { ready with cond := { ready.cond with flags := 2, masks := 0xFD } }
    s.maskCheck.cond.state = .suspended ∧ s.maskCheck.cond.detail = some (.maskChange .full s.time) ∧
      s.maskCheck.mgmt.status = ⟨64, 1, 65535, 0⟩ := by decide +kernel

/-! ### States and operands that meet the hypotheses of the statements

Each theorem `test_meets_<Statement>` shows, clause by clause, a state and operands that meet what the clause assumes. -/

theorem test_meets_StepRunsTheFrontCommand : State.reset.pending = [] ∧ step State.reset = .next State.reset := ⟨rfl, rfl⟩

theorem test_meets_CommandsCompleteAndLinesMoveByTheirRows :
    exec (.cycleFrameArrival damaged) { State.reset with powered := false } = .fault .withoutPower ∧
      exec .status live = .next live := ⟨rfl, rfl⟩

/-- A state that meets every invariant: a READY store, a capture in slot 0, a command waiting. -/
def sound : State := { busy (.draining 120 .complete) with pending := [.protectAssert] }

theorem test_meets_StepKeeps : Canonical sound ∧ ConditionLaw sound ∧ EgressBounded sound ∧ MapAccounted sound ∧
    ReservationsMatch sound ∧ ReleasePlaces sound ∧ step sound = .next { sound with pending := [], protect := true } := by
  refine ⟨⟨⟨.nil, ?_⟩, .nil, ?_⟩, ⟨?_, ?_⟩, ⟨?_, ?_⟩, ⟨⟨?_, ?_, ?_, ?_⟩, ?_⟩, ⟨?_, fun _ _ => rfl⟩, ⟨?_, rfl⟩, rfl⟩
  all_goals decide +kernel

/-- Slot 0 claims 20 and 21, recording 4 its index blocks 17 to 19. -/
theorem test_meets_StepKeepsBlocks : BlocksAccounted sound := by
  have hslot : ∀ k, sound.slot k = ⟨some (capture (.draining 120 .complete)), .free, .free⟩ ∨ sound.slot k = .empty := by
    decide +kernel
  refine ⟨fun _ => by decide +kernel, claims_of_list sound (by decide +kernel) (by decide +kernel), fun k => ?_,
    fun k => ⟨fun op h => ?_, fun r h => ?_⟩, ?_, fun k h => ?_⟩
  · rcases hslot k with h | h <;> rw [h]
    · exact ⟨fun _ => ⟨rfl, rfl⟩, fun b h => (nomatch h), fun b h => (nomatch h)⟩
    · exact ⟨rfl, rfl⟩
  · cases h
  · cases h
  · exact .nil
  · cases h

/-- Slot 0's data block write in progress. -/
def writing (orphaned : Bool) : State :=
  granted (.slot 0) (.write 21 (List.replicate 256 0)) ((busy (.collecting 120 none)).setSlot 0
    { (busy (.collecting 120 none)).slot 0 with buffer0 := .writing ⟨[], 21, 0⟩ orphaned })

/-- Slot 0 with block 21 being written and block 22 FILLED, and next in the queue a DATA frame on which rule 7 fires, with a
request of priority 2 that preempts the slot. -/
def twoBlocks : State :=
  let s := (writing false).setSlot 0 ⟨some { capture (.collecting 120 none) with blocks := [21, 22], remaining := 3 },
    .writing ⟨[], 21, 0⟩ false, .filled ⟨[], 22, 1⟩⟩
  { s.setRule 7 (some { manual .due with priority := 2 }) with
    pending := [.dataFrameArrival (dataFrame 7 0 [5])]
    store := { s.store with used := [17, 18, 19, 20, 21, 22], free := 8169, reserved := 3, cursor := 23 }
    pointer := 0, cond := { s.cond with level := 2 } }

/-- The state after the completion of that write. -/
def completed (s : State) : State := match exec .slotDataWriteComplete s with | .next t => t | _ => s

/-- The completion that the request meets: block 22's write is presented and not yet granted (log 30). -/
def met : State := completed twoBlocks

theorem test_meets_ArrayChangesByTheGrantedWriteOnly :
    (∃ t, step { writing false with pending := [.slotDataWriteComplete] } = .next t) ∧
      (List.replicate 256 (0 : Byte)).length = 256 := ⟨⟨_, rfl⟩, List.length_replicate⟩

theorem test_meets_NoWriteStartsUnderProtect : (let s := { writing false with protect := true };
    s.protect = true ∧ Instr.protectAssert ≠ .protectRelease ∧ exec .protectAssert s = .next s ∧
      Granted s (.slot 0) (.write 21 (List.replicate 256 0))) := ⟨rfl, by decide, rfl, rfl⟩

/-- Requests that wait at an idle Store Port. -/
def waiting (rs : List StoreRequest) : State := { ready with port := { ready.port with waiting := rs, lastSlot := 1, lastPort := 4 } }

theorem test_meets_ArbiterChoosesByClassAndGrantsWhenIdle :
    (waiting [⟨.port 0, .read 9⟩, ⟨.index, .read 17⟩]).arbiterChoice = some ⟨.index, .read 17⟩ ∧
      (waiting [⟨.slot 1, .read 9⟩, ⟨.slot 2, .write 21 []⟩]).arbiterChoice = some ⟨.slot 2, .write 21 []⟩ ∧
      (waiting [⟨.port 0, .read 9⟩, ⟨.port 5, .read 9⟩]).arbiterChoice = some ⟨.port 5, .read 9⟩ ∧
      ({ waiting [⟨.index, .write 17 []⟩] with protect := true } : State).arbiterChoice = none ∧
      ((waiting []).port.busy = none ∧ (waiting []).mgmt.phase ≠ .restarting) ∧
      (granted .index (.read 17) ready).port.busy ≠ none ∧
      ({ ready with mgmt := { ready.mgmt with phase := .restarting } } : State).mgmt.phase = .restarting ∧
      (let s : State := { waiting [⟨.release, .read 9⟩] with index := { IndexUnit.start with queue := [.repair 0 0 0] } };
        s.arbiterChoice = some ⟨.release, .read 9⟩ ∧ 2 < Requester.release.rank ∧ s.index.phase = .idle ∧ s.index.queue ≠ []) ∧
      Requester.index.rank = 2 ∧ (waiting [⟨.release, .read 9⟩]).index.queue = [] := by decide +kernel

theorem test_meets_ClaimsTakeFromTheCursorAndFree :
    MapOk (busy (.collecting 120 none)).store ∧ (∃ m, (busy (.collecting 120 none)).store.takeReserved = some (22, m)) ∧
      (∃ m, { (busy (.collecting 120 none)).store with cursor := 8191 }.takeReserved = some (8191, m) ∧ m.cursor = 17) ∧
      (∃ m, { (busy (.collecting 120 none)).store with used := [17, 8191], cursor := 8191 }.takeReserved = some (18, m)) ∧
      20 ∈ (busy (.collecting 120 none)).store.used ∧ 22 ∉ (busy (.collecting 120 none)).store.used ∧
      (busy (.collecting 120 none)).store.used.length < 8175 ∧ 8170 + (busy (.collecting 120 none)).store.used.length ≤ 8175 := by
  refine ⟨⟨?_, ?_, ?_, ?_⟩, ⟨_, rfl⟩, ⟨_, rfl, rfl⟩, ⟨_, rfl⟩, ?_, ?_, ?_, ?_⟩ <;> decide +kernel

/-- A link through in both directions with frames that wait and frames being sent. -/
def link (fb fa : List Frame) (sb : Option SentFrame) (sa : Option Frame) : Link :=
  { live.link with fifoB := fb, fifoA := fa, sendingB := sb, sendingA := sa }

theorem test_meets_EgressPlacingAndSendDone :
    4 ≤ (link [[], [], [], []] [] none none).fifoB.length ∧ 4 ≤ (link [] [[], [], [], []] none none).fifoA.length ∧
      ((link [] [] none none).fifoB = [] ∧ (link [] [] none none).sendingB = none ∧ (link [] [] none none).aToB = .through) ∧
      ((link [] [] none none).fifoA = [] ∧ (link [] [] none none).sendingA = none ∧ (link [] [] none none).bToA = .through) ∧
      ((link [[], [], []] [] (some ⟨[], true⟩) none).fifoB.length < 4 ∧ (link [[]] [] (some ⟨[], true⟩) none).sendingB ≠ none) ∧
      ((link [] [[], [], []] none (some [])).fifoA.length < 4 ∧ (link [] [[]] none (some [])).sendingA ≠ none) ∧
      { link [] [] (some ⟨[], true⟩) none with response := some [1] }.response = some [1] := by decide +kernel

/-- The MRSP of another node to node 63, and one of the lengths that are none. -/
def mrsp (rest : List Byte) : Frame := withCheck ([0xA4, 63, 2, 9, 0, 60] ++ rest)

/-- Responses sent rises for the part's own MRSP and for a forwarded one, not for another frame (R170). -/
theorem test_responses_sent :
    let after (x : SentFrame) := ((link [] [] none none).sentB x).counters.responsesSent
    after ⟨mrsp [0, 0, 0], true⟩ = 1 ∧ after ⟨mrsp [0, 0, 0], false⟩ = 1 ∧ after ⟨dataFrame 7 0 [5], false⟩ = 0 := by decide +kernel

/-- The lengths at their bounds: MRSP 11 to 75, MREQ 8 to 56, CYCLE 4, and no frame under 3 bytes (R189). -/
theorem test_kind_lengths :
    frameKind (mrsp [0, 0, 0]) = .mrsp ∧ frameKind (mrsp [0, 0]) = .other ∧ frameKind (mrsp (List.replicate 67 0)) = .mrsp ∧
      frameKind (mrsp (List.replicate 68 0)) = .other ∧ frameKind (withCheck [0xA3, 1, 63, 9, 0]) = .other ∧
      frameKind (mreq 1 0 60 (List.replicate 48 0)) = .mreq ∧ frameKind (mreq 1 0 60 (List.replicate 49 0)) = .other ∧
      frameKind (withCheck [0xC2]) = .other ∧ frameKind (withCheck [0xC2, 0, 0]) = .other ∧ frameKind (withCheck [0xD1]) = .data ∧
      frameKind (withCheck [7]) = .other ∧ frameKind (withCheck []) = .badCheck := by decide +kernel

theorem test_meets_FramesNotActedOnAreForwarded :
    live.powered = true ∧ live.link.aToB = .through ∧ live.link.bToA = .through ∧ frameKind damaged ≠ .data ∧
      frameKind (mreq 2 0 60 []) ≠ .cycle ∧ ¬(frameKind (mreq 2 0 60 []) = .mreq ∧ live.link.isOwn (mreq 2 0 60 []) = true) ∧
      (frameKind malformed = .data ∧ ¬(1 ≤ (byteAt malformed 1).toNat)) ∧
      (frameKind (dataFrame 7 0 [5]) = .data ∧ dataWellFormed (dataFrame 7 0 [5]) = true) ∧
      State.reset.link.aToB ≠ .through ∧ State.reset.link.bToA ≠ .through := by decide +kernel

/-- In `live` no stream is loaded. -/
theorem test_meets_UnknownStream : ∀ i e, live.stream i = some e → ¬(e.node = 21 ∧ e.stream = 3) := by
  have : ∀ i, live.stream i = none := by decide +kernel
  intro i e h
  rw [this i] at h
  cases h

theorem test_meets_CycleFrameIsTheTick :
    live.powered = true ∧ live.link.bToA = .through ∧ frameKind (cycleFrame 1) = .cycle ∧ frameKind damaged = .badCheck ∧
      (∃ t, exec (.frameForward .b damaged) live = .next t) ∧ (∃ t, exec (.frameForward .a (cycleFrame 0)) live = .next t) ∧
      State.reset.link.bToA = .bypass ∧ exec (.cycleFrameArrival (cycleFrame 0)) State.reset = .next State.reset := by
  refine ⟨?_, ?_, ?_, ?_, ⟨_, rfl⟩, ⟨_, rfl⟩, ?_, rfl⟩ <;> decide +kernel

theorem test_meets_RoutingChecksInOrderAndMreqIsTakenOrDiscarded :
    live.powered = true ∧ live.link.bToA = .through ∧ frameKind (mreq 1 0 60 []) = .mreq ∧ live.link.isOwn (mreq 1 0 60 []) = true ∧
      live.mgmt.phase = .idle ∧ (handed .status 0 [] live).mgmt.phase ≠ .idle ∧
      Request.route 60 0 [] = .inr .status ∧ Request.route 63 0 [] = .inl .unknownCommand ∧
      Request.route 60 1 [] = .inl .badPort ∧ Request.route 72 0 [4] = .inl .badPort ∧ Request.route 72 7 [4] = .inl .badPort ∧
      Request.route 72 6 [] = .inl .badArgument ∧ Request.route 72 6 [4] = .inr .portRead ∧
      Request.route 30 0 [1] = .inr .slotsQuery ∧ Request.route 30 0 [1, 2] = .inl .badArgument := by decide +kernel

theorem test_meets_AnswersArePlacedOrHeldAndThenPlaced :
    (handed .status 0 [] live).mgmt.request = some (asked .status 0 []) ∧ live.link.response = none ∧
      { live.link with response := some [] }.response ≠ none ∧
      (∃ t, exec .responseHeldPlaced { handed .restart 0 [] live with
        mgmt := { live.mgmt with held := some [1], request := some { asked .restart 0 [] with stage := .answered true } } } = .next t ∧
          t.mgmt.phase = .restarting) := by
  refine ⟨rfl, rfl, by decide, ⟨_, rfl, rfl⟩⟩

theorem keyAt_work (st : RuleState) : KeyAt (work st) 21 3 0 stream :=
  ⟨rfl, rfl, rfl, fun j _ h => absurd h (Nat.not_lt_zero j.val)⟩

/-- A frame in sequence, across a gap, and old, against expected sequence 7; the end of the sample numbers; an IDLE stream. -/
theorem test_meets_OfferedFramesAreCountedOrAccepted :
    (byteAt (dataFrame 7 0 [5]) 1 = 21 ∧ byteAt (dataFrame 7 0 [5]) 2 &&& 0x0F = 3 ∧ dataWellFormed (dataFrame 7 0 [5]) = true ∧
      frameKind (dataFrame 7 0 [5]) = .data) ∧
      ((work .tripped).powered = true ∧ (work .tripped).link.aToB = .through) ∧
      (stream.state = .live ∧ stream.expected = some 7 ∧ (byteAt (dataFrame 8 0 [5]) 3 - 7).toNat = 1 ∧
        (byteAt (dataFrame 134 0 [5]) 3 - 7).toNat = 127 ∧ (byteAt (dataFrame 135 0 [5]) 3 - 7).toNat = 128) ∧
      (work .armed).rule 63 = none ∧ (rule .armed).stream ≠ 1 ∧ (rule .tripped).next 850 (some 950) = some .armed ∧
      (manual .due).next 850 (some 950) = none ∧
      stream.classify 1 7 = .inSequence ∧ stream.classify 1 134 = .gap 127 ∧ stream.classify 1 135 = .old ∧
      stream.classify 1 6 = .old ∧ { stream with next := 2 ^ 48 - 1 }.classify 1 7 = .inSequence ∧
      { stream with next := 2 ^ 48 }.classify 1 7 = .old ∧ { stream with state := .idle }.classify 1 200 = .first := by
  decide +kernel

/-- A frame across a gap of 2: the COLLECTING slot lists it at record offset 100, and the MANUAL rule that is DUE fires and
marks the frame. -/
theorem test_gap_frame :
    ∃ t, exec (.dataFrameArrival (dataFrame 9 0 [850])) ((busy (.collecting 0 none)).setRule 7 (some (manual .due))) = .next t ∧
      ((t.slot 0).capture.map fun c => (c.gaps, c.gapped)) = some ([⟨100, 2⟩], true) ∧ (t.rule 7).map (·.fired) = some 1 ∧
      t.link.sendingB = some ⟨dataFrame 9 1 [850], false⟩ := ⟨_, rfl, by decide +kernel⟩

/-- One sample of an accepted frame: number 100 into cell 100, and the frame on its way out of port B. -/
theorem test_accepted_frame : ∃ t, exec (.dataFrameArrival (dataFrame 7 0 [850])) (work .tripped) = .next t ∧
    t.rule 7 = some (rule .armed) ∧ Memory.get 0 t.samples 100 = 850 ∧
      t.link.sendingB = some ⟨dataFrame 7 0 [850], false⟩ := ⟨_, rfl, by decide +kernel⟩

theorem test_meets_MarkingChangesFlagAndCheckOnly : 7 ≤ (dataFrame 7 0 [5]).length := by decide +kernel

/-- A full table, a full sample memory, and an entry at index 31. -/
def fullTable : State := { ready with streams := Vector.replicate 32 (some stream) }
def fullMemory : State := ready.setStream 0 (some { stream with node := 1, length := 65536 })

theorem test_meets_StreamCommandsLoadDropAndQuery :
    (∀ b, ¬RunFree fullMemory 64 b) ∧ RunFree ready 8192 0 ∧ (∀ i, fullTable.stream i ≠ none) ∧ ready.stream 0 = none ∧
      ready.stream 31 = none ∧ fullTable.stream 31 ≠ none ∧ (work .armed).stream 0 = some stream ∧
      ((work .armed).rule 7).isSome ∧ (byteAt [62, 15, 32, 0] 0).toNat = 62 ∧ fieldAt [62, 15, 32, 0] 2 2 = 8192 ∧
      fieldAt [1, 0, 0, 63] 2 2 = 63 ∧ (byteAt [31] 0).toNat = 31 ∧ (byteAt [32] 0).toNat = 32 := by
  refine ⟨?_, ?_, ?_⟩
  · intro b h
    have h0 : fullMemory.stream 0 = some { stream with node := 1, length := 65536 } := rfl
    have h1 := h.2 0 _ h0
    have h2 := h.1
    simp [stream] at h1
    omega
  · refine ⟨by decide, fun i e h => ?_⟩
    have : ∀ i, ready.stream i = none := by decide +kernel
    rw [this i] at h
    cases h
  · decide +kernel

/-- STREAM LOAD at its bounds answers OK with index 0 and base 0; a number above 2^48 - 1 is outside a result. -/
theorem test_stream_load : ∃ t, exec .streamLoad (handed .streamLoad 0 [62, 15, 32, 0] ready) = .next t ∧
    t.stream 0 = some (newStream 62 15 0 8192) ∧ t.mgmt.phase = .idle := ⟨_, rfl, by decide +kernel⟩

theorem test_numbers_in_results : sampleNumberFits (2 ^ 48 - 1) = true ∧ sampleNumberFits (2 ^ 48) = false ∧ sampleNumberFits (-1) = false := by
  decide

/-! #### Rules and slots -/

theorem test_meets_RuleTestsAndStatesFollowTheSample :
    (rule (.priming 1)).state = .priming (0 + 1) ∧ (rule (.priming 0)).state = .priming 0 ∧
      (rule .armed).kind.fires 1000 none = false ∧ (rule .armed).kind.fires 1001 none = true ∧
      (rule .armed).kind.rearms 900 none = true ∧ (rule .armed).kind.rearms 901 none = false ∧
      (rule .armed).kind.scheduled = false ∧ [((1001 : Sample), (none : Option Sample))].length < (rule .armed).kind.persistence ∧
      [((1001 : Sample), (none : Option Sample)), (1001, none), (1001, none)].length = (rule .armed).kind.persistence ∧
      (RuleKind.step 0xFFFE 0 1).fires 0x7FFF (some 0x8000) = true ∧ (RuleKind.step 0xFFFF 0 1).fires 0x7FFF (some 0x8000) = false := by
  decide +kernel

theorem test_meets_TrippedRuleWaitsForRearm :
    (work .tripped).rule 7 = some (rule .tripped) ∧ (rule .tripped).stream = 0 ∧ (rule .tripped).kind.scheduled = false ∧
      (rule .tripped).state = .tripped ∧ (rule .tripped).kind.rearms 850 none = true ∧
      (rule .tripped).kind.rearms 980 none = false ∧ (rule .tripped).kind.fires 1070 none = true := by decide +kernel

theorem test_meets_FiringRuleCountsMarksAndAsks :
    (work (.pending 2)).rule 7 = some (rule (.pending 2)) ∧ (rule (.pending 2)).next 1060 none = none ∧
      (rule (.pending 2)).recording = some 3 ∧ { rule .due with recording := none }.next 0 none = none := by decide +kernel

theorem test_meets_PeriodExpiryMakesDue :
    (ready.setRule 0 (some (periodic .armed))).rule 0 = some (periodic .armed) ∧ (periodic .due).kind = .periodic 10 ∧
      (periodic .armed).periodCounter = some 1 ∧ (rule .armed).periodCounter = none ∧
      exec (.periodExpiry 0) (ready.setRule 0 (some (periodic .armed))) =
        .next (ready.setRule 0 (some { periodic .due with periodCounter := some 10 })) :=
  ⟨by decide +kernel, rfl, rfl, rfl, rfl⟩

/-- RULE LOAD arguments of rule 7 of section 2.9 with a kind and options. -/
def loadArgs (number kind options : Byte) : List Byte :=
  [number, kind, 0, 3, 0xE8, 0, 0, 0, 0, 0, 100, 3, 0, 10, 1, 0, 200, 1, 0x2C, 0, 4, options]

theorem test_meets_RuleLoadChecksAndStoresTheRule :
    (asked .ruleLoad 0 (loadArgs 7 1 5)).loadedRule = some (rule (.priming 3)) ∧
      (asked .ruleLoad 0 (loadArgs 63 5 4)).loadedRule.map (·.periodCounter) = some (some 10) ∧
      (asked .ruleLoad 0 (loadArgs 7 7 5)).loadedRule = none ∧ (asked .ruleLoad 0 (loadArgs 7 1 8)).loadedRule = none ∧
      (work .armed).loadRefusal (rule .disabled) = none ∧ ready.loadRefusal (rule .disabled) = some .noSuchStream ∧
      ((work .armed).setStream 0 (some { stream with length := 231 })).loadRefusal (rule .disabled) = some .ringTooShort ∧
      ((work .armed).setStream 0 (some { stream with length := 232 })).loadRefusal (rule .disabled) = none ∧
      { work .armed with store := .start }.loadRefusal (rule .disabled) = some .notReady ∧
      (ready.setStream 0 (some stream)).loadRefusal (rule .disabled) = some .noSuchRecording := by decide +kernel

theorem test_rule_load : ∃ t, exec .ruleLoad (handed .ruleLoad 0 (loadArgs 7 1 5) (work .tripped)) = .next t ∧
    t.rule 7 = some (rule (.priming 3)) := ⟨_, rfl, by decide +kernel⟩

theorem test_meets_RuleCommandsUnloadQueryAndFire :
    (byteAt [64] 0).toNat = 64 ∧ (byteAt [63] 0).toNat = (63 : RuleIx).val ∧ (work .armed).rule 63 = none ∧
      (work .armed).rule 7 = some (rule .armed) ∧ (rule .armed).kind = .above 1000 100 3 ∧ (rule .armed).kind ≠ .manual ∧
      (manual .armed).kind = .manual ∧ (periodic .due).kind = .periodic 10 ∧
      { rule .armed with kind := .below 1 2 3 }.kind = .below 1 2 3 ∧
      { rule .armed with kind := .outside 4 3 2 1 }.kind = .outside 4 3 2 1 ∧
      { rule .armed with kind := .step 1 2 3 }.kind = .step 1 2 3 ∧
      (manual .armed).state = .armed ∧ (manual .due).state = .due ∧ (manual .disabled).state = .disabled := by decide +kernel

theorem test_meets_RuleEnableStartsAndDisableStopsTheRule :
    Handed (handed .ruleEnable 0 [7] (work .disabled)) .ruleEnable (asked .ruleEnable 0 [7]) ∧
      Handed (handed .ruleDisable 0 [7] (work .due)) .ruleDisable (asked .ruleDisable 0 [7]) ∧
      (work .disabled).rule 7 = some (rule .disabled) ∧ (work .due).rule 7 = some (rule .due) ∧ (work .due).rule 0 = none ∧
      (rule .disabled).periodCounter = none := ⟨handed_meets .., handed_meets .., rfl, rfl, by decide +kernel, rfl⟩

theorem test_meets_UnfireWithdrawsThePendingFiring :
    Handed (handed .unfire 0 [7] (work .due)) .unfire (asked .unfire 0 [7]) ∧ (work .due).rule 7 = some (rule .due) ∧
      (rule .due).kind ≠ .manual ∧ (manual .due).kind = .manual ∧ (manual .armed).state = .armed ∧
      (periodic .due).kind = .periodic 10 ∧ (periodic .due).state = .due :=
  ⟨handed_meets .., rfl, by decide, rfl, rfl, rfl, rfl⟩

/-- Test 5 at its boundary: a request of 200 + 300 samples needs 6 blocks. -/
theorem test_meets_CaptureTestsInOrder :
    let s := work .tripped
    s.allocationTests captureAsked = none ∧
      { s with cond := { s.cond with state := .suspended } }.allocationTests captureAsked = some none ∧
      ready.allocationTests captureAsked = some (some .unavailable) ∧
      { s with protect := true }.allocationTests captureAsked = some (some .protect) ∧
      { busy (.collecting 120 none) with pointer := 0 }.allocationTests captureAsked = some (some .overflow) ∧
      { busy (.collecting 120 none) with pointer := 0, cond := { s.cond with level := 2 } }.allocationTests
        { captureAsked with priority := 2 } = none ∧
      { s with store := { s.store with free := 5 } }.allocationTests captureAsked = some (some .full) ∧
      { s with store := { s.store with free := 6 } }.allocationTests captureAsked = none := by decide +kernel

/-- A COLLECTING slot at the pointer, with a block in progress, that a request of priority 2 may preempt. -/
def occupied : State := { writing false with pointer := 0, cond := { ready.cond with level := 2 } }
def preempting : CaptureRequest := { captureAsked with priority := 2 }

/-- R74 at test 5: with 3 blocks free and 3 reserved, a request of 6 is missed with FULL while block 21 is being written
(gain 5) and passes after the completion (gain 6). -/
theorem test_gain_after_completion :
    let at3 (s : State) : State := { s with store := { s.store with free := 3, reserved := 3 } }
    (at3 twoBlocks).captureRequest preempting = ((at3 twoBlocks).report (reportOf .full 0 preempting), false) ∧
      ((at3 met).captureRequest preempting).2 = true := by decide +kernel

/-- The request and the slot's two buffers, the slot with and without a write in progress, and a slot that is EMPTY. -/
theorem test_meets_AllocationFillsTheSlotWithWhatTheRingHolds :
    (((work .tripped).captureRequest captureAsked).2 = true ∧ ((work .tripped).slot 0).capture = none ∧
      (work .tripped).pointer = 0 ∧ (work .tripped).stream 0 = some stream ∧
      (((work .tripped).abandon 0).store.reserve 6).takeReserved.map (·.1) = some 20) ∧
      ((occupied.captureRequest preempting).2 = true ∧ (occupied.slot 0).capture = some (capture (.collecting 120 none)) ∧
        occupied.stream 0 = some stream ∧ ((occupied.abandon 0).store.reserve 6).takeReserved.map (·.1) = some 22) ∧
      ((met.captureRequest preempting).2 = true ∧ (met.slot 0).capture.isSome = true ∧
        met.stream 0 = some stream ∧ ((met.abandon 0).store.reserve 6).takeReserved.map (·.1) = some 23 ∧
        (met.slot 0).buffer0 = .free ∧ (met.slot 0).buffer1 = .filled ⟨[], 22, 1⟩) ∧
      [20, 21].Nodup ∧ (∀ b ∈ [20, 21], b ∈ (busy (.collecting 120 none)).store.used) ∧ 200 + 32 ≤ 232 :=
  ⟨by decide +kernel, by decide +kernel, by decide +kernel, by decide +kernel⟩

/-- The preemption that meets the completion (R74, the close of section 11.2): head and both blocks are free, nothing of the
slot waits, and the slot has both buffers. -/
theorem test_preemption_after_completion : let t := (met.captureRequest preempting).1
    (t.slot 0).buffer0 = .free ∧ (t.slot 0).buffer1 = .free ∧ t.store.used = [17, 18, 19, 23] ∧ t.store.free = 8171 ∧
      t.port = { met.port with waiting := [] } := by decide +kernel

/-- The completion grants block 22's write at once (R118, section 3.8), with nothing in the queue, with another command next,
and with a frame on which no rule fires; only where the next command brings the preempting request is that taken first. -/
theorem test_grant_at_completion :
    let next (cs : List Instr) : State := completed { twoBlocks with pending := cs }
    let untouched : State := completed { twoBlocks with rules := (work .tripped).rules }
    [next [], next [.status], untouched].all (fun t => (t.slot 0).buffer1 = .writing ⟨[], 22, 1⟩ false) = true ∧
      met.port.busy = none ∧ met.port.waiting.map (·.who) = [.slot 0] ∧ (met.slot 0).buffer1 = .filled ⟨[], 22, 1⟩ := by
  decide +kernel

/-- The frame that meets the completion: the new capture has both buffers, and no request of the slot waits. -/
theorem test_met_frame : (match step met with
    | .next t => decide ((t.slot 0).capture.map (·.request.priority) = some 2 ∧ (t.slot 0).buffersFree = true ∧
        t.port.busy = none ∧ t.port.waiting = [] ∧ t.store.used = [17, 18, 19, 23])
    | _ => false) = true := by decide +kernel

/-- The preemption: head 20 is freed, block 21 is in progress and orphaned, the cut is counted, and the slot holds the new
capture with head 22. -/
theorem test_preemption : let t := (occupied.captureRequest preempting).1
    (t.slot 0).buffer0 = .writing ⟨[], 21, 0⟩ true ∧ ((t.slot 0).capture.map fun c => (c.request.priority, c.head, c.remaining)) =
      some (2, 22, 5) ∧ t.store.used = [17, 18, 19, 21, 22] ∧ t.store.reserved = 5 ∧ t.store.free = 8170 ∧
      (t.rule 7).map (·.cut) = some 1 := by decide +kernel

/-- The allocation of that request: slot 0, SHORT, 100 samples before sample 99 do not exist. -/
theorem test_allocation : let t := ((work .tripped).captureRequest captureAsked).1
    t.pointer = 1 ∧ ((t.slot 0).capture.map fun c => (c.preActual, c.first, c.endSample, c.head, c.remaining, c.short)) =
      some (99, 0, 398, 20, 5, true) ∧ t.cond.flags = 0x10 ∧ t.store.reserved = 5 ∧ t.store.free = 8171 := by decide +kernel

theorem test_meets_SlotAndStoreQueriesReport :
    Handed (handed .slotsQuery 0 [] ready) .slotsQuery (asked .slotsQuery 0 []) ∧ (byteAt [8] 0).toNat = 8 ∧
      (byteAt [7] 0).toNat = (7 : SlotIx).val ∧ (ready.slot 7).capture = none ∧
      Handed (handed .storeQuery 0 [] ready) .storeQuery (asked .storeQuery 0 []) ∧
      Handed (handed .recordingQuery 0 [32, 1] ready) .recordingQuery (asked .recordingQuery 0 [32, 1]) ∧
      ¬(1 ≤ (byteAt [33, 0] 0).toNat ∧ (byteAt [33, 0] 0).toNat ≤ 32) ∧ State.reset.store.state = .mounting ∧
      ready.store.state = .ready ∧ (31 : RecIx).val + 1 = (byteAt [32, 1] 0).toNat ∧ (byteAt [32, 1] 1).toNat ≤ 1 ∧
      ready.store.recording 31 = .free ∧
      ((work .armed).store.entry 3 = some recording ∧ (work .armed).store.recording 3 = .defined 2 2) ∧
      ((work .armed).store.setRecording 3 (.damaged 2 2)).recording 3 = .damaged 2 2 ∧
      (byteAt [0] 0).toNat = (0 : SlotIx).val ∧
      ((busy (.collecting 120 none)).slot 0).capture = some (capture (.collecting 120 none)) ∧
      0 ≤ (capture (.collecting 120 none)).endSample ∧ (capture (.collecting 120 none)).endSample < 2 ^ 48 :=
  ⟨handed_meets .., by decide, by decide, rfl, handed_meets .., handed_meets .., by decide, rfl, rfl, by decide, by decide, rfl,
    ⟨rfl, rfl⟩, rfl, by decide, rfl, by decide, by decide⟩

theorem test_meets_CutSilenceAndLagEndACapture :
    Handed (handed .cut 0 [0] (busy (.collecting 120 none))) .cut (asked .cut 0 [0]) ∧ (byteAt [8] 0).toNat = 8 ∧
      ((busy (.collecting 120 (some 1))).slot 0).capture = some (capture (.collecting 120 (some 1))) ∧
      ((busy (.collecting 120 (some 2))).slot 0).capture = some (capture (.collecting 120 (some 2))) ∧
      ((busy (.draining 120 .cut)).slot 0).capture = some (capture (.draining 120 .cut)) ∧
      ((busy (.collecting 120 none)).slot 7).capture = none ∧
      (capture (.draining 398 .cut)).holds = some 398 ∧ (capture (.draining 399 .cut)).holds = none ∧
      (capture (.committing .cut)).holds = none ∧
      ((busy (.collecting 120 none)).setSlot 0 ⟨some (capture (.collecting 0 none)), .writing ⟨[], 21, 0⟩ false,
        .writing ⟨[], 22, 1⟩ true⟩ |>.slot 0).hasFree = false :=
  ⟨handed_meets .., by decide, rfl, rfl, rfl, rfl, by decide, by decide, by decide, by decide⟩

/-- Slot 0 in a phase with its buffers and the stream's next sample number. -/
def staging (p : CapturePhase) (b0 b1 : Buffer) (next : Nat) : State :=
  ((busy p).setStream 0 (some { stream with next := next })).setSlot 0 ⟨some (capture p), b0, b1⟩

/-- With every block used a take answers none (log 22). -/
theorem test_no_free_block : { (busy (.collecting 120 none)).store with used := List.range' 17 8175 }.takeReserved = none := by
  decide +kernel

/-- The counts at their boundaries: 120 samples to newest and 119, one sample left to drain and none. -/
theorem test_meets_SlotChecksStageAndComplete :
    ((staging (.collecting 0 none) .free .free 399).newest 0 = 398 ∧ (capture (.collecting 0 none)).endSample = 398 ∧
      (staging (.collecting 0 none) .free .free 398).newest 0 < 398 ∧ ((work .armed).slot 0).capture = none) ∧
      ((staging (.collecting 0 none) .free .free 120).newest 0 - 0 + 1 = 120 ∧
        (staging (.collecting 0 none) .free .free 119).newest 0 - 0 + 1 = 119 ∧
        (398 - ((398 : Nat) : Int) + 1).toNat = 1 ∧ (398 - ((399 : Nat) : Int) + 1).toNat = 0) ∧
      (let s := staging (.collecting 0 none) (.writing ⟨[], 21, 0⟩ false) .free 120;
        (s.slot 0).capture = some (capture (.collecting 0 none)) ∧ 0 < (capture (.collecting 0 none)).remaining ∧
          (s.slot 0).buffer1 = .free ∧ s.stream 0 = some { stream with next := 120 } ∧ ∃ m, s.store.takeReserved = some (22, m)) ∧
      (let s := staging (.collecting 120 none) (.filled ⟨[], 22, 1⟩) (.filled ⟨[], 21, 0⟩) 120;
        s.port.busy = none ∧ s.port.waiting = [] ∧ (s.slot 0).buffer1 = .filled ⟨[], 21, 0⟩ ∧
          ∀ d, (s.slot 0).buffer0 = .filled d → 0 < d.position) ∧
      Granted (writing false) (.slot 0) (.write 21 (List.replicate 256 0)) ∧
      (let s := staging (.draining 399 .cut) .free .free 400;
        (s.slot 0).capture = some (capture (.draining 399 .cut)) ∧ (capture (.draining 399 .cut)).endSample < 399 ∧
          (s.slot 0).buffer0 = .free ∧ (s.slot 0).buffer1 = .free) ∧
      { (busy (.collecting 120 none)).store with used := List.range' 17 8175 }.takeReserved = none ∧
      { capture (.collecting 0 none) with remaining := 0 }.remaining = 0 :=
  ⟨by decide +kernel, by decide +kernel, ⟨rfl, by decide, rfl, rfl, ⟨_, rfl⟩⟩, ⟨rfl, rfl, rfl, fun d h => by cases h; decide⟩,
    rfl, ⟨rfl, by decide, rfl, rfl⟩, test_no_free_block, rfl⟩

/-- One staging check fills the FREE buffer 1 with the 120 samples, block 22 at place 1, and the idle port grants its write
(R118). -/
theorem test_staging :
    let t := (staging (.collecting 0 none) (.writing ⟨[], 21, 0⟩ false) .free 120).slotChecks 0
    (t.slot 0).capture.map (fun c => (c.phase, c.blocks, c.remaining)) = some (.collecting 120 none, [21, 22], 3) ∧
      t.port.busy.map (·.who) = some (.slot 0) ∧ t.store.reserved = 3 := by decide +kernel

/-- The exhaustion test at its boundary: the sample 120 writes away from the read position ends the capture, one before it
does not. -/
theorem test_exhaustion :
    let s (next : Nat) : State := ((busy (.collecting 0 none)).setStream 0 (some { stream with next := next })).setSlot 0
      ⟨some { capture (.collecting 0 none) with endSample := 5000 }, .writing ⟨[], 21, 0⟩ false, .filled ⟨[], 22, 1⟩⟩
    (((s 393).exhaustionTest 0).slot 0).capture.map (·.phase) = some (.draining 0 .lag) ∧
      (((s 392).exhaustionTest 0).slot 0).capture.map (·.phase) = some (.collecting 0 none) := by decide +kernel

theorem test_meets_SlotWritesComplete :
    Granted (writing true) (.slot 0) (.write 21 (List.replicate 256 0)) ∧
      ((writing true).slot 0).buffer0 = .writing ⟨[], 21, 0⟩ true ∧ ((writing true).slot 0).buffer1 = .free ∧
      (Granted twoBlocks (.slot 0) (.write 21 (List.replicate 256 0)) ∧
        (twoBlocks.slot 0).buffer0 = .writing ⟨[], 21, 0⟩ false ∧ (twoBlocks.slot 0).buffer1 = .filled ⟨[], 22, 1⟩ ∧
        (met.slot 0).isCollecting = true ∧ met.arbiterChoice.map (·.who) = some (.slot 0) ∧
        (met.ownWrite 0 = none ∧ met.port.busy = none) ∧
        (({ met with port := { met.port with waiting := [] } } : State).ownWrite 0).isSome = true) ∧
      (let s := granted (.slot 0) (.write 20 []) (busy (.draining 399 .complete));
        Granted s (.slot 0) (.write 20 []) ∧ (s.slot 0).buffer0 = .free ∧ (s.slot 0).buffer1 = .free ∧
          (s.slot 0).capture = some (capture (.draining 399 .complete)) ∧
          ∃ t, exec .slotHeadWriteComplete s = .next t) :=
  ⟨rfl, rfl, rfl, ⟨rfl, rfl, rfl, by decide +kernel⟩, rfl, rfl, rfl, rfl, ⟨_, rfl⟩⟩

/-! #### Conditions -/

theorem test_meets_ReportsSuspendOrSetTheFlagOnly :
    let s : State := { ready with cond := { ready.cond with masks := 0xFD } }
    s.cond.masked .full = false ∧ s.cond.state = .running ∧ ready.cond.masked .full = true ∧
      ({ s.cond with state := .suspended } : ConditionUnit).state = .suspended ∧
      ({ s.cond with flags := 2 } : ConditionUnit).flagged .full = true ∧
      ConditionLaw ready := ⟨by decide, rfl, by decide, rfl, by decide, fun h => absurd rfl h, by decide⟩

theorem test_meets_ControlSetChecksTheMasks :
    Handed (handed .controlSet 0 [2, 0, 255] ready) .controlSet (asked .controlSet 0 [2, 0, 255]) ∧
      ¬(byteAt [2, 2, 255] 1 = 0 ∨ byteAt [2, 2, 255] 1 = 1) ∧ (byteAt [2, 0, 4] 2).toNat ≤ 4 ∧
      ¬(byteAt [2, 0, 5] 2 = 255 ∨ (byteAt [2, 0, 5] 2).toNat ≤ 4) ∧
      ({ ready.cond with flags := 2, masks := 0xFD } : ConditionUnit).lowestLive = some .full ∧ ready.cond.lowestLive = none :=
  ⟨handed_meets .., by decide, by decide, by decide, by decide, by decide⟩

theorem test_meets_ClearConditionsResumes :
    Handed (handed .clearConditions 0 [2] ready) .clearConditions (asked .clearConditions 0 [2]) ∧
      Handed (handed .conditionsQuery 0 [] ready) .conditionsQuery (asked .conditionsQuery 0 []) ∧
      (2 &&& ~~~(byteAt [2] 0)) &&& ~~~(0xFD : BitVec 8) = 0 ∧ (6 &&& ~~~(byteAt [2] 0)) &&& ~~~(0xF9 : BitVec 8) ≠ 0 :=
  ⟨handed_meets .., handed_meets .., by decide, by decide⟩

/-! #### The store -/

theorem test_meets_StoreCommandsAreCheckedInOrder :
    Handed (handed .format 0 [1] ready) .format (asked .format 0 [1]) ∧ nameAt 16 [17] 0 = none ∧
      nameAt 16 (padTo 17 [1, 0x41]) 0 = some [0x41] ∧ nameAt 16 (padTo 17 [1, 127]) 0 = none ∧
      (asked .create 0 [0]).creation = none ∧ StoreCheckFails State.reset false .notReady ∧ StoreCheckFails State.reset true .notReady ∧
      StoreCheckFails { ready with maint := some (.mount .held) } false .busy ∧
      StoreCheckFails { ready with protect := true } true .protectedStore ∧
      StoreCheckFails { ready with store := { ready.store with state := .unformatted } } false .notReady := by
  refine ⟨handed_meets .., by decide, by decide, by decide, by decide, .inl ⟨rfl, .inl rfl⟩, .inl ⟨rfl, .inl rfl⟩, ?_, ?_,
    .inl ⟨rfl, .inr ⟨rfl, rfl⟩⟩⟩
  · exact .inr ⟨by decide, by decide, .inl ⟨rfl, by decide⟩⟩
  · exact .inr ⟨by decide, by decide, .inr ⟨rfl, rfl, rfl⟩⟩

theorem storeChecks_ready : StoreChecksPass ready false ∧ StoreChecksPass ready true :=
  ⟨⟨by decide, by decide, rfl, rfl⟩, ⟨by decide, by decide, rfl, rfl⟩⟩

/-- A Maintenance operation with its block operation in progress. -/
def maintaining (m : MaintenanceOp) (op : StoreOp) (s : State) : State := granted .maintenance op { s with maint := some m }

theorem test_meets_FormatIsAcceptedAndRunsToDone :
    (ready.storeInUse = false ∧ (work .armed).storeInUse = true ∧ (busy (.committing .cut)).storeInUse = true) ∧
      (let s := maintaining (.format [] (.readDirectory 16 [])) (.write 16 [0, 0]) ready;
        Granted s .maintenance (.write 16 [0, 0]) ∧ s.maint = some (.format [] (.readDirectory 16 [])) ∧
          ([] ++ (directorySerial? [0, 0]).toList).length ≤ 16) ∧
      (maintaining (.format [] (.readDirectory 15 [])) (.read 15) ready).maint = some (.format [] (.readDirectory 15 [])) ∧
      (maintaining (.format [] (.writeLabel 8)) (.write 0 []) ready).maint = some (.format [] (.writeLabel 8)) ∧
      ∃ t, exec .formatDirectoryWriteComplete (maintaining (.format [] (.writeDirectory 16 8)) (.write 16 []) ready) = .next t ∧
        t.store.state = .ready ∧ t.mgmt.status = ⟨63, 1, 8, 0⟩ := by
  exact ⟨by decide +kernel, ⟨rfl, rfl, by decide +kernel⟩, rfl, rfl, ⟨_, rfl, rfl, rfl⟩⟩

/-- The serials: one after the label's, 1 after 65,535 and without a label, raised past those found (R108). -/
theorem test_serials : chooseSerial (some ⟨[], 7⟩) [8, 9] = 10 ∧ chooseSerial (some ⟨[], 65535⟩) [] = 1 ∧ chooseSerial none [1] = 2 := by
  decide

theorem test_meets_CreateIsAcceptedAndRunsToDone :
    (asked .create 0 ([4, 1, 0, 100] ++ padTo 13 [1, 0x52])).creation = some (3, { recording with blocks := [], held := [] }) ∧
      (asked .create 0 ([33, 1, 0, 100] ++ padTo 13 [1, 0x52])).creation = none ∧
      ready.store.recording 3 = .free ∧ (work .armed).store.recording 3 ≠ .free ∧
      MapOk ready.store ∧ (∃ m, ready.store.takeMany 3 = some ([17, 18, 19], m)) ∧
      { ready.store with free := 2 }.free < { ready.store with free := 2 }.reserved + 3 ∧
      (maintaining (.create 3 recording (.index 2)) (.write 19 []) ready).maint = some (.create 3 recording (.index 2)) ∧
      ∃ t, exec .createDirectoryWriteComplete (maintaining (.create 3 recording .directory) (.write 2 []) ready) = .next t ∧
        t.store.recording 3 = .defined 0 0 ∧ t.mgmt.status = ⟨63, 2, 3, 0⟩ := by
  refine ⟨by decide +kernel, by decide +kernel, rfl, by decide +kernel,
    ⟨by decide +kernel, by decide +kernel, by decide +kernel, by decide +kernel⟩, ⟨_, rfl⟩, by decide, rfl, ⟨_, rfl, rfl, rfl⟩⟩

theorem test_meets_DeleteIsAcceptedAndWalksToDone :
    (byteAt [4] 0).toNat = (3 : RecIx).val + 1 ∧ (work .armed).store.entry 3 = some recording ∧ (work .armed).recordingInUse 3 = true ∧
      ((work .armed).setRule 7 none).recordingInUse 3 = false ∧ ready.store.entry 3 = none ∧
      (let s := maintaining (.delete 3 recording .directory 0) (.write 2 []) ready;
        Granted s .maintenance (.write 2 []) ∧ s.maint = some (.delete 3 recording .directory 0)) ∧
      (maintaining (.delete 3 recording (.read 2 []) 5) (.read 19) ready).maint = some (.delete 3 recording (.read 2 []) 5) ∧
      (let s : State := { ready with maint := some (.delete 3 recording (.place 2 [30] []) 5) };
        1 ≤ s.releaseRoom ∧ s.index.phase.isWaiting = false ∧
          ∃ t, exec .deleteReleaseJobPlace s = .next t ∧ t.mgmt.status = ⟨63, 3, 6, 0⟩) := by
  refine ⟨by decide, rfl, by decide +kernel, by decide +kernel, rfl, ⟨rfl, rfl⟩, rfl, ⟨by decide, rfl, ⟨_, rfl, rfl⟩⟩⟩

theorem test_meets_EraseIsAcceptedWithThePositionsOfItsRange :
    (1 ≤ fieldAt [4, 0, 0, 0, 1, 0, 0, 0, 2] 1 4 ∧ fieldAt [4, 0, 0, 0, 1, 0, 0, 0, 2] 1 4 ≤ fieldAt [4, 0, 0, 0, 1, 0, 0, 0, 2] 5 4) ∧
      (work .armed).store.recording 3 = .defined 2 2 ∧ ready.store.recording 3 = .free ∧
      (ready.store.setRecording 3 (.damaged 2 1)).recording 3 = .damaged 2 1 ∧ erasePositions 100 1 2 = 0 :: [] ∧
      (work .armed).store.clip 3 3 9 = (3, 2) := by decide +kernel

/-! #### The mount scan -/

/-- Labels read: one written by the part, and a block of 0xFF, which nothing has written. -/
theorem test_meets_MountReadsTheLabel :
    (let s := maintaining (.mount .label) (.read 0) live;
      Granted s .maintenance (.read 0) ∧ s.maint = some (.mount .label)) ∧
      readLabel (labelBlock [0x41, 0x42] 7) = some ⟨[0x41, 0x42], 7⟩ ∧ readLabel (List.replicate 2 0xFF) = none :=
  ⟨⟨rfl, rfl⟩, test_label_block, by decide +kernel⟩

theorem test_meets_MountReadsTheDirectoryAndClaimsIndexBlocks :
    (let s := maintaining (.mount (.directory 16)) (.read 16) ready;
      Granted s .maintenance (.read 16) ∧ s.maint = some (.mount (.directory 16)) ∧ s.store.label = some ⟨[0x41], 7⟩) ∧
      readDirectory 2 7 (directoryBlock 2 7 none (some recording)) = some (none, some recording) ∧
      readDirectory 2 7 [0xFF, 0xFF] = none ∧
      claimBlocks [17] [17, 16, 18, 18, 8191, 8192] = ([17, 18, 8191], [false, false, true, false, true, false]) :=
  ⟨⟨rfl, rfl, rfl⟩, test_directory_block, by decide +kernel, by decide +kernel⟩

/-- An entry of the walk of recording 4 with the head of section 11.1, and one with a head outside the data area. -/
def walked : WalkEntry := ⟨0, 0, 101, 20, 500⟩
def walk : RecordWalk := ⟨3, false, 101, 0, [walked, ⟨0, 1, 2, 16, 100⟩]⟩

theorem test_meets_MountWalksTheEntriesAndEndsReady :
    (let s := maintaining (.mount (.head walk)) (.read 20) ready;
      Granted s .maintenance (.read 20) ∧ s.maint = some (.mount (.head walk))) ∧
      walk.todo = walked :: [⟨0, 1, 2, 16, 100⟩] ∧ inDataArea walked.head = true ∧ inDataArea 16 = false ∧
      mountedHead [17, 18, 19] 100 101 3 walked (headBlock head) = some head ∧
      mountedHead [17, 18, 25] 100 101 3 walked (headBlock head) = none ∧
      mountedHead [] 100 201 3 walked (headBlock head) = none ∧
      (let s := maintaining (.mount (.index 3 [2] [] false)) (.read 19) (work .armed);
        s.maint = some (.mount (.index 3 [2] [] false)) ∧ s.store.entry 3 = some recording) ∧
      newestOf 100 [(0, [.void 101 0 0, .present 2 0 0, .present 7 0 0])] = 101 := by
  refine ⟨⟨rfl, rfl⟩, rfl, by decide, by decide, ?_, ?_, ?_, ⟨rfl, rfl⟩, by decide +kernel⟩
  all_goals
    rw [mountedHead, test_head_block]
    decide +kernel

/-! #### The Index Unit and the Release Unit -/

/-- A COMMIT job of slot 0 for recording 4 in a phase, slot 0 COMMITTING, recording 4 in a mode. -/
def indexing (p : IndexPhase) (j : IndexJob) (mode : RecordingMode) : State :=
  { busy (.committing .complete) with
    index := ⟨[j], p, 0⟩
    store := (busy (.committing .complete)).store.setEntry 3 (some { recording with mode := mode }) }

/-- The job of the capture in slot 0. -/
def commit : IndexJob := .commit 0 3 20 398

theorem test_meets_IndexJobIsTaken :
    (indexing .idle commit .wrap).index.phase = .idle ∧ (indexing .idle commit .wrap).store.entry 3 = some recording ∧
      ((indexing .idle commit .wrap).store.recording 3).newest ≠ 2 ^ 32 - 1 ∧
      (((indexing .idle commit .wrap).store.setRecording 3 (.defined (2 ^ 32 - 1) 1)).recording 3).newest = 2 ^ 32 - 1 ∧
      ((indexing .idle commit .wrap).slot 0).capture = some (capture (.committing .complete)) ∧
      (indexing .idle (.voidSet 3 0 1 2) .wrap).index.queue = .voidSet 3 0 1 2 :: [] ∧
      (indexing .idle (.repair 3 0 1) .wrap).index.queue = .repair 3 0 1 :: [] := by
  refine ⟨rfl, rfl, by decide +kernel, by decide +kernel, rfl, rfl, rfl⟩

/-- An index block of recording 4 with records 101 and 2 PRESENT, as an operation that brings its contents. -/
def entries : List IndexEntry := .present 101 30 100 :: .present 2 32 100 :: List.replicate 46 .unused
def indexOp : StoreOp := .write 17 (indexBlock 3 0 100 entries)

theorem entries_read (m : List Host.Cell) : readIndex 3 0 100 (indexOp.contents m) = some entries := by
  simp only [indexOp, StoreOp.contents, readIndex, indexBlock, List.cons_append, blockIs_blockOf]
  decide +kernel

/-- Number 3 goes to the UNUSED place 2, number 102 to the PRESENT place 1. -/
theorem test_meets_CommitReadDecides :
    Granted (granted .index indexOp (indexing (.reading 3) commit .wrap)) .index indexOp ∧
      (indexing (.reading 3) commit .wrap).index.phase = .reading 3 ∧ (indexing (.reading 3) commit .wrap).index.queue = commit :: [] ∧
      (indexing (.reading 3) commit .wrap).store.entry 3 = some recording ∧
      readIndex 3 0 100 (indexOp.contents []) = some entries ∧ readIndex 3 0 100 ((StoreOp.write 17 [0, 0]).contents []) = none ∧
      entries.getD ((3 - 1) % 100 % 48) .unused = .unused ∧ entries.getD ((102 - 1) % 100 % 48) .unused = .present 2 32 100 ∧
      { recording with mode := .fill }.mode = .fill ∧ recording.mode = .wrap ∧ (indexing (.reading 3) commit .wrap).releaseRoom = 64 ∧
      { indexing (.reading 3) commit .wrap with release := ⟨List.replicate 64 ⟨30, 3⟩, false, []⟩ }.releaseRoom = 0 :=
  ⟨rfl, rfl, rfl, rfl, entries_read [], by decide +kernel, rfl, rfl, rfl, rfl, rfl, by decide +kernel⟩

theorem test_meets_VoidingJobsHoldAndWrite :
    Granted (granted .index indexOp (indexing (.reading 0) (.voidSet 3 0 1 2) .wrap)) .index indexOp ∧
      readIndex 3 0 100 (indexOp.contents []) = some entries ∧
      entries.filterMap (·.selected 1 2) = [32] ∧ entries.filterMap (·.selected 3 100) = [] ∧
      entries.getD 1 .unused = .present 2 32 100 ∧ entries.getD 2 .unused = .unused ∧
      (indexing (.waiting 0 ⟨17, [], [32]⟩) (.voidSet 3 0 1 2) .wrap).index.phase = .waiting 0 ⟨17, [], [32]⟩ ∧
      (indexing (.waiting 0 ⟨17, [], [32]⟩) (.voidSet 3 0 1 2) .wrap).releaseRoom = 64 ∧
      { indexing (.waiting 0 ⟨17, [], [32]⟩) commit .wrap with release := ⟨List.replicate 64 ⟨30, 3⟩, false, []⟩ }.releaseRoom < 1 :=
  ⟨rfl, entries_read [], by decide +kernel, by decide +kernel, rfl, rfl, rfl, rfl, by decide +kernel⟩

/-- Port 1 OPEN on record 101 of recording 4. -/
def opened : OpenRecord :=
  { recording := 3, number := 101, place := 0, head := 20, entryTotal := 500, info := head, position := 0, cache := none,
    withdrawn := false }

theorem test_meets_IndexWritesComplete :
    (let s := granted .index (.write 17 []) (indexing (.writing 3 ⟨17, [], []⟩) commit .wrap);
      Granted s .index (.write 17 []) ∧ s.index.phase = .writing 3 ⟨17, [], []⟩ ∧ s.index.queue = commit :: [] ∧
        s.store.recording 3 = .defined 2 2 ∧ (s.slot 0).capture = some (capture (.committing .complete)) ∧
        (∀ p, (s.readPort p).pin? ≠ some 30) ∧ ((s.setReadPort 0 (.opened opened)).readPort 0).pin? = some 20) ∧
      (let s : State := { indexing (.writing 0 ⟨17, [], [32]⟩) (.voidSet 3 0 1 2) .wrap with maint := some (.erase 3 1 2 [] 0) };
        s.maint = some (.erase 3 1 2 [] 0) ∧ (∀ p, (s.readPort p).pin? ≠ some 32) ∧
          (s.setReadPort 0 (.opened { opened with head := 32 })).ports.toList.any (·.pin? == some 32) = true) ∧
      (let s : State := { indexing (.writing 0 ⟨17, [], []⟩) (.repair 3 0 1) .wrap with maint := some (.mount (.repair walk)) };
        s.maint = some (.mount (.repair walk)) ∧ walk.todo.tail = [⟨0, 1, 2, 16, 100⟩] ∧ inDataArea 16 = false ∧
          { walk with todo := [walked, walked] }.todo.tail = [walked] ∧ inDataArea walked.head = true ∧
          { walk with todo := [walked] }.todo.tail = []) := by
  refine ⟨⟨rfl, rfl, rfl, rfl, rfl, by decide +kernel, rfl⟩, ⟨rfl, by decide +kernel, by decide +kernel⟩, rfl, rfl, rfl, rfl, ?_, rfl⟩
  decide

/-- The VOID-SET that sends a pinned head parks its release job and marks the port withdrawn (R127, R133). -/
theorem test_void_set_parks : ∃ t, exec .indexWriteComplete (({ granted .index (.write 17 [])
      (indexing (.writing 0 ⟨17, [], [32, 33]⟩) (.voidSet 3 0 1 2) .wrap) with maint := some (.erase 3 1 2 [] 0) } : State).setReadPort 0
        (.opened { opened with head := 32 })) = .next t ∧
    t.release.parked = [⟨32, 3⟩] ∧ t.release.queue = [⟨33, 3⟩] ∧ t.readPort 0 = .opened { opened with head := 32, withdrawn := true } ∧
      t.mgmt.status = ⟨63, 4, 2, 0⟩ := ⟨_, rfl, by decide +kernel, by decide +kernel, by decide +kernel, by decide +kernel⟩

/-- Section 11.1's commit: record 3 of recording 4 in an UNUSED entry, then slot 0 is EMPTY and its reservation returned. -/
theorem test_commit : ∃ t, exec .indexWriteComplete (granted .index (.write 17 []) (indexing (.writing 3 ⟨17, [], []⟩) commit .wrap)) = .next t ∧
    t.store.recording 3 = .defined 3 3 ∧ (t.slot 0).capture = none ∧ t.store.reserved = 0 ∧ t.index.queue = [] :=
  ⟨_, rfl, rfl, rfl, rfl, rfl⟩

theorem test_meets_ReleaseFreesUnpinnedRecords :
    (let s : State := { work .armed with release := ⟨[⟨20, 3⟩], false, []⟩ };
      s.release.queue = ⟨20, 3⟩ :: [] ∧ s.release.reading = false ∧ (∀ p, (s.readPort p).pin? ≠ some 20) ∧
        ((s.setReadPort 0 (.opened opened)).readPort 0).pin? = some 20) ∧
      Granted (granted .release (.write 20 (headBlock head)) ready) .release (.write 20 (headBlock head)) ∧
      readHead 3 ((StoreOp.write 20 (headBlock head)).contents []) = some head ∧ readHead 3 [0, 0] = none ∧
      (let s : State := { granted .release (.read 20) ready with
          release := ⟨[⟨20, 3⟩], true, []⟩, mgmt := { ready.mgmt with phase := .restarting } };
        s.release.queue = ⟨20, 3⟩ :: [] ∧ s.release.reading = true ∧ Granted s .release (.read 20) ∧ s.mgmt.phase = .restarting ∧
          ∃ t, exec .releaseHeadReadComplete s = .next t ∧ t.release.queue = [] ∧ t.store = s.store) :=
  ⟨⟨rfl, rfl, by decide +kernel, rfl⟩, rfl, test_head_block, by decide +kernel, rfl, rfl, rfl, rfl, _, rfl, rfl, rfl⟩

/-! #### The store blocks -/

/-- A name of 16 characters, recording 4 with its three index blocks, entries of laps 1 and 0 under block lap 1, the head of
section 11.1 and 120 samples. -/
theorem test_meets_StoreBlocksReadBackAsWritten :
    ((List.replicate 16 (126 : Byte)).length ≤ 16 ∧ ∀ c ∈ List.replicate 16 (126 : Byte), 32 ≤ c.toNat ∧ c.toNat ≤ 126) ∧
      (recording.name.length ≤ 12 ∧ (∀ c ∈ recording.name, 32 ≤ c.toNat ∧ c.toNat ≤ 126) ∧ recording.maxRecords ≤ 1536 ∧
        recording.blocks.length = (recording.maxRecords + 47) / 48 ∧ ∀ b ∈ recording.blocks, b < 2 ^ 16) ∧
      ((101 - 1) % 100 = 48 * 0 + 0 ∧ (2 - 1) % 100 = 48 * 0 + 1 ∧ (101 - 1) / 100 = 1 ∧ 1 ≤ (2 - 1) / 100 + 1 ∧
        ¬(2 ≤ (2 - 1) / 100 + 1)) ∧
      (head.total < 2 ^ 16 ∧ head.gaps.length ≤ 4 ∧ head.blocks.length = (head.total + 119) / 120 ∧
        (∀ b ∈ head.blocks, 17 ≤ b ∧ b ≤ 8191) ∧ head.recording.toNat = (3 : RecIx).val + 1) ∧
      (List.replicate 120 (5 : Sample)).length ≤ 120 ∧ checkGood [0x4C, 0, 0] = false ∧ byteAt [0x53, 1] 0 ≠ 0x48 := by
  refine ⟨⟨by decide, by decide⟩, ⟨by decide, by decide, by decide, by decide, by decide⟩, by decide, ⟨by decide, by decide,
    by decide, by decide, by decide⟩, by decide, by decide +kernel, by decide⟩

/-! #### The readout ports -/

/-- The working state with port 1 in a state, and an OPEN request for a record of recording 4. -/
def ported (x : ReadPort) : State := (work .armed).setReadPort 0 x
def openArgs (n : Byte) : List Byte := [4, 0, 0, 0, n]

theorem test_meets_OpenChecksReadsPinsAndOpens :
    HandedToPort (handed .portOpen 1 (openArgs 2) (ported .closed)) .portOpen (asked .portOpen 1 (openArgs 2)) 0 ∧
      (ported (.opened opened)).readPort 0 ≠ .closed ∧ (ported .closed).readPort 0 = .closed ∧
      fieldAt (openArgs 0) 1 4 = 0 ∧ (ported .closed).openRefusal 3 2 1 = none ∧
      (ported .closed).openRefusal 3 3 2 = some .recordNotPresent ∧ State.reset.openRefusal 3 1 0 = some .notReady ∧
      { ported .closed with store := ((work .armed).store.setRecording 3 (.damaged 2 2)).setEntry 3 (some
        { recording with held := [false, true, true] }) }.openRefusal 3 2 1 = some .recordNotPresent :=
  ⟨handedToPort_meets .., by decide +kernel, rfl, by decide, by decide +kernel, by decide +kernel, by decide +kernel, by decide +kernel⟩

/-- A port OPENING on record 101: before and after its index read. -/
def opening (found : Option (Nat × Nat)) : Opening := ⟨3, 101, 0, found, false⟩

theorem test_meets_OpenChecksReadsPinsAndOpens_completions :
    (let s := granted (.port 0) indexOp (ported (.opening (opening none)));
      Granted s (.port 0) indexOp ∧ s.readPort 0 = .opening (opening none) ∧ s.store.maxRecords 3 = 100) ∧
      (readIndex 3 0 100 (indexOp.contents [])).map (·.getD 0 .unused) = some (.present 101 30 100) ∧ inDataArea 30 = true ∧
      readHead 3 (headBlock head) = some head ∧ head.total = 500 ∧ (opening (some (20, 500))).found = some (20, 500) := by
  refine ⟨⟨rfl, rfl, rfl⟩, ?_, by decide, test_head_block, rfl, rfl⟩
  rw [entries_read]
  rfl

theorem test_meets_PositionMovesTheOffset :
    HandedToPort (handed .portPosition 1 [1, 0xF4] (ported (.opened opened))) .portPosition (asked .portPosition 1 [1, 0xF4]) 0 ∧
      (ported (.opened opened)).readPort 0 = .opened opened ∧ fieldAt [1, 0xF4] 0 2 = 500 ∧ fieldAt [1, 0xF5] 0 2 = 501 ∧
      HandedToPort (handed .portRead 1 [32] (ported (.opened opened))) .portRead (asked .portRead 1 [32]) 0 ∧
      (byteAt [32] 0).toNat = 32 ∧ { opened with position := 500 }.position = opened.info.total ∧
      { opened with position := 100, cache := some ⟨21, 0, []⟩ }.cache = some ⟨21, 0, []⟩ ∧
      (88 + min 32 (500 - 88) - 1) / 120 = 88 / 120 ∧ (89 + min 32 (500 - 89) - 1) / 120 = 89 / 120 + 1 :=
  ⟨handedToPort_meets .., rfl, by decide, by decide, handedToPort_meets .., by decide, rfl, rfl, by decide, by decide⟩

theorem test_meets_ReadTakesItsBlocks :
    ¬(1 ≤ (byteAt [33] 0).toNat ∧ (byteAt [33] 0).toNat ≤ 32) ∧ ¬(1 ≤ (byteAt [0] 0).toNat) ∧ opened.position < opened.info.total ∧
      opened.cache = none ∧
      (let r : OpenRecord := { opened with position := 480 };
        let op : StoreOp := .write 25 (dataBlock 20 4 (List.replicate 20 1));
        let s : State := { granted (.port 0) op (ported (.opened r)) with
          reading := some ⟨0, 20, [], [4]⟩, mgmt := (handed .portRead 1 [32] ready).mgmt };
        Granted s (.port 0) op ∧ s.readPort 0 = .opened r ∧ s.reading = some ⟨0, 20, [], 4 :: []⟩ ∧
          s.mgmt.request = some (asked .portRead 1 [32])) ∧
      (readData 20 4 (dataBlock 20 4 (List.replicate 20 1))).map List.length = some 20 ∧ head.expectedCount 4 = 20 ∧
      head.expectedCount 3 = 120 ∧ readData 20 4 [0, 0] = none := by
  refine ⟨by decide, by decide, by decide, rfl, ⟨rfl, rfl, rfl, rfl⟩, ?_, by decide, by decide, by decide +kernel⟩
  simp only [readData, dataBlock, List.cons_append, List.nil_append, blockIs_blockOf]
  decide +kernel

theorem test_meets_InfoAndCloseMoveNothingButThePin :
    (ported (.opened opened)).readPort 0 = .opened opened ∧ (ported .closed).readPort 0 = .closed ∧
      HandedToPort (handed .portInfo 1 [] (ported .closed)) .portInfo (asked .portInfo 1 []) 0 ∧
      HandedToPort (handed .portClose 1 [] (ported .closed)) .portClose (asked .portClose 1 []) 0 ∧
      ((ported (.opened opened)).readPort 0).pin? = some 20 ∧ ∀ p, ((ported .closed).readPort p).pin? ≠ some 20 :=
  ⟨rfl, rfl, handedToPort_meets .., handedToPort_meets .., rfl, by decide +kernel⟩

/-! #### Management, supply and lines -/

theorem test_meets_StatusReadsAndClears :
    Handed (handed .status 0 [] live) .status (asked .status 0 []) ∧
      (∃ t, exec .status (handed .status 0 [] live) = .next t ∧ t.mgmt.status = ⟨0, 0, 0, 0⟩) ∧
      (let s : State := { handed .status 0 [] live with link := { live.link with response := some [1] } };
        Handed s .status (asked .status 0 []) ∧ s.link.response ≠ none) :=
  ⟨handed_meets .., ⟨_, rfl, rfl⟩, handed_meets .., by decide⟩

theorem test_meets_RestartReturnsToStart :
    Handed (handed .identify 0 [] live) .identify (asked .identify 0 []) ∧
      Handed (handed .restart 0 [] live) .restart (asked .restart 0 []) ∧
      (let s : State := { ready with mgmt := { ready.mgmt with phase := .restarting } };
        s.mgmt.phase = .restarting ∧ s.port.busy = none) ∧ live.mgmt.phase ≠ .restarting ∧ live.port.busy ≠ none :=
  ⟨handed_meets .., handed_meets .., ⟨rfl, rfl⟩, by decide, by decide⟩

theorem test_meets_PowerAndResetRows :
    live.powered = true ∧ live.resetLine = false ∧ { live with resetLine := true }.resetLine = true ∧
      { live with powered := false }.powered = false ∧ Granted (writing false) (.slot 0) (.write 21 (List.replicate 256 0)) :=
  ⟨rfl, rfl, rfl, rfl, rfl⟩

theorem test_meets_BypassAndProtectRows :
    (let s : State := { live with resetLine := true, link := { live.link with aToB := .entering, bToA := .entering } };
      s.resetLine = true ∧ s.link.aToB = .entering ∧ s.link.bToA = .entering ∧ s.link.sendingB = none ∧ s.link.sendingA = none) ∧
      State.reset.powered = true ∧ State.reset.resetLine = false ∧ State.reset.link.aToB ≠ .through ∧
      State.reset.link.bToA ≠ .through := ⟨⟨rfl, rfl, rfl, rfl, rfl⟩, rfl, rfl, by decide, by decide⟩

/-- The values at the bounds of what the statements say of the shared functions: whose MREQ it is (R163, R165), the hold mark
(R2), the room of the release queue (R130), the walk's entries (R141), a VOID-SET that reports 0 (R136), and what a port
pins (R151). -/
theorem test_meets_SharedFunctions :
    (live.link.isOwn (mreq 1 0 60 []) = true ∧ live.link.isOwn (mreq 65 0 60 []) = false ∧
      { live.link with node := 62 }.isOwn (mreq 62 0 60 []) = true ∧ { live.link with node := 0 }.isOwn (mreq 0 0 60 []) = false ∧
      { live.link with node := 63 }.isOwn (mreq 63 0 60 []) = false) ∧
      ((busy (.collecting 120 none)).holdMark 0 = some 120 ∧ (busy (.draining 398 .cut)).holdMark 0 = some 398 ∧
        (busy (.draining 399 .cut)).holdMark 0 = none ∧ (busy (.collecting 120 none)).holdMark 1 = none) ∧
      ((busy (.collecting 120 none)).newest 0 = 99 ∧ (busy (.collecting 120 none)).ringLength 0 = 512) ∧
      ({ ready with index := { ready.index with held := 1 } } : State).releaseRoom = 63 ∧
      ready.store.label = some ⟨[0x41], 7⟩ ∧
      walkOf [(1, [.unused, .present 50 20 300, .void 51 21 9]), (2, [.present 98 22 1])] = [⟨1, 1, 50, 20, 300⟩, ⟨2, 0, 98, 22, 1⟩] ∧
      (({ ready with maint := some (.erase 3 1 2 [1] 5) } : State).voidSetReported 0).maint = some (.erase 3 1 2 [] 5) ∧
      (({ ready with maint := some (.erase 3 1 2 [] 5) } : State).voidSetReported 0).mgmt.status = ⟨63, 4, 5, 0⟩ ∧
      ReadPort.pin? .closed = none := by decide +kernel

/-- No word spells a command, so no word changes the queue (log 9). -/
theorem test_fetch_word : State.reset.withFetchWord 8 3 = State.reset := rfl

end Sys2Proof.Tests
end

section
/-!
PROOF. Trigger rules (chapter 2): what a sample does to a TRIPPED and to a DISABLED rule (R27, R36), and the rule
commands RULE ENABLE, RULE DISABLE and UNFIRE (R26, R27, R42).
-/

namespace Sys2Proof.Laws

open Machine

/-! ### Entries, arguments and owner rows -/

/-- Writing back the entry that stands in a table changes nothing. -/
@[simp] theorem tableSet_get_self {α : Type} {n : Nat} (v : Vector α n) (i : Fin n) : tableSet v i (v.get i) = v := by
  simp [tableSet, Vector.get_eq_getElem]

theorem setRule_self {s : State} {i : RuleIx} {r : Rule} (h : s.rule i = some r) : s.setRule i (some r) = s := by
  rw [← h, State.setRule, State.rule, tableSet_get_self]

@[simp] theorem indexOf_val {n : Nat} (i : Fin n) : indexOf n i.val = some i := dif_pos i.isLt

/-- An owner takes the request that was handed to it (R181). -/
theorem ownerStep_of_handed {s : State} {c : Command} {q : Request} (h : Handed s c q) (f : Request → State → State) :
    s.ownerStep c f = f q s := by
  obtain ⟨hrequest, hstage⟩ := h
  simp only [State.ownerStep, hrequest, if_pos hstage]

/-! ### Commands that name a rule (section 2.2) -/

section
variable {s : State} {c : Command} {q : Request} {i : RuleIx} {r : Rule}

theorem ruleIx_of_byte (hi : (byteAt q.args 0).toNat = i.val) : q.ruleIx = some i := by
  rw [Request.ruleIx, Request.byte, hi, indexOf_val]

/-- A rule command on an UNLOADED rule; `hexec` says that the row is one, which is `rfl` for each of them. -/
theorem exec_of_unloaded {a : Instr} {f : State → RuleIx → Rule → State}
    (hexec : exec a s = .next (s.ownerStep c fun q s => s.onRule q (f s)))
    (h : Handed s c q) (hi : (byteAt q.args 0).toNat = i.val) (hr : s.rule i = none) :
    exec a s = .next (s.refuse .noSuchRule) := by
  simp only [hexec, ownerStep_of_handed h, State.onRule, ruleIx_of_byte hi, hr]

/-- A rule command on a loaded rule has its own effect on it. -/
theorem exec_of_loaded {a : Instr} {f : State → RuleIx → Rule → State}
    (hexec : exec a s = .next (s.ownerStep c fun q s => s.onRule q (f s)))
    (h : Handed s c q) (hi : (byteAt q.args 0).toNat = i.val) (hr : s.rule i = some r) :
    exec a s = .next (f s i r) := by
  simp only [hexec, ownerStep_of_handed h, State.onRule, ruleIx_of_byte hi, hr]

/-! ### RULE ENABLE, RULE DISABLE and UNFIRE (R26, R27, R42) -/

theorem exec_ruleEnable_disabled (h : Handed s .ruleEnable q) (hi : (byteAt q.args 0).toNat = i.val)
    (hr : s.rule i = some r) (hs : r.state = .disabled) :
    exec .ruleEnable s = .next ((s.setRule i (some r.enabled)).respond .ok []) := by
  rw [exec_of_loaded (a := .ruleEnable) rfl h hi hr, if_pos hs]

theorem exec_ruleEnable_enabled (h : Handed s .ruleEnable q) (hi : (byteAt q.args 0).toNat = i.val)
    (hr : s.rule i = some r) (hs : r.state ≠ .disabled) : exec .ruleEnable s = .next (s.respond .ok []) := by
  rw [exec_of_loaded (a := .ruleEnable) rfl h hi hr, if_neg hs, setRule_self hr]

theorem exec_ruleDisable_loaded (h : Handed s .ruleDisable q) (hi : (byteAt q.args 0).toNat = i.val)
    (hr : s.rule i = some r) : exec .ruleDisable s = .next ((s.setRule i (some r.disabled)).respond .ok []) := by
  rw [exec_of_loaded (a := .ruleDisable) rfl h hi hr]

theorem exec_unfire_due (h : Handed s .unfire q) (hi : (byteAt q.args 0).toNat = i.val) (hr : s.rule i = some r)
    (hk : r.kind = .manual) (hs : r.state = .due) :
    exec .unfire s = .next ((s.setRule i (some { r with state := .armed })).respond .ok []) := by
  rw [exec_of_loaded (a := .unfire) rfl h hi hr]
  simp only [hk, hs]

theorem exec_unfire_armed (h : Handed s .unfire q) (hi : (byteAt q.args 0).toNat = i.val) (hr : s.rule i = some r)
    (hk : r.kind = .manual) (hs : r.state = .armed) : exec .unfire s = .next (s.respond .ok []) := by
  rw [exec_of_loaded (a := .unfire) rfl h hi hr]
  simp only [hk, hs]

/-- Only a MANUAL rule that is DUE or ARMED takes UNFIRE. -/
theorem exec_unfire_refused (h : Handed s .unfire q) (hi : (byteAt q.args 0).toNat = i.val) (hr : s.rule i = some r)
    (hn : r.kind = .manual → r.state ≠ .due ∧ r.state ≠ .armed) : exec .unfire s = .next (s.refuse .badState) := by
  rw [exec_of_loaded (a := .unfire) rfl h hi hr]
  split
  next hk hs => exact absurd hs (hn hk).1
  next hk hs => exact absurd hs (hn hk).2
  next => rfl

end

/-! ### Samples that leave a rule as it is -/

theorem disabled_eq_self {r : Rule} (hs : r.state = .disabled) (hp : r.periodCounter = none) : r.disabled = r := by
  rw [Rule.disabled, ← hs, ← hp]

theorem tick_of_no_counter {r : Rule} (hp : r.periodCounter = none) : r.tick = r := by
  unfold Rule.tick
  split
  next hn => rw [hp] at hn; contradiction
  next => rfl

theorem afterGap_of_disabled {r : Rule} (hs : r.state = .disabled) : r.afterGap = r := by
  simp only [Rule.afterGap, hs]

/-- A sample that does not make a rule fire gives it its next state, if the rule is of the sample's stream (R43). -/
theorem evalRule_of_next {s : State} {i : RuleIx} {r : Rule} {v : Sample} {p : Option Sample} {st : RuleState}
    (hr : s.rule i = some r) (hn : r.next v p = some st) (mark : Bool) (t : Nat) (stamp : Stamp) :
    evalRule r.stream t v p stamp (s, mark) i = (s.setRule i (some { r with state := st }), mark) := by
  simp only [evalRule, hr, if_true, hn]

/-- A sample of any stream that keeps the state of a rule changes nothing. -/
theorem evalRule_of_next_state {s : State} {i : RuleIx} {r : Rule} {v : Sample} {p : Option Sample}
    (hr : s.rule i = some r) (hn : r.next v p = some r.state) (stream : StreamIx) (mark : Bool) (t : Nat) (stamp : Stamp) :
    evalRule stream t v p stamp (s, mark) i = (s, mark) := by
  by_cases hs : r.stream = stream
  · subst hs
    rw [evalRule_of_next hr hn, setRule_self hr]
  · simp only [evalRule, hr, if_neg hs]

/-- No sample meets the fire condition and the re-arm condition (R32). -/
theorem rearms_eq_false_of_fires {k : RuleKind} {v : Sample} {p : Option Sample} (h : k.fires v p = true) :
    k.rearms v p = false := by
  cases k with
  | above high h n | below low h n | outside high low h n =>
    simp only [RuleKind.fires, RuleKind.rearms, Bool.or_eq_true, decide_eq_true_eq, ← Bool.not_eq_true,
      Bool.and_eq_true] at *
    omega
  | step delta h n =>
    cases p with
    | none => simp [RuleKind.fires] at h
    | some x =>
      simp only [RuleKind.fires, RuleKind.rearms, decide_eq_true_eq, decide_eq_false_iff_not] at *
      omega
  | periodic period | manual => rfl

theorem next_of_tripped {r : Rule} (h : r.state = .tripped) (v : Sample) (p : Option Sample) :
    r.next v p = some (if r.kind.rearms v p then .armed else .tripped) := by
  simp only [Rule.next, h]

theorem next_of_disabled {r : Rule} (h : r.state = .disabled) (v : Sample) (p : Option Sample) :
    r.next v p = some .disabled := by
  simp only [Rule.next, h]

/-! ### The obligations -/

/-- Settles O23: a TRIPPED rule's next state turns on its re-arm condition alone, which no firing sample meets. -/
theorem trippedRuleWaitsForRearm : Obligations.TrippedRuleWaitsForRearm := by
  intro s mark i r stream t v p stamp hr hstream _ htripped
  subst hstream
  have hnext := next_of_tripped htripped v p
  have stays (hrearm : r.kind.rearms v p = false) : evalRule r.stream t v p stamp (s, mark) i = (s, mark) := by
    refine evalRule_of_next_state hr ?_ r.stream mark t stamp
    rw [hnext, hrearm, htripped, if_neg Bool.false_ne_true]
  refine ⟨fun hrearm => ?_, stays, fun hfire => stays (rearms_eq_false_of_fires hfire)⟩
  rw [if_pos hrearm] at hnext
  exact evalRule_of_next hr hnext mark t stamp

/-- Settles O28, command by command; a DISABLED rule has no counter to tick, is not PENDING and is passed by a sample. -/
theorem ruleEnableStartsAndDisableStopsTheRule : Obligations.RuleEnableStartsAndDisableStopsTheRule := by
  refine ⟨fun s q i h hi => ⟨?unloaded, fun r hr => ⟨?starts, ?kept⟩⟩,
    fun s q i h hi => ⟨?unloaded', ?stops, ?still⟩, ?passed⟩
  case unloaded => exact exec_of_unloaded rfl h hi
  case starts => exact exec_ruleEnable_disabled h hi hr
  case kept => exact exec_ruleEnable_enabled h hi hr
  case unloaded' => exact exec_of_unloaded rfl h hi
  case stops => exact fun r hr => exec_ruleDisable_loaded h hi hr
  case still =>
    intro r hr hs hp
    rw [exec_ruleDisable_loaded h hi hr, disabled_eq_self hs hp, setRule_self hr]
  case passed =>
    intro r hs hp
    have hnext (v p) : r.next v p = some r.state := by rw [next_of_disabled hs, hs]
    exact ⟨tick_of_no_counter hp, afterGap_of_disabled hs, fun s mark i stream t v p stamp hr =>
      evalRule_of_next_state hr (hnext v p) stream mark t stamp⟩

/-- Settles O29: UNFIRE by the rule's kind and state, and RULE DISABLE for a PERIODIC rule. -/
theorem unfireWithdrawsThePendingFiring : Obligations.UnfireWithdrawsThePendingFiring := by
  refine ⟨fun s q i h hi => ⟨?unloaded, fun r hr => ⟨?refused, ?withdrawn, ?kept⟩⟩, ?periodic⟩
  case unloaded => exact exec_of_unloaded rfl h hi
  case refused =>
    intro hn
    refine exec_unfire_refused h hi hr fun hk => ?_
    have hs : r.state = .disabled := hn.resolve_left (absurd hk)
    simp [hs]
  case withdrawn => exact exec_unfire_due h hi hr
  case kept => exact exec_unfire_armed h hi hr
  case periodic => exact fun s q i r _ h hi hr _ _ => exec_ruleDisable_loaded h hi hr

end Sys2Proof.Laws
end

section
/-!
PROOF. The condition word (chapter 4): what a report does (R80, R81), and CONTROL SET with its check of the set and
unmasked flags (R84, R85).
-/

namespace Sys2Proof.Laws

open Machine

/-! ### Test 1 and answers -/

/-- Test 1 refuses every capture request while SUSPENDED, with no condition (R51, R83). -/
theorem captureRequest_of_suspended {s : State} (h : s.cond.state = .suspended) (q : CaptureRequest) :
    s.captureRequest q = (s, false) := by
  simp only [State.captureRequest, State.allocationTests, if_pos h]

/-- An answer, placed or held, leaves the Condition Unit as it is (R178). -/
@[simp] theorem respond_cond (s : State) (st : Status) (result : List Byte) :
    (s.respond st result).cond = s.cond := by
  simp only [State.respond, State.respondWith]
  split
  next => rfl
  next => split <;> rfl

/-! ### Reports (R80, R81) -/

theorem report_of_unmasked_running {s : State} {r : ConditionReport} (hm : s.cond.masked r.condition = false)
    (hs : s.cond.state = .running) :
    s.report r = { s with
      cond := { s.cond with flags := s.cond.flags ||| r.condition.bit, state := .suspended, detail := some (.raised r) }
      mgmt := { s.mgmt with
        status := s.mgmt.status.take eventSuspended (BitVec.ofNat 16 r.condition.number) (BitVec.ofNat 16 r.rule.val) } } := by
  obtain ⟨-, hn⟩ | ⟨heq, -⟩ := report_spec s r
  · exact absurd ⟨hm, hs⟩ hn
  · exact heq

theorem report_of_masked_or_suspended {s : State} {r : ConditionReport}
    (h : s.cond.masked r.condition = true ∨ s.cond.state = .suspended) :
    s.report r = { s with cond := { s.cond with flags := s.cond.flags ||| r.condition.bit } } := by
  obtain ⟨heq, -⟩ | ⟨-, hm, hs⟩ := report_spec s r
  · exact heq
  · simp [hm, hs] at h

/-- The number of a condition is its place among all of them. -/
theorem number_getElem_conditions : ∀ (i : Nat) (h : i < Condition.all.length), Condition.all[i].number = i := by
  decide

/-- To set a flag that is set changes no flag (R75). -/
theorem flags_or_bit_of_flagged {u : ConditionUnit} {c : Condition} (h : u.flagged c = true) :
    u.flags ||| c.bit = u.flags := by
  refine BitVec.eq_of_getLsbD_eq fun i hi => ?_
  obtain ⟨d, rfl⟩ : ∃ d : Condition, d.number = i := ⟨_, number_getElem_conditions i hi⟩
  rw [getLsbD_or_bit]
  by_cases hd : d = c
  · rw [hd, show u.flags.getLsbD c.number = true from h, Bool.true_or]
  · rw [decide_eq_false hd, Bool.or_false]

/-- Under the law of conditions no condition is set and unmasked while RUNNING (R77). -/
theorem unflagged_or_masked_of_running {s : State} (law : ConditionLaw s) (hs : s.cond.state = .running) (c : Condition) :
    s.cond.flagged c = false ∨ s.cond.masked c = true := by
  obtain ⟨hsuspended, -⟩ := law
  have hlive : s.cond.live = 0 := by
    by_contra hne
    exact absurd ((hsuspended hne).symm.trans hs) (by decide)
  have hc : (s.cond.flagged c && !s.cond.masked c) = false := by
    rw [← getLsbD_live, hlive, BitVec.ofNat_eq_ofNat, BitVec.getLsbD_zero]
  rwa [Bool.and_eq_false_iff, Bool.not_eq_false'] at hc

/-! ### The lowest set and unmasked flag (R85) -/

theorem condition_number_lt (c : Condition) : c.number < Condition.all.length := by cases c <;> decide

theorem getElem_conditions_number (c : Condition) : Condition.all[c.number]'(condition_number_lt c) = c := by
  cases c <;> rfl

theorem lowestLive_eq_some_iff {u : ConditionUnit} {c : Condition} :
    u.lowestLive = some c ↔ (u.flagged c = true ∧ u.masked c = false) ∧
      ∀ c' : Condition, c'.number < c.number → ¬(u.flagged c' = true ∧ u.masked c' = false) := by
  have live (d : Condition) : (u.flagged d && !u.masked d) = true ↔ u.flagged d = true ∧ u.masked d = false := by
    rw [Bool.and_eq_true, Bool.not_eq_true']
  rw [ConditionUnit.lowestLive, List.find?_eq_some_iff_getElem, live]
  refine and_congr_right fun _ => ⟨fun ⟨i, hi, hget, hbelow⟩ c' hc' hlive => ?_, fun hbelow =>
    ⟨c.number, condition_number_lt c, getElem_conditions_number c, fun j hj => ?_⟩⟩
  · have hnumber : c.number = i := by rw [← hget, number_getElem_conditions i hi]
    have hdead := hbelow c'.number (hnumber ▸ hc')
    rw [getElem_conditions_number, (live c').2 hlive] at hdead
    contradiction
  · have hget := number_getElem_conditions j (hj.trans (condition_number_lt c))
    rw [Bool.not_eq_true', ← Bool.not_eq_true, live]
    exact hbelow _ (hget.trans_lt hj)

/-! ### The check after CONTROL SET (R85) -/

/-- Capture suspended by a change of masks: the detail record names the condition and the current stamp, and SUSPENDED
is sent without a rule (R82, R85). -/
def suspendedByMasks (s : State) (c : Condition) : State :=
  { s with
    cond := { s.cond with state := .suspended, detail := some (.maskChange c s.time) }
    mgmt := { s.mgmt with status := s.mgmt.status.take eventSuspended (BitVec.ofNat 16 c.number) noRuleArgument } }

theorem maskCheck_of_lowestLive {s : State} {c : Condition} (hs : s.cond.state = .running)
    (hc : s.cond.lowestLive = some c) : s.maskCheck = suspendedByMasks s c := by
  simp only [State.maskCheck, hs, hc]
  rfl

theorem maskCheck_of_none_live {s : State} (h : ∀ c, s.cond.state = .running → s.cond.lowestLive ≠ some c) :
    s.maskCheck = s := by
  unfold State.maskCheck
  split
  next c hs hc => exact absurd hc (h c hs)
  next => rfl

/-! ### CONTROL SET (R84) -/

/-- The changes that a CONTROL SET makes before its check: the selected masks take the mask value, and a present level
becomes the preempt level (R84). -/
def controlled (s : State) (q : Request) : State :=
  { s with cond := { s.cond with
    masks := if byteAt q.args 1 = 1 then s.cond.masks ||| byteAt q.args 0 else s.cond.masks &&& ~~~byteAt q.args 0
    level := if byteAt q.args 2 = 255 then s.cond.level else (byteAt q.args 2).toNat } }

/-- What CONTROL SET answers: masks, level, flags and capture state (R84). -/
def controlAnswer (u : ConditionUnit) : List Byte :=
  [u.masks, BitVec.ofNat 8 u.level, u.flags, u.state.code]

theorem maskValue_of_good {b : Byte} (h : b = 0 ∨ b = 1) : maskValue b = some (decide (b = 1)) := by
  obtain rfl | rfl := h <;> rfl

theorem maskValue_of_bad {b : Byte} (h : ¬(b = 0 ∨ b = 1)) : maskValue b = none := by
  rw [not_or] at h
  rw [maskValue, if_neg h.1, if_neg h.2]

theorem levelArgument_of_good {b : Byte} (h : b = 255 ∨ b.toNat ≤ 4) :
    levelArgument b = some (if b = 255 then none else some b.toNat) := by
  unfold levelArgument
  split
  next => rfl
  next hb => rw [if_pos (h.resolve_left hb)]

theorem levelArgument_of_bad {b : Byte} (h : ¬(b = 255 ∨ b.toNat ≤ 4)) : levelArgument b = none := by
  rw [not_or] at h
  rw [levelArgument, if_neg h.1, if_neg h.2]

section
variable {s : State} {q : Request}

theorem exec_controlSet (h : Handed s .controlSet q) :
    exec .controlSet s = .next (match maskValue (byteAt q.args 1), levelArgument (byteAt q.args 2) with
      | some m, some level =>
        let t := { s with cond := { s.cond with
          masks := newMasks s.cond.masks (byteAt q.args 0) m, level := level.getD s.cond.level } }.maskCheck
        t.respond .ok (controlAnswer t.cond)
      | _, _ => s.refuse .badArgument) := by
  rw [show exec .controlSet s = execControlSet s from rfl, execControlSet, ownerStep_of_handed h]
  rfl

theorem exec_controlSet_refused (h : Handed s .controlSet q)
    (hbad : ¬((byteAt q.args 1 = 0 ∨ byteAt q.args 1 = 1) ∧ (byteAt q.args 2 = 255 ∨ (byteAt q.args 2).toNat ≤ 4))) :
    exec .controlSet s = .next (s.refuse .badArgument) := by
  rw [exec_controlSet h]
  obtain hvalue | hlevel := not_and_or.1 hbad
  · rw [maskValue_of_bad hvalue]
  · rw [levelArgument_of_bad hlevel]
    split
    next hnone => contradiction
    next => rfl

theorem exec_controlSet_taken (h : Handed s .controlSet q) (hvalue : byteAt q.args 1 = 0 ∨ byteAt q.args 1 = 1)
    (hlevel : byteAt q.args 2 = 255 ∨ (byteAt q.args 2).toNat ≤ 4) :
    exec .controlSet s = .next
      ((controlled s q).maskCheck.respond .ok (controlAnswer (controlled s q).maskCheck.cond)) := by
  have hlevels : (if byteAt q.args 2 = 255 then none else some (byteAt q.args 2).toNat).getD s.cond.level =
      if byteAt q.args 2 = 255 then s.cond.level else (byteAt q.args 2).toNat := by
    split <;> rfl
  rw [exec_controlSet h, maskValue_of_good hvalue, levelArgument_of_good hlevel]
  simp only [newMasks, decide_eq_true_eq, hlevels, controlled]

end

/-! ### The obligations -/

/-- Settles O36: the two cases of a report, with test 1 refusing after the first. -/
theorem reportsSuspendOrSetTheFlagOnly : Obligations.ReportsSuspendOrSetTheFlagOnly := by
  refine ⟨fun s r hm hs => ?suspends, fun s r h => ⟨?flag, ?again⟩, ?law⟩
  case suspends =>
    have heq := report_of_unmasked_running hm hs
    refine ⟨heq, captureRequest_of_suspended ?_⟩
    rw [heq]
  case flag => exact report_of_masked_or_suspended h
  case again =>
    intro hf _
    rw [report_of_masked_or_suspended h, flags_or_bit_of_flagged hf]
  case law => exact fun s r law hs => unflagged_or_masked_of_running law hs r.condition

/-- Settles O37: the refusal, then the check after the changes by whether a flag is then set and unmasked. -/
theorem controlSetChecksTheMasks : Obligations.ControlSetChecksTheMasks := by
  intro s q h
  refine ⟨exec_controlSet_refused h, fun ⟨hvalue, hlevel⟩ =>
    ⟨fun hnone => ?stays, fun c ⟨hs, hset, hunmasked, hlowest⟩ => ?suspends⟩⟩
  case stays =>
    have hcheck : (controlled s q).maskCheck = controlled s q := by
      refine maskCheck_of_none_live fun c hs hlive => hnone c ?_
      obtain ⟨⟨hset, hunmasked⟩, hlowest⟩ := lowestLive_eq_some_iff.1 hlive
      exact ⟨hs, hset, hunmasked, hlowest⟩
    rw [exec_controlSet_taken h hvalue hlevel, hcheck]
    rfl
  case suspends =>
    have hcheck : (controlled s q).maskCheck = suspendedByMasks (controlled s q) c :=
      maskCheck_of_lowestLive hs (lowestLive_eq_some_iff.2 ⟨⟨hset, hunmasked⟩, hlowest⟩)
    refine ⟨?_, captureRequest_of_suspended ?_⟩
    · rw [exec_controlSet_taken h hvalue hlevel, hcheck]
      rfl
    · rw [respond_cond]

end Sys2Proof.Laws
end

section
/-!
PROOF. The mount scan (section 6.5): its first read, and what the completion of that read makes of the label (R138).
-/

namespace Sys2Proof.Laws

open Machine

/-! ### Completions of Maintenance -/

/-- The completion of a granted Maintenance operation, in the phase that the row is for, has that phase's effect on the
contents and the idle port, and the arbiter tests (R117, R118). -/
theorem onMaintenance_of_granted {s : State} {op : StoreOp} {m : MaintenanceOp}
    {p : MaintenanceOp → Option (List Byte → State → State)} {f : List Byte → State → State}
    (h : Granted s .maintenance op) (hm : s.maint = some m) (hp : p m = some f) :
    s.onMaintenance p = (f (op.contents s.array) (s.complete op)).arbitrate := by
  have hphase : s.maint.bind p = some f := by rw [hm, Option.bind_some, hp]
  have hbusy : s.port.busy = some ⟨.maintenance, op⟩ := h
  simp only [State.onMaintenance, hbusy, hphase]

theorem exec_mountLabelReadComplete {s : State} {op : StoreOp} (h : Granted s .maintenance op)
    (hm : s.maint = some (.mount .label)) :
    exec .mountLabelReadComplete s = .next (mountLabel (op.contents s.array) (s.complete op)).arbitrate := by
  rw [show exec .mountLabelReadComplete s = execMountLabelReadComplete s from rfl, execMountLabelReadComplete,
    onMaintenance_of_granted h hm rfl]

/-! ### The label (R138) -/

/-- An invalid label clears the Store Manager, makes the store UNFORMATTED (R96), ends the scan and sends the event. -/
theorem mountLabel_of_invalid {contents : List Byte} (h : readLabel contents = none) (s : State) :
    mountLabel contents s = { s with
      store := { s.store.clearAll with state := .unformatted, label := none }
      maint := none
      mgmt := { s.mgmt with status := s.mgmt.status.take eventUnformatted 0 0 } } := by
  simp only [mountLabel, h]
  rfl

/-- A valid label becomes the label copy, and the scan presents the read of the first directory block. -/
theorem mountLabel_of_valid {contents : List Byte} {l : LabelCopy} (h : readLabel contents = some l) (s : State) :
    mountLabel contents s =
      ({ s with store := { s.store with label := some l }, maint := some (.mount (.directory 1)) } : State).present
        .maintenance (.read 1) := by
  simp only [mountLabel, h]
  rfl

/-! ### The obligation -/

/-- Settles O44: the scan's first read by its definition, and its completion by whether the block is a valid label. -/
theorem mountReadsTheLabel : Obligations.MountReadsTheLabel := by
  refine ⟨fun s => ?begins, fun s op h hm => ⟨fun hinvalid => ?invalid, fun l hvalid => ?valid⟩⟩
  case begins => rw [State.mountBegins, State.beginMaintenance]
  case invalid =>
    rw [exec_mountLabelReadComplete h hm, mountLabel_of_invalid hinvalid]
    rfl
  case valid =>
    rw [exec_mountLabelReadComplete h hm, mountLabel_of_valid hvalid]
    rfl

end Sys2Proof.Laws
end

section
/-!
PROOF. Readout ports (section 7.5): POSITION, and a READ whose first block the cache holds or that stands at the end of
the record (R154, R155).
-/

namespace Sys2Proof.Laws

open Machine

/-! ### Readout commands on an OPEN port -/

section
variable {s : State} {c : Command} {q : Request} {p : PortIx} {r : OpenRecord}

/-- A port takes the readout command that names it (R147). -/
theorem portStep_of_handed (h : HandedToPort s c q p) (f : Request → PortIx → State → State) :
    s.portStep c f = f q p s := by
  obtain ⟨handed, hport⟩ := h
  simp only [State.portStep, ownerStep_of_handed handed, hport]

theorem onOpenPort_of_opened (hp : s.readPort p = .opened r) (f : OpenRecord → State) : s.onOpenPort p f = f r := by
  simp only [State.onOpenPort, hp]

/-- A command that needs an OPEN port has its own effect on one; `hexec` says that the row is such a command, which is
`rfl` for POSITION, READ and INFO. -/
theorem exec_of_opened {a : Instr} {f : Request → PortIx → State → OpenRecord → State}
    (hexec : exec a s = .next (s.portStep c fun q p s => s.onOpenPort p (f q p s)))
    (h : HandedToPort s c q p) (hp : s.readPort p = .opened r) : exec a s = .next (f q p s r) := by
  rw [hexec, portStep_of_handed h, onOpenPort_of_opened hp]

/-- The port word of an OPEN port: its mark in bit 15 and its position below (R190). -/
theorem portAnswer_of_opened (hp : s.readPort p = .opened r) (st : Status) (result : List Byte) :
    s.portAnswer p st result =
      s.respondWith st (BitVec.ofNat 16 ((if r.withdrawn then 2 ^ 15 else 0) + r.position % 2 ^ 14)) result false := by
  rw [State.portAnswer, hp, ReadPort.word]

/-! ### POSITION (R154) -/

theorem exec_portPosition_within (h : HandedToPort s .portPosition q p) (hp : s.readPort p = .opened r)
    (hoffset : fieldAt q.args 0 2 ≤ r.info.total) :
    exec .portPosition s =
      .next ((s.setReadPort p (.opened { r with position := fieldAt q.args 0 2 })).portAnswer p .ok []) := by
  rw [exec_of_opened (a := .portPosition) rfl h hp]
  exact congrArg _ (if_pos hoffset)

theorem exec_portPosition_beyond (h : HandedToPort s .portPosition q p) (hp : s.readPort p = .opened r)
    (hoffset : r.info.total < fieldAt q.args 0 2) :
    exec .portPosition s = .next (s.portAnswer p .positionPastEnd []) := by
  rw [exec_of_opened (a := .portPosition) rfl h hp]
  exact congrArg _ (if_neg hoffset.not_ge)

/-! ### The blocks that a READ takes (R155) -/

theorem placesNeeded_of_one_block {k : Nat} (hlast : (r.position + k - 1) / 120 = r.position / 120) :
    r.placesNeeded k = [r.position / 120] := if_pos hlast

theorem placesNeeded_of_two_blocks {k : Nat} (hlast : (r.position + k - 1) / 120 = r.position / 120 + 1) :
    r.placesNeeded k = [r.position / 120, r.position / 120 + 1] :=
  if_neg (hlast.trans_ne (Nat.succ_ne_self _))

/-- A needed block that the cache holds is taken without a read. -/
theorem readOn_of_cached {b : CachedBlock} {j : Nat} (hcache : r.cache = some b) (hplace : b.place = j) (k : Nat)
    (taken : List CachedBlock) (js : List Nat) (s : State) :
    s.readOn p r k taken (j :: js) = s.readOn p r k (taken ++ [b]) js := by
  have hheld : r.cache.filter (·.place == j) = some b := by
    rw [hcache, Option.filter_some, if_pos (beq_iff_eq.2 hplace)]
  rw [State.readOn, hheld]

/-- A needed block that the cache does not hold is read at class 5, and the READ stays in process (R155, R181). -/
theorem readOn_of_not_cached {j : Nat} (hq : s.mgmt.request = some q) (hcache : ∀ b, r.cache = some b → b.place ≠ j)
    (k : Nat) (taken : List CachedBlock) (js : List Nat) :
    s.readOn p r k taken (j :: js) = ({ s with
      reading := some ⟨p, k, taken, j :: js⟩
      mgmt := { s.mgmt with request := some { q with stage := .reading .portRead } } } : State).present (.port p)
        (.read (r.info.blocks.getD j 0)) := by
  have habsent : r.cache.filter (·.place == j) = none :=
    Option.filter_eq_none_iff.2 fun b hb => beq_iff_eq.not.2 (hcache b hb)
  rw [State.readOn, habsent]
  simp only [State.awaitReads, hq, Option.map_some]

/-! ### READ (R155, R157) -/

theorem exec_portRead_at_end (h : HandedToPort s .portRead q p) (hp : s.readPort p = .opened r)
    (hcount : 1 ≤ (byteAt q.args 0).toNat ∧ (byteAt q.args 0).toNat ≤ 32) (hend : r.position = r.info.total) :
    exec .portRead s = .next (s.portAnswer p .endOfRecord []) := by
  rw [exec_of_opened (a := .portRead) rfl h hp]
  exact congrArg _ ((if_neg (not_not_intro hcount)).trans (if_pos hend))

theorem exec_portRead_before_end (h : HandedToPort s .portRead q p) (hp : s.readPort p = .opened r)
    (hcount : 1 ≤ (byteAt q.args 0).toNat ∧ (byteAt q.args 0).toNat ≤ 32) (hrest : r.position < r.info.total) {k : Nat}
    (hk : k = min (byteAt q.args 0).toNat (r.info.total - r.position)) :
    exec .portRead s = .next (s.readOn p r k [] (r.placesNeeded k)) := by
  rw [exec_of_opened (a := .portRead) rfl h hp, hk]
  exact congrArg _ ((if_neg (not_not_intro hcount)).trans (if_neg hrest.ne))

/-- A READ that lies in the cached block is answered from it, and the block stays in the cache (R157). -/
theorem readOn_within_cached {b : CachedBlock} {k : Nat} (hcache : r.cache = some b) (hplace : b.place = r.position / 120)
    (hlast : (r.position + k - 1) / 120 = r.position / 120) (s : State) :
    s.readOn p r k [] (r.placesNeeded k) = ({ s with
      reading := none
      ports := tableSet s.ports p (.opened { r with position := r.position + k, cache := some b }) } : State).portAnswer p .ok
        (((b.samples.drop (r.position % 120)).take k).map (wordBytes 2)).flatten := by
  rw [placesNeeded_of_one_block hlast, readOn_of_cached hcache hplace, List.nil_append, State.readOn,
    OpenRecord.samplesRead, List.flatMap_singleton]
  rfl

/-- A READ that runs over the end of the cached block takes that block and reads the next one. -/
theorem readOn_beyond_cached {b : CachedBlock} {k : Nat} (hq : s.mgmt.request = some q) (hcache : r.cache = some b)
    (hplace : b.place = r.position / 120) (hlast : (r.position + k - 1) / 120 = r.position / 120 + 1) :
    s.readOn p r k [] (r.placesNeeded k) = ({ s with
      reading := some ⟨p, k, [b], [r.position / 120 + 1]⟩
      mgmt := { s.mgmt with request := some { q with stage := .reading .portRead } } } : State).present (.port p)
        (.read (r.info.blocks.getD (r.position / 120 + 1) 0)) := by
  have hnext (c : CachedBlock) (hc : r.cache = some c) : c.place ≠ r.position / 120 + 1 := by
    obtain rfl : b = c := Option.some.inj (hcache.symm.trans hc)
    omega
  rw [placesNeeded_of_two_blocks hlast, readOn_of_cached hcache hplace, List.nil_append, readOn_of_not_cached hq hnext]

end

/-! ### The obligation -/

/-- Settles O54: POSITION by its offset, and READ at the end of the record or out of the cached block. -/
theorem positionMovesTheOffset : Obligations.PositionMovesTheOffset := by
  refine ⟨fun s q p r h hp => ⟨fun hwithin => ?moves, fun hbeyond => ?pastEnd⟩, fun s q p r h hp hlow hhigh =>
    ⟨fun hend => ?atEnd, fun b hcache hplace hrest => ⟨fun hlast => ?cached, fun hlast => ?readsNext⟩⟩⟩
  case moves =>
    rw [exec_portPosition_within h hp hwithin, portAnswer_of_opened (readPort_setReadPort_same ..)]
    rfl
  case pastEnd => rw [exec_portPosition_beyond h hp hbeyond, portAnswer_of_opened hp]
  case atEnd => exact exec_portRead_at_end h hp ⟨hlow, hhigh⟩ hend
  case cached =>
    rw [exec_portRead_before_end h hp ⟨hlow, hhigh⟩ hrest rfl, readOn_within_cached hcache hplace hlast]
  case readsNext =>
    rw [exec_portRead_before_end h hp ⟨hlow, hhigh⟩ hrest rfl]
    obtain ⟨⟨hrequest, -⟩, -⟩ := h
    rw [readOn_beyond_cached hrequest hcache hplace hlast]

end Sys2Proof.Laws
end

section
/-!
PROOF. The Time Base (section 8.7): a CYCLE frame of port B counts and gives its tick (R173), a tick leaves the link and the
Time Base as they are, and a frame that the Time Base does not take changes neither number.
-/

namespace Sys2Proof.Laws

open Machine

/-! ### What the Capture Engine and the rules leave unchanged -/

/-- The link and the Time Base stay as they are. -/
structure KeepsLinkAndTime (s t : State) : Prop where
  link : t.link = s.link
  time : t.time = s.time

theorem KeepsLinkAndTime.refl (s : State) : KeepsLinkAndTime s s := ⟨rfl, rfl⟩

theorem KeepsLinkAndTime.trans {s t u : State} (h : KeepsLinkAndTime s t) (k : KeepsLinkAndTime t u) :
    KeepsLinkAndTime s u := ⟨k.link.trans h.link, k.time.trans h.time⟩

theorem foldl_keepsLinkAndTime {α : Type} {f : State → α → State} (h : ∀ s a, KeepsLinkAndTime s (f s a)) (l : List α)
    (s : State) : KeepsLinkAndTime s (l.foldl f s) :=
  List.foldlRecOn l f (.refl s) fun t ht a _ => ht.trans (h t a)

theorem setCapture_keepsLinkAndTime (k : SlotIx) (c : Option Capture) (s : State) :
    KeepsLinkAndTime s (s.setCapture k c) := ⟨setCapture_link .., setCapture_time ..⟩

theorem modifyRule_keepsLinkAndTime (i : RuleIx) (g : Rule → Rule) (s : State) :
    KeepsLinkAndTime s (s.modifyRule i g) := ⟨setRule_link .., setRule_time ..⟩

theorem endCheck_keepsLinkAndTime (k : SlotIx) (s : State) : KeepsLinkAndTime s (s.endCheck k) := by
  unfold State.endCheck
  split
  case h_1 =>
    split
    case h_1 =>
      split
      case isTrue => exact setCapture_keepsLinkAndTime ..
      case isFalse => exact .refl s
    case h_2 => exact .refl s
  case h_2 => exact .refl s

theorem fillOnce_keepsLinkAndTime (k : SlotIx) (s : State) : KeepsLinkAndTime s (s.fillOnce k) := by
  simp only [State.fillOnce]
  split
  case h_1 => exact .refl s
  case h_2 =>
    split
    case isTrue => exact .refl s
    case isFalse =>
      split
      case h_1 => exact .refl s
      case h_2 => exact ⟨setSlot_link .., setSlot_time ..⟩

theorem arbitrate_keepsLinkAndTime (s : State) : KeepsLinkAndTime s s.arbitrate := by
  rw [arbitrate_within]
  exact ⟨rfl, rfl⟩

theorem present_keepsLinkAndTime (w : Requester) (op : StoreOp) (s : State) : KeepsLinkAndTime s (s.present w op) :=
  have harbitrate := arbitrate_keepsLinkAndTime { s with port.waiting := s.port.waiting ++ [⟨w, op⟩] }
  ⟨harbitrate.link, harbitrate.time⟩

theorem presentSlot_keepsLinkAndTime (k : SlotIx) (s : State) : KeepsLinkAndTime s (s.presentSlot k) := by
  unfold State.presentSlot
  split
  case h_1 => exact .refl s
  case h_2 => exact present_keepsLinkAndTime ..

theorem slotChecks_keepsLinkAndTime (k : SlotIx) (s : State) : KeepsLinkAndTime s (s.slotChecks k) :=
  (endCheck_keepsLinkAndTime k s).trans <| (fillOnce_keepsLinkAndTime k _).trans <|
    (fillOnce_keepsLinkAndTime k _).trans (presentSlot_keepsLinkAndTime k _)

theorem endEarly_keepsLinkAndTime (cause : EndCause) (k : SlotIx) (s : State) :
    KeepsLinkAndTime s (s.endEarly cause k) := by
  unfold State.endEarly
  split
  case h_1 =>
    split
    case h_1 => exact (setCapture_keepsLinkAndTime ..).trans (slotChecks_keepsLinkAndTime k _)
    case h_2 => exact .refl s
  case h_2 => exact .refl s

/-! ### A tick (R174) -/

theorem tickRules_keepsLinkAndTime (s : State) : KeepsLinkAndTime s s.tickRules :=
  foldl_keepsLinkAndTime (fun s i => modifyRule_keepsLinkAndTime i Rule.tick s) _ s

theorem tickSlot_keepsLinkAndTime (k : SlotIx) (s : State) : KeepsLinkAndTime s (s.tickSlot k) := by
  unfold State.tickSlot
  split
  case h_1 =>
    split
    case h_1 =>
      split
      case isTrue => exact endEarly_keepsLinkAndTime .stalled k s
      case isFalse => exact setCapture_keepsLinkAndTime ..
    case h_2 => exact .refl s
  case h_2 => exact .refl s

theorem tickSlots_keepsLinkAndTime (s : State) : KeepsLinkAndTime s s.tickSlots :=
  foldl_keepsLinkAndTime (fun s k => tickSlot_keepsLinkAndTime k s) _ s

theorem tick_keepsLinkAndTime (s : State) : KeepsLinkAndTime s s.tickRules.tickSlots :=
  (tickRules_keepsLinkAndTime s).trans (tickSlots_keepsLinkAndTime _)

/-! ### Counting CYCLE frames (R173) -/

theorem afterCycle_of_flag_set (t : Stamp) : t.afterCycle true = ⟨t.epoch + 1, 0⟩ := rfl

theorem afterCycle_of_flag_clear (t : Stamp) : t.afterCycle false = ⟨t.epoch, t.cycle + 1⟩ := rfl

/-- From a cycle count of 0, unflagged CYCLE frames are counted modulo 2^32. -/
theorem iterate_afterCycle_of_flag_clear (e : BitVec 16) (n : Nat) :
    (fun t : Stamp => t.afterCycle false)^[n] ⟨e, 0⟩ = ⟨e, BitVec.ofNat 32 n⟩ := by
  induction n with
  | zero => rfl
  | succ n ih => 
    rw [Function.iterate_succ_apply', ih, BitVec.ofNat_add]
    exact afterCycle_of_flag_clear _

/-! ### Arrivals (R160, R169) -/

section
variable {s t : State} {f : Frame} {p : LinkPort}

theorem powered_of_arrival_next (h : s.arrival p f = .next t) : s.powered = true := by
  by_contra hoff
  have hfault : s.arrival p f = .fault .withoutPower := if_pos (eq_false_of_ne_true hoff)
  rw [hfault] at h
  cases h

theorem arrival_on_a (h : s.powered = true) :
    s.arrival .a f = .next (if s.link.aToB = .through then s.takeOnA f else s) :=
  if_neg (ne_false_of_eq_true h)

theorem arrival_on_b (h : s.powered = true) :
    s.arrival .b f = .next (if s.link.bToA = .through then s.takeOnB f else s) :=
  if_neg (ne_false_of_eq_true h)

theorem takeOnB_of_cycle (h : frameKind f = .cycle) :
    s.takeOnB f = (s.countLink fun c => { c with portBFrames := satSucc c.portBFrames }).takeCycle f := by
  rw [State.takeOnB, h]

theorem takeOnB_of_badCheck (h : frameKind f = .badCheck) :
    s.takeOnB f = (s.countLink fun c => { c with portBBad := satSucc c.portBBad }).modifyLink (·.placeA f) := by
  rw [State.takeOnB, h]

theorem takeOnA_of_cycle (h : frameKind f = .cycle) :
    s.takeOnA f = (s.countLink fun c => { c with portAFrames := satSucc c.portAFrames }).modifyLink (·.placeB f) := by
  rw [State.takeOnA, h]

/-- The Time Base takes no frame with a bad check. -/
theorem frameForward_b_of_badCheck (hk : frameKind f = .badCheck) (h : exec (.frameForward .b f) s = .next t) :
    t.time = s.time ∧ t.rules = s.rules ∧ t.slots = s.slots := by
  have harrival : s.arrival .b f = .next t := h
  rw [arrival_on_b (powered_of_arrival_next harrival), takeOnB_of_badCheck hk] at harrival
  cases harrival
  split
  case isTrue => exact ⟨rfl, rfl, rfl⟩
  case isFalse => exact ⟨rfl, rfl, rfl⟩

/-- The Time Base takes no frame of port A. -/
theorem frameForward_a_of_cycle (hk : frameKind f = .cycle) (h : exec (.frameForward .a f) s = .next t) :
    t.time = s.time ∧ t.rules = s.rules ∧ t.slots = s.slots := by
  have harrival : s.arrival .a f = .next t := h
  rw [arrival_on_a (powered_of_arrival_next harrival), takeOnA_of_cycle hk] at harrival
  cases harrival
  split
  case isTrue => exact ⟨rfl, rfl, rfl⟩
  case isFalse => exact ⟨rfl, rfl, rfl⟩

/-- The Time Base sees no frame that passes through the bypass (R169). -/
theorem cycleFrameArrival_of_bypass (hbypass : s.link.bToA = .bypass) (h : exec (.cycleFrameArrival f) s = .next t) :
    t = s := by
  have harrival : s.arrival .b f = .next t := h
  rw [arrival_on_b (powered_of_arrival_next harrival), hbypass] at harrival
  cases harrival
  rfl

/-- A CYCLE frame that the part takes is counted, moves the Time Base, gives one tick and is forwarded (R173). -/
theorem exec_cycleFrameArrival_taken (hpower : s.powered = true) (hthrough : s.link.bToA = .through)
    (hk : frameKind f = .cycle) :
    exec (.cycleFrameArrival f) s =
      .next ((s.countLink fun c => { c with portBFrames := satSucc c.portBFrames }).takeCycle f) :=
  calc exec (.cycleFrameArrival f) s
    _ = .next (if s.link.bToA = .through then s.takeOnB f else s) := arrival_on_b hpower
    _ = .next (s.takeOnB f) := by rw [if_pos hthrough]
    _ = _ := by rw [takeOnB_of_cycle hk]

end

/-! ### The obligation -/

/-- Settles O16: the frame that the Time Base takes and its tick, the counting from 0, and the three frames that it does
not take. -/
theorem cycleFrameIsTheTick : Obligations.CycleFrameIsTheTick := by
  refine ⟨fun s f hpower hthrough hk => ?taken, fun e c n => ?counted, fun s t f hk h => ?badCheck,
    fun s t f hk h => ?portA, fun s t f hbypass h => ?bypass⟩
  case taken =>
    have hkeeps := tick_keepsLinkAndTime
      ({ s.countLink fun c => { c with portBFrames := satSucc c.portBFrames } with
        time := s.time.afterCycle (epochFlag f) })
    exact ⟨exec_cycleFrameArrival_taken hpower hthrough hk, hkeeps.time, hkeeps.link⟩
  case counted => exact ⟨afterCycle_of_flag_set _, iterate_afterCycle_of_flag_clear e n⟩
  case badCheck => exact frameForward_b_of_badCheck hk h
  case portA => exact frameForward_a_of_cycle hk h
  case bypass => exact cycleFrameArrival_of_bypass hbypass h

end Sys2Proof.Laws
end

section
/-!
PROOF. The Management Unit (section 9.5): STATUS reads the status record and empties it in the same taking (R184), so
that no event is lost beside it (R183).
-/

namespace Sys2Proof.Laws

open Machine

/-! ### The status record (R183) -/

/-- What STATUS answers of a record: code, arg1, arg2 and later-events count (R184, section 10.2). -/
def statusResult (r : StatusRecord) : List Byte := [r.code] ++ wordBytes 2 r.arg1 ++ wordBytes 2 r.arg2 ++ [r.later]

/-- The state with the status record emptied. -/
def statusEmptied (s : State) : State := { s with mgmt := { s.mgmt with status := .empty } }

theorem statusRecord_empty_take (code : Byte) (a b : BitVec 16) : StatusRecord.empty.take code a b = ⟨code, a, b, 0⟩ :=
  if_pos rfl

/-- The later-events count stops at 255, the greatest value of a byte. -/
theorem satSucc_later (n : BitVec 8) : satSucc n = if n = 255 then 255 else n + 1 := by
  have hmax : BitVec.allOnes 8 = 255 := rfl
  rw [satSucc, hmax]
  exact ite_congr rfl id fun _ => rfl

theorem statusRecord_take (r : StatusRecord) (code : Byte) (a b : BitVec 16) :
    r.take code a b = if r = ⟨0, 0, 0, 0⟩ then ⟨code, a, b, 0⟩
      else { r with later := if r.later = 255 then 255 else r.later + 1 } := by
  rw [StatusRecord.take, satSucc_later]
  rfl

theorem statusEmptied_sendEvent (s : State) (code : Byte) (a b : BitVec 16) :
    statusEmptied (s.sendEvent code a b) = statusEmptied s := rfl

/-! ### Answers (R178) -/

/-- An answer leaves the status record as it is, whether it is placed or waits. -/
theorem respond_status (s : State) (st : Status) (result : List Byte) :
    (s.respond st result).mgmt.status = s.mgmt.status := by
  rw [State.respond, State.respondWith]
  split
  next => rfl
  next => split <;> rfl

section
variable {s : State} {c : Command} {q : Request}

/-- An answer that finds the response place occupied is held, and its request stays in process. -/
theorem respond_of_occupied (hrequest : s.mgmt.request = some q) (hplace : s.link.response ≠ none) (st : Status)
    (result : List Byte) :
    s.respond st result = { s with mgmt := { s.mgmt with
      held := some (responseFrame s.link.node q st 0 result)
      request := some { q with stage := .answered false } } } := by
  obtain ⟨f, hplace⟩ := Option.ne_none_iff_exists'.1 hplace
  simp only [State.respond, State.respondWith, hrequest, hplace]

/-! ### STATUS (R184) -/

/-- An event leaves the request in process where it is. -/
theorem handed_sendEvent (h : Handed s c q) (code : Byte) (a b : BitVec 16) : Handed (s.sendEvent code a b) c q := h

theorem exec_status (h : Handed s .status q) :
    exec .status s = .next ((statusEmptied s).respond .ok (statusResult s.mgmt.status)) := by
  rw [show exec .status s = execStatus s from rfl, execStatus, ownerStep_of_handed h]
  rfl

/-- STATUS leaves the record empty, however it is answered. -/
theorem status_of_exec_status {t : State} (h : Handed s .status q) (ht : exec .status s = .next t) :
    t.mgmt.status = .empty := by
  rw [exec_status h] at ht
  cases ht
  exact respond_status _ _ _

end

/-! ### The obligation -/

/-- Settles O57: the answer, the event after it, the answer that waits, and the event before it. -/
theorem statusReadsAndClears : Obligations.StatusReadsAndClears := by
  intro s q h
  refine ⟨exec_status h, fun t code a b ht => ?eventAfter, fun hplace => ?waits, fun code a b => ?eventBefore⟩
  case eventAfter => rw [sendEvent_mgmt, status_of_exec_status h ht, statusRecord_empty_take]
  case waits =>
    have hexec := exec_status h
    obtain ⟨hrequest, -⟩ := h
    rw [respond_of_occupied (s := statusEmptied s) hrequest hplace] at hexec
    exact ⟨_, _, hexec, rfl, rfl, rfl⟩
  case eventBefore =>
    rw [exec_status (handed_sendEvent h code a b), statusEmptied_sendEvent, sendEvent_mgmt, statusRecord_take]
    rfl

end Sys2Proof.Laws
end

section
/-!
PROOF. Every step (chapters 1 to 9): what a command can do at all, one lemma per command, and from it the invariants that
every step keeps and the frames of the array, of the input lines and of the writes in progress.
-/

namespace Sys2Proof.Laws

open Machine

/-! ### What a command can do -/

/-- The supply, the RESET line and the PROTECT line move by their own rows only (R104, R169). -/
structure LinesMoveBy (c : Instr) (s t : State) : Prop where
  powered : (∀ n, c ≠ .powerOn n) → c ≠ .powerLoss → t.powered = s.powered
  resetLine : c ≠ .resetAssert → (∀ n, c ≠ .resetRelease n) → t.resetLine = s.resetLine
  protect : c ≠ .protectAssert → c ≠ .protectRelease → t.protect = s.protect

theorem linesMoveBy_of_keeps {s t : State} (h : KeepsCore s t) (c : Instr) : LinesMoveBy c s t :=
  ⟨fun _ _ => h.powered, fun _ _ => h.resetLine, fun _ _ => h.protect⟩

/-- The array is as it was, or one block has changed by the write that the Store Port was busy with (R90, R117). -/
def ArrayByGrant (s t : State) : Prop :=
  t.array = s.array ∨ ∃ w b contents, Granted s w (.write b contents) ∧ t.array = writeBlock s.array b contents

/-- Every block below the link stands at its start values, and nothing is presented (00_scope.md section 5). -/
structure Started (t : State) : Prop where
  samples : t.samples = []
  slots : ∀ k, t.slot k = Slot.empty
  cond : t.cond = .start
  store : t.store = .start
  maint : t.maint = some (.mount .held)
  index : t.index = .start
  release : t.release = .start
  port : t.port = .start

/-- What a start gives, before its mount scan presents a request. -/
structure Starts (s t : State) : Prop extends Started t where
  pending : t.pending = s.pending
  protect : t.protect = s.protect
  array : ArrayByGrant s t
  egress : EgressBounded s → EgressBounded t

/-- What BLOCKS ACCOUNTED becomes by a step: the reservations stay covered, and it holds again, but where the head read of
the Release Unit brings a claimed block (R97). -/
def AccountsCarried (c : Instr) (s t : State) : Prop :=
  MapAccounted s → ReservationsMatch s → BlocksAccounted s →
    (t.store.state ≠ .mounting → t.store.reserved ≤ t.store.free) ∧
      (BlocksAccounted t ∨ c = .releaseHeadReadComplete ∧ ReleasesClaimed s)

/-- Everything that a command can do: it works below the link and the supply; it completes the store operation in
progress; it moves a line; or it starts the blocks anew. -/
inductive Effect (c : Instr) (s : State) : State → Prop
  | keeps {t : State} (h : Keeps s t) : Effect c s t
  | completes {t : State} (w : Requester) (op : StoreOp) (hg : Granted s w op) (h : KeepsButAccounts (s.complete op) t)
      (ha : AccountsCarried c s t) : Effect c s t
  | resetLevel (b : Bool) (hc : c = .resetAssert ∨ ∃ n, c = .resetRelease n) : Effect c s { s with resetLine := b }
  | protectOn (hc : c = .protectAssert) : Effect c s { s with protect := true }
  | protectOff {t : State} (hc : c = .protectRelease) (h : Keeps { s with protect := false } t) : Effect c s t
  | starts {u t : State} (hu : Starts s u) (h : Keeps u t) (hl : LinesMoveBy c s u) : Effect c s t

/-- The outcome is a next state of which `P` holds. -/
def NextIs (P : State → Prop) : Host.Outcome State Fault Refusal → Prop
  | .next t => P t
  | _ => False

/-! ### Starts (R103, R169, R188) -/

theorem startBlocks_started (s : State) : Started { s.startBlocks with port := .start } where
  samples := rfl
  slots _ := by simp [State.slot, State.startBlocks, Vector.get_eq_getElem]
  cond := rfl
  store := rfl
  maint := rfl
  index := rfl
  release := rfl
  port := rfl

/-- What `Started` reads of a state. -/
theorem Started.of_eq {t u : State} (h : Started t) (hsamples : u.samples = t.samples) (hslots : u.slots = t.slots)
    (hcond : u.cond = t.cond) (hstore : u.store = t.store) (hmaint : u.maint = t.maint) (hindex : u.index = t.index)
    (hrelease : u.release = t.release) (hport : u.port = t.port) : Started u where
  samples := hsamples.trans h.samples
  slots k := by rw [State.slot, hslots]; exact h.slots k
  cond := hcond.trans h.cond
  store := hstore.trans h.store
  maint := hmaint.trans h.maint
  index := hindex.trans h.index
  release := hrelease.trans h.release
  port := hport.trans h.port

theorem Started.conditionLaw {t : State} (h : Started t) : ConditionLaw t := by
  rw [ConditionLaw, h.cond]
  decide

theorem Started.mapAccounted {t : State} (h : Started t) : MapAccounted t := by
  rw [MapAccounted, h.store, h.maint]
  exact ⟨start_ok, by decide⟩

theorem Started.reservationsMatch {t : State} (h : Started t) : ReservationsMatch t := by
  refine ⟨?_, fun k hk => absurd (by rw [h.slots k]; rfl) hk⟩
  rw [h.store, sum_empty t fun k => by rw [h.slots k]; rfl]
  rfl

theorem Started.releasePlaces {t : State} (h : Started t) : ReleasePlaces t := by
  rw [ReleasePlaces, h.release, h.index]
  decide

theorem Started.blocksAccounted {t : State} (h : Started t) : BlocksAccounted t where
  reservations _ := by rw [h.store]; decide
  claims b := by
    have hslots (k : SlotIx) : slotClaims (t.slot k) = [] := by rw [h.slots k]; rfl
    have hindex (r : RecIx) : indexClaims t.store t.maint r = [] := by rw [h.maint]; rfl
    rw [blockClaims, h.maint]
    simp [hslots, ← h.maint, hindex]
    simp [h.maint, maintenanceClaims]
  tidy k := by rw [h.slots k]; exact ⟨rfl, rfl⟩
  requests k := by
    rw [RequestsSuit, h.port]
    exact ⟨fun op hop => (by cases hop), fun r hr => (by cases hr)⟩
  jobs := by
    rw [CommitJobsSuit, h.index]
    exact ⟨List.nodup_nil, fun k hk => (by cases hk)⟩

/-- The mount scan begins after a start (R103). -/
theorem mountBegins_keeps {t : State} (h : Started t) : Keeps t t.mountBegins :=
  beginMaintenance_keeps t _ _ (by rw [h.maint]; rfl) (by rw [h.maint]; exact le_refl _) fun b => by rw [h.maint]; exact le_refl _

/-- A store operation that is cut short has landed or has not (R90, R117, log 5). -/
theorem interruptPort_arrayByGrant (s : State) : ArrayByGrant s s.interruptPort := by
  unfold State.interruptPort
  split
  next w b contents hbusy =>
    by_cases hland : Config.interruptedWriteLands s.freeIx = true
    · exact .inr ⟨w, b, contents, hbusy, if_pos hland⟩
    · exact .inl (if_neg hland)
  next => exact .inl rfl

/-- Cutting the store operation short changes the array, the Store Port and the counter of free values only. -/
theorem interruptPort_within (s : State) :
    s.interruptPort = { s with array := s.interruptPort.array, port := .start, freeIx := s.interruptPort.freeIx } := by
  unfold State.interruptPort
  split <;> rfl

theorem interruptPort_pending (s : State) : s.interruptPort.pending = s.pending := by rw [interruptPort_within]
theorem interruptPort_powered (s : State) : s.interruptPort.powered = s.powered := by rw [interruptPort_within]
theorem interruptPort_resetLine (s : State) : s.interruptPort.resetLine = s.resetLine := by rw [interruptPort_within]
theorem interruptPort_protect (s : State) : s.interruptPort.protect = s.protect := by rw [interruptPort_within]

/-! ### The rows of supply and lines (R104, R169) -/

theorem Started.loseRam (s : State) : Started s.loseRam :=
  (startBlocks_started s).of_eq rfl rfl rfl rfl rfl rfl rfl rfl

/-- POWER_ON before its mount scan begins: a part that had power has lost it. -/
def poweredOn (straps : BitVec 6) (s : State) : State :=
  { (if s.powered then s.interruptPort else s).loseRam with powered := true }.initialise straps

theorem poweredOn_starts (straps : BitVec 6) (s : State) : Starts s (poweredOn straps s) where
  toStarted := (Started.loseRam (if s.powered then s.interruptPort else s)).of_eq rfl rfl rfl rfl rfl rfl rfl rfl
  pending := by
    show (if s.powered then s.interruptPort else s).pending = s.pending
    split
    · exact interruptPort_pending s
    · rfl
  protect := by
    show (if s.powered then s.interruptPort else s).protect = s.protect
    split
    · exact interruptPort_protect s
    · rfl
  array := by
    show ArrayByGrant s (if s.powered then s.interruptPort else s)
    split
    · exact interruptPort_arrayByGrant s
    · exact .inl rfl
  egress _ := ⟨Nat.zero_le _, Nat.zero_le _⟩

theorem poweredOn_resetLine (straps : BitVec 6) (s : State) : (poweredOn straps s).resetLine = s.resetLine := by
  show (if s.powered then s.interruptPort else s).resetLine = s.resetLine
  split
  · exact interruptPort_resetLine s
  · rfl

theorem execPowerOn_effect (straps : BitVec 6) (s : State) :
    NextIs (Effect (.powerOn straps) s) (execPowerOn straps s) := by
  have hs := poweredOn_starts straps s
  have hl : LinesMoveBy (.powerOn straps) s (poweredOn straps s) :=
    ⟨fun h => absurd rfl (h straps), fun _ _ => poweredOn_resetLine straps s, fun _ _ => hs.protect⟩
  show Effect _ s (if (poweredOn straps s).resetLine then poweredOn straps s else (poweredOn straps s).mountBegins)
  split
  · exact .starts hs (.refl _) hl
  · exact .starts hs (mountBegins_keeps hs.toStarted) hl

theorem execPowerLoss_effect (s : State) : NextIs (Effect .powerLoss s) (execPowerLoss s) :=
  .starts (u := { s.interruptPort.loseRam with powered := false })
    { toStarted := (Started.loseRam s.interruptPort).of_eq rfl rfl rfl rfl rfl rfl rfl rfl
      pending := interruptPort_pending s
      protect := interruptPort_protect s
      array := interruptPort_arrayByGrant s
      egress := fun _ => ⟨Nat.zero_le _, Nat.zero_le _⟩ }
    (.refl _) ⟨fun _ h => absurd rfl h, fun _ _ => interruptPort_resetLine s, fun _ _ => interruptPort_protect s⟩

theorem execResetAssert_effect (s : State) : NextIs (Effect .resetAssert s) (execResetAssert s) := by
  show Effect _ s (if s.resetLine then s else if s.powered = false then _ else _)
  split
  · exact .keeps (.refl s)
  · split
    · exact .resetLevel true (.inl rfl)
    · refine .starts ?_ (.refl _) ⟨fun _ _ => interruptPort_powered s, fun h => absurd rfl h,
        fun _ _ => interruptPort_protect s⟩
      exact
        { toStarted := (startBlocks_started s.interruptPort).of_eq rfl rfl rfl rfl rfl rfl rfl rfl
          pending := interruptPort_pending s
          protect := interruptPort_protect s
          array := interruptPort_arrayByGrant s
          egress := fun _ => ⟨Nat.zero_le _, Nat.zero_le _⟩ }

theorem execResetRelease_effect (straps : BitVec 6) (s : State) :
    NextIs (Effect (.resetRelease straps) s) (execResetRelease straps s) := by
  show Effect _ s (if s.resetLine = false then s else if s.powered = false then _ else _)
  split
  · exact .keeps (.refl s)
  · split
    · exact .resetLevel false (.inr ⟨straps, rfl⟩)
    · have hs : Starts s ({ s.startBlocks with resetLine := false, port := .start }.initialise straps) :=
        { toStarted := (startBlocks_started s).of_eq rfl rfl rfl rfl rfl rfl rfl rfl
          pending := rfl
          protect := rfl
          array := .inl rfl
          egress := fun _ => ⟨Nat.zero_le _, Nat.zero_le _⟩ }
      exact .starts hs (mountBegins_keeps hs.toStarted) ⟨fun _ _ => rfl, fun _ h => absurd rfl (h straps), fun _ _ => rfl⟩

theorem execRestartPoint_effect (s : State) : NextIs (Effect .restartPoint s) (execRestartPoint s) := by
  show Effect _ s (if _ then s.restartPoint else s)
  split
  · have hs : Starts s { s.startBlocks with
        port := .start, mgmt := { s.mgmt with phase := .idle, request := none, held := none, status := .start 3 } } :=
      { toStarted := (startBlocks_started s).of_eq rfl rfl rfl rfl rfl rfl rfl rfl
        pending := rfl
        protect := rfl
        array := .inl rfl
        egress := id }
    exact .starts hs (mountBegins_keeps hs.toStarted) ⟨fun _ _ => rfl, fun _ _ => rfl, fun _ _ => rfl⟩
  · exact .keeps (.refl s)

theorem execProtectRelease_effect (s : State) : NextIs (Effect .protectRelease s) (execProtectRelease s) :=
  .protectOff rfl (arbitrate_keeps _)

/-! ### The link's rows (R167 to R169) -/

theorem execBypassEntry_keeps (d : Direction) (s : State) : NextIs (Keeps s) (execBypassEntry d s) := by
  show Keeps s (if _ then _ else s)
  split
  · cases d <;> exact link_keeps s _ id
  · exact .refl s

theorem execBypassTakeover_keeps (d : Direction) (s : State) : NextIs (Keeps s) (execBypassTakeover d s) := by
  show Keeps s (if _ then _ else s)
  split
  · cases d with
    | aToB => exact chooseB_keeps s { s.link with aToB := .through } rfl rfl
    | bToA => exact chooseA_keeps s { s.link with bToA := .through } rfl rfl
  · exact .refl s

theorem execPortBSendDone_keeps (s : State) : NextIs (Keeps s) (execPortBSendDone s) := by
  unfold execPortBSendDone
  split
  · exact chooseB_keeps s { s.link with sendingB := none, counters := _ } rfl rfl
  · exact .refl s

theorem execPortASendDone_keeps (s : State) : NextIs (Keeps s) (execPortASendDone s) := by
  unfold execPortASendDone
  split
  · exact chooseA_keeps s { s.link with sendingA := none } rfl rfl
  · exact .refl s

/-- An arrival at a part that has power. -/
theorem arrival_keeps (p : LinkPort) (f : Frame) (s : State) (h : s.powered = true) : NextIs (Keeps s) (s.arrival p f) := by
  cases p with
  | a =>
    rw [arrival_on_a h]
    show Keeps s (if _ then _ else s)
    split
    · exact takeOnA_keeps f s
    · exact .refl s
  | b =>
    rw [arrival_on_b h]
    show Keeps s (if _ then _ else s)
    split
    · exact takeOnB_keeps f s
    · exact .refl s

theorem arrival_of_unpowered {s : State} (h : s.powered = false) (p : LinkPort) (f : Frame) :
    s.arrival p f = .fault .withoutPower := if_pos h

/-! ### Requests taken by their owners (R181) -/

section
variable (s : State)

theorem execResponseHeldPlaced_keeps : NextIs (Keeps s) (execResponseHeldPlaced s) := by
  unfold execResponseHeldPlaced
  split
  · exact placeResponse_keeps ..
  · exact .refl s

theorem onStream_keeps (q : Request) (f : StreamIx → StreamEntry → State) (h : ∀ i e, Keeps s (f i e)) :
    Keeps s (s.onStream q f) := by
  unfold State.onStream
  split
  · exact refuse_keeps ..
  · split
    · exact refuse_keeps ..
    · exact h _ _

theorem onRule_keeps (q : Request) (f : RuleIx → Rule → State) (h : ∀ i r, Keeps s (f i r)) : Keeps s (s.onRule q f) := by
  unfold State.onRule
  split
  · exact refuse_keeps ..
  · split
    · exact refuse_keeps ..
    · exact h _ _

theorem execStreamLoad_keeps : NextIs (Keeps s) (execStreamLoad s) := by
  refine ownerStep_keeps s _ _ fun q _ _ => ?_
  dsimp only
  split
  · exact refuse_keeps ..
  · split
    · exact refuse_keeps ..
    · split
      · exact refuse_keeps ..
      · split
        · exact refuse_keeps ..
        · exact (setStream_keeps s _ _).trans (respond_keeps _ _ _)

theorem execStreamDrop_keeps : NextIs (Keeps s) (execStreamDrop s) := by
  refine ownerStep_keeps s _ _ fun q _ _ => onStream_keeps s q _ fun i e => ?_
  split
  · exact refuse_keeps ..
  · exact (setStream_keeps s _ _).trans (respond_keeps _ _ _)

theorem execStreamQuery_keeps : NextIs (Keeps s) (execStreamQuery s) :=
  ownerStep_keeps s _ _ fun q _ _ => onStream_keeps s q _ fun _ _ =>
    Keeps.trans (t := { s with freeIx := _ }) (.loose ..) (respond_keeps _ _ _)

theorem execRuleLoad_keeps : NextIs (Keeps s) (execRuleLoad s) := by
  refine ownerStep_keeps s _ _ fun q _ _ => ?_
  split
  · split
    · exact refuse_keeps ..
    · exact (setRule_keeps s _ _).trans (respond_keeps _ _ _)
  · exact refuse_keeps ..

theorem execRuleEnable_keeps : NextIs (Keeps s) (execRuleEnable s) :=
  ownerStep_keeps s _ _ fun q _ _ => onRule_keeps s q _ fun _ _ => (setRule_keeps s _ _).trans (respond_keeps _ _ _)

theorem execRuleDisable_keeps : NextIs (Keeps s) (execRuleDisable s) :=
  ownerStep_keeps s _ _ fun q _ _ => onRule_keeps s q _ fun _ _ => (setRule_keeps s _ _).trans (respond_keeps _ _ _)

theorem execRuleUnload_keeps : NextIs (Keeps s) (execRuleUnload s) :=
  ownerStep_keeps s _ _ fun q _ _ => onRule_keeps s q _ fun _ _ => (setRule_keeps s _ _).trans (respond_keeps _ _ _)

theorem execRuleQuery_keeps : NextIs (Keeps s) (execRuleQuery s) :=
  ownerStep_keeps s _ _ fun q _ _ => onRule_keeps s q _ fun _ _ => respond_keeps _ _ _

theorem execFire_keeps : NextIs (Keeps s) (execFire s) := by
  refine ownerStep_keeps s _ _ fun q _ _ => onRule_keeps s q _ fun i r => ?_
  split
  · exact (setRule_keeps s _ _).trans (respond_keeps _ _ _)
  · exact respond_keeps ..
  · exact refuse_keeps ..

theorem execUnfire_keeps : NextIs (Keeps s) (execUnfire s) := by
  refine ownerStep_keeps s _ _ fun q _ _ => onRule_keeps s q _ fun i r => ?_
  split
  · exact (setRule_keeps s _ _).trans (respond_keeps _ _ _)
  · exact respond_keeps ..
  · exact refuse_keeps ..

theorem execSlotsQuery_keeps : NextIs (Keeps s) (execSlotsQuery s) := by
  refine ownerStep_keeps s _ _ fun q _ _ => ?_
  split
  · exact respond_keeps ..
  · split
    · exact refuse_keeps ..
    · exact Keeps.trans (t := { s with freeIx := _ }) (.loose ..) (respond_keeps _ _ _)

theorem execCut_keeps : NextIs (Keeps s) (execCut s) := by
  refine ownerStep_keeps s _ _ fun q _ _ => ?_
  split
  · exact refuse_keeps ..
  · split
    · exact (endEarly_keeps _ _ s).trans (respond_keeps _ _ _)
    · exact refuse_keeps ..

theorem execSilenceTimerExpiry_keeps (k : SlotIx) : NextIs (Keeps s) (execSilenceTimerExpiry k s) := by
  show Keeps s (if _ then _ else s)
  split
  · exact tickSlot_keeps k s
  · exact .refl s

/-! ### The condition commands (R84 to R87) -/

/-- A change of the Condition Unit and the status record that keeps the law of conditions. -/
theorem cond_keeps {t : State} (u : ConditionUnit) (r : StatusRecord)
    (ht : t = { s with cond := u, mgmt := { s.mgmt with status := r } }) (h : ConditionLaw s → ConditionLaw t) :
    Keeps s t := by
  subst ht
  exact ⟨⟨⟨rfl, rfl, rfl, rfl, rfl, id, h, id, id, fun _ h => h, fun _ h => .inl h⟩,
    fun _ _ h => same_accounts h rfl rfl rfl rfl rfl⟩, id⟩

/-- The check after CONTROL SET changes the Condition Unit and the status record only. -/
theorem maskCheck_within (s : State) :
    s.maskCheck = { s with cond := s.maskCheck.cond, mgmt := { s.mgmt with status := s.maskCheck.mgmt.status } } := by
  unfold State.maskCheck
  split <;> rfl

/-- Masks and level replaced, and the check made (R84, R85). -/
theorem maskCheck_keeps (masks : BitVec 8) (level : Nat) :
    Keeps s ({ s with cond := { s.cond with masks := masks, level := level } } : State).maskCheck :=
  cond_keeps s _ _ (maskCheck_within _) fun ⟨_, hdetail⟩ => maskCheck_conditionLaw _ hdetail

theorem execControlSet_keeps : NextIs (Keeps s) (execControlSet s) := by
  refine ownerStep_keeps s _ _ fun q _ _ => ?_
  split
  · exact (maskCheck_keeps s _ _).trans (respond_keeps _ _ _)
  · exact refuse_keeps ..

theorem execClearConditions_keeps : NextIs (Keeps s) (execClearConditions s) :=
  ownerStep_keeps s _ _ fun q _ _ =>
    (cond_keeps s (s.cond.clear (q.byte 0)) s.mgmt.status rfl (clear_conditionLaw s _)).trans (respond_keeps _ _ _)

theorem execConditionsQuery_keeps : NextIs (Keeps s) (execConditionsQuery s) :=
  ownerStep_keeps s _ _ fun _ _ _ => respond_keeps ..

/-! ### The store commands (R106 to R115, R135) -/

theorem maint_none_of_storeChecks {ok : Bool} (h : s.storeChecks ok = none) : s.maint = none := by
  unfold State.storeChecks at h
  split at h
  · cases h
  · split at h
    · cases h
    · rename_i hm
      simpa using hm

theorem execFormat_keeps : NextIs (Keeps s) (execFormat s) := by
  refine ownerStep_keeps s _ _ fun q _ _ => ?_
  split
  · exact refuse_keeps ..
  · split
    · exact refuse_keeps ..
    · split
      · exact refuse_keeps ..
      · rename_i hu
        exact (formatAccept_keeps s _ (Bool.eq_false_iff.2 hu)).trans (respond_keeps _ _ _)

theorem execCreate_keeps : NextIs (Keeps s) (execCreate s) := by
  refine ownerStep_keeps s _ _ fun q _ _ => ?_
  split
  · exact refuse_keeps ..
  · rename_i r e _
    split
    · exact refuse_keeps ..
    · rename_i hchecks
      dsimp only
      split
      · exact refuse_keeps ..
      · split
        · exact refuse_keeps ..
        · rename_i hroom
          split
          · exact refuse_keeps ..
          · rename_i bs m htake
            exact (createAccept_keeps s r { e with blocks := bs, held := _ } _ _ m _ (maint_none_of_storeChecks s hchecks)
              htake (Nat.le_of_not_lt hroom)).trans (respond_keeps _ _ _)

theorem execDelete_keeps : NextIs (Keeps s) (execDelete s) := by
  refine ownerStep_keeps s _ _ fun q _ _ => ?_
  split
  · exact refuse_keeps ..
  · split
    · exact refuse_keeps ..
    · rename_i hchecks
      split
      · exact refuse_keeps ..
      · rename_i he
        split
        · exact refuse_keeps ..
        · split
          · exact refuse_keeps ..
          · exact (deleteAccept_keeps s _ _ .free _ (maint_none_of_storeChecks s hchecks) he).trans (respond_keeps _ _ _)

theorem execErase_keeps : NextIs (Keeps s) (execErase s) := by
  refine ownerStep_keeps s _ _ fun q _ _ => ?_
  dsimp only
  split
  · exact refuse_keeps ..
  · split
    · exact refuse_keeps ..
    · split
      · exact refuse_keeps ..
      · rename_i hchecks
        split
        · exact refuse_keeps ..
        · split
          · exact refuse_keeps ..
          · exact (eraseNext_keeps _ _ _ _ _ s (by rw [maint_none_of_storeChecks s hchecks]; rfl)).trans
              (respond_keeps _ _ _)

theorem execStoreQuery_keeps : NextIs (Keeps s) (execStoreQuery s) :=
  ownerStep_keeps s _ _ fun _ _ _ => respond_keeps ..

theorem execRecordingQuery_keeps : NextIs (Keeps s) (execRecordingQuery s) := by
  refine ownerStep_keeps s _ _ fun q _ _ => ?_
  split
  · exact refuse_keeps ..
  · split
    · exact refuse_keeps ..
    · split
      · exact refuse_keeps ..
      · exact respond_keeps ..

/-! ### The Management Unit's own commands (R184 to R186) -/

theorem execStatus_keeps : NextIs (Keeps s) (execStatus s) :=
  ownerStep_keeps s _ _ fun _ _ _ => Keeps.trans (t := { s with mgmt := _ }) (.loose ..) (respond_keeps _ _ _)

theorem execIdentify_keeps : NextIs (Keeps s) (execIdentify s) := ownerStep_keeps s _ _ fun _ _ _ => respond_keeps ..

theorem execRestart_keeps : NextIs (Keeps s) (execRestart s) := ownerStep_keeps s _ _ fun _ _ _ => respondWith_keeps ..

/-! ### The readout commands (R147 to R159) -/

theorem execPortOpen_keeps : NextIs (Keeps s) (execPortOpen s) := by
  refine portStep_keeps s _ _ fun q p => ?_
  split
  · dsimp only
    split
    · exact refuse_keeps ..
    · split
      · exact refuse_keeps ..
      · split
        · exact refuse_keeps ..
        · exact (setReadPort_keeps s _ _).trans <| (awaitReads_keeps _ _).trans (present_keeps _ _ _ (by simp))
  · exact portAnswer_keeps ..

theorem execPortPosition_keeps : NextIs (Keeps s) (execPortPosition s) := by
  refine portStep_keeps s _ _ fun q p => onOpenPort_keeps s p _ fun r _ => ?_
  dsimp only
  split
  · exact (setReadPort_keeps s _ _).trans (portAnswer_keeps _ _ _ _)
  · exact portAnswer_keeps ..

theorem execPortRead_keeps : NextIs (Keeps s) (execPortRead s) := by
  refine portStep_keeps s _ _ fun q p => onOpenPort_keeps s p _ fun r _ => ?_
  dsimp only
  split
  · exact portAnswer_keeps ..
  · split
    · exact portAnswer_keeps ..
    · exact readOn_keeps ..

theorem execPortInfo_keeps : NextIs (Keeps s) (execPortInfo s) :=
  portStep_keeps s _ _ fun _ p => onOpenPort_keeps s p _ fun _ _ => portAnswer_keeps ..

theorem execPortClose_keeps : NextIs (Keeps s) (execPortClose s) := by
  refine portStep_keeps s _ _ fun q p => ?_
  split
  · exact (closePort_keeps s _).trans (respondWith_keeps _ _ _ _ _)
  · exact respond_keeps ..

/-! ### Jobs taken and placed (R121, R122, R130, R131) -/

theorem execIndexJobTake_keeps : NextIs (Keeps s) (execIndexJobTake s) := by
  unfold execIndexJobTake
  split
  · rename_i j js hphase hqueue
    have hreading (n : Nat) : Keeps s { s with index := { s.index with phase := .reading n } } :=
      phase_keeps s _ (by rw [hphase]; rfl)
    dsimp only
    split
    · split
      · exact (endsUnwritten_keeps _ js s hqueue).trans (arbitrate_keeps _)
      · exact (hreading _).trans (present_keeps _ _ _ (by simp))
    · exact (hreading _).trans (present_keeps _ _ _ (by simp))
  · exact .refl s

theorem execIndexReleaseHold_keeps : NextIs (Keeps s) (execIndexReleaseHold s) := by
  unfold execIndexReleaseHold
  split
  · rename_i hphase
    exact holdAndWrite_keeps _ _ s (by rw [hphase]; rfl)
  · exact .refl s

theorem execReleaseJobTake_keeps : NextIs (Keeps s) (execReleaseJobTake s) := by
  unfold execReleaseJobTake
  split
  · rename_i j js hreading hqueue
    split
    · exact (parkTaken_keeps s j js _ hqueue).trans (arbitrate_keeps _)
    · exact (release_keeps s { s.release with reading := true } (le_refl _)).trans (present_keeps _ _ _ (by simp))
  · exact .refl s

theorem execDeleteReleaseJobPlace_keeps : NextIs (Keeps s) (execDeleteReleaseJobPlace s) := by
  unfold execDeleteReleaseJobPlace
  split
  · rename_i r e p h hs rest count hmaint
    dsimp only
    split
    · rename_i hdue
      have hroom : 1 ≤ s.releaseRoom := by
        simp only [State.deleteDue, hmaint, Bool.and_eq_true, decide_eq_true_eq] at hdue
        exact hdue.1
      refine Keeps.trans ?_ (arbitrate_keeps _)
      split
      · exact (enqueue_keeps s ⟨h, r⟩ hroom).trans
          (deleteFreed_keeps r e p _ rest _ (by rw [enqueueRelease_maint, hmaint]; rfl)
            (by rw [enqueueRelease_maint, hmaint]; rfl))
      · exact (enqueue_keeps s ⟨h, r⟩ hroom).trans
          (maint_keeps _ _ (by rw [enqueueRelease_maint, hmaint]; rfl)
            (by rw [enqueueRelease_maint, hmaint]; exact le_refl _)
            fun b => by rw [enqueueRelease_maint, hmaint]; exact le_refl _)
    · exact .refl s
  · exact .refl s

end

end Sys2Proof.Laws
end

section
/-!
PROOF. Every step, continued: the completions of store operations (R117), the effect of every command, and the invariants of
tier 3 with the frames of the array, of the lines and of the writes in progress.
-/

namespace Sys2Proof.Laws

open Machine

/-! ### Completions (R117) -/

section
variable {c : Instr} {s : State}

/-- A completion whose effects keep everything from the moment at which the port is idle again. -/
theorem Effect.of_completed {t : State} {w : Requester} {op : StoreOp} (hg : Granted s w op) (h : Keeps (s.complete op) t) :
    Effect c s t :=
  .completes w op hg h.but fun hm hr hb =>
    have ht : BlocksAccounted t := h.accounts hm hr (complete_accounts hb op)
    ⟨ht.reservations, .inl ht⟩

theorem onCompletion_effect (w : Requester) (f : StoreOp → State → State)
    (h : ∀ op, Keeps (s.complete op) (f op (s.complete op))) : Effect c s (s.onCompletion w f) := by
  obtain ⟨heq, -⟩ | ⟨op, hg, heq⟩ := onCompletion_spec s w f
  · rw [heq]; exact .keeps (.refl s)
  · rw [heq]; exact .of_completed hg ((h op).trans (arbitrate_keeps _))

/-- A completion row of Maintenance does what its phase does on a state in that phase. -/
theorem onMaintenance_effect (p : MaintenanceOp → Option (List Byte → State → State))
    (h : ∀ m f, p m = some f → ∀ u contents, u.maint = some m → Keeps u (f contents u)) :
    Effect c s (s.onMaintenance p) := by
  obtain heq | ⟨op, m, f, hg, hm, hp, heq⟩ := onMaintenance_spec s p
  · rw [heq]; exact .keeps (.refl s)
  · rw [heq]; exact .of_completed hg ((h m f hp (s.complete op) _ hm).trans (arbitrate_keeps _))

theorem execSlotDataWriteComplete_effect : NextIs (Effect c s) (execSlotDataWriteComplete s) := by
  obtain heq | ⟨k, op, hg, -, heq⟩ :=
    onSlotCompletion_spec s true fun k s => (s.slotDataWritten k).arbitrateAfterWrite k
  · exact .keeps (by rw [heq]; exact .refl s)
  · refine .of_completed hg ?_
    rw [heq]
    exact (slotDataWritten_keeps k _ rfl).trans (arbitrateAfterWrite_keeps k _)

/-- The slot whose head write completes had it to make, and has no other request (R60, R66). -/
theorem execSlotHeadWriteComplete_effect : NextIs (Effect c s) (execSlotHeadWriteComplete s) := by
  obtain heq | ⟨k, op, hg, hdata, heq⟩ := onSlotCompletion_spec s false fun k s => (s.slotHeadWritten k).arbitrateForCommit
  · exact .keeps (by rw [heq]; exact .refl s)
  · have hbut := (slotHeadWritten_but k (s.complete op)).trans (arbitrateForCommit_keeps _).but
    refine .completes (.slot k) op hg (by rw [heq]; exact hbut) fun hm hr hb => ?_
    rw [heq]
    obtain ⟨hdue, hnone⟩ := (hb.requests k).1 op hg
    have hwritten := slotHeadWritten_accounts (complete_accounts hb op) k (hdue.resolve_left (by simp [hdata])) rfl hnone
    have ht := (arbitrateForCommit_keeps _).accounts ((slotHeadWritten_but k (s.complete op)).map hm)
      ((slotHeadWritten_but k (s.complete op)).reserved hm hr) hwritten
    exact ⟨ht.reservations, .inl ht⟩

theorem execIndexReadComplete_effect : NextIs (Effect c s) (execIndexReadComplete s) := by
  unfold execIndexReadComplete
  split
  · rename_i number j js hphase hqueue
    exact onCompletion_effect .index _ fun op =>
      indexRead_keeps j js number _ (s.complete op) (by rw [complete_index, hphase]; rfl) hqueue
  · exact .keeps (.refl s)

theorem execIndexWriteComplete_effect : NextIs (Effect c s) (execIndexWriteComplete s) := by
  unfold execIndexWriteComplete
  split
  · rename_i number w j js hphase hqueue
    exact onCompletion_effect .index _ fun op => indexWrote_keeps j js number w (s.complete op) hphase hqueue
  · exact .keeps (.refl s)

/-! ### The head read of the Release Unit (R131, R97) -/

/-- A head read never lowers the free count and leaves the reservation total. -/
theorem releaseRead_store (s : State) (j : ReleaseJob) (js : List ReleaseJob) (contents : List Byte) :
    (s.releaseRead j js contents).store.state = s.store.state ∧
      (s.releaseRead j js contents).store.reserved = s.store.reserved ∧
      s.store.free ≤ (s.releaseRead j js contents).store.free := by
  obtain ⟨-, hstate, hreserved⟩ := releaseHead_spec s.store j contents
  have hfree : s.store.free ≤ (s.store.releaseHead j contents).free := by
    obtain heq | heq := releaseHead_freeBlocks s.store j contents
    · rw [heq]; exact freeBlocks_free _ _
    · rw [heq]; exact freeBlocks_free _ _
  simp only [State.releaseRead]
  split
  · exact ⟨rfl, rfl, le_refl _⟩
  · split
    · exact ⟨rfl, rfl, le_refl _⟩
    · exact ⟨hstate, hreserved, hfree⟩

/-- A completion carries the same contents before and after its write is applied (R117). -/
theorem contents_complete (s : State) (op : StoreOp) : op.contents (s.complete op).array = op.contents s.array := by
  cases op <;> rfl

theorem blockClaims_complete (s : State) (op : StoreOp) (b : Nat) : blockClaims (s.complete op) b = blockClaims s b := rfl

/-- The reservation total stays covered by a head read whatever it frees, and the blocks stay accounted for where it
frees none that is claimed. -/
theorem releaseRead_accountsCarried {j : ReleaseJob} {js : List ReleaseJob} {op : StoreOp}
    (hqueue : s.release.queue = j :: js) (hg : Granted s .release op) :
    AccountsCarried .releaseHeadReadComplete s ((s.complete op).releaseRead j js (op.contents s.array)).arbitrate := by
  intro hm hr hb
  obtain ⟨hstate, hreserved, hfree⟩ := releaseRead_store (s.complete op) j js (op.contents s.array)
  have hbut := releaseRead_but (s.complete op) j js (op.contents s.array) hqueue
  have harb := arbitrate_keeps ((s.complete op).releaseRead j js (op.contents s.array))
  refine ⟨fun hmounting => ?_, ?_⟩
  · rw [arbitrate_within] at hmounting ⊢
    have hcovered : s.store.reserved ≤ s.store.free := hb.reservations fun h => hmounting (hstate.trans h)
    exact hreserved.le.trans (hcovered.trans hfree)
  · by_cases hclaimed : ∃ b ∈ releasedBlocks j (op.contents s.array), 0 < blockClaims s b
    · obtain ⟨b, hmem, hpos⟩ := hclaimed
      refine .inr ⟨rfl, j, js, op, b, hqueue, hg, ?_, hpos⟩
      simp only [releasedBlocks, List.mem_append, List.mem_singleton] at hmem
      obtain hmem | rfl := hmem
      · cases hread : readHead j.recording (op.contents s.array) with
        | none => rw [hread] at hmem; cases hmem
        | some h => rw [hread] at hmem; exact .inr ⟨h, rfl, hmem⟩
      · exact .inl rfl
    · have hfree (b : Nat) (hmem : b ∈ releasedBlocks j (op.contents s.array)) : blockClaims (s.complete op) b = 0 := by
        rw [blockClaims_complete]
        exact Nat.eq_zero_of_not_pos fun hpos => hclaimed ⟨b, hmem, hpos⟩
      exact .inl (harb.accounts (hbut.map hm) (hbut.reserved hm hr) (releaseRead_accounts (complete_accounts hb op) j js _ hfree))

theorem execReleaseHeadReadComplete_effect :
    NextIs (Effect .releaseHeadReadComplete s) (execReleaseHeadReadComplete s) := by
  unfold execReleaseHeadReadComplete
  split
  · rename_i j js hreading hqueue
    obtain ⟨heq, -⟩ | ⟨op, hg, heq⟩ :=
      onCompletion_spec s .release fun op s => s.releaseRead j js (op.contents s.array)
    · rw [heq]; exact .keeps (.refl s)
    · rw [heq, contents_complete]
      exact .completes .release op hg ((releaseRead_but (s.complete op) j js _ hqueue).trans (arbitrate_keeps _).but)
        (releaseRead_accountsCarried hqueue hg)
  · exact .keeps (.refl s)

/-! ### Completions of Maintenance (R108, R111, R113, R138 to R142) -/

theorem execFormatDirectoryReadComplete_effect : NextIs (Effect c s) (execFormatDirectoryReadComplete s) := by
  refine onMaintenance_effect _ fun m f hp u contents hm => ?_
  split at hp
  · cases hp; exact formatRead_keeps _ _ _ _ u (by rw [hm]; rfl)
  · cases hp

theorem execFormatLabelWriteComplete_effect : NextIs (Effect c s) (execFormatLabelWriteComplete s) := by
  refine onMaintenance_effect _ fun m f hp u contents hm => ?_
  split at hp
  · cases hp; exact formatLabelled_keeps _ _ u (by rw [hm]; rfl)
  · cases hp

theorem execFormatDirectoryWriteComplete_effect : NextIs (Effect c s) (execFormatDirectoryWriteComplete s) := by
  refine onMaintenance_effect _ fun m f hp u contents hm => ?_
  split at hp
  · cases hp; exact formatWrote_keeps _ _ _ u (by rw [hm]; rfl)
  · cases hp

theorem execCreateIndexWriteComplete_effect : NextIs (Effect c s) (execCreateIndexWriteComplete s) := by
  refine onMaintenance_effect _ fun m f hp u contents hm => ?_
  split at hp
  · cases hp; exact createWrote_keeps _ _ _ _ u hm
  · cases hp

theorem execCreateDirectoryWriteComplete_effect : NextIs (Effect c s) (execCreateDirectoryWriteComplete s) := by
  refine onMaintenance_effect _ fun m f hp u contents hm => ?_
  split at hp
  · cases hp; exact createCommitted_keeps _ _ _ u hm
  · cases hp

theorem execDeleteDirectoryWriteComplete_effect : NextIs (Effect c s) (execDeleteDirectoryWriteComplete s) := by
  refine onMaintenance_effect _ fun m f hp u contents hm => ?_
  split at hp
  · cases hp
    exact deleteWalk_keeps _ _ _ _ u (by rw [hm]; rfl) fun b => by rw [hm]; exact le_refl _
  · cases hp

theorem execDeleteIndexReadComplete_effect : NextIs (Effect c s) (execDeleteIndexReadComplete s) := by
  refine onMaintenance_effect _ fun m f hp u contents hm => ?_
  split at hp
  · cases hp
    have hscan : isMount u.maint = false := by rw [hm]; rfl
    dsimp only
    generalize readIndex _ _ _ contents = found
    cases found with
    | some es => exact deleteHeads_keeps _ _ _ _ _ _ u hscan (by rw [hm]; rfl)
    | none => exact deleteFreed_keeps _ _ _ _ _ u hscan (by rw [hm]; rfl)
  · cases hp

theorem execMountLabelReadComplete_effect : NextIs (Effect c s) (execMountLabelReadComplete s) := by
  refine onMaintenance_effect _ fun m f hp u contents hm => ?_
  split at hp
  · cases hp; exact mountLabel_keeps _ u (by rw [hm]; rfl)
  · cases hp

theorem execMountDirectoryReadComplete_effect : NextIs (Effect c s) (execMountDirectoryReadComplete s) := by
  refine onMaintenance_effect _ fun m f hp u contents hm => ?_
  split at hp
  · cases hp; exact mountDirectory_keeps _ _ u (by rw [hm]; rfl) (by rw [hm]; rfl)
  · cases hp

theorem execMountIndexReadComplete_effect : NextIs (Effect c s) (execMountIndexReadComplete s) := by
  refine onMaintenance_effect _ fun m f hp u contents hm => ?_
  split at hp
  · cases hp; exact mountIndex_keeps _ _ _ _ _ _ u (by rw [hm]; rfl) (by rw [hm]; rfl)
  · cases hp

theorem execMountHeadReadComplete_effect : NextIs (Effect c s) (execMountHeadReadComplete s) := by
  refine onMaintenance_effect _ fun m f hp u contents hm => ?_
  split at hp
  · obtain ⟨x, -, rfl⟩ := Option.map_eq_some_iff.1 hp
    exact mountHead_keeps _ x _ u (by rw [hm]; rfl) (by rw [hm]; rfl)
  · cases hp

/-! ### Completions of the readout ports (R149, R150, R156) -/

theorem execOpenIndexReadComplete_effect : NextIs (Effect c s) (execOpenIndexReadComplete s) := by
  unfold execOpenIndexReadComplete
  split
  · rename_i p op hg
    split
    · split
      · exact .keeps (.refl s)
      · refine .of_completed hg (Keeps.trans ?_ (arbitrate_keeps _))
        split
        · exact (setReadPort_keeps _ _ _).trans (present_keeps _ _ _ (by simp))
        · exact openFailed_keeps _ _
    · exact .keeps (.refl s)
  · exact .keeps (.refl s)

theorem execOpenHeadReadComplete_effect : NextIs (Effect c s) (execOpenHeadReadComplete s) := by
  unfold execOpenHeadReadComplete
  split
  · rename_i p op hg
    split
    · split
      · exact .keeps (.refl s)
      · refine .of_completed hg (Keeps.trans ?_ (arbitrate_keeps _))
        split
        · exact (setReadPort_keeps _ _ _).trans (portAnswer_keeps _ _ _ _)
        · exact openFailed_keeps _ _
    · exact .keeps (.refl s)
  · exact .keeps (.refl s)

theorem execReadDataBlockComplete_effect : NextIs (Effect c s) (execReadDataBlockComplete s) := by
  unfold execReadDataBlockComplete
  split
  · split
    · exact onCompletion_effect _ _ fun op => readBlockRead_keeps _ _ _ _ _ _
    · exact .keeps (.refl s)
  · exact .keeps (.refl s)

end

/-! ### The effect of every command -/

theorem NextIs.imp {P Q : State → Prop} {o : Host.Outcome State Fault Refusal} (h : NextIs P o) (hPQ : ∀ t, P t → Q t) :
    NextIs Q o := by
  cases o with
  | next t => exact hPQ t h
  | fault r => exact h
  | refused r => exact h

theorem NextIs.effect {c : Instr} {s : State} {o : Host.Outcome State Fault Refusal} (h : NextIs (Keeps s) o) :
    NextIs (Effect c s) o := h.imp fun _ => .keeps

/-- Every command answers a next state that is one of its effects, but for a frame that arrives without power (log 23). -/
theorem exec_effect (c : Instr) (s : State) (h : s.powered = true ∨ c.frame? = none) : NextIs (Effect c s) (exec c s) := by
  have frames {f : Frame} (hf : c.frame? = some f) (p : LinkPort) : NextIs (Effect c s) (s.arrival p f) :=
    (arrival_keeps p f s (h.resolve_right (by simp [hf]))).effect
  cases c with
  | powerOn straps => exact execPowerOn_effect straps s
  | resetAssert => exact execResetAssert_effect s
  | bypassEntry d => exact (execBypassEntry_keeps d s).effect
  | resetRelease straps => exact execResetRelease_effect straps s
  | bypassTakeover d => exact (execBypassTakeover_keeps d s).effect
  | protectAssert => exact .protectOn rfl
  | protectRelease => exact execProtectRelease_effect s
  | dataFrameArrival f => exact frames rfl .a
  | cycleFrameArrival f => exact frames rfl .b
  | mreqArrival f => exact frames rfl .b
  | frameForward p f => exact frames rfl p
  | portBSendDone => exact (execPortBSendDone_keeps s).effect
  | portASendDone => exact (execPortASendDone_keeps s).effect
  | periodExpiry i => exact .keeps (modifyRule_keeps s i _)
  | silenceTimerExpiry k => exact (execSilenceTimerExpiry_keeps s k).effect
  | responseHeldPlaced => exact (execResponseHeldPlaced_keeps s).effect
  | streamLoad => exact (execStreamLoad_keeps s).effect
  | streamDrop => exact (execStreamDrop_keeps s).effect
  | streamQuery => exact (execStreamQuery_keeps s).effect
  | ruleLoad => exact (execRuleLoad_keeps s).effect
  | ruleEnable => exact (execRuleEnable_keeps s).effect
  | ruleDisable => exact (execRuleDisable_keeps s).effect
  | ruleUnload => exact (execRuleUnload_keeps s).effect
  | ruleQuery => exact (execRuleQuery_keeps s).effect
  | fire => exact (execFire_keeps s).effect
  | unfire => exact (execUnfire_keeps s).effect
  | slotsQuery => exact (execSlotsQuery_keeps s).effect
  | cut => exact (execCut_keeps s).effect
  | controlSet => exact (execControlSet_keeps s).effect
  | clearConditions => exact (execClearConditions_keeps s).effect
  | conditionsQuery => exact (execConditionsQuery_keeps s).effect
  | format => exact (execFormat_keeps s).effect
  | create => exact (execCreate_keeps s).effect
  | delete => exact (execDelete_keeps s).effect
  | erase => exact (execErase_keeps s).effect
  | storeQuery => exact (execStoreQuery_keeps s).effect
  | recordingQuery => exact (execRecordingQuery_keeps s).effect
  | status => exact (execStatus_keeps s).effect
  | identify => exact (execIdentify_keeps s).effect
  | restart => exact (execRestart_keeps s).effect
  | restartPoint => exact execRestartPoint_effect s
  | portOpen => exact (execPortOpen_keeps s).effect
  | portPosition => exact (execPortPosition_keeps s).effect
  | portRead => exact (execPortRead_keeps s).effect
  | portInfo => exact (execPortInfo_keeps s).effect
  | portClose => exact (execPortClose_keeps s).effect
  | slotDataWriteComplete => exact execSlotDataWriteComplete_effect
  | slotHeadWriteComplete => exact execSlotHeadWriteComplete_effect
  | indexJobTake => exact (execIndexJobTake_keeps s).effect
  | indexReadComplete => exact execIndexReadComplete_effect
  | indexReleaseHold => exact (execIndexReleaseHold_keeps s).effect
  | indexWriteComplete => exact execIndexWriteComplete_effect
  | releaseJobTake => exact (execReleaseJobTake_keeps s).effect
  | releaseHeadReadComplete => exact execReleaseHeadReadComplete_effect
  | deleteReleaseJobPlace => exact (execDeleteReleaseJobPlace_keeps s).effect
  | formatDirectoryReadComplete => exact execFormatDirectoryReadComplete_effect
  | formatLabelWriteComplete => exact execFormatLabelWriteComplete_effect
  | formatDirectoryWriteComplete => exact execFormatDirectoryWriteComplete_effect
  | createIndexWriteComplete => exact execCreateIndexWriteComplete_effect
  | createDirectoryWriteComplete => exact execCreateDirectoryWriteComplete_effect
  | deleteDirectoryWriteComplete => exact execDeleteDirectoryWriteComplete_effect
  | deleteIndexReadComplete => exact execDeleteIndexReadComplete_effect
  | mountLabelReadComplete => exact execMountLabelReadComplete_effect
  | mountDirectoryReadComplete => exact execMountDirectoryReadComplete_effect
  | mountIndexReadComplete => exact execMountIndexReadComplete_effect
  | mountHeadReadComplete => exact execMountHeadReadComplete_effect
  | openIndexReadComplete => exact execOpenIndexReadComplete_effect
  | openHeadReadComplete => exact execOpenHeadReadComplete_effect
  | readDataBlockComplete => exact execReadDataBlockComplete_effect
  | powerLoss => exact execPowerLoss_effect s

/-- Without power an arrival faults (log 23). -/
theorem exec_frame_unpowered {c : Instr} {s : State} (hp : s.powered = false) (hf : c.frame? ≠ none) :
    exec c s = .fault .withoutPower := by
  cases c with
  | dataFrameArrival f => exact arrival_of_unpowered hp .a f
  | cycleFrameArrival f | mreqArrival f => exact arrival_of_unpowered hp .b f
  | frameForward p f => exact arrival_of_unpowered hp p f
  | _ => exact absurd rfl hf

theorem effect_of_exec {c : Instr} {s t : State} (h : exec c s = .next t) : Effect c s t := by
  by_cases hpower : s.powered = true ∨ c.frame? = none
  · have heffect := exec_effect c s hpower
    rw [h] at heffect
    exact heffect
  · rw [not_or, Bool.not_eq_true] at hpower
    rw [exec_frame_unpowered hpower.1 hpower.2] at h
    cases h

/-! ### What every effect keeps -/

section
variable {c : Instr} {s t : State}

theorem Effect.pending (h : Effect c s t) : t.pending = s.pending := by
  cases h with
  | keeps h => exact h.pending
  | completes w op hg h ha => exact h.pending
  | resetLevel b hc => rfl
  | protectOn hc => rfl
  | protectOff hc h => exact h.pending
  | starts hu h hl => exact h.pending.trans hu.pending

theorem Effect.linesMoveBy (h : Effect c s t) : LinesMoveBy c s t := by
  cases h with
  | keeps h => exact linesMoveBy_of_keeps h.toKeepsCore c
  | completes w op hg h ha => exact ⟨fun _ _ => h.powered, fun _ _ => h.resetLine, fun _ _ => h.protect⟩
  | resetLevel b hc =>
    exact ⟨fun _ _ => rfl, fun ha hr => (hc.elim ha fun ⟨n, hn⟩ => hr n hn).elim, fun _ _ => rfl⟩
  | protectOn hc => exact ⟨fun _ _ => rfl, fun _ _ => rfl, fun ha _ => absurd hc ha⟩
  | protectOff hc h => exact ⟨fun _ _ => h.powered, fun _ _ => h.resetLine, fun _ hr => absurd hc hr⟩
  | starts hu h hl =>
    exact ⟨fun h1 h2 => h.powered.trans (hl.powered h1 h2), fun h1 h2 => h.resetLine.trans (hl.resetLine h1 h2),
      fun h1 h2 => h.protect.trans (hl.protect h1 h2)⟩

theorem ArrayByGrant.wf (h : ArrayByGrant s t) (hs : Memory.wf Config.unwrittenByte s.array) :
    Memory.wf Config.unwrittenByte t.array := by
  obtain heq | ⟨w, b, contents, -, heq⟩ := h
  · rwa [heq]
  · rw [heq]; exact writeBlock_wf _ b contents hs

theorem complete_arrayByGrant {w : Requester} {op : StoreOp} (hg : Granted s w op) : ArrayByGrant s (s.complete op) := by
  cases op with
  | read b => exact .inl rfl
  | write b contents => exact .inr ⟨w, b, contents, hg, rfl⟩

theorem Effect.arrayByGrant (h : Effect c s t) : ArrayByGrant s t := by
  have carried {u : State} (hu : ArrayByGrant s u) (heq : t.array = u.array) : ArrayByGrant s t := by
    rwa [ArrayByGrant, heq]
  cases h with
  | keeps h => exact .inl h.array
  | completes w op hg h ha => exact carried (complete_arrayByGrant hg) h.array
  | resetLevel b hc => exact .inl rfl
  | protectOn hc => exact .inl rfl
  | protectOff hc h => exact .inl h.array
  | starts hu h hl => exact carried hu.array h.array

theorem Effect.canonical (h : Effect c s t) (hs : Canonical s) : Canonical t := by
  obtain ⟨harray, hsamples⟩ := hs
  refine ⟨h.arrayByGrant.wf harray, ?_⟩
  cases h with
  | keeps h => exact h.samples hsamples
  | completes w op hg h ha => exact h.samples hsamples
  | resetLevel b hc => exact hsamples
  | protectOn hc => exact hsamples
  | protectOff hc h => exact h.samples hsamples
  | starts hu h hl =>
    refine h.samples ?_
    rw [hu.samples]
    exact ⟨.nil, fun x hx => absurd hx List.not_mem_nil⟩

theorem Effect.conditionLaw (h : Effect c s t) (hs : ConditionLaw s) : ConditionLaw t := by
  cases h with
  | keeps h => exact h.cond hs
  | completes w op hg h ha => exact h.cond hs
  | resetLevel b hc => exact hs
  | protectOn hc => exact hs
  | protectOff hc h => exact h.cond hs
  | starts hu h hl => exact h.cond hu.conditionLaw

theorem Effect.egressBounded (h : Effect c s t) (hs : EgressBounded s) : EgressBounded t := by
  cases h with
  | keeps h => exact h.egress hs
  | completes w op hg h ha => exact h.egress hs
  | resetLevel b hc => exact hs
  | protectOn hc => exact hs
  | protectOff hc h => exact h.egress hs
  | starts hu h hl => exact h.egress (hu.egress hs)

theorem Effect.mapAccounted (h : Effect c s t) (hs : MapAccounted s) : MapAccounted t := by
  cases h with
  | keeps h => exact h.map hs
  | completes w op hg h ha => exact h.map hs
  | resetLevel b hc => exact hs
  | protectOn hc => exact hs
  | protectOff hc h => exact h.map hs
  | starts hu h hl => exact h.map hu.mapAccounted

theorem Effect.reservationsMatch (h : Effect c s t) (hm : MapAccounted s) (hs : ReservationsMatch s) :
    ReservationsMatch t := by
  cases h with
  | keeps h => exact h.reserved hm hs
  | completes w op hg h ha => exact h.reserved hm hs
  | resetLevel b hc => exact hs
  | protectOn hc => exact hs
  | protectOff hc h => exact h.reserved hm hs
  | starts hu h hl => exact h.reserved hu.mapAccounted hu.reservationsMatch

theorem Effect.releasePlaces (h : Effect c s t) (hs : ReleasePlaces s) : ReleasePlaces t := by
  cases h with
  | keeps h => exact h.places hs
  | completes w op hg h ha => exact h.places hs
  | resetLevel b hc => exact hs
  | protectOn hc => exact hs
  | protectOff hc h => exact h.places hs
  | starts hu h hl => exact h.places hu.releasePlaces

theorem Effect.accountsCarried (h : Effect c s t) : AccountsCarried c s t := by
  intro hm hr hb
  have kept (ht : BlocksAccounted t) : (t.store.state ≠ .mounting → t.store.reserved ≤ t.store.free) ∧
      (BlocksAccounted t ∨ c = .releaseHeadReadComplete ∧ ReleasesClaimed s) := ⟨ht.reservations, .inl ht⟩
  cases h with
  | keeps h => exact kept (h.accounts hm hr hb)
  | completes w op hg h ha => exact ha hm hr hb
  | resetLevel b hc => exact kept (same_accounts hb rfl rfl rfl rfl rfl)
  | protectOn hc => exact kept (same_accounts hb rfl rfl rfl rfl rfl)
  | protectOff hc h => exact kept (h.accounts hm hr (same_accounts hb rfl rfl rfl rfl rfl))
  | starts hu h hl => exact kept (h.accounts hu.mapAccounted hu.reservationsMatch hu.blocksAccounted)

/-- Under an asserted PROTECT line a write in progress was in progress before, but for the release of the line (R119). -/
theorem Effect.granted_write (h : Effect c s t) (hprotect : s.protect = true) (hc : c ≠ .protectRelease) {w : Requester}
    {b : Nat} {contents : List Byte} (hg : Granted t w (.write b contents)) : Granted s w (.write b contents) := by
  have before {u : State} (hu : KeepsCore u t) (hup : u.protect = true) : u.port.busy = some ⟨w, .write b contents⟩ :=
    (hu.granted _ hg).resolve_right (by simp [StoreOp.grantable, hup])
  cases h with
  | keeps h => exact before h.toKeepsCore hprotect
  | completes w' op hg' h ha => exact absurd (before h.toKeepsCore hprotect) (by simp)
  | resetLevel b' hc' => exact hg
  | protectOn hc' => exact hg
  | protectOff hc' h => exact absurd hc' hc
  | starts hu h hl =>
    have hidle := before h.toKeepsCore (hu.protect.trans hprotect)
    rw [hu.port] at hidle
    cases hidle

end

/-- What every command carries over, every step carries over; the step's state differs in the queue only. -/
theorem step_carries {P : State → Prop} (hqueue : ∀ s cs, P s → P { s with pending := cs })
    (heffect : ∀ c s t, Effect c s t → P s → P t) {s t : State} (hs : P s) (h : step s = .next t) : P t := by
  unfold step at h
  split at h
  · cases h; exact hs
  · exact heffect _ _ t (effect_of_exec h) (hqueue s _ hs)

/-! ### The obligations -/

/-- Settles O4, from the effect of every command: memories change by whole writes. -/
theorem stepKeepsMemoriesCanonical : Obligations.StepKeepsMemoriesCanonical :=
  fun _ _ hs h => step_carries (fun _ _ h => h) (fun _ _ _ heffect => heffect.canonical) hs h

/-- Settles O5, from the effect of every command on the Condition Unit. -/
theorem stepKeepsConditionLaw : Obligations.StepKeepsConditionLaw :=
  fun _ _ hs h => step_carries (fun _ _ h => h) (fun _ _ _ heffect => heffect.conditionLaw) hs h

/-- Settles O6, from the effect of every command on the link. -/
theorem stepKeepsEgressBounded : Obligations.StepKeepsEgressBounded :=
  fun _ _ hs h => step_carries (fun _ _ h => h) (fun _ _ _ heffect => heffect.egressBounded) hs h

/-- Settles O7: the map by the effect of every command, and the claimed blocks with the one exception of R97. -/
theorem stepKeepsMapAccounted : Obligations.StepKeepsMapAccounted := by
  refine ⟨fun _ _ hs h => step_carries (fun _ _ h => h) (fun _ _ _ heffect => heffect.mapAccounted) hs h,
    fun s t hm hr hb h => ?_⟩
  unfold step at h
  split at h
  next => cases h; exact ⟨hb.reservations, .inl hb⟩
  next c cs hpending =>
    have hb' : BlocksAccounted { s with pending := cs } := same_accounts hb rfl rfl rfl rfl rfl
    obtain ⟨hcovered, haccounts⟩ := (effect_of_exec h).accountsCarried hm hr hb'
    refine ⟨hcovered, haccounts.imp id fun ⟨hc, hclaimed⟩ => ⟨⟨cs, by rw [hpending, hc]⟩, hclaimed⟩⟩

/-- Settles O8, from the effect of every command on slots and Store Manager. -/
theorem stepKeepsReservationsMatched : Obligations.StepKeepsReservationsMatched := by
  intro s t hm hr h
  have carried : MapAccounted t ∧ ReservationsMatch t :=
    step_carries (P := fun s => MapAccounted s ∧ ReservationsMatch s) (fun _ _ h => h)
      (fun _ _ _ heffect ⟨hm, hr⟩ => ⟨heffect.mapAccounted hm, heffect.reservationsMatch hm hr⟩) ⟨hm, hr⟩ h
  exact carried.2

/-- Settles O9, from the effect of every command on Index Unit and Release Unit. -/
theorem stepKeepsReleasePlaces : Obligations.StepKeepsReleasePlaces :=
  fun _ _ hs h => step_carries (fun _ _ h => h) (fun _ _ _ heffect => heffect.releasePlaces) hs h

/-- Settles O2: the effect of every command, with the one fault. -/
theorem commandsCompleteAndLinesMoveByTheirRows : Obligations.CommandsCompleteAndLinesMoveByTheirRows := by
  refine ⟨fun c s => ?_, fun c s t h => ?_⟩
  · by_cases hpower : s.powered = true ∨ c.frame? = none
    · have heffect := exec_effect c s hpower
      cases hexec : exec c s with
      | next t => exact .inl ⟨t, rfl⟩
      | fault r => rw [hexec] at heffect; exact heffect.elim
      | refused r => rw [hexec] at heffect; exact heffect.elim
    · rw [not_or, Bool.not_eq_true] at hpower
      exact .inr ⟨exec_frame_unpowered hpower.1 hpower.2, hpower.1, hpower.2⟩
  · have heffect := effect_of_exec h
    obtain ⟨hpowered, hreset, hprotect⟩ := heffect.linesMoveBy
    exact ⟨heffect.pending, hpowered, hreset, hprotect⟩

/-- Settles O10: a step writes at most the block of the granted write. -/
theorem arrayChangesByTheGrantedWriteOnly : Obligations.ArrayChangesByTheGrantedWriteOnly := by
  intro s t h
  have hgrant : ArrayByGrant s t := by
    unfold step at h
    split at h
    next => cases h; exact .inl rfl
    next => exact (effect_of_exec h).arrayByGrant
  refine hgrant.imp id fun ⟨w, b, contents, hg, heq⟩ => ⟨w, b, contents, hg, heq, fun hlength => ?_, fun b' hb' => ?_⟩
  · rw [heq, readBlock_writeBlock _ _ _ hlength]
  · rw [heq, readBlock_writeBlock_ne _ _ _ _ hb']

/-- Settles O11: the arbiter grants no write under PROTECT, and nothing else grants. -/
theorem noWriteStartsUnderProtect : Obligations.NoWriteStartsUnderProtect :=
  fun _ _ _ _ _ _ hprotect hc h hg => (effect_of_exec h).granted_write hprotect hc hg

end Sys2Proof.Laws
end

section
/-!
PROOF. Power-on and the queue (00_scope.md section 5), the arbiter of the Store Port (R118) and the claims on the allocation
map (R98, R99).
-/

namespace Sys2Proof.Laws

open Machine

/-! ### The state after power-on -/

/-- The blocks as power-on leaves them, before the mount scan begins. -/
def resetBlocks : State := { State.reset with maint := some (.mount .held), port := .start }

theorem resetBlocks_started : Started resetBlocks :=
  (startBlocks_started State.reset).of_eq rfl rfl rfl rfl rfl rfl rfl rfl

/-- Power-on ends with the mount scan's read of block 0 granted (R103, R138). -/
theorem resetBlocks_mountBegins : resetBlocks.mountBegins = State.reset := by decide

/-- The invariants at power-on are those of every start. -/
theorem reset_keeps : Keeps resetBlocks State.reset :=
  resetBlocks_mountBegins ▸ mountBegins_keeps resetBlocks_started

theorem canonical_reset : Canonical State.reset :=
  ⟨⟨.nil, fun _ h => absurd h List.not_mem_nil⟩, .nil, fun _ h => absurd h List.not_mem_nil⟩

theorem get_replicate {α : Type} {n : Nat} (x : α) (i : Fin n) : (Vector.replicate n x).get i = x := by
  simp [Vector.get_eq_getElem]

/-! ### The arbiter's order (R118) -/

/-- A number for each requester by which the arbiter's order is ascending: the class, and within classes 1 and 5 the
distance from the last granted. -/
def arbiterKey (port : StorePort) : Requester → Nat
  | .slot k => 8 + (k.val + 7 - port.lastSlot.val) % 8
  | .index => 16
  | .release => 24
  | .maintenance => 32
  | .port p => 40 + (p.val + 5 - port.lastPort.val) % 6

theorem arbiterKey_div (port : StorePort) (w : Requester) : arbiterKey port w / 8 = w.rank := by
  cases w with
  | slot k => simp only [arbiterKey, Requester.rank]; omega
  | port p => simp only [arbiterKey, Requester.rank]; omega
  | index | release | maintenance => simp [arbiterKey, Requester.rank]

theorem slotOrder_distances : ∀ last : SlotIx,
    (slotOrder last).map (fun k => 8 + (k.val + 7 - last.val) % 8) = [8, 9, 10, 11, 12, 13, 14, 15] := by decide

theorem portOrder_distances : ∀ last : PortIx,
    (portOrder last).map (fun p => 40 + (p.val + 5 - last.val) % 6) = [40, 41, 42, 43, 44, 45] := by decide

theorem mem_slotOrder : ∀ last k : SlotIx, k ∈ slotOrder last := by decide

theorem mem_portOrder : ∀ last p : PortIx, p ∈ portOrder last := by decide

theorem arbiterOrder_keys (s : State) : s.arbiterOrder.map (arbiterKey s.port) =
    [8, 9, 10, 11, 12, 13, 14, 15, 16, 24, 32, 40, 41, 42, 43, 44, 45] := by
  have hslots : ((slotOrder s.port.lastSlot).map Requester.slot).map (arbiterKey s.port) =
      [8, 9, 10, 11, 12, 13, 14, 15] := by rw [List.map_map]; exact slotOrder_distances _
  have hports : ((portOrder s.port.lastPort).map Requester.port).map (arbiterKey s.port) = [40, 41, 42, 43, 44, 45] := by
    rw [List.map_map]; exact portOrder_distances _
  rw [State.arbiterOrder, List.map_append, List.map_append, hslots, hports]
  rfl

/-- The arbiter looks at the requesters in ascending key. -/
theorem arbiterOrder_pairwise (s : State) :
    s.arbiterOrder.Pairwise fun w w' => arbiterKey s.port w ≤ arbiterKey s.port w' := by
  rw [← List.pairwise_map (R := (· ≤ ·)), arbiterOrder_keys]
  decide

/-- Every requester has its place in the arbiter's order. -/
theorem mem_arbiterOrder (s : State) (w : Requester) : w ∈ s.arbiterOrder := by
  simp only [State.arbiterOrder, List.mem_append, List.mem_map, List.mem_cons]
  cases w with
  | slot k => exact .inl (.inl ⟨k, mem_slotOrder _ k, rfl⟩)
  | port p => exact .inr ⟨p, mem_portOrder _ p, rfl⟩
  | index | release | maintenance => simp

theorem waitingOf_ne_none {s : State} {r : StoreRequest} (hr : r ∈ s.port.waiting)
    (hg : r.op.grantable s.protect = true) : s.waitingOf r.who ≠ none := by
  intro hnone
  simpa [hg] using List.find?_eq_none.1 hnone r hr

theorem who_of_waitingOf {s : State} {w : Requester} {r : StoreRequest} (h : s.waitingOf w = some r) : r.who = w := by
  have := List.find?_some h
  simp only [Bool.and_eq_true, beq_iff_eq] at this
  exact this.1

/-- The choice has the least key of all that wait and are grantable. -/
theorem arbiterKey_le_of_choice {s : State} {r r' : StoreRequest} (h : s.arbiterChoice = some r)
    (hr' : r' ∈ s.port.waiting) (hg' : r'.op.grantable s.protect = true) :
    arbiterKey s.port r.who ≤ arbiterKey s.port r'.who := by
  obtain ⟨before, w, after, horder, hw, hbefore⟩ := List.findSome?_eq_some_iff.1 h
  have hmem := mem_arbiterOrder s r'.who
  have hsorted := arbiterOrder_pairwise s
  rw [horder, List.mem_append, List.mem_cons] at hmem
  rw [horder, List.pairwise_append, List.pairwise_cons] at hsorted
  obtain ⟨-, ⟨hafter, -⟩, -⟩ := hsorted
  rw [who_of_waitingOf hw]
  obtain hmem | rfl | hmem := hmem
  · exact absurd (hbefore _ hmem) (waitingOf_ne_none hr' hg')
  · exact le_refl _
  · exact hafter _ hmem

theorem grantable_of_no_choice {s : State} (h : s.arbiterChoice = none) {r : StoreRequest} (hr : r ∈ s.port.waiting) :
    r.op.grantable s.protect = false := by
  rw [State.arbiterChoice, List.findSome?_eq_none_iff] at h
  by_contra hg
  exact waitingOf_ne_none hr (Bool.not_eq_false _ ▸ hg) (h _ (mem_arbiterOrder s r.who))

/-! ### The arbiter's test (R117, R118) -/

section
variable {s : State} {r : StoreRequest}

theorem arbitrate_of_busy (h : s.port.busy ≠ none) : s.arbitrate = s := by
  obtain ⟨r, hr⟩ := Option.ne_none_iff_exists'.1 h
  simp only [State.arbitrate, hr]

theorem arbitrate_of_no_choice (h : s.arbiterChoice = none) : s.arbitrate = s := by
  unfold State.arbitrate
  split
  next => rfl
  next => simp only [h, ite_self]

theorem arbitrate_of_restarting (h : s.mgmt.phase = .restarting) : s.arbitrate = s := by
  unfold State.arbitrate
  split
  next => rfl
  next => exact if_pos h

theorem arbitrate_of_choice (hbusy : s.port.busy = none) (hphase : s.mgmt.phase ≠ .restarting)
    (h : s.arbiterChoice = some r) : s.arbitrate = s.grant r := by
  simp only [State.arbitrate, hbusy, if_neg hphase, h]

theorem arbitrateForCommit_of_choice (h : s.arbiterChoice = some r) : s.arbitrateForCommit =
    if s.index.phase = .idle ∧ s.index.queue ≠ [] ∧ 2 < r.who.rank then s else s.arbitrate := by
  simp only [State.arbitrateForCommit, h]

theorem arbitrateForCommit_of_no_choice (h : s.arbiterChoice = none) : s.arbitrateForCommit = s := by
  simp only [State.arbitrateForCommit, h]

theorem grant_busy (s : State) (r : StoreRequest) : (s.grant r).port.busy = some r := by
  unfold State.grant; split <;> rfl

theorem grant_waiting (s : State) (r : StoreRequest) :
    (s.grant r).port.waiting = s.port.waiting.filter (·.who != r.who) := by
  unfold State.grant; split <;> rfl

/-- The grant of a slot's request moves the pointer of class 1 and the slot's buffers (R60, R118). -/
theorem grant_of_slot {k : SlotIx} (hk : r.who = .slot k) : s.grant r = ({ s with port := { s.port with
    busy := some r, waiting := s.port.waiting.filter (·.who != r.who), lastSlot := k } } : State).setSlot k
      ((s.slot k).granted r.op) := by
  simp only [State.grant, hk]
  rfl

theorem grant_of_port {p : PortIx} (hp : r.who = .port p) : s.grant r = { s with port := { s.port with
    busy := some r, waiting := s.port.waiting.filter (·.who != r.who), lastPort := p } } := by
  simp only [State.grant, hp]

theorem grant_slot_of_ne {k : SlotIx} (hk : r.who ≠ .slot k) : (s.grant r).slot k = s.slot k := by
  unfold State.grant
  split
  next j hj =>
    rw [slot_setSlot, if_neg fun h : k = j => hk (h ▸ hj)]
    rfl
  next => rfl
  next => rfl

theorem grant_slot_capture (k : SlotIx) : ((s.grant r).slot k).capture = (s.slot k).capture := by
  by_cases hk : r.who = .slot k
  · rw [grant_of_slot hk, slot_setSlot_same, slotGranted_capture]
  · rw [grant_slot_of_ne hk]

theorem grant_lastSlot {k : SlotIx} (hk : r.who = .slot k) : (s.grant r).port.lastSlot = k := by
  rw [grant_of_slot hk]; rfl

theorem grant_lastPort {p : PortIx} (hp : r.who = .port p) : (s.grant r).port.lastPort = p := by
  rw [grant_of_port hp]

end

/-! ### The claims (R98, R99) -/

/-- A take answers a block of the data area that was free. -/
theorem take_of_free {m : StoreManager} (h : MapOk m) (hl : m.used.length < Config.dataBlocks) :
    ∃ b m', m.take = some (b, m') := by
  obtain ⟨b, hb⟩ := chooseBlock_some m h.1 hl
  exact ⟨b, _, by rw [StoreManager.take, hb]; rfl⟩

theorem freeBlock_of_used {m : StoreManager} {b : Nat} (h : b ∈ m.used) :
    m.freeBlock b = { m with used := m.used.filter (· != b), free := m.free + 1 } := if_pos h

theorem freeBlock_of_free {m : StoreManager} {b : Nat} (h : b ∉ m.used) : m.freeBlock b = m := if_neg h

/-- Takes in turn answer different blocks that were free, as long as enough are. -/
theorem takeMany_of_free (n : Nat) : ∀ m : StoreManager, MapOk m → n + m.used.length ≤ Config.dataBlocks →
    ∃ bs m', m.takeMany n = some (bs, m') ∧ bs.Nodup ∧ (∀ b ∈ bs, inDataArea b = true ∧ b ∉ m.used) ∧
      ∀ x, x ∈ m'.used ↔ x ∈ bs ∨ x ∈ m.used := by
  induction n with
  | zero => exact fun m _ _ => ⟨[], m, rfl, List.nodup_nil, by simp, by simp⟩
  | succ n ih =>
    intro m hm hroom
    obtain ⟨b, m1, htake⟩ := take_of_free hm (by omega)
    obtain ⟨hchoose, hm1⟩ := take_spec m m1 b htake
    obtain ⟨harea, hfresh, -⟩ := chooseBlock_spec m b hm hchoose
    have hused (x : Nat) : x ∈ m1.used ↔ x = b ∨ x ∈ m.used := by rw [hm1]; exact mem_insertUsed b x m.used
    have hlength : m1.used.length = m.used.length + 1 := by rw [hm1]; exact length_insertUsed b m.used hfresh
    obtain ⟨bs, m2, htakes, hnodup, hbs, hm2⟩ := ih m1 (take_ok m m1 b hm htake) (by omega)
    refine ⟨b :: bs, m2, by simp [StoreManager.takeMany, htake, htakes], List.nodup_cons.2 ⟨fun hb => ?_, hnodup⟩,
      fun x hx => ?_, fun x => ?_⟩
    · exact (hbs b hb).2 ((hused b).2 (.inl rfl))
    · obtain rfl | hx := List.mem_cons.1 hx
      · exact ⟨harea, hfresh⟩
      · exact ⟨(hbs x hx).1, fun h => (hbs x hx).2 ((hused x).2 (.inr h))⟩
    · rw [hm2, hused, List.mem_cons]
      tauto

/-! ### The obligations -/

/-- Settles O1, by the definition of a step. -/
theorem stepRunsTheFrontCommand : Obligations.StepRunsTheFrontCommand :=
  ⟨fun _ _ => rfl, fun s h => by simp only [step, h]⟩

/-- Settles O3: the values of every unit by their definition, the invariants as those of every start. -/
theorem powerOnValues : Obligations.PowerOnValues := by
  refine ⟨?values, canonical_reset, ?invariants⟩
  case values =>
    exact ⟨get_replicate _, get_replicate _, get_replicate _, rfl, rfl, rfl, rfl, rfl, rfl, rfl, rfl, get_replicate _,
      get_replicate _, rfl, rfl, rfl, rfl, rfl, rfl, rfl, rfl, rfl, rfl, get_replicate _, rfl, rfl, rfl, rfl, rfl, rfl,
      rfl, rfl, rfl, rfl, rfl, rfl⟩
  case invariants =>
    have hstart := resetBlocks_started
    exact ⟨reset_keeps.cond hstart.conditionLaw, ⟨Nat.zero_le _, Nat.zero_le _⟩, reset_keeps.map hstart.mapAccounted,
      reset_keeps.reserved hstart.mapAccounted hstart.reservationsMatch,
      reset_keeps.accounts hstart.mapAccounted hstart.reservationsMatch hstart.blocksAccounted,
      reset_keeps.places hstart.releasePlaces⟩

/-- Settles O12: the choice by the keys of the arbiter's order, the test by what it finds. -/
theorem arbiterChoosesByClassAndGrantsWhenIdle : Obligations.ArbiterChoosesByClassAndGrantsWhenIdle := by
  refine ⟨fun s => ⟨fun r h => ⟨arbiterChoice_waits s r h, arbiterChoice_grantable s r h, fun r' hr' hg' => ?order⟩,
    fun h r hr => grantable_of_no_choice h hr⟩, fun s => ⟨arbitrate_of_busy, arbitrate_of_no_choice,
      arbitrate_of_restarting, fun r hbusy hphase h => ?grants, fun r h hrank hphase hqueue => ?held, fun h => ?tests⟩⟩
  case order =>
    have hkey := arbiterKey_le_of_choice h hr' hg'
    refine ⟨?_, fun k k' hk hk' => ?_, fun p p' hp hp' => ?_⟩
    · rw [← arbiterKey_div s.port, ← arbiterKey_div s.port]
      exact Nat.div_le_div_right hkey
    · rw [hk, hk'] at hkey
      simp only [arbiterKey] at hkey
      omega
    · rw [hp, hp'] at hkey
      simp only [arbiterKey] at hkey
      omega
  case grants =>
    rw [arbitrate_of_choice hbusy hphase h]
    refine ⟨grant_busy s r, grant_waiting s r, fun k => grant_lastSlot, fun p => grant_lastPort, grant_within s r,
      grant_slot_capture, fun k => grant_slot_of_ne, fun k b contents hr => ?_⟩
    subst hr
    rw [grant_of_slot rfl, slot_setSlot_same]
    refine ⟨?_, ?_⟩
    · show (s.slot k).buffer0.granted b = _
      cases (s.slot k).buffer0 <;> rfl
    · show (s.slot k).buffer1.granted b = _
      cases (s.slot k).buffer1 <;> rfl
  case held => rw [arbitrateForCommit_of_choice h, if_pos ⟨hphase, hqueue, hrank⟩]
  case tests =>
    cases hchoice : s.arbiterChoice with
    | none => rw [arbitrateForCommit_of_no_choice hchoice, arbitrate_of_no_choice hchoice]
    | some r =>
      rw [arbitrateForCommit_of_choice hchoice, if_neg]
      rintro ⟨hphase, hqueue, hrank⟩
      exact (h r hchoice hrank).elim (absurd hphase) hqueue

/-- Settles O13: a take by the block that it chooses, a free claim by whether the block is used, and takes in turn. -/
theorem claimsTakeFromTheCursorAndFree : Obligations.ClaimsTakeFromTheCursorAndFree := by
  refine ⟨fun m m' b hm htake => ?takes, fun m b => ⟨fun hb => ?frees, freeBlock_of_free⟩, fun m hm =>
    ⟨fun hroom => ?finds, fun n hroom => ?many⟩⟩
  case takes =>
    obtain ⟨hchoose, rfl⟩ := takeReserved_all m m' b htake
    obtain ⟨harea, hfresh, hfirst⟩ := chooseBlock_spec m b hm hchoose
    obtain ⟨hlow, hhigh⟩ := (inDataArea_iff b).1 harea
    exact ⟨hlow, hhigh, hfresh, hfirst, rfl, fun x => mem_insertUsed b x m.used, rfl⟩
  case frees =>
    refine ⟨fun x => mem_freeBlock m b x, ?_⟩
    rw [freeBlock_of_used hb]
  case finds =>
    obtain ⟨b, m', htake⟩ := take_of_free hm hroom
    exact ⟨b, _, by rw [StoreManager.takeReserved, htake]; rfl⟩
  case many =>
    obtain ⟨bs, m', htakes, hnodup, hbs, hused⟩ := takeMany_of_free n m hm hroom
    obtain ⟨hlength, hkept, -⟩ := takeMany_spec n m m' bs htakes
    obtain ⟨hfree, -⟩ := takeMany_claims n m m' bs hm htakes
    refine ⟨bs, m', htakes, hlength, hnodup, fun b hb => ?_, hused, ?_⟩
    · obtain ⟨harea, hfresh⟩ := hbs b hb
      obtain ⟨hlow, hhigh⟩ := (inDataArea_iff b).1 harea
      exact ⟨hlow, hhigh, hfresh⟩
    · rw [← hfree]
      exact hkept

end Sys2Proof.Laws
end

section
/-!
PROOF. The check as a bit-serial division (R189), the kinds of frames (R160, R189) and marking (R164).
-/

namespace Sys2Proof.Laws

open Machine

/-! ### The check, bit by bit (R189) -/

/-- One bit into the register of the check. -/
def checkBit (c : BitVec 16) (bit : Bool) : BitVec 16 := if c.msb = bit then c <<< 1 else (c <<< 1) ^^^ 0x1021

/-- The bits of a byte, most significant first. -/
def bitsOf (b : Byte) : List Bool := (List.range 8).map fun i => b.getLsbD (7 - i)

/-- The check over a run of bytes, bit by bit. -/
def bitwiseCheck (bs : List Byte) : BitVec 16 := (bs.flatMap bitsOf).foldl checkBit 0xFFFF

/-- The bits of `d` that a step shifts out enter the register; those that stay are shifted. -/
theorem crcBit_xor (c d : Word16) : crcBit (c ^^^ d) = checkBit c d.msb ^^^ (d <<< 1) := by
  rw [crcBit, checkBit, BitVec.msb_xor, BitVec.shiftLeft_xor_distrib]
  have hswap (x y z : Word16) : x ^^^ (y ^^^ z) = y ^^^ (x ^^^ z) := by ac_rfl
  cases c.msb <;> cases d.msb <;> simp [BitVec.xor_assoc, BitVec.xor_comm, hswap]

theorem crcBits_xor (n : Nat) (hn : n ≤ 16) (c d : Word16) :
    crcBits n (c ^^^ d) = ((List.range n).map fun i => d.getLsbD (15 - i)).foldl checkBit c ^^^ (d <<< n) := by
  induction n generalizing c d with
  | zero => simp [crcBits]
  | succ n ih =>
    have hbit (i : Nat) (hi : i ∈ List.range n) : (d <<< 1).getLsbD (15 - i) = d.getLsbD (15 - (i + 1)) := by
      rw [List.mem_range] at hi
      have : 15 - i - 1 = 15 - (i + 1) := by omega
      rw [BitVec.getLsbD_shiftLeft, this, decide_eq_true (by omega), decide_eq_false (by omega)]
      rfl
    rw [crcBits, crcBit_xor, ih (by omega), List.map_congr_left hbit, List.range_succ_eq_map, List.map_cons, List.map_map,
      List.foldl_cons, ← BitVec.shiftLeft_add, Nat.add_comm 1 n]
    rfl

theorem foldl_checkBit_bitsOf (c : Word16) (b : Byte) : (bitsOf b).foldl checkBit c = crcByte c b := by
  have hbits : bitsOf b = (List.range 8).map fun i => (b.setWidth 16 <<< 8 : Word16).getLsbD (15 - i) := by
    refine List.map_congr_left fun i hi => ?_
    rw [List.mem_range] at hi
    have : 15 - i - 8 = 7 - i := by omega
    rw [BitVec.getLsbD_shiftLeft, BitVec.getLsbD_setWidth, this, decide_eq_true (by omega), decide_eq_false (by omega),
      decide_eq_true (by omega)]
    rfl
  have hout : (b.setWidth 16 <<< 8 : Word16) <<< 8 = 0 := by
    rw [← BitVec.shiftLeft_add]
    exact BitVec.shiftLeft_eq_zero (by decide)
  rw [crcByte, crcBits_xor 8 (by decide), hout, ← hbits]
  exact BitVec.xor_zero.symm

/-- The check that the part computes byte by byte is the bit-serial one (R189). -/
theorem crc16_eq_bitwise (bs : List Byte) : crc16 bs = bitwiseCheck bs := by
  rw [crc16, bitwiseCheck, List.foldl_flatMap]
  exact congrArg (fun step => bs.foldl step 0xFFFF) (funext fun c => funext fun b => (foldl_checkBit_bitsOf c b).symm)

/-! ### Fields of a run of bytes -/

theorem byteAt_of_length_le {bs : List Byte} {i : Nat} (h : bs.length ≤ i) : byteAt bs i = 0 := by
  rw [byteAt, List.getD_eq_getElem?_getD, List.getElem?_eq_none h]
  rfl

theorem fieldAt_one (bs : List Byte) (i : Nat) : fieldAt bs i 1 = (byteAt bs i).toNat := by
  by_cases h : i < bs.length
  · rw [fieldAt, List.drop_eq_getElem_cons h, byteAt, List.getD_eq_getElem _ _ h]
    exact Nat.zero_add _
  · rw [byteAt_of_length_le (by omega), fieldAt, List.drop_of_length_le (by omega)]
    rfl

/-- A field is read byte by byte, most significant first. -/
theorem fieldAt_succ {bs : List Byte} {i k : Nat} (h : i + k < bs.length) :
    fieldAt bs i (k + 1) = fieldAt bs i k * 256 + (byteAt bs (i + k)).toNat := by
  have hget : (bs.drop i)[k]? = some (byteAt bs (i + k)) := by
    rw [List.getElem?_drop, byteAt, List.getD_eq_getElem?_getD, List.getElem?_eq_getElem h]
    rfl
  rw [fieldAt, List.take_add_one, hget, ofBytes, List.foldl_append]
  rfl

theorem fieldAt_two {bs : List Byte} {i : Nat} (h : i + 1 < bs.length) :
    fieldAt bs i 2 = (byteAt bs i).toNat * 256 + (byteAt bs (i + 1)).toNat := by
  rw [fieldAt_succ h, fieldAt_one]

/-! ### The kind of a frame (R160, R189) -/

/-- A frame of good check: long enough, and its last two bytes spell the check over the bytes before them. -/
theorem checkGood_iff {f : Frame} (h : 3 ≤ f.length) : checkGood f = true ↔
    (byteAt f (f.length - 2)).toNat * 256 + (byteAt f (f.length - 1)).toNat =
      (bitwiseCheck (f.take (f.length - 2))).toNat := by
  have hlast : f.length - 2 + 1 = f.length - 1 := by omega
  rw [checkGood, beq_iff_eq, fieldAt_two (by omega), crc16_eq_bitwise, hlast]

theorem frameKind_of_bad {f : Frame} (h : ¬(3 ≤ f.length ∧ checkGood f = true)) : frameKind f = .badCheck := by
  refine if_pos ?_
  rw [Bool.or_eq_true, decide_eq_true_eq, Bool.not_eq_true', ← Bool.not_eq_true]
  by_cases hl : 3 ≤ f.length
  · exact .inr fun hg => h ⟨hl, hg⟩
  · exact .inl (by omega)

theorem frameKind_of_good {f : Frame} (h : 3 ≤ f.length) (hg : checkGood f = true) : frameKind f =
    if byteAt f 0 = 0xD1 then .data
    else if byteAt f 0 = 0xC2 then (if f.length = 4 then .cycle else .other)
    else if byteAt f 0 = 0xA3 then (if 8 ≤ f.length ∧ f.length ≤ 56 then .mreq else .other)
    else if byteAt f 0 = 0xA4 then (if 11 ≤ f.length ∧ f.length ≤ 75 then .mrsp else .other)
    else .other := by
  refine if_neg ?_
  simp [hg]
  omega

/-! ### Marking (R164) -/

/-- The bytes of a frame before its check, with the event flag set. -/
def markedBody (f : Frame) : List Byte := (f.take (f.length - 2)).set 4 (byteAt f 4 ||| 1)

theorem length_markedBody (f : Frame) : (markedBody f).length = f.length - 2 := by
  simp [markedBody]

theorem byteAt_markedBody {f : Frame} {j : Nat} (h : j < f.length - 2) :
    byteAt (markedBody f) j = if j = 4 then byteAt f 4 ||| 1 else byteAt f j := by
  have hlt : j < f.length := by omega
  rw [byteAt, List.getD_eq_getElem _ _ (by rw [length_markedBody]; exact h)]
  simp only [markedBody, List.getElem_set, List.getElem_take, eq_comm (a := 4)]
  simp [byteAt, hlt]

theorem byteAt_markFrame {f : Frame} {j : Nat} (h : j < f.length - 2) :
    byteAt (markFrame f) j = if j = 4 then byteAt f 4 ||| 1 else byteAt f j := by
  rw [show markFrame f = withCheck (markedBody f) from rfl, byteAt_withCheck _ _ (by rw [length_markedBody]; exact h),
    byteAt_markedBody h]

theorem length_markFrame {f : Frame} (h : 2 ≤ f.length) : (markFrame f).length = f.length := by
  rw [show markFrame f = withCheck (markedBody f) from rfl, withCheck, List.length_append, length_markedBody,
    length_wordBytes_two]
  omega

theorem getLsbD_or_one (x : Byte) (b : Nat) : (x ||| 1).getLsbD b = (x.getLsbD b || decide (b = 0)) := by
  simp [BitVec.getLsbD_one]

/-! ### The obligation -/

/-- Settles O20: the marked frame byte by byte, and byte 4 bit by bit. -/
theorem markingChangesFlagAndCheckOnly : Obligations.MarkingChangesFlagAndCheckOnly := by
  intro f h
  have hfour : byteAt (markFrame f) 4 = byteAt f 4 ||| 1 := by rw [byteAt_markFrame (by omega), if_pos rfl]
  refine ⟨length_markFrame (by omega), ?flag, checkGood_withCheck _, fun j hj hne => ?bytes, fun b hb => ?bits⟩
  case flag => rw [eventFlag, hfour, getLsbD_or_one, decide_eq_true rfl, Bool.or_true]
  case bytes => rw [byteAt_markFrame hj, if_neg hne]
  case bits => rw [hfour, getLsbD_or_one, decide_eq_false hb, Bool.or_false]

end Sys2Proof.Laws
end

section
/-!
PROOF. The Link Interface: egress (R166 to R168), frames that the part only forwards (R160 to R163), and bypass (R169).
-/

namespace Sys2Proof.Laws

open Machine

/-! ### What a send side chooses (R167, R168) -/

section
variable {l : Link} {f : Frame} {fs : List Frame}

theorem chooseB_of_forwarded (hpath : l.aToB = .through) (hidle : l.sendingB = none) (h : l.fifoB = f :: fs) :
    l.chooseB = { l with sendingB := some ⟨f, false⟩, fifoB := fs } := by
  simp only [Link.chooseB, hpath, hidle, h]

theorem chooseB_of_response (hpath : l.aToB = .through) (hidle : l.sendingB = none) (h : l.fifoB = [])
    (hresponse : l.response = some f) : l.chooseB = { l with sendingB := some ⟨f, true⟩, response := none } := by
  simp only [Link.chooseB, hpath, hidle, h, hresponse]

theorem chooseB_of_nothing (h : l.fifoB = []) (hresponse : l.response = none) : l.chooseB = l := by
  unfold Link.chooseB
  split
  next => simp only [h, hresponse]
  next => rfl

theorem chooseB_of_sending (h : l.sendingB ≠ none) : l.chooseB = l := by
  unfold Link.chooseB
  split
  next hidle => exact absurd hidle h
  next => rfl

theorem chooseA_of_forwarded (hpath : l.bToA = .through) (hidle : l.sendingA = none) (h : l.fifoA = f :: fs) :
    l.chooseA = { l with sendingA := some f, fifoA := fs } := by
  simp only [Link.chooseA, hpath, hidle, h]

theorem chooseA_of_nothing (h : l.fifoA = []) : l.chooseA = l := by
  unfold Link.chooseA
  split
  next => simp only [h]
  next => rfl

theorem chooseA_of_sending (h : l.sendingA ≠ none) : l.chooseA = l := by
  unfold Link.chooseA
  split
  next hidle => exact absurd hidle h
  next => rfl

/-! ### Placing (R166, R167) -/

theorem placeB_of_full (h : 4 ≤ l.fifoB.length) :
    l.placeB f = { l with counters := { l.counters with overrunB := satSucc l.counters.overrunB } } := if_pos h

theorem placeA_of_full (h : 4 ≤ l.fifoA.length) :
    l.placeA f = { l with counters := { l.counters with overrunA := satSucc l.counters.overrunA } } := if_pos h

theorem placeB_of_room (h : l.fifoB.length < 4) : l.placeB f = { l with fifoB := l.fifoB ++ [f] }.chooseB :=
  if_neg (Nat.not_le.2 h)

theorem placeA_of_room (h : l.fifoA.length < 4) : l.placeA f = { l with fifoA := l.fifoA ++ [f] }.chooseA :=
  if_neg (Nat.not_le.2 h)

/-- An idle send side with nothing waiting sends a placed frame at once. -/
theorem placeB_of_empty (h : l.fifoB = []) (hidle : l.sendingB = none) (hpath : l.aToB = .through) :
    l.placeB f = { l with sendingB := some ⟨f, false⟩ } := by
  have hroom : l.fifoB.length < 4 := by rw [h]; exact Nat.zero_lt_succ 3
  have hchoose := chooseB_of_forwarded (l := { l with fifoB := l.fifoB ++ [f] }) (f := f) (fs := []) hpath hidle
    (by rw [h]; rfl)
  rw [placeB_of_room hroom, hchoose, ← h]

theorem placeA_of_empty (h : l.fifoA = []) (hidle : l.sendingA = none) (hpath : l.bToA = .through) :
    l.placeA f = { l with sendingA := some f } := by
  have hroom : l.fifoA.length < 4 := by rw [h]; exact Nat.zero_lt_succ 3
  have hchoose := chooseA_of_forwarded (l := { l with fifoA := l.fifoA ++ [f] }) (f := f) (fs := []) hpath hidle
    (by rw [h]; rfl)
  rw [placeA_of_room hroom, hchoose, ← h]

end

/-! ### A frame has left (R167, R168, R170) -/

section
variable {s : State}

/-- The counters after a frame has left port B: an MRSP counts, the part's own and a forwarded one (R170, log 13). -/
def countersSent (c : LinkCounters) (x : SentFrame) : LinkCounters :=
  if x.response = true ∨ frameKind x.frame = .mrsp then { c with responsesSent := satSucc c.responsesSent } else c

theorem isMrsp_iff (x : SentFrame) : x.isMrsp = true ↔ x.response = true ∨ frameKind x.frame = .mrsp := by
  simp [SentFrame.isMrsp]

/-- Port B when a frame has left it, before it chooses the next one. -/
def leftB (l : Link) (x : SentFrame) : Link := { l with sendingB := none, counters := countersSent l.counters x }

theorem exec_portBSendDone {x : SentFrame} (h : s.link.sendingB = some x) :
    exec .portBSendDone s = .next { s with link := (leftB s.link x).chooseB } := by
  show execPortBSendDone s = _
  simp only [execPortBSendDone, h, State.modifyLink, Link.sentB, leftB, countersSent, isMrsp_iff]

theorem exec_portASendDone {x : Frame} (h : s.link.sendingA = some x) :
    exec .portASendDone s = .next { s with link := { s.link with sendingA := none }.chooseA } := by
  show execPortASendDone s = _
  simp only [execPortASendDone, h, State.modifyLink]

end

/-! ### Frames that the part only forwards (R160 to R163) -/

section
variable {s : State} {f : Frame}

/-- The counters after a frame that port A takes, and after one that port B takes (R170). -/
def countersOnA (c : LinkCounters) (k : FrameKind) : LinkCounters :=
  if k = .badCheck then { c with portABad := satSucc c.portABad } else { c with portAFrames := satSucc c.portAFrames }

def countersOnB (c : LinkCounters) (k : FrameKind) : LinkCounters :=
  if k = .badCheck then { c with portBBad := satSucc c.portBBad } else { c with portBFrames := satSucc c.portBFrames }

theorem takeOnA_of_not_data (h : frameKind f ≠ .data) : s.takeOnA f =
    { s with link := { s.link with counters := countersOnA s.link.counters (frameKind f) }.placeB f } := by
  unfold State.takeOnA
  split
  next hk => rw [hk]; rfl
  next hk => exact absurd hk h
  next hbad _ => rw [countersOnA, if_neg hbad]; rfl

theorem takeOnA_of_data (h : frameKind f = .data) : s.takeOnA f =
    (s.countLink fun c => { c with portAFrames := satSucc c.portAFrames }).takeData f := by
  simp only [State.takeOnA, h]

theorem takeOnB_of_forwarded (hcycle : frameKind f ≠ .cycle) (hown : ¬(frameKind f = .mreq ∧ s.link.isOwn f = true)) :
    s.takeOnB f = { s with link := { s.link with counters := countersOnB s.link.counters (frameKind f) }.placeA f } := by
  unfold State.takeOnB
  split
  next hk => rw [hk]; rfl
  next hk => exact absurd hk hcycle
  next hk => rw [if_neg fun h => hown ⟨hk, h⟩, hk]; rfl
  next hbad _ _ => rw [countersOnB, if_neg hbad]; rfl

theorem takeOnB_of_own (hk : frameKind f = .mreq) (hown : s.link.isOwn f = true) : s.takeOnB f =
    (s.countLink fun c => { c with portBFrames := satSucc c.portBFrames, mreqsTaken := satSucc c.mreqsTaken }).handOver f := by
  simp only [State.takeOnB, hk, if_pos hown]

theorem isOwn_iff (l : Link) (f : Frame) :
    l.isOwn f = true ↔ 1 ≤ l.node.toNat ∧ l.node.toNat ≤ 62 ∧ (byteAt f 1).toNat = l.node.toNat := by
  have hnode : (l.node.setWidth 8).toNat = l.node.toNat := by
    rw [BitVec.toNat_setWidth, Nat.mod_eq_of_lt (by omega)]
  rw [Link.isOwn, Link.addressed, Bool.and_eq_true, Bool.and_eq_true, decide_eq_true_eq, decide_eq_true_eq, beq_iff_eq,
    ← BitVec.toNat_inj, hnode, and_assoc]

theorem dataWellFormed_iff (f : Frame) : dataWellFormed f = true ↔
    1 ≤ (byteAt f 1).toNat ∧ (byteAt f 1).toNat ≤ 62 ∧ 1 ≤ (byteAt f 5).toNat ∧ (byteAt f 5).toNat ≤ 32 ∧
      f.length = 8 + 2 * (byteAt f 5).toNat := by
  rw [dataWellFormed, Bool.and_eq_true, Bool.and_eq_true, Bool.and_eq_true, Bool.and_eq_true, decide_eq_true_eq,
    decide_eq_true_eq, decide_eq_true_eq, decide_eq_true_eq, beq_iff_eq, and_assoc, and_assoc, and_assoc]
  rfl

/-- A frame that comes on a direction that the part takes, and one that it does not. -/
theorem arrival_on_a_through (hpower : s.powered = true) (h : s.link.aToB = .through) :
    s.arrival .a f = .next (s.takeOnA f) := by
  rw [arrival_on_a hpower, if_pos h]

theorem arrival_on_b_through (hpower : s.powered = true) (h : s.link.bToA = .through) :
    s.arrival .b f = .next (s.takeOnB f) := by
  rw [arrival_on_b hpower, if_pos h]

theorem arrival_on_a_bypassed (hpower : s.powered = true) (h : s.link.aToB ≠ .through) : s.arrival .a f = .next s := by
  rw [arrival_on_a hpower, if_neg h]

theorem arrival_on_b_bypassed (hpower : s.powered = true) (h : s.link.bToA ≠ .through) : s.arrival .b f = .next s := by
  rw [arrival_on_b hpower, if_neg h]

theorem takeData_of_malformed (h : dataWellFormed f ≠ true) : s.takeData f =
    (s.countLink fun c => { c with malformed := satSucc c.malformed }).modifyLink (·.placeB f) := if_neg h

/-- A well-formed DATA frame that asks for no mark is forwarded as received. -/
theorem takeData_of_unmarked {t : State} (h : dataWellFormed f = true) (hoffer : s.offerFrame f = (t, false)) :
    s.takeData f = t.modifyLink (·.placeB f) := by
  rw [State.takeData, if_pos h, hoffer]
  rfl

/-- The look-up of a key that no loaded entry has (R1, R11). -/
theorem streamWithKey_of_unknown {node stream : Byte}
    (h : ∀ i e, s.stream i = some e → ¬(e.node = node ∧ e.stream = stream)) : s.streamWithKey node stream = none := by
  refine List.find?_eq_none.2 fun i _ => ?_
  split
  next e he => simpa using h i e he
  next => exact Bool.false_ne_true

theorem offerFrame_of_unknown (h : s.streamWithKey (dataNode f) (dataStream f) = none) : s.offerFrame f = (s, false) := by
  simp only [State.offerFrame, h]

end

/-! ### The obligations -/

/-- Settles O14: placing, choosing and sending, by what waits. -/
theorem egressPlacingAndSendDone : Obligations.EgressPlacingAndSendDone := by
  refine ⟨fun l f => ⟨placeB_of_full, placeA_of_full, placeB_of_empty, placeA_of_empty, fun hroom hsending => ?waitsB,
    fun hroom hsending => ?waitsA⟩, fun l => ⟨fun hpath hidle => ⟨fun f fs => chooseB_of_forwarded hpath hidle,
      fun f => chooseB_of_response hpath hidle, chooseB_of_nothing⟩, fun hpath hidle =>
        ⟨fun f fs => chooseA_of_forwarded hpath hidle, chooseA_of_nothing⟩, chooseB_of_sending, chooseA_of_sending⟩,
    fun s => ⟨fun x hx hpath => ?leftB, fun x hx hpath => ?leftA⟩⟩
  case waitsB => rw [placeB_of_room hroom]; exact chooseB_of_sending hsending
  case waitsA => rw [placeA_of_room hroom]; exact chooseA_of_sending hsending
  case leftB =>
    rw [exec_portBSendDone hx]
    refine ⟨fun f fs h => ?_, fun f h hresponse => ?_, fun h hresponse => ?_⟩
    · rw [chooseB_of_forwarded (l := leftB s.link x) hpath rfl h]; rfl
    · rw [chooseB_of_response (l := leftB s.link x) hpath rfl h hresponse]; rfl
    · rw [chooseB_of_nothing (l := leftB s.link x) h hresponse]; rfl
  case leftA =>
    rw [exec_portASendDone hx]
    refine ⟨fun f fs h => ?_, fun h => ?_⟩
    · rw [chooseA_of_forwarded (l := { s.link with sendingA := none }) hpath rfl h]
    · rw [chooseA_of_nothing (l := { s.link with sendingA := none }) h]

/-- Settles O15: the check and the kinds, and each frame that the part does not act on by the port that it comes on. -/
theorem framesNotActedOnAreForwarded : Obligations.FramesNotActedOnAreForwarded := by
  refine ⟨⟨fun bs => ?check, fun f => ?kinds⟩, isOwn_iff, fun s f hpower => ⟨fun hpath hk => ?onA, fun hpath hcycle hown => ?onB⟩,
    fun s f hpower hpath hk hform => ?malformed, fun s f hpower hpath hk hform hkey => ?unknown,
    fun s f hpower => ⟨fun h => ?bypassA, fun h => ?bypassB⟩⟩
  case check =>
    rw [withCheck, crc16_eq_bitwise]
    rfl
  case kinds =>
    have hgood (h : 3 ≤ f.length) := checkGood_iff h
    refine ⟨fun hbad => frameKind_of_bad fun ⟨hl, hg⟩ => hbad ⟨hl, (hgood hl).1 hg⟩, fun ⟨hl, hg⟩ => ?_⟩
    rw [frameKind_of_good hl ((hgood hl).2 hg)]
    refine ⟨fun h => ?_, fun h => ?_, fun h => ?_, fun h => ?_, fun h1 h2 h3 h4 => ?_⟩
    · rw [h]; rfl
    · rw [h]; rfl
    · rw [h]; rfl
    · rw [h]; rfl
    · rw [if_neg h1, if_neg h2, if_neg h3, if_neg h4]
  case onA =>
    rw [show exec (.frameForward .a f) s = s.arrival .a f from rfl, arrival_on_a_through hpower hpath, takeOnA_of_not_data hk]
    rfl
  case onB =>
    rw [show exec (.frameForward .b f) s = s.arrival .b f from rfl, arrival_on_b_through hpower hpath,
      takeOnB_of_forwarded hcycle hown]
    rfl
  case malformed =>
    rw [show exec (.dataFrameArrival f) s = s.arrival .a f from rfl, arrival_on_a_through hpower hpath, takeOnA_of_data hk,
      takeData_of_malformed fun h => hform ((dataWellFormed_iff f).1 h)]
    rfl
  case unknown =>
    have hcounted := takeData_of_unmarked (s := s.countLink fun c => { c with portAFrames := satSucc c.portAFrames }) hform
      (offerFrame_of_unknown (streamWithKey_of_unknown hkey))
    rw [show exec (.dataFrameArrival f) s = s.arrival .a f from rfl, arrival_on_a_through hpower hpath, takeOnA_of_data hk,
      hcounted]
    rfl
  case bypassA => exact ⟨arrival_on_a_bypassed hpower h, arrival_on_a_bypassed hpower h⟩
  case bypassB =>
    exact ⟨arrival_on_b_bypassed hpower h, arrival_on_b_bypassed hpower h, arrival_on_b_bypassed hpower h⟩

/-- Settles O60: each row by its own conditions. -/
theorem bypassAndProtectRows : Obligations.BypassAndProtectRows := by
  intro s
  refine ⟨fun hline hpath hidle => ?entryB, fun hline hpath hidle => ?entryA, fun hline d => ?released,
    fun hpower hline hpath => ?takeoverB, fun hpower hline hpath => ?takeoverA, rfl, rfl⟩
  case entryB => exact congrArg _ (if_pos ⟨hpath, hline, Option.isNone_iff_eq_none.2 hidle⟩)
  case entryA => exact congrArg _ (if_pos ⟨hpath, hline, Option.isNone_iff_eq_none.2 hidle⟩)
  case released => exact congrArg _ (if_neg fun ⟨_, h, _⟩ => Bool.false_ne_true (hline ▸ h))
  case takeoverB => exact congrArg _ (if_pos ⟨hpower, hline, hpath⟩)
  case takeoverA => exact congrArg _ (if_pos ⟨hpower, hline, hpath⟩)

end Sys2Proof.Laws
end

section
/-!
PROOF. The Management Unit's requests and answers (R177 to R181), RESTART (R186 to R188), power and the RESET line (R169).
-/

namespace Sys2Proof.Laws

open Machine

/-! ### Routing (R180) -/

/-- The command table of section 10.2: code, command, argument lengths. -/
def commandTable : List (Nat × Command × List Nat) :=
  [(10, .streamLoad, [4]), (11, .streamDrop, [1]), (12, .streamQuery, [1]), (20, .ruleLoad, [22]), (21, .ruleEnable, [1]),
    (22, .ruleDisable, [1]), (23, .ruleUnload, [1]), (24, .ruleQuery, [1]), (25, .fire, [1]), (26, .unfire, [1]),
    (30, .slotsQuery, [0, 1]), (31, .cut, [1]), (40, .controlSet, [3]), (41, .clearConditions, [1]),
    (42, .conditionsQuery, [0]), (50, .format, [17]), (51, .create, [17]), (52, .delete, [1]), (53, .erase, [9]),
    (54, .storeQuery, [0]), (55, .recordingQuery, [2]), (60, .status, [0]), (61, .identify, [0]), (62, .restart, [0]),
    (70, .portOpen, [5]), (71, .portPosition, [2]), (72, .portRead, [1]), (73, .portInfo, [0]), (74, .portClose, [0])]

theorem commandOf_ofNat_of_mem : ∀ x ∈ commandTable, commandOf (BitVec.ofNat 8 x.1) = some x.2.1 := by decide

theorem commandOf_of_mem {x : Nat × Command × List Nat} (hx : x ∈ commandTable) {code : Byte} (hcode : x.1 = code.toNat) :
    commandOf code = some x.2.1 := by
  rw [← commandOf_ofNat_of_mem x hx, hcode, BitVec.ofNat_toNat, BitVec.setWidth_eq]

/-- Every code that names a command stands in the table. -/
theorem exists_mem_of_commandOf {code : Byte} {c : Command} (h : commandOf code = some c) :
    ∃ x ∈ commandTable, x.1 = code.toNat := by
  by_contra hnone
  have hne (x : Nat × Command × List Nat) (hx : x ∈ commandTable) : code.toNat ≠ x.1 := fun heq => hnone ⟨x, hx, heq.symm⟩
  simp only [commandTable, List.forall_mem_cons] at hne
  simp [commandOf, hne] at h

theorem isReadout_of_mem : ∀ x ∈ commandTable, x.2.1.isReadout = decide (70 ≤ x.1) := by decide

theorem lengthGood_of_mem : ∀ x ∈ commandTable, ∀ n, x.2.1.lengthGood n = true ↔ n ∈ x.2.2 := by
  simp [commandTable, Command.lengthGood, Nat.le_one_iff_eq_zero_or_eq_one]

theorem portGood_of_mem {x : Nat × Command × List Nat} (hx : x ∈ commandTable) (port : Byte) :
    x.2.1.portGood port = true ↔ if 70 ≤ x.1 then 1 ≤ port.toNat ∧ port.toNat ≤ 6 else port = 0 := by
  rw [Command.portGood, isReadout_of_mem x hx]
  by_cases h : 70 ≤ x.1 <;> simp [h]

section
variable {code port : Byte} {args : List Byte} {c : Command}

theorem route_of_unknown (h : commandOf code = none) : Request.route code port args = .inl .unknownCommand := by
  simp only [Request.route, h]

theorem route_of_badPort (h : commandOf code = some c) (hport : c.portGood port ≠ true) :
    Request.route code port args = .inl .badPort := by
  simp only [Request.route, h, eq_false_of_ne_true hport, if_true]

theorem route_of_badLength (h : commandOf code = some c) (hport : c.portGood port = true)
    (hlength : c.lengthGood args.length ≠ true) : Request.route code port args = .inl .badArgument := by
  simp only [Request.route, h, hport, eq_false_of_ne_true hlength]
  rfl

theorem route_of_good (h : commandOf code = some c) (hport : c.portGood port = true)
    (hlength : c.lengthGood args.length = true) : Request.route code port args = .inr c := by
  simp only [Request.route, h, hport, hlength]
  rfl

end

/-! ### Taking a request (R177) -/

section
variable {s : State} {f : Frame}

theorem handOver_of_routed {c : Command} (hphase : s.mgmt.phase = .idle)
    (hroute : Request.route (byteAt f 5) (byteAt f 4) (mreqArgs f) = .inr c) : s.handOver f =
    { s with mgmt := { s.mgmt with phase := .processing, request := some (requestOf f (.owner c)) } } := by
  simp only [State.handOver, hphase, hroute]

theorem handOver_of_refused {st : Status} (hphase : s.mgmt.phase = .idle)
    (hroute : Request.route (byteAt f 5) (byteAt f 4) (mreqArgs f) = .inl st) : s.handOver f =
    ({ s with mgmt := { s.mgmt with phase := .processing, request := some (requestOf f (.answered false)) } } : State).refuse
      st := by
  simp only [State.handOver, hphase, hroute]

theorem handOver_of_busy (hphase : s.mgmt.phase ≠ .idle) :
    s.handOver f = { s with mgmt := { s.mgmt with discarded := satSucc s.mgmt.discarded } } := by
  unfold State.handOver
  split
  next h => exact absurd h hphase
  next => rfl

/-- The state when an MREQ for the part has been counted (R170). -/
def mreqCounted (s : State) : State :=
  s.countLink fun c => { c with portBFrames := satSucc c.portBFrames, mreqsTaken := satSucc c.mreqsTaken }

theorem exec_mreqArrival_of_own (hpower : s.powered = true) (hpath : s.link.bToA = .through) (hk : frameKind f = .mreq)
    (hown : s.link.isOwn f = true) : exec (.mreqArrival f) s = .next ((mreqCounted s).handOver f) := by
  rw [show exec (.mreqArrival f) s = s.arrival .b f from rfl, arrival_on_b_through hpower hpath, takeOnB_of_own hk hown]
  rfl

/-! ### Answers (R178, R179) -/

theorem wordBytes_two (x : BitVec 16) : wordBytes 2 x = [x.extractLsb' 8 8, x.extractLsb' 0 8] := by
  have hhigh : x.extractLsb' 8 8 = BitVec.ofNat 8 (x.toNat / 256 ^ 1) := by
    rw [BitVec.extractLsb', Nat.shiftRight_eq_div_pow]
    rfl
  have hlow : x.extractLsb' 0 8 = BitVec.ofNat 8 (x.toNat / 256 ^ 0) := by
    rw [BitVec.extractLsb', Nat.shiftRight_zero, pow_zero, Nat.div_one]
  rw [hhigh, hlow]
  rfl

variable {q : Request} {st : Status} {word : BitVec 16} {result : List Byte} {restart : Bool}

theorem respondWith_of_empty (h : s.mgmt.request = some q) (hplace : s.link.response = none) :
    s.respondWith st word result restart = s.placeResponse (responseFrame s.link.node q st word result) restart := by
  simp only [State.respondWith, h, hplace]

theorem respondWith_of_occupied (h : s.mgmt.request = some q) (hplace : s.link.response ≠ none) :
    s.respondWith st word result restart = { s with mgmt := { s.mgmt with
      held := some (responseFrame s.link.node q st word result)
      request := some { q with stage := .answered restart } } } := by
  obtain ⟨f, hplace⟩ := Option.ne_none_iff_exists'.1 hplace
  simp only [State.respondWith, h, hplace]

/-- The port word of a port that is not OPEN is 0 (R190). -/
theorem portAnswer_of_not_opened {p : PortIx} (h : ∀ r, s.readPort p ≠ .opened r) :
    s.portAnswer p st result = s.respondWith st 0 result false := by
  rw [State.portAnswer]
  cases hp : s.readPort p with
  | closed | opening => rfl
  | opened r => exact absurd hp (h r)

theorem exec_responseHeldPlaced (hheld : s.mgmt.held = some f) (hplace : s.link.response = none)
    (h : s.mgmt.request = some q) :
    exec .responseHeldPlaced s = .next (s.placeResponse f (q.stage == .answered true)) := by
  show execResponseHeldPlaced s = _
  simp only [execResponseHeldPlaced, hheld, hplace, h]

/-! ### IDENTIFY and RESTART (R185 to R188) -/

theorem exec_identify (h : Handed s .identify q) : exec .identify s = .next (s.respond .ok s.identifyResult) := by
  rw [show exec .identify s = execIdentify s from rfl, execIdentify, ownerStep_of_handed h]

theorem exec_restart (h : Handed s .restart q) : exec .restart s = .next (s.respondWith .accepted 0 [] true) := by
  rw [show exec .restart s = execRestart s from rfl, execRestart, ownerStep_of_handed h]

/-- The port with the mount scan's read of block 0 granted (R103). -/
def mountingPort : StorePort := { StorePort.start with busy := some ⟨.maintenance, .read 0⟩ }

/-- The mount scan of a start finds the Store Port idle and is granted its read at once. -/
theorem mountBegins_of_start (hport : s.port = .start) (hphase : s.mgmt.phase ≠ .restarting) :
    s.mountBegins = { s with maint := some (.mount .label), port := mountingPort } := by
  obtain ⟨⟩ := s
  subst hport
  exact if_neg hphase

theorem exec_restartPoint_of_due (hphase : s.mgmt.phase = .restarting) (hidle : s.port.busy = none) :
    exec .restartPoint s = .next s.restartPoint := congrArg _ (if_pos ⟨hphase, hidle⟩)

theorem exec_restartPoint_of_not_due (h : s.mgmt.phase ≠ .restarting ∨ s.port.busy ≠ none) :
    exec .restartPoint s = .next s :=
  congrArg _ (if_neg fun ⟨hphase, hidle⟩ => h.elim (absurd hphase) (absurd hidle))

end

/-! ### Power and the RESET line (R169) -/

section
variable {s : State}

theorem poweredOn_of_unpowered (straps : BitVec 6) (h : s.powered = false) :
    poweredOn straps s = ({ s.loseRam with powered := true } : State).initialise straps := by
  rw [poweredOn, h]
  rfl

theorem poweredOn_of_powered (straps : BitVec 6) (h : s.powered = true) :
    poweredOn straps s = ({ s.interruptPort.loseRam with powered := true } : State).initialise straps := by
  rw [poweredOn, h]
  rfl

theorem exec_powerOn (straps : BitVec 6) : exec (.powerOn straps) s =
    .next (if s.resetLine then poweredOn straps s else (poweredOn straps s).mountBegins) := by
  rw [← poweredOn_resetLine straps s]
  rfl

/-- The state that POWER_ON leaves before the mount scan begins, from an array and a counter of free values. -/
def freshlyPowered (s : State) (straps : BitVec 6) (array : List Host.Cell) (ix : Nat) : State :=
  { State.reset with
    pending := s.pending, resetLine := s.resetLine, protect := s.protect, array := array, freeIx := ix
    link := { State.reset.link with node := straps }, maint := some (.mount .held), port := .start }

theorem poweredOn_eq (straps : BitVec 6) (s : State) : ∃ array ix, ArrayByGrant s { s with array := array } ∧
    (s.powered = false → array = s.array ∧ ix = s.freeIx) ∧ poweredOn straps s = freshlyPowered s straps array ix := by
  cases hpower : s.powered with
  | false =>
    rw [poweredOn_of_unpowered straps hpower]
    exact ⟨s.array, s.freeIx, .inl rfl, fun _ => ⟨rfl, rfl⟩, rfl⟩
  | true =>
    rw [poweredOn_of_powered straps hpower, interruptPort_within]
    exact ⟨_, _, interruptPort_arrayByGrant s, fun h => absurd h Bool.noConfusion, rfl⟩

theorem exec_resetAssert_of_powered (hpower : s.powered = true) (hline : s.resetLine = false) : exec .resetAssert s =
    .next { s.interruptPort.startBlocks with
      resetLine := true, port := .start, link := s.link.onReset, mgmt := .start 2 } := by
  show execResetAssert s = _
  rw [execResetAssert, hline, hpower]
  rfl

theorem exec_resetRelease_of_powered (straps : BitVec 6) (hpower : s.powered = true) (hline : s.resetLine = true) :
    exec (.resetRelease straps) s =
      .next (({ s.startBlocks with resetLine := false, port := .start } : State).initialise straps).mountBegins := by
  show execResetRelease straps s = _
  rw [execResetRelease, hline, hpower]
  rfl

theorem exec_resetAssert_of_unpowered (hpower : s.powered = false) (hline : s.resetLine = false) :
    exec .resetAssert s = .next { s with resetLine := true } := by
  show execResetAssert s = _
  rw [execResetAssert, hline, hpower]
  rfl

theorem exec_resetRelease_of_unpowered (straps : BitVec 6) (hpower : s.powered = false) (hline : s.resetLine = true) :
    exec (.resetRelease straps) s = .next { s with resetLine := false } := by
  show execResetRelease straps s = _
  rw [execResetRelease, hline, hpower]
  rfl

end

/-! ### The obligations -/

/-- Settles O17: routing by the command table, and an MREQ by the phase that it finds. -/
theorem routingChecksInOrderAndMreqIsTakenOrDiscarded : Obligations.RoutingChecksInOrderAndMreqIsTakenOrDiscarded := by
  refine ⟨fun code port args => ⟨fun hnone => ?unknown, fun x hx hcode => ⟨fun hport => ?badPort, fun hport hlength => ?badLength,
    fun hport hlength => ?good⟩⟩, isOwn_iff, fun s f hpower hpath hk hown => ⟨fun hphase c hroute => ?taken,
      fun hphase st hroute => ?refused, fun hphase => ?discarded⟩⟩
  case unknown =>
    refine route_of_unknown (Option.eq_none_iff_forall_ne_some.2 fun c hc => ?_)
    obtain ⟨x, hx, hcode⟩ := exists_mem_of_commandOf hc
    exact hnone x hx hcode
  case badPort => exact route_of_badPort (commandOf_of_mem hx hcode) fun h => hport ((portGood_of_mem hx port).1 h)
  case badLength =>
    exact route_of_badLength (commandOf_of_mem hx hcode) ((portGood_of_mem hx port).2 hport)
      fun h => hlength ((lengthGood_of_mem x hx _).1 h)
  case good =>
    exact route_of_good (commandOf_of_mem hx hcode) ((portGood_of_mem hx port).2 hport) ((lengthGood_of_mem x hx _).2 hlength)
  case taken =>
    rw [exec_mreqArrival_of_own hpower hpath hk hown, handOver_of_routed (s := mreqCounted s) hphase hroute]
    rfl
  case refused =>
    rw [exec_mreqArrival_of_own hpower hpath hk hown, handOver_of_refused (s := mreqCounted s) hphase hroute]
    rfl
  case discarded =>
    rw [exec_mreqArrival_of_own hpower hpath hk hown, handOver_of_busy (s := mreqCounted s) hphase]
    rfl

/-- Settles O18: an answer by whether the response place is empty, its port word by the port, and the held answer. -/
theorem answersArePlacedOrHeldAndThenPlaced : Obligations.AnswersArePlacedOrHeldAndThenPlaced := by
  refine ⟨fun s q st word result restart h => ⟨fun hplace => ?placed, fun hplace => ?held⟩,
    fun s st result p => ⟨rfl, rfl, portAnswer_of_not_opened, fun r hp => portAnswer_of_opened hp st result⟩,
    fun s f q hheld hplace h => ?later⟩
  case placed =>
    rw [respondWith_of_empty h hplace, responseFrame, wordBytes_two]
    rfl
  case held =>
    rw [respondWith_of_occupied h hplace, responseFrame, wordBytes_two]
  case later =>
    rw [exec_responseHeldPlaced hheld hplace h]
    by_cases hstage : q.stage = .answered true
    · rw [hstage]; rfl
    · rw [beq_eq_false_iff_ne.2 hstage, State.placeResponse, if_neg hstage, if_neg Bool.false_ne_true]

/-- Settles O58: IDENTIFY's answer, the acceptance of RESTART, and the restart point when it is due and when it is not. -/
theorem restartReturnsToStart : Obligations.RestartReturnsToStart := by
  refine fun s q => ⟨exec_identify, exec_restart, fun hphase hidle => ?due, exec_restartPoint_of_not_due⟩
  case due =>
    rw [exec_restartPoint_of_due hphase hidle, State.restartPoint, mountBegins_of_start rfl Phase.noConfusion]
    rfl

/-- Settles O59: power by what a cut store operation left, the RESET line by the supply. -/
theorem powerAndResetRows : Obligations.PowerAndResetRows := by
  refine ⟨fun s => ⟨?loss, fun n => ?on⟩, fun s => ⟨fun hpower hline => ?assert, fun n hpower hline => ?release,
    fun hpower => ⟨exec_resetAssert_of_unpowered hpower, fun n => exec_resetRelease_of_unpowered n hpower⟩⟩⟩
  case loss =>
    refine ⟨s.interruptPort.array, s.interruptPort.freeIx, interruptPort_arrayByGrant s, ?_⟩
    show Host.Outcome.next ({ s.interruptPort.loseRam with powered := false } : State) = _
    rw [interruptPort_within]
    rfl
  case on =>
    obtain ⟨array, ix, hleft, hkept, hpowered⟩ := poweredOn_eq n s
    refine ⟨array, ix, hleft, hkept, ?_⟩
    rw [exec_powerOn, hpowered]
    cases hline : s.resetLine with
    | true => simp [freshlyPowered, hline]
    | false =>
      rw [if_neg Bool.false_ne_true, mountBegins_of_start rfl Phase.noConfusion]
      simp [freshlyPowered, hline, mountingPort, State.reset]
  case assert =>
    refine ⟨s.interruptPort.array, s.interruptPort.freeIx, interruptPort_arrayByGrant s, ?_⟩
    rw [exec_resetAssert_of_powered hpower hline, interruptPort_within, ← hpower]
    have hpath (x : LinkPath) : x.onReset = if x = .bypass then .bypass else .entering := by cases x <;> rfl
    simp [Link.onReset, hpath, State.startBlocks, State.reset, ManagementUnit.start, hpower, StatusRecord.start]
  case release =>
    rw [exec_resetRelease_of_powered n hpower hline]
    have hstart : ({ s.startBlocks with resetLine := false, port := .start } : State) =
      { s.startBlocks with resetLine := false, port := .start, powered := true } := by rw [← hpower]; rfl
    rw [hstart]
    rfl

end Sys2Proof.Laws
end

section
/-!
PROOF. What the Capture Engine changes (chapter 3): every effect of the capture path stays within it, and of a rule it
changes the cut count only (R46).
-/

namespace Sys2Proof.Laws

open Machine

/-! ### The capture path -/

theorem withinCapture_refl (s : State) : WithinCapture s s := rfl

theorem withinCapture_trans {s t u : State} (h : WithinCapture s t) (k : WithinCapture t u) : WithinCapture s u := by
  have hstep := k
  rw [WithinCapture] at hstep ⊢
  rw [h] at hstep
  exact hstep

/-- Each rule of `t` is that of `s`, up to its cut count (R46). -/
def CutsOnly (s t : State) : Prop := ∀ i, ∃ cut : BitVec 16 → BitVec 16, t.rule i = (s.rule i).map fun r => { r with cut := cut r.cut }

/-- An effect of the Capture Engine: within the capture path, and the rules up to their cut counts. -/
structure ByCapture (s t : State) : Prop where
  within : WithinCapture s t
  cuts : CutsOnly s t

theorem cutsOnly_of_rules {s t : State} (h : t.rules = s.rules) : CutsOnly s t := fun i =>
  ⟨id, by rw [State.rule, h]; exact (congrFun Option.map_id _).symm⟩

theorem ByCapture.of_rules {s t : State} (h : WithinCapture s t) (hrules : t.rules = s.rules) : ByCapture s t :=
  ⟨h, cutsOnly_of_rules hrules⟩

theorem ByCapture.refl (s : State) : ByCapture s s := .of_rules rfl rfl

theorem ByCapture.trans {s t u : State} (h : ByCapture s t) (k : ByCapture t u) : ByCapture s u where
  within := withinCapture_trans h.within k.within
  cuts i := by
    obtain ⟨f, hf⟩ := h.cuts i
    obtain ⟨g, hg⟩ := k.cuts i
    exact ⟨g ∘ f, by rw [hg, hf, Option.map_map]; rfl⟩

theorem foldl_byCapture {α : Type} {f : State → α → State} (h : ∀ s a, ByCapture s (f s a)) (l : List α) (s : State) :
    ByCapture s (l.foldl f s) :=
  List.foldlRecOn l f (.refl s) fun t ht a _ => ht.trans (h t a)

theorem forSlotsOf_byCapture (i : StreamIx) {f : SlotIx → State → State} (h : ∀ k s, ByCapture s (f k s)) (s : State) :
    ByCapture s (s.forSlotsOf i f) :=
  foldl_byCapture (fun s k => by
    split
    · exact h k s
    · exact .refl s) _ s

/-! ### Checks and endings of a slot -/

theorem setSlot_byCapture (k : SlotIx) (x : Slot) (s : State) : ByCapture s (s.setSlot k x) := .of_rules rfl rfl

theorem setCapture_byCapture (k : SlotIx) (c : Option Capture) (s : State) : ByCapture s (s.setCapture k c) :=
  .of_rules rfl rfl

theorem report_byCapture (r : ConditionReport) (s : State) : ByCapture s (s.report r) := by
  obtain ⟨heq, -⟩ | ⟨heq, -⟩ := report_spec s r
  · rw [heq]; exact .of_rules rfl rfl
  · rw [heq]; exact .of_rules rfl rfl

theorem arbitrate_byCapture (s : State) : ByCapture s s.arbitrate := by
  rw [arbitrate_within]
  exact .of_rules rfl rfl

theorem arbitrateForCommit_byCapture (s : State) : ByCapture s s.arbitrateForCommit := by
  obtain h | h := arbitrateForCommit_cases s
  · rw [h]; exact .refl s
  · rw [h]; exact arbitrate_byCapture s

theorem ask_byCapture (w : Requester) (op : StoreOp) (s : State) : ByCapture s (s.ask w op) := .of_rules rfl rfl

theorem askOwnWrite_byCapture (k : SlotIx) (s : State) : ByCapture s (s.askOwnWrite k) := by
  unfold State.askOwnWrite
  split
  next => exact .refl s
  next op _ => exact ask_byCapture _ op s

theorem presentSlot_byCapture (k : SlotIx) (s : State) : ByCapture s (s.presentSlot k) := by
  rw [presentSlot_eq]
  split
  next => exact .refl s
  next => exact (askOwnWrite_byCapture k s).trans (arbitrate_byCapture _)

theorem endCheck_byCapture (k : SlotIx) (s : State) : ByCapture s (s.endCheck k) := by
  unfold State.endCheck
  split
  next =>
    split
    next =>
      split
      next => exact setCapture_byCapture ..
      next => exact .refl s
    next => exact .refl s
  next => exact .refl s

/-- A take of a reserved block stays within the capture path (R98). -/
theorem takeReserved_byCapture {s : State} {b : Nat} {m : StoreManager} (h : s.store.takeReserved = some (b, m)) :
    ByCapture s { s with store := m } := by
  obtain ⟨-, rfl⟩ := takeReserved_all _ _ _ h
  exact .of_rules rfl rfl

theorem fillOnce_byCapture (k : SlotIx) (s : State) : ByCapture s (s.fillOnce k) := by
  unfold State.fillOnce
  split
  next => exact .refl s
  next =>
    dsimp only
    split
    next => exact .refl s
    next =>
      split
      next => exact .refl s
      next htake => exact (takeReserved_byCapture htake).trans (setSlot_byCapture ..)

theorem slotStages_byCapture (k : SlotIx) (s : State) : ByCapture s (s.slotStages k) :=
  (endCheck_byCapture k s).trans ((fillOnce_byCapture k _).trans (fillOnce_byCapture k _))

theorem slotChecks_byCapture (k : SlotIx) (s : State) : ByCapture s (s.slotChecks k) :=
  (slotStages_byCapture k s).trans (presentSlot_byCapture k _)

theorem endLag_byCapture (k : SlotIx) (s : State) : ByCapture s (s.endLag k) := by
  unfold State.endLag
  split
  next => exact .refl s
  next =>
    split
    next => exact .refl s
    next => exact (setCapture_byCapture ..).trans ((report_byCapture ..).trans (slotChecks_byCapture k _))

theorem exhaustionTest_byCapture (k : SlotIx) (s : State) : ByCapture s (s.exhaustionTest k) := by
  unfold State.exhaustionTest
  split
  next =>
    split
    next =>
      split
      next => exact endLag_byCapture k s
      next => exact .refl s
    next => exact .refl s
  next => exact .refl s

theorem advanceChecks_byCapture (k : SlotIx) (s : State) : ByCapture s (s.advanceChecks k) :=
  (slotChecks_byCapture k s).trans (exhaustionTest_byCapture k _)

theorem reloadTimer_byCapture (k : SlotIx) (s : State) : ByCapture s (s.reloadTimer k) := by
  unfold State.reloadTimer
  split
  next =>
    split
    next => exact setCapture_byCapture ..
    next => exact .refl s
  next => exact .refl s

theorem gapSignal_byCapture (d g : Nat) (k : SlotIx) (s : State) : ByCapture s (s.gapSignal d g k) := by
  unfold State.gapSignal
  split
  next =>
    split
    next => exact (setCapture_byCapture ..).trans (report_byCapture ..)
    next => exact .refl s
  next => exact .refl s

theorem overtake_byCapture (leaving : Nat) (k : SlotIx) (s : State) : ByCapture s (s.overtake leaving k) := by
  unfold State.overtake
  split
  next =>
    split
    next => exact endLag_byCapture k s
    next => exact .refl s
  next => exact .refl s

/-! ### A capture request -/

theorem countCut_byCapture (i : RuleIx) (s : State) : ByCapture s (s.countCut i) := by
  refine ⟨rfl, fun j => ?_⟩
  rw [State.countCut, State.modifyRule, rule_setRule]
  split
  next h => exact ⟨satSucc, by rw [h]⟩
  next => exact ⟨id, (congrFun Option.map_id _).symm⟩

/-- The occupant of a slot abandoned, but for the cut of its rule (R57). -/
def uncountedAbandon (k : SlotIx) (c : Capture) (s : State) : State :=
  ((s.withdraw (.slot k)).setSlot k ⟨none, (s.slot k).buffer0.abandoned, (s.slot k).buffer1.abandoned⟩).modifyStore fun m =>
    (m.freeBlocks ((s.slot k).freedAtOnce c)).returnReserved c.remaining

section
variable {s : State} {k : SlotIx} {c : Capture} {q : CaptureRequest} {b : Nat} {m : StoreManager}

theorem abandon_of_empty (h : (s.slot k).capture = none) : s.abandon k = s := by
  simp only [State.abandon, h]

theorem abandon_of_occupied (h : (s.slot k).capture = some c) :
    s.abandon k = (uncountedAbandon k c s).countCut c.request.rule := by
  simp only [State.abandon, h]
  rfl

theorem uncountedAbandon_byCapture : ByCapture s (uncountedAbandon k c s) := by
  refine .of_rules ?_ rfl
  rw [WithinCapture, uncountedAbandon, State.modifyStore, freeBlocks_spec]
  rfl

theorem abandon_byCapture (k : SlotIx) (s : State) : ByCapture s (s.abandon k) := by
  cases h : (s.slot k).capture with
  | none => rw [abandon_of_empty h]; exact .refl s
  | some c =>
    rw [abandon_of_occupied h]
    exact uncountedAbandon_byCapture.trans (countCut_byCapture ..)

/-- A new capture put in the slot at the pointer, which moves on (R54). -/
def placedCapture (q : CaptureRequest) (b : Nat) (m : StoreManager) (s : State) : State :=
  ({ s with store := m, pointer := Fin.ofNat 8 (s.pointer.val + 1) } : State).setCapture s.pointer
    (some (newCapture q (s.ringLength q.stream) b))

/-- The new capture with its SHORT report, if its pre window is short (R55). -/
def toldCapture (q : CaptureRequest) (b : Nat) (m : StoreManager) (s : State) : State :=
  if (newCapture q (s.ringLength q.stream) b).short then (placedCapture q b m s).report (reportOf .short s.pointer q)
  else placedCapture q b m s

theorem allocate_of_none (h : (s.store.reserve q.blocks).takeReserved = none) : s.allocate q = s := by
  simp only [State.allocate, h]

theorem allocate_of_taken (h : (s.store.reserve q.blocks).takeReserved = some (b, m)) :
    s.allocate q = (toldCapture q b m s).advanceChecks s.pointer := by
  simp only [State.allocate, h]
  rfl

theorem placedCapture_byCapture (h : (s.store.reserve q.blocks).takeReserved = some (b, m)) :
    ByCapture s (placedCapture q b m s) := by
  obtain ⟨-, rfl⟩ := takeReserved_all _ _ _ h
  exact .of_rules rfl rfl

theorem toldCapture_byCapture (h : (s.store.reserve q.blocks).takeReserved = some (b, m)) :
    ByCapture s (toldCapture q b m s) := by
  unfold toldCapture
  split
  next => exact (placedCapture_byCapture h).trans (report_byCapture ..)
  next => exact placedCapture_byCapture h

theorem allocate_byCapture (q : CaptureRequest) (s : State) : ByCapture s (s.allocate q) := by
  cases h : (s.store.reserve q.blocks).takeReserved with
  | none => rw [allocate_of_none h]; exact .refl s
  | some taken =>
    obtain ⟨b, m⟩ := taken
    rw [allocate_of_taken h]
    exact (toldCapture_byCapture h).trans (advanceChecks_byCapture ..)

end

theorem captureRequest_byCapture (q : CaptureRequest) (s : State) : ByCapture s (s.captureRequest q).1 := by
  unfold State.captureRequest
  split
  next => exact .refl s
  next => exact report_byCapture ..
  next => exact (abandon_byCapture ..).trans (allocate_byCapture ..)

end Sys2Proof.Laws
end

section
/-!
PROOF. Trigger rules (chapter 2): the tests and the states that samples give (R31 to R36), firing (R38), ticks and gaps
(R37, R39), and the rule commands (R24 to R29, R41).
-/

namespace Sys2Proof.Laws

open Machine

/-! ### Tests and states (R31 to R36) -/

/-- What consecutive samples make of the state of a rule, `none` when it fires. -/
def follow (r : Rule) (vs : List (Sample × Option Sample)) (st : Option RuleState) : Option RuleState :=
  vs.foldl (fun st x => st.bind fun st => ({ r with state := st } : Rule).next x.1 x.2) st

section
variable {r : Rule} {v : Sample} {p : Option Sample} {n : Nat}

theorem next_of_priming_succ (h : r.state = .priming (n + 1)) : r.next v p = some (.priming n) := by
  simp only [Rule.next, h]

theorem next_of_priming_zero (h : r.state = .priming 0) :
    r.next v p = some (if r.kind.rearms v p then .armed else .tripped) := by
  simp only [Rule.next, h]

theorem next_of_due (h : r.state = .due) : r.next v p = none := by
  simp only [Rule.next, h]

theorem next_of_armed_quiet (h : r.state = .armed) (hquiet : r.kind.fires v p = false) : r.next v p = some .armed := by
  simp only [Rule.next, h, hquiet]
  rfl

theorem next_of_pending_quiet (h : r.state = .pending n) (hquiet : r.kind.fires v p = false) :
    r.next v p = some .armed := by
  simp only [Rule.next, h, hquiet]
  rfl

theorem next_of_pending_firing (h : r.state = .pending n) (hfires : r.kind.fires v p = true) :
    r.next v p = if r.kind.persistence ≤ n + 1 then none else some (.pending (n + 1)) := by
  simp only [Rule.next, h, if_pos hfires]

end

section
variable {r : Rule} {vs : List (Sample × Option Sample)}

/-- An ARMED rule takes its first sample like one with none pending. -/
theorem follow_armed (hne : vs ≠ []) : follow r vs (some .armed) = follow r vs (some (.pending 0)) := by
  cases vs with
  | nil => exact absurd rfl hne
  | cons x vs => rfl

theorem follow_pending_cons (x : Sample × Option Sample) (n : Nat) (hfires : r.kind.fires x.1 x.2 = true) :
    follow r (x :: vs) (some (.pending n)) =
      follow r vs (if r.kind.persistence ≤ n + 1 then none else some (.pending (n + 1))) := by
  rw [← next_of_pending_firing (r := { r with state := .pending n }) rfl hfires]
  rfl

/-- Short of its persistence a rule counts the samples that meet its fire condition (R34, R35). -/
theorem follow_pending_of_short (hfires : ∀ x ∈ vs, r.kind.fires x.1 x.2 = true) (n : Nat)
    (hshort : n + vs.length < r.kind.persistence) : follow r vs (some (.pending n)) = some (.pending (n + vs.length)) := by
  induction vs generalizing n with
  | nil => rfl
  | cons x vs ih =>
    obtain ⟨hx, hvs⟩ := List.forall_mem_cons.1 hfires
    rw [List.length_cons] at hshort ⊢
    rw [follow_pending_cons x n hx, if_neg (by omega), ih hvs (n + 1) (by omega), Nat.add_right_comm, Nat.add_assoc]

/-- On the sample that completes its persistence a rule fires (R34, R35). -/
theorem follow_pending_of_complete (hfires : ∀ x ∈ vs, r.kind.fires x.1 x.2 = true) (n : Nat) (hne : vs ≠ [])
    (hlast : r.kind.persistence ≤ n + vs.length) (hbefore : vs.length = 1 ∨ n + vs.length = r.kind.persistence) :
    follow r vs (some (.pending n)) = none := by
  induction vs generalizing n with
  | nil => exact absurd rfl hne
  | cons x vs ih =>
    obtain ⟨hx, hvs⟩ := List.forall_mem_cons.1 hfires
    rw [List.length_cons] at hlast hbefore
    rw [follow_pending_cons x n hx]
    by_cases hnil : vs = []
    · subst hnil
      exact congrArg _ (if_pos hlast)
    · have := List.length_pos_of_ne_nil hnil
      rw [if_neg (by omega)]
      exact ih hvs (n + 1) hnil (by omega) (.inr (by omega))

end

/-! ### Firing (R38) -/

theorem tableSet_tableSet {α : Type} {n : Nat} (v : Vector α n) (i : Fin n) (x y : α) :
    tableSet (tableSet v i x) i y = tableSet v i y := by
  simp [tableSet]

theorem setRule_setRule (s : State) (i : RuleIx) (x y : Option Rule) : (s.setRule i x).setRule i y = s.setRule i y := by
  rw [State.setRule, State.setRule, tableSet_tableSet]
  rfl

section
variable {s : State} {i : RuleIx} {r : Rule}

theorem modifyRule_of_loaded (h : s.rule i = some r) (f : Rule → Rule) : s.modifyRule i f = s.setRule i (some (f r)) := by
  rw [State.modifyRule, h]
  rfl

theorem afterFiring_eq (r : Rule) : r.afterFiring = { r with
    state := if r.once then .disabled else if r.kind.scheduled then .armed else .tripped
    periodCounter := if r.once then none else r.periodCounter } := by
  rw [Rule.afterFiring, Rule.disabled]
  split
  next => rfl
  next => rfl

/-- A rule that fires takes its next state from its options and its kind, which its capture request leaves as they are. -/
theorem evalRule_of_fires (h : s.rule i = some r) {v : Sample} {p : Option Sample} (hn : r.next v p = none) (mark : Bool)
    (t : Nat) (stamp : Stamp) :
    evalRule r.stream t v p stamp (s, mark) i = (s.fireRule i r t stamp, mark || r.mark) := by
  simp only [evalRule, h, if_true, hn]

theorem requestFor_of_unrecorded (h : r.recording = none) (t : Nat) (stamp : Stamp) : s.requestFor i r t stamp = s := by
  simp only [State.requestFor, h]

theorem requestFor_of_recorded {target : RecIx} (h : r.recording = some target) (t : Nat) (stamp : Stamp) :
    s.requestFor i r t stamp = if (s.captureRequest (r.request i target t stamp)).2 then
        (s.captureRequest (r.request i target t stamp)).1
      else (s.captureRequest (r.request i target t stamp)).1.modifyRule i fun r => { r with missed := satSucc r.missed } := by
  simp only [State.requestFor, h]

end

/-! ### Ticks and gaps at every rule (R37, R39) -/

/-- A change of every rule in a list changes the rules only, and each of them once. -/
theorem foldl_modifyRule (f : Rule → Rule) (l : List RuleIx) (hl : l.Nodup) (s : State) :
    l.foldl (fun s k => s.modifyRule k f) s = { s with rules := (l.foldl (fun s k => s.modifyRule k f) s).rules } ∧
      ∀ i, (l.foldl (fun s k => s.modifyRule k f) s).rule i = if i ∈ l then (s.rule i).map f else s.rule i := by
  induction l generalizing s with
  | nil => exact ⟨rfl, fun _ => rfl⟩
  | cons k l ih =>
    obtain ⟨hk, hl⟩ := List.nodup_cons.1 hl
    obtain ⟨hrules, hrule⟩ := ih hl (s.modifyRule k f)
    refine ⟨hrules, fun i => ?_⟩
    rw [List.foldl_cons, hrule, State.modifyRule, rule_setRule]
    by_cases hi : i = k
    · subst hi
      rw [if_neg hk, if_pos rfl, if_pos List.mem_cons_self]
    · rw [if_neg hi]
      simp only [List.mem_cons, hi, false_or]

theorem foldl_modifyRule_all (f : Rule → Rule) (s : State) :
    (ascending 64).foldl (fun s k => s.modifyRule k f) s =
        { s with rules := ((ascending 64).foldl (fun s k => s.modifyRule k f) s).rules } ∧
      ∀ i, ((ascending 64).foldl (fun s k => s.modifyRule k f) s).rule i = (s.rule i).map f := by
  obtain ⟨hrules, hrule⟩ := foldl_modifyRule f (ascending 64) (List.nodup_finRange 64) s
  exact ⟨hrules, fun i => by rw [hrule]; exact if_pos (List.mem_finRange i)⟩

section
variable {r : Rule} {period n : Nat}

theorem tick_of_running (hk : r.kind = .periodic period) (hn : r.periodCounter = some n) (h : 1 < n) :
    r.tick = { r with periodCounter := some (n - 1) } := by
  simp only [Rule.tick, hk, hn, if_neg (Nat.not_le.2 h)]

theorem tick_of_last (hk : r.kind = .periodic period) (hn : r.periodCounter = some n) (h : n ≤ 1) :
    r.tick = r.expire period := by
  simp only [Rule.tick, hk, hn, if_pos h]

theorem expire_of_armed (h : r.state = .armed) : r.expire period = { r with state := .due, periodCounter := some period } := by
  simp only [Rule.expire, h]

theorem expire_of_due (h : r.state = .due) :
    r.expire period = { r with missed := satSucc r.missed, periodCounter := some period } := by
  simp only [Rule.expire, h]

theorem tick_of_not_periodic (h : ∀ period, r.kind ≠ .periodic period) : r.tick = r := by
  unfold Rule.tick
  split
  next hk _ => exact absurd hk (h _)
  next => rfl

end

/-! ### RULE LOAD (R22, R24, R25) -/

/-- The kind that RULE LOAD's arguments give, each field of the kind in its range (R22, R24). -/
def KindGiven (q : Request) (k : RuleKind) : Prop :=
  let code := (q.byte 1).toNat
  let high := q.word 3
  let low := q.word 5
  let delta := q.nat 7 2
  let h := q.nat 9 2
  let n := (q.byte 11).toNat
  let period := q.nat 12 2
  let threshold := h ≤ 32767 ∧ 1 ≤ n ∧ n ≤ 16
  (code = 1 ∧ threshold ∧ k = .above high h n) ∨ (code = 2 ∧ threshold ∧ k = .below low h n) ∨
    (code = 3 ∧ threshold ∧ low.toInt < high.toInt ∧ k = .outside high low h n) ∨
    (code = 4 ∧ threshold ∧ 1 ≤ delta ∧ k = .step delta h n) ∨ (code = 5 ∧ 1 ≤ period ∧ k = .periodic period) ∨
    (code = 6 ∧ k = .manual)

/-- The arguments that are judged whatever the kind is are in their ranges (R24). -/
def LoadRanges (q : Request) : Prop :=
  (byteAt q.args 2).toNat < 32 ∧ (byteAt q.args 14).toNat ≤ 3 ∧ fieldAt q.args 15 2 ≤ 4000 ∧ 1 ≤ fieldAt q.args 17 2 ∧
    fieldAt q.args 17 2 ≤ 12000 ∧ fieldAt q.args 15 2 + fieldAt q.args 17 2 ≤ 12000 ∧ (byteAt q.args 20).toNat ≤ 32 ∧
    (byteAt q.args 21).toNat < 8

/-- The rule that RULE LOAD's arguments give without ENABLE. -/
def plainRule (q : Request) (k : RuleKind) (stream : StreamIx) : Rule :=
  { kind := k, stream := stream, priority := (byteAt q.args 14).toNat, pre := fieldAt q.args 15 2, post := fieldAt q.args 17 2
    silence := (byteAt q.args 19).toNat, recording := recordingOf (byteAt q.args 20).toNat
    mark := (byteAt q.args 21).toNat.testBit 0, once := (byteAt q.args 21).toNat.testBit 1, state := .disabled
    periodCounter := none, fired := 0, missed := 0, cut := 0 }

theorem indexOf_of_lt {n k : Nat} (h : k < n) : indexOf n k = some ⟨k, h⟩ := dif_pos h

theorem indexOf_of_ge {n k : Nat} (h : n ≤ k) : indexOf n k = none := dif_neg (Nat.not_lt.2 h)

/-- The number of the recording that a number 0 to 32 names, 0 for none. -/
theorem recordingOf_elim {n : Nat} (h : n ≤ 32) : (recordingOf n).elim 0 (fun x => x.val + 1) = n := by
  unfold recordingOf
  split
  next hn => exact Nat.sub_add_cancel hn.1
  next hn => simp only [Option.elim_none]; omega

section
variable {q : Request} {k : RuleKind}

theorem ruleKind_eq_some_iff : q.ruleKind = some k ↔ KindGiven q k := by
  unfold Request.ruleKind KindGiven
  dsimp only
  split
  next hcode => simp [hcode, eq_comm (a := k)]
  next hcode => simp [hcode, eq_comm (a := k)]
  next hcode => simp [hcode, eq_comm (a := k), and_assoc]
  next hcode => simp [hcode, eq_comm (a := k), and_assoc]
  next hcode => simp [hcode, eq_comm (a := k)]
  next hcode => simp [hcode, eq_comm (a := k)]
  next h1 h2 h3 h4 h5 h6 =>
    refine ⟨fun h => (by cases h), fun h => ?_⟩
    obtain ⟨h, -⟩ | ⟨h, -⟩ | ⟨h, -⟩ | ⟨h, -⟩ | ⟨h, -⟩ | ⟨h, -⟩ := h
    exacts [absurd h h1, absurd h h2, absurd h h3, absurd h h4, absurd h h5, absurd h h6]

theorem loadedRule_of_no_kind (h : q.ruleKind = none) : q.loadedRule = none := by
  simp only [Request.loadedRule, h]
  rfl

theorem loadedRule_of_bad (h : ¬LoadRanges q) : q.loadedRule = none := by
  cases hk : q.ruleKind with
  | none => exact loadedRule_of_no_kind hk
  | some k =>
    by_cases hstream : (byteAt q.args 2).toNat < 32
    · have hrest : ¬_ := fun hrest => h ⟨hstream, hrest⟩
      simp only [Request.loadedRule, hk, Request.byte, Request.nat, indexOf_of_lt hstream]
      exact if_neg fun ⟨hp, hpre, h1, hpost, hsum, hn, ho⟩ => hrest ⟨hp, hpre, h1, hpost, hsum, hn, Nat.lt_succ_of_le ho⟩
    · simp only [Request.loadedRule, hk, Request.byte, indexOf_of_ge (Nat.not_lt.1 hstream)]
      rfl

theorem loadedRule_of_good (hk : q.ruleKind = some k) (h : LoadRanges q) : ∃ stream : StreamIx,
    stream.val = (byteAt q.args 2).toNat ∧ q.loadedRule = some (if (byteAt q.args 21).toNat.testBit 2 then
      (plainRule q k stream).enabled else plainRule q k stream) := by
  obtain ⟨hstream, hp, hpre, h1, hpost, hsum, hn, ho⟩ := h
  refine ⟨⟨_, hstream⟩, rfl, ?_⟩
  simp only [Request.loadedRule, hk, Request.byte, Request.nat, indexOf_of_lt hstream]
  exact if_pos ⟨hp, hpre, h1, hpost, hsum, hn, Nat.le_of_lt_succ ho⟩

end

section
variable {s : State} {q : Request} {i : RuleIx} {r : Rule}

theorem exec_ruleLoad_misargued (h : Handed s .ruleLoad q) (hbad : 64 ≤ (byteAt q.args 0).toNat ∨ q.loadedRule = none) :
    exec .ruleLoad s = .next (s.refuse .badArgument) := by
  rw [show exec .ruleLoad s = execRuleLoad s from rfl, execRuleLoad, ownerStep_of_handed h]
  obtain hbad | hbad := hbad
  · simp only [Request.ruleIx, Request.byte, indexOf_of_ge hbad]
  · simp only [hbad]
    cases q.ruleIx with
    | none => rfl
    | some i => rfl

theorem exec_ruleLoad_refused (h : Handed s .ruleLoad q) (hi : (byteAt q.args 0).toNat = i.val) (hr : q.loadedRule = some r)
    {st : Status} (hst : s.loadRefusal r = some st) : exec .ruleLoad s = .next (s.refuse st) := by
  rw [show exec .ruleLoad s = execRuleLoad s from rfl, execRuleLoad, ownerStep_of_handed h]
  simp only [ruleIx_of_byte hi, hr, hst]

theorem exec_ruleLoad_loaded (h : Handed s .ruleLoad q) (hi : (byteAt q.args 0).toNat = i.val) (hr : q.loadedRule = some r)
    (hst : s.loadRefusal r = none) : exec .ruleLoad s = .next ((s.setRule i (some r)).respond .ok []) := by
  rw [show exec .ruleLoad s = execRuleLoad s from rfl, execRuleLoad, ownerStep_of_handed h]
  simp only [ruleIx_of_byte hi, hr, hst]

theorem loadRefusal_of_no_stream (h : s.stream r.stream = none) : s.loadRefusal r = some .noSuchStream := by
  simp only [State.loadRefusal, h]

variable {e : StreamEntry} {target : RecIx}

theorem loadRefusal_of_short (h : s.stream r.stream = some e) (hshort : e.length < r.pre + 32) :
    s.loadRefusal r = some .ringTooShort := by
  simp only [State.loadRefusal, h, if_pos hshort]

theorem loadRefusal_of_unrecorded (h : s.stream r.stream = some e) (hlong : r.pre + 32 ≤ e.length)
    (hr : r.recording = none) : s.loadRefusal r = none := by
  simp only [State.loadRefusal, h, if_neg (Nat.not_lt.2 hlong), hr]

theorem loadRefusal_of_recorded (h : s.stream r.stream = some e) (hlong : r.pre + 32 ≤ e.length)
    (hr : r.recording = some target) : s.loadRefusal r =
      if s.store.state = .mounting ∨ s.store.state = .formatting then some .notReady
      else if (s.store.entry target).isNone then some .noSuchRecording else none := by
  simp only [State.loadRefusal, h, if_neg (Nat.not_lt.2 hlong), hr]

/-! ### The commands that name a rule (R27 to R29, R41) -/

theorem exec_of_misnumbered {c : Command} {a : Instr} {f : State → RuleIx → Rule → State}
    (hexec : exec a s = .next (s.ownerStep c fun q s => s.onRule q (f s)))
    (h : Handed s c q) (hi : 64 ≤ (byteAt q.args 0).toNat) : exec a s = .next (s.refuse .badArgument) := by
  simp only [hexec, ownerStep_of_handed h, State.onRule, Request.ruleIx, Request.byte, indexOf_of_ge hi]

/-- The two refusals of a rule command (section 2.2). -/
theorem exec_rule_refusals {c : Command} {a : Instr} {f : State → RuleIx → Rule → State}
    (hexec : exec a s = .next (s.ownerStep c fun q s => s.onRule q (f s))) (h : Handed s c q) :
    (64 ≤ (byteAt q.args 0).toNat → exec a s = .next (s.refuse .badArgument)) ∧
      ∀ i : RuleIx, (byteAt q.args 0).toNat = i.val → s.rule i = none → exec a s = .next (s.refuse .noSuchRule) :=
  ⟨exec_of_misnumbered hexec h, fun _ hi hr => exec_of_unloaded hexec h hi hr⟩

theorem exec_ruleQuery (h : Handed s .ruleQuery q) (hi : (byteAt q.args 0).toNat = i.val) (hr : s.rule i = some r) :
    exec .ruleQuery s = .next (s.respond .ok (ruleResult i r)) := by
  rw [exec_of_loaded (a := .ruleQuery) rfl h hi hr]

theorem exec_fire_armed (h : Handed s .fire q) (hi : (byteAt q.args 0).toNat = i.val) (hr : s.rule i = some r)
    (hk : r.kind = .manual) (hs : r.state = .armed) :
    exec .fire s = .next ((s.setRule i (some { r with state := .due })).respond .ok []) := by
  rw [exec_of_loaded (a := .fire) rfl h hi hr]
  simp only [hk, hs]

theorem exec_fire_due (h : Handed s .fire q) (hi : (byteAt q.args 0).toNat = i.val) (hr : s.rule i = some r)
    (hk : r.kind = .manual) (hs : r.state = .due) : exec .fire s = .next (s.respond .ok []) := by
  rw [exec_of_loaded (a := .fire) rfl h hi hr]
  simp only [hk, hs]

theorem exec_fire_refused (h : Handed s .fire q) (hi : (byteAt q.args 0).toNat = i.val) (hr : s.rule i = some r)
    (hn : r.kind = .manual → r.state ≠ .due ∧ r.state ≠ .armed) : exec .fire s = .next (s.refuse .badState) := by
  rw [exec_of_loaded (a := .fire) rfl h hi hr]
  split
  next hk hs => exact absurd hs (hn hk).2
  next hk hs => exact absurd hs (hn hk).1
  next => rfl

end

theorem length_toBytes (k n : Nat) : (toBytes k n).length = k := by
  induction k with
  | zero => rfl
  | succ k ih => rw [toBytes, List.length_cons, ih]

theorem length_wordBytes {w : Nat} (k : Nat) (x : BitVec w) : (wordBytes k x).length = k := length_toBytes k _

theorem toBytes_one (n : Nat) : toBytes 1 n = [BitVec.ofNat 8 n] := by
  rw [toBytes, pow_zero, Nat.div_one, toBytes]

theorem flagBits_pair (a b : Bool) : flagBits [a, b] = (if a then 1 else 0) + (if b then 2 else 0) := by
  cases a <;> cases b <;> rfl

/-! ### The result of RULE QUERY (R29, section 10.2) -/

/-- The code, the priming count and the pending count of a state, and their presence bits (R190). -/
def runningFields : RuleState → Nat × Nat × Nat × Nat
  | .disabled => (1, 0, 0, 0)
  | .priming n => (2, n, 0, 64)
  | .armed => (3, 0, 0, 0)
  | .pending n => (4, 0, n, 128)
  | .tripped => (5, 0, 0, 0)
  | .due => (6, 0, 0, 0)

/-- The fields of a kind in the result, those that it does not use written 0. -/
def kindFields (k : RuleKind) : List Byte :=
  wordBytes 2 (k.high?.getD 0) ++ wordBytes 2 (k.low?.getD 0) ++ toBytes 2 (optNat k.delta?)
    ++ toBytes 2 (optNat k.hysteresis?) ++ toBytes 1 (optNat k.persistence?) ++ toBytes 2 (optNat k.period?)

/-- The presence bits of the fields of a kind. -/
def kindPresence (k : RuleKind) : Nat :=
  flagBits [k.high?.isSome, k.low?.isSome, k.delta?.isSome, k.hysteresis?.isSome, k.persistence?.isSome, k.period?.isSome]

/-- The result of RULE QUERY from the code, the fields and the presence bits of the rule's kind. -/
def queryResult (i : RuleIx) (r : Rule) (code : Byte) (fields : List Byte) (present : Nat) : List Byte :=
  [BitVec.ofNat 8 i.val] ++ [code] ++ [BitVec.ofNat 8 r.stream.val] ++ fields ++ [BitVec.ofNat 8 r.priority]
    ++ toBytes 2 r.pre ++ toBytes 2 r.post ++ [BitVec.ofNat 8 r.silence]
    ++ [BitVec.ofNat 8 (r.recording.elim 0 (fun x => x.val + 1))]
    ++ [BitVec.ofNat 8 ((if r.mark then 1 else 0) + (if r.once then 2 else 0))]
    ++ [BitVec.ofNat 8 (runningFields r.state).1] ++ [BitVec.ofNat 8 (runningFields r.state).2.1]
    ++ [BitVec.ofNat 8 (runningFields r.state).2.2.1] ++ toBytes 2 (r.periodCounter.getD 0)
    ++ toBytes 2 (present + (runningFields r.state).2.2.2 + (if r.periodCounter.isSome then 256 else 0))
    ++ wordBytes 2 r.fired ++ wordBytes 2 r.missed ++ wordBytes 2 r.cut

theorem flagBits_append (xs ys : List Bool) : flagBits (xs ++ ys) = flagBits xs + 2 ^ xs.length * flagBits ys := by
  induction xs with
  | nil => simp [flagBits]
  | cons x xs ih =>
    rw [List.cons_append, flagBits, ih, flagBits, List.length_cons, pow_succ]
    ring

theorem flagBits_presence (a b c d e f g h p : Bool) : flagBits [a, b, c, d, e, f, g, h, p] =
    flagBits [a, b, c, d, e, f] + ((if g then 64 else 0) + (if h then 128 else 0)) + (if p then 256 else 0) := by
  have hlast : 2 ^ 6 * flagBits [g, h, p] = (if g then 64 else 0) + (if h then 128 else 0) + (if p then 256 else 0) := by
    cases g <;> cases h <;> cases p <;> rfl
  rw [show [a, b, c, d, e, f, g, h, p] = [a, b, c, d, e, f] ++ [g, h, p] from rfl, flagBits_append, Nat.add_assoc, ← hlast]
  rfl

theorem runningFields_spec (st : RuleState) : st.code = BitVec.ofNat 8 (runningFields st).1 ∧
    optNat st.priming? = (runningFields st).2.1 ∧ optNat st.pending? = (runningFields st).2.2.1 ∧
    (if st.priming?.isSome then 64 else 0) + (if st.pending?.isSome then 128 else 0) = (runningFields st).2.2.2 := by
  cases st <;> exact ⟨rfl, rfl, rfl, rfl⟩

theorem ruleResult_eq (i : RuleIx) (r : Rule) :
    ruleResult i r = queryResult i r r.kind.code (kindFields r.kind) (kindPresence r.kind) := by
  obtain ⟨hcode, hpriming, hpending, hpresence⟩ := runningFields_spec r.state
  unfold ruleResult queryResult kindFields kindPresence
  dsimp only
  rw [flagBits_presence, hpresence, hcode, hpriming, hpending, flagBits_pair]
  simp only [toBytes_one, List.append_assoc]
  rfl

theorem length_queryResult (i : RuleIx) (r : Rule) (code : Byte) (fields : List Byte) (present : Nat)
    (h : fields.length = 11) : (queryResult i r code fields present).length = 35 := by
  simp only [queryResult, List.length_append, length_toBytes, length_wordBytes, h, List.length_singleton]

end Sys2Proof.Laws
end

section
/-!
PROOF. The obligations on trigger rules (chapter 2), and the condition commands (R86, R87).
-/

namespace Sys2Proof.Laws

open Machine

/-! ### The seven facts of a firing, a tick and a load -/

section
variable {s : State} {i : RuleIx} {r : Rule} {t : Nat} {stamp : Stamp}

/-- A firing that asks for no capture (R38). -/
theorem fireRule_of_unrecorded (h : s.rule i = some r) (hrec : r.recording = none) :
    s.fireRule i r t stamp = s.setRule i (some { r with fired := satSucc r.fired }.afterFiring) := by
  rw [State.fireRule, modifyRule_of_loaded h, requestFor_of_unrecorded hrec, modifyRule_of_loaded (rule_setRule_same ..),
    setRule_setRule]

/-- The rule that asked for a capture has at most its cut count changed by the answer (R46). -/
theorem captureRequest_rule (h : s.rule i = some r) (q : CaptureRequest) :
    ∃ cut, (s.captureRequest q).1.rule i = some { r with cut := cut } := by
  obtain ⟨f, hf⟩ := (captureRequest_byCapture q s).cuts i
  exact ⟨_, by rw [hf, h]; rfl⟩

/-- A firing that asks for a capture counts a miss when it is answered missed (R38, R45). -/
theorem fireRule_of_recorded (h : s.rule i = some r) {target : RecIx} (hrec : r.recording = some target) {u : State}
    {taken : Bool} (hanswer : (s.setRule i (some { r with fired := satSucc r.fired })).captureRequest
      (r.request i target t stamp) = (u, taken)) :
    ∃ cut, u.rule i = some { r with fired := satSucc r.fired, cut := cut } ∧ s.fireRule i r t stamp =
      u.setRule i (some (if taken then { r with fired := satSucc r.fired, cut := cut }
        else { r with fired := satSucc r.fired, missed := satSucc r.missed, cut := cut }).afterFiring) := by
  obtain ⟨cut, hcut⟩ := captureRequest_rule (s := s.setRule i (some { r with fired := satSucc r.fired })) (i := i)
    (r := { r with fired := satSucc r.fired }) (rule_setRule_same ..) (r.request i target t stamp)
  rw [hanswer] at hcut
  refine ⟨cut, hcut, ?_⟩
  rw [State.fireRule, modifyRule_of_loaded h, requestFor_of_recorded (r := r) hrec, hanswer]
  cases taken with
  | true => exact modifyRule_of_loaded hcut _
  | false =>
    rw [if_neg Bool.false_ne_true, modifyRule_of_loaded hcut, modifyRule_of_loaded (rule_setRule_same ..), setRule_setRule]
    rfl

theorem exec_periodExpiry (h : s.rule i = some r) (hcounter : r.periodCounter = some 1) :
    exec (.periodExpiry i) s = .next (s.setRule i (some r.tick)) := by
  show execPeriodExpiry i s = _
  rw [execPeriodExpiry, modifyRule_of_loaded h, if_pos hcounter]

end

/-- The tests of a STEP rule, which has no distance to judge without a previous sample (R31). -/
theorem fires_step (v : Sample) (p : Option Sample) (delta h n : Nat) :
    (RuleKind.step delta h n).fires v p = true ↔ ∃ x, p = some x ∧ (v.toInt - x.toInt).natAbs > delta := by
  cases p with
  | none => simp [RuleKind.fires]
  | some x =>
    rw [RuleKind.fires, decide_eq_true_eq]
    exact ⟨fun hx => ⟨x, rfl, hx⟩, fun ⟨y, hy, hlt⟩ => Option.some.inj hy ▸ hlt⟩

theorem rearms_step (v : Sample) (p : Option Sample) (delta h n : Nat) :
    (RuleKind.step delta h n).rearms v p = true ↔
      ∀ x, p = some x → ((v.toInt - x.toInt).natAbs : Int) ≤ (delta : Int) - h := by
  cases p with
  | none => simp [RuleKind.rearms]
  | some x =>
    rw [RuleKind.rearms, decide_eq_true_eq]
    exact ⟨fun hx y hy => Option.some.inj hy ▸ hx, fun hall => hall x rfl⟩

/-- What enabling gives a rule of the kind that the arguments of RULE LOAD give (R25). -/
theorem enabled_of_kindGiven {q : Request} {k : RuleKind} (h : KindGiven q k) :
    ((q.byte 1).toNat ≤ 4 → k.enabledState = .priming (q.byte 11).toNat ∧ k.period? = none) ∧
      ((q.byte 1).toNat = 5 → k.enabledState = .armed ∧ k.period? = some (q.nat 12 2)) ∧
      ((q.byte 1).toNat = 6 → k.enabledState = .armed ∧ k.period? = none) := by
  obtain ⟨hc, -, rfl⟩ | ⟨hc, -, rfl⟩ | ⟨hc, -, -, rfl⟩ | ⟨hc, -, -, rfl⟩ | ⟨hc, -, rfl⟩ | ⟨hc, rfl⟩ := h
  · exact ⟨fun _ => ⟨rfl, rfl⟩, fun _ => by omega, fun _ => by omega⟩
  · exact ⟨fun _ => ⟨rfl, rfl⟩, fun _ => by omega, fun _ => by omega⟩
  · exact ⟨fun _ => ⟨rfl, rfl⟩, fun _ => by omega, fun _ => by omega⟩
  · exact ⟨fun _ => ⟨rfl, rfl⟩, fun _ => by omega, fun _ => by omega⟩
  · exact ⟨fun _ => by omega, fun _ => ⟨rfl, rfl⟩, fun _ => by omega⟩
  · exact ⟨fun _ => by omega, fun _ => by omega, fun _ => ⟨rfl, rfl⟩⟩

/-- RULE QUERY from the fields of the rule's kind (R29). -/
theorem exec_ruleQuery_of_kind {q : Request} (h : Handed s .ruleQuery q) (hi : (byteAt q.args 0).toNat = i.val)
    (hr : s.rule i = some r) {k : RuleKind} (hk : r.kind = k) {code : Nat} {fields : List Byte} {present : Nat}
    (hcode : k.code = BitVec.ofNat 8 code) (hfields : kindFields k = fields) (hpresent : kindPresence k = present) :
    exec .ruleQuery s = .next (s.respond .ok (queryResult i r (BitVec.ofNat 8 code) fields present)) := by
  rw [exec_ruleQuery h hi hr, ruleResult_eq, hk, hcode, hfields, hpresent]

theorem kindFields_eq (k : RuleKind) : kindFields k =
    wordBytes 2 (k.high?.getD 0) ++ wordBytes 2 (k.low?.getD 0) ++ toBytes 2 (optNat k.delta?)
      ++ toBytes 2 (optNat k.hysteresis?) ++ [BitVec.ofNat 8 (optNat k.persistence?)] ++ toBytes 2 (optNat k.period?) := by
  rw [kindFields, toBytes_one]

/-! ### The conditions' commands (R86, R87) -/

section
variable {s : State} {q : Request}

theorem exec_clearConditions (h : Handed s .clearConditions q) : exec .clearConditions s =
    .next (({ s with cond := s.cond.clear (byteAt q.args 0) } : State).respond .ok
      [(s.cond.clear (byteAt q.args 0)).flags, (s.cond.clear (byteAt q.args 0)).state.code]) := by
  rw [show exec .clearConditions s = execClearConditions s from rfl, execClearConditions, ownerStep_of_handed h]
  rfl

theorem clear_of_none_live {u : ConditionUnit} {x : BitVec 8} (h : u.flags &&& ~~~x &&& ~~~u.masks = 0) :
    u.clear x = { u with flags := u.flags &&& ~~~x, state := .running, detail := none } := if_pos h

theorem clear_of_some_live {u : ConditionUnit} {x : BitVec 8} (h : u.flags &&& ~~~x &&& ~~~u.masks ≠ 0) :
    u.clear x = { u with flags := u.flags &&& ~~~x } := if_neg h

theorem captureState_code (x : CaptureState) : x.code = match x with | .running => 0 | .suspended => 1 := by
  cases x <;> rfl

theorem exec_conditionsQuery (h : Handed s .conditionsQuery q) : exec .conditionsQuery s = .next (s.respond .ok
    ([s.cond.flags, s.cond.masks, BitVec.ofNat 8 s.cond.level, s.cond.state.code] ++ detailBytes s.cond.detail)) := by
  rw [show exec .conditionsQuery s = execConditionsQuery s from rfl, execConditionsQuery, ownerStep_of_handed h]



end

/-! ### The obligations -/

/-- Settles O22: the tests kind by kind, one sample state by state, and a run of samples that meet the fire condition. -/
theorem ruleTestsAndStatesFollowTheSample : Obligations.RuleTestsAndStatesFollowTheSample := by
  refine ⟨fun v p high low delta h n => ?tests, fun r v p => ⟨fun hs => next_of_disabled hs v p,
    fun n => next_of_priming_succ, next_of_priming_zero, next_of_armed_quiet, fun n => next_of_pending_quiet, next_of_due⟩,
    fun r vs _ hs hfires hne => ⟨fun hshort => ?short, fun hlast => ?complete⟩⟩
  case tests =>
    refine ⟨?_, ?_, ?_, ?_, ?_, ?_, ?_, ?_, fun k hk => ?_⟩
    · simp [RuleKind.fires]
    · simp [RuleKind.rearms]
    · simp [RuleKind.fires]
    · simp [RuleKind.rearms]
    · simp [RuleKind.fires]
    · simp [RuleKind.rearms]
    · simp [fires_step]
    · simp [rearms_step]
    · rw [rearms_eq_false_of_fires hk.1] at hk
      exact Bool.false_ne_true hk.2
  case short =>
    have hcount := follow_pending_of_short (r := r) hfires 0 (by omega)
    rw [Nat.zero_add] at hcount
    exact (follow_armed hne).trans hcount
  case complete =>
    refine (follow_armed hne).trans (follow_pending_of_complete hfires 0 hne (by omega) ?_)
    omega

/-- Settles O24: the firing by whether the rule has a recording; the answer leaves the rule's options and kind. -/
theorem firingRuleCountsMarksAndAsks : Obligations.FiringRuleCountsMarksAndAsks := by
  refine fun s mark i r t v p stamp h hn => ⟨fun hrec => ?unrecorded, fun target hrec => ?recorded⟩
  case unrecorded =>
    rw [evalRule_of_fires h hn, fireRule_of_unrecorded h hrec, afterFiring_eq]
    rfl
  case recorded =>
    intro request answer count
    obtain ⟨cut, hrule, hfire⟩ := fireRule_of_recorded (t := t) (stamp := stamp) (u := answer.1) (taken := answer.2) h hrec rfl
    rw [evalRule_of_fires h hn, hfire, afterFiring_eq, hrule]
    cases htaken : answer.2 with
    | true =>
      simp only [count, htaken]
      rfl
    | false =>
      simp only [count, htaken]
      rfl

/-- Settles O25: a tick at one rule by its counter and state, at every rule, a gap at every rule, and the expiry's row. -/
theorem periodExpiryMakesDue : Obligations.PeriodExpiryMakesDue := by
  refine ⟨fun r period n hk hn => ⟨fun h => tick_of_running hk hn h, fun h hs => ?armed, fun h hs => ?due⟩, fun r h => ?kept,
    foldl_modifyRule_all Rule.tick, fun s x => ?gap, fun s i r period h hk hn hs => ?expiry⟩
  case armed => rw [tick_of_last hk hn h, expire_of_armed hs]
  case due => rw [tick_of_last hk hn h, expire_of_due hs]
  case kept => exact h.elim tick_of_no_counter tick_of_not_periodic
  case gap =>
    obtain ⟨hrules, hrule⟩ := foldl_modifyRule_all (fun r => if r.stream = x then r.afterGap else r) s
    refine ⟨hrules, fun i => (hrule i).trans (congrArg (Option.map · (s.rule i)) (funext fun r => ?_))⟩
    obtain ⟨kind, stream, priority, pre, post, silence, recording, mark, once, state, counter, fired, missed, cut⟩ := r
    by_cases hx : stream = x
    · cases state <;> simp [hx, Rule.afterGap]
    · cases state <;> simp [hx]
  case expiry =>
    rw [exec_periodExpiry h hn, tick_of_last hk hn (le_refl 1)]
    obtain hs | hs := hs
    · rw [expire_of_armed hs, if_pos hs]
      rfl
    · rw [expire_of_due hs, if_neg (by rw [hs]; exact RuleState.noConfusion)]
      rfl

/-- Settles O26: RULE LOAD by the first check that fails, and the rule that its arguments give. -/
theorem ruleLoadChecksAndStoresTheRule : Obligations.RuleLoadChecksAndStoresTheRule := by
  refine ⟨fun s q h => ⟨exec_ruleLoad_misargued h, fun i r hi hr => ⟨fun hstream => ?noStream, fun e hstream =>
    ⟨fun hshort => ?short, fun hlong => ⟨fun target hrec hbusy => ?notReady, fun target hrec hm hf hentry => ?noRecording,
      fun hgood => ?loads⟩⟩⟩⟩, fun q => ⟨fun hbad => ?none, fun k hranges hkind => ?some⟩⟩
  case noStream => exact exec_ruleLoad_refused h hi hr (loadRefusal_of_no_stream hstream)
  case short => exact exec_ruleLoad_refused h hi hr (loadRefusal_of_short hstream hshort)
  case notReady =>
    exact exec_ruleLoad_refused h hi hr ((loadRefusal_of_recorded hstream hlong hrec).trans (if_pos hbusy))
  case noRecording =>
    refine exec_ruleLoad_refused h hi hr ((loadRefusal_of_recorded hstream hlong hrec).trans ?_)
    rw [if_neg (not_or.2 ⟨hm, hf⟩), hentry]
    rfl
  case loads =>
    refine exec_ruleLoad_loaded h hi hr ?_
    cases hrec : r.recording with
    | none => exact loadRefusal_of_unrecorded hstream hlong hrec
    | some target =>
      obtain ⟨hm, hf, hentry⟩ := hgood target hrec
      rw [loadRefusal_of_recorded hstream hlong hrec, if_neg (not_or.2 ⟨hm, hf⟩), if_neg]
      rwa [Option.isNone_iff_eq_none]
  case none =>
    obtain hbad | hbad := hbad
    · exact loadedRule_of_bad hbad
    · exact loadedRule_of_no_kind (Option.eq_none_iff_forall_ne_some.2 fun k hk => hbad k (ruleKind_eq_some_iff.1 hk))
  case some =>
    obtain ⟨stream, hstream, hrule⟩ := loadedRule_of_good (ruleKind_eq_some_iff.2 hkind) hranges
    obtain ⟨-, -, -, -, -, -, hnumber, -⟩ := hranges
    refine ⟨_, hrule, ?_⟩
    cases henable : (byteAt q.args 21).toNat.testBit 2 with
    | false =>
      exact ⟨rfl, hstream, rfl, rfl, rfl, rfl, recordingOf_elim hnumber, rfl, rfl, rfl, rfl, rfl, fun _ => ⟨rfl, rfl⟩,
        fun h => absurd h Bool.false_ne_true⟩
    | true =>
      refine ⟨rfl, hstream, rfl, rfl, rfl, rfl, recordingOf_elim hnumber, rfl, rfl, rfl, rfl, rfl,
        fun h => absurd h.symm Bool.false_ne_true, fun _ => ?_⟩
      exact enabled_of_kindGiven hkind

/-- Settles O27: the refusals of all six commands, then RULE UNLOAD, RULE QUERY kind by kind, and FIRE by the state. -/
theorem ruleCommandsUnloadQueryAndFire : Obligations.RuleCommandsUnloadQueryAndFire := by
  refine ⟨fun s q x hx h => ?refusals, fun s q i r hi hr => ⟨fun h => ?unload, fun h => ?query⟩, fun s q i r h hi hr =>
    ⟨fun hbad => ?badState, exec_fire_armed h hi hr, exec_fire_due h hi hr⟩⟩
  case refusals =>
    simp only [List.mem_cons, List.not_mem_nil, or_false] at hx
    obtain rfl | rfl | rfl | rfl | rfl | rfl := hx <;> exact exec_rule_refusals rfl h
  case unload => exact exec_of_loaded (a := .ruleUnload) rfl h hi hr
  case query =>
    intro one two running result
    have hrunning : runningFields r.state = running := by
      simp only [running]
      cases r.state <;> rfl
    clear_value running
    have hresult (code : Nat) (fields : List Byte) (present : Nat) :
        queryResult i r (BitVec.ofNat 8 code) fields present = result code fields present := by
      unfold queryResult
      rw [hrunning]
    have hquery {k : RuleKind} {code : Nat} {fields : List Byte} {present : Nat} (hk : r.kind = k)
        (hcode : k.code = BitVec.ofNat 8 code) (hfields : kindFields k = fields) (hpresent : kindPresence k = present) :
        exec .ruleQuery s = .next (s.respond .ok (result code fields present)) := by
      rw [← hresult]
      exact exec_ruleQuery_of_kind h hi hr hk hcode hfields hpresent
    clear_value result
    refine ⟨fun high w n hk => ?_, fun low w n hk => ?_, fun high low w n hk => ?_, fun delta w n hk => ?_, fun period hk => ?_,
      fun hk => ?_, fun code fields present hlength => ?_⟩
    · exact hquery hk rfl (kindFields_eq _) rfl
    · exact hquery hk rfl (kindFields_eq _) rfl
    · exact hquery hk rfl (kindFields_eq _) rfl
    · exact hquery hk rfl (kindFields_eq _) rfl
    · exact hquery hk rfl (kindFields_eq _) rfl
    · exact hquery hk rfl (kindFields_eq _) rfl
    · rw [← hresult, length_queryResult i r _ _ _ hlength]
  case badState =>
    refine exec_fire_refused h hi hr fun hk => ?_
    have hs : r.state = .disabled := hbad.resolve_left (absurd hk)
    simp [hs]

/-- Settles O38: CLEAR CONDITIONS by what it leaves set and unmasked, and the query. -/
theorem clearConditionsResumes : Obligations.ClearConditionsResumes := by
  refine fun s q => ⟨fun h => ⟨fun hnone => ?resumes, fun hsome => ?stays⟩, fun h => ?query⟩
  case resumes =>
    rw [exec_clearConditions h, clear_of_none_live hnone]
    rfl
  case stays =>
    rw [exec_clearConditions h, clear_of_some_live hsome]
    exact congrArg (fun code => Host.Outcome.next (State.respond _ .ok [_, code])) (captureState_code s.cond.state)
  case query =>
    rw [exec_conditionsQuery h]
    refine congrArg₂ (fun code detail => Host.Outcome.next (s.respond .ok ([_, _, _, code] ++ detail)))
      (captureState_code s.cond.state) ?_
    rcases s.cond.detail with _ | (r | ⟨c, stamp⟩)
    · rfl
    · rfl
    · rfl

end Sys2Proof.Laws
end

section
/-!
PROOF. The stream commands (R4 to R9) and the hold mark (R2).
-/

namespace Sys2Proof.Laws

open Machine

/-! ### Looking for the lowest entry of a table -/

theorem find?_ascending_eq_some_iff {n : Nat} {p : Fin n → Bool} {i : Fin n} :
    (ascending n).find? p = some i ↔ p i = true ∧ ∀ j, j < i → p j = false := by
  rw [ascending, List.find?_eq_some_iff_getElem]
  refine and_congr_right fun _ => ⟨fun ⟨k, hk, hget, hbelow⟩ j hj => ?_, fun hbelow =>
    ⟨i.val, by simp, by simp, fun j hj => ?_⟩⟩
  · have hik : i.val = k := by rw [← hget]; simp
    simpa using hbelow j.val (hik ▸ hj)
  · simpa using hbelow ⟨j, hj.trans i.isLt⟩ hj

theorem find?_ascending_eq_none_iff {n : Nat} {p : Fin n → Bool} :
    (ascending n).find? p = none ↔ ∀ i, p i = false := by
  simp [ascending]

section
variable {s : State} {node stream : Byte} {i : StreamIx} {e : StreamEntry}

theorem streamWithKey_isSome_iff :
    (s.streamWithKey node stream).isSome = true ↔ ∃ i e, s.stream i = some e ∧ e.node = node ∧ e.stream = stream := by
  refine ⟨fun h => ?_, fun ⟨i, e, he, hnode, hstream⟩ => ?_⟩
  · by_contra hnone
    rw [streamWithKey_of_unknown fun i e he hkey => hnone ⟨i, e, he, hkey⟩] at h
    exact Bool.false_ne_true h
  · rw [State.streamWithKey, List.find?_isSome]
    exact ⟨i, List.mem_finRange i, by simp only [he, hnode, hstream, beq_self_eq_true, Bool.and_self]⟩

/-- The look-up finds the lowest entry that has the key (R11). -/
theorem streamWithKey_of_keyAt (h : KeyAt s node stream i e) : s.streamWithKey node stream = some i := by
  obtain ⟨he, hnode, hstream, hbelow⟩ := h
  refine find?_ascending_eq_some_iff.2 ⟨by simp only [he, hnode, hstream, beq_self_eq_true, Bool.and_self],
    fun j hj => ?_⟩
  cases hj' : s.stream j with
  | none => rfl
  | some e' => simpa using hbelow j e' hj hj'

theorem mem_rings {r : Nat × Nat} : r ∈ s.rings ↔ ∃ i e, s.stream i = some e ∧ (e.base, e.length) = r := by
  simp only [State.rings, List.mem_filterMap, ascending, List.mem_finRange, true_and, Option.map_eq_some_iff]

theorem runFree_rings_iff {length b : Nat} : runFree s.rings length b = true ↔ RunFree s length b := by
  rw [runFree_iff, RunFree]
  refine and_congr_right fun _ => ⟨fun h i e he => h _ (mem_rings.2 ⟨i, e, he, rfl⟩), fun h r hr => ?_⟩
  obtain ⟨i, e, he, rfl⟩ := mem_rings.1 hr
  exact h i e he

theorem firstFit_of_least {length b : Nat} (hfree : RunFree s length b) (hleast : ∀ x, x < b → ¬RunFree s length x) :
    firstFit s.rings length = some b := by
  cases hfit : firstFit s.rings length with
  | none => exact absurd (runFree_rings_iff.2 hfree) (by rw [firstFit_none _ _ hfit]; exact Bool.false_ne_true)
  | some x =>
    obtain ⟨hx, hbelow⟩ := firstFit_least _ _ _ hfit
    rw [runFree_rings_iff] at hx
    have hge : b ≤ x := Nat.le_of_not_lt fun hlt => hleast x hlt hx
    have hle : x ≤ b := Nat.le_of_not_lt fun hlt =>
      Bool.false_ne_true ((hbelow b hlt).symm.trans (runFree_rings_iff.2 hfree))
    rw [Nat.le_antisymm hle hge]

theorem firstFit_of_none_free {length : Nat} (h : ∀ b, ¬RunFree s length b) : firstFit s.rings length = none := by
  cases hfit : firstFit s.rings length with
  | none => rfl
  | some b => exact absurd (runFree_rings_iff.1 (firstFit_least _ _ _ hfit).1) (h b)

end

/-! ### STREAM LOAD (R4, R7) -/

section
variable {s : State} {q : Request} {i : StreamIx} {e : StreamEntry}

/-- The arguments of STREAM LOAD are in their ranges (R7). -/
def StreamArgumentsGood (q : Request) : Prop :=
  1 ≤ (byteAt q.args 0).toNat ∧ (byteAt q.args 0).toNat ≤ 62 ∧ (byteAt q.args 1).toNat ≤ 15 ∧ 64 ≤ fieldAt q.args 2 2 ∧
    fieldAt q.args 2 2 ≤ 8192

/-- A loaded stream has the key of a STREAM LOAD. -/
def KeyTaken (s : State) (q : Request) : Prop :=
  ∃ i e, s.stream i = some e ∧ e.node = byteAt q.args 0 ∧ e.stream = byteAt q.args 1

theorem exec_streamLoad_misargued (h : Handed s .streamLoad q) (hbad : ¬StreamArgumentsGood q) :
    exec .streamLoad s = .next (s.refuse .badArgument) := by
  rw [show exec .streamLoad s = execStreamLoad s from rfl, execStreamLoad, ownerStep_of_handed h]
  exact congrArg _ (if_pos hbad)

theorem exec_streamLoad_taken (h : Handed s .streamLoad q) (hgood : StreamArgumentsGood q) (hkey : KeyTaken s q) :
    exec .streamLoad s = .next (s.refuse .alreadyExists) := by
  rw [show exec .streamLoad s = execStreamLoad s from rfl, execStreamLoad, ownerStep_of_handed h]
  exact congrArg _ ((if_neg (not_not.2 hgood)).trans (if_pos (streamWithKey_isSome_iff.2 hkey)))

/-- A STREAM LOAD with good arguments and a new key looks for an empty entry and then for a ring (R7). -/
theorem exec_streamLoad_new (h : Handed s .streamLoad q) (hgood : StreamArgumentsGood q) (hkey : ¬KeyTaken s q) :
    exec .streamLoad s = .next (match (ascending 32).find? fun i => (s.stream i).isNone with
      | none => s.refuse .tableFull
      | some i => match firstFit s.rings (fieldAt q.args 2 2) with
        | none => s.refuse .noRingSpace
        | some b =>
          (s.setStream i (some (newStream (byteAt q.args 0) (byteAt q.args 1) b (fieldAt q.args 2 2)))).respond .ok
            (toBytes 1 i.val ++ toBytes 2 b)) := by
  rw [show exec .streamLoad s = execStreamLoad s from rfl, execStreamLoad, ownerStep_of_handed h]
  exact congrArg _ ((if_neg (not_not.2 hgood)).trans (if_neg fun hsome => hkey (streamWithKey_isSome_iff.1 hsome)))

/-! ### STREAM DROP and STREAM QUERY (R8, R9) -/

/-- A command that names a stream, by its index; `hexec` says that the row is one, which is `rfl` for each of them. -/
theorem exec_stream_misnumbered {c : Command} {a : Instr} {f : State → StreamIx → StreamEntry → State}
    (hexec : exec a s = .next (s.ownerStep c fun q s => s.onStream q (f s))) (h : Handed s c q)
    (hi : 32 ≤ (byteAt q.args 0).toNat) : exec a s = .next (s.refuse .badArgument) := by
  simp only [hexec, ownerStep_of_handed h, State.onStream, Request.byte, indexOf_of_ge hi]

theorem exec_stream_unloaded {c : Command} {a : Instr} {f : State → StreamIx → StreamEntry → State}
    (hexec : exec a s = .next (s.ownerStep c fun q s => s.onStream q (f s))) (h : Handed s c q)
    (hi : (byteAt q.args 0).toNat = i.val) (he : s.stream i = none) : exec a s = .next (s.refuse .noSuchStream) := by
  simp only [hexec, ownerStep_of_handed h, State.onStream, Request.byte, hi, indexOf_val, he]

theorem exec_stream_loaded {c : Command} {a : Instr} {f : State → StreamIx → StreamEntry → State}
    (hexec : exec a s = .next (s.ownerStep c fun q s => s.onStream q (f s))) (h : Handed s c q)
    (hi : (byteAt q.args 0).toNat = i.val) (he : s.stream i = some e) : exec a s = .next (f s i e) := by
  simp only [hexec, ownerStep_of_handed h, State.onStream, Request.byte, hi, indexOf_val, he]

theorem captureOn_eq_some_iff {k : SlotIx} {c : Capture} :
    s.captureOn i k = some c ↔ (s.slot k).capture = some c ∧ c.request.stream = i := by
  simp [State.captureOn, Option.filter_eq_some_iff]

theorem streamInUse_iff : s.streamInUse i = true ↔
    (∃ k r, s.rule k = some r ∧ r.stream = i) ∨ ∃ k c, (s.slot k).capture = some c ∧ c.request.stream = i := by
  have hrule (k : RuleIx) : (match s.rule k with | some r => r.stream == i | none => false) = true ↔
      ∃ r, s.rule k = some r ∧ r.stream = i := by
    cases s.rule k with
    | none => simp
    | some r => simp
  have hslot (k : SlotIx) : (s.captureOn i k).isSome = true ↔ ∃ c, (s.slot k).capture = some c ∧ c.request.stream = i := by
    rw [Option.isSome_iff_exists]
    exact exists_congr fun c => captureOn_eq_some_iff
  rw [State.streamInUse, Bool.or_eq_true, List.any_eq_true, List.any_eq_true]
  simp only [hslot, ascending, List.mem_finRange, true_and]
  exact or_congr (exists_congr hrule) Iff.rfl

/-! ### The hold mark (R2) -/

/-- A slot that captures from stream `i` holds it at read position `rp` (R2). -/
def HoldsAt (s : State) (i : StreamIx) (rp : Nat) : Prop :=
  ∃ k c, (s.slot k).capture = some c ∧ c.request.stream = i ∧
    ((∃ timer, c.phase = .collecting rp timer) ∨ ∃ cause, c.phase = .draining rp cause ∧ (rp : Int) ≤ c.endSample)

theorem holds_eq_some_iff {c : Capture} {rp : Nat} : c.holds = some rp ↔
    (∃ timer, c.phase = .collecting rp timer) ∨ ∃ cause, c.phase = .draining rp cause ∧ (rp : Int) ≤ c.endSample := by
  unfold Capture.holds
  split
  next x timer hphase => simp [hphase]
  next x cause hphase =>
    simp only [hphase, Option.ite_none_right_eq_some, Option.some.injEq, CapturePhase.draining.injEq]
    constructor
    · rintro ⟨hle, rfl⟩
      exact .inr ⟨cause, ⟨rfl, rfl⟩, hle⟩
    · rintro (⟨timer, h⟩ | ⟨_, ⟨rfl, rfl⟩, hle⟩)
      · cases h
      · exact ⟨hle, rfl⟩
  next cause hphase => simp [hphase]

theorem mem_holdPositions {rp : Nat} :
    rp ∈ ((ascending 8).filterMap fun k => (s.captureOn i k).bind Capture.holds) ↔ HoldsAt s i rp := by
  simp only [List.mem_filterMap, ascending, List.mem_finRange, true_and, Option.bind_eq_some_iff, captureOn_eq_some_iff,
    holds_eq_some_iff, HoldsAt, and_assoc]

theorem holdMark_eq_some_iff {m : Nat} : s.holdMark i = some m ↔ HoldsAt s i m ∧ ∀ rp, HoldsAt s i rp → m ≤ rp := by
  simp only [State.holdMark, List.min?_eq_some_iff, mem_holdPositions]

theorem holdMark_eq_none_iff : s.holdMark i = none ↔ ∀ rp, ¬HoldsAt s i rp := by
  rw [State.holdMark, List.min?_eq_none_iff, List.eq_nil_iff_forall_not_mem]
  exact forall_congr' fun rp => not_congr mem_holdPositions

/-! ### The result of STREAM QUERY (R9, section 10.2) -/

theorem length_sampleNumberBytes (ix : Nat) (v : Int) : (sampleNumberBytes ix v).length = 6 := by
  unfold sampleNumberBytes
  split
  · exact length_toBytes ..
  · exact length_wordBytes ..

theorem sampleNumberFits_natCast {n : Nat} (h : n < 2 ^ 48) : sampleNumberFits (n : Int) = true := by
  simp [sampleNumberFits, Config.sampleNumbers]
  omega

theorem sampleNumberBytes_of_fits (ix : Nat) {n : Nat} (h : n < 2 ^ 48) : sampleNumberBytes ix (n : Int) = toBytes 6 n := by
  rw [sampleNumberBytes, if_pos (sampleNumberFits_natCast h), Int.toNat_natCast]

theorem freeAfter_of_fits (ix : Nat) {vs : List Int} (h : ∀ v ∈ vs, sampleNumberFits v = true) : freeAfter ix vs = ix :=
  if_pos (List.all_eq_true.2 h)

/-- The result of STREAM QUERY from the bytes of its next number and of its hold mark (R9, R190). -/
def streamAnswer (i : StreamIx) (e : StreamEntry) (hold : Option Nat) (next held : List Byte) : List Byte :=
  [BitVec.ofNat 8 i.val, e.node, e.stream, if e.state = .idle then 0 else 1] ++ toBytes 2 e.base ++ toBytes 2 e.length ++ next
    ++ (if e.next = 0 then toBytes 6 0 ++ toBytes 6 0 else toBytes 6 (e.next - e.length) ++ toBytes 6 (e.next - 1))
    ++ [e.expected.getD 0] ++ wordBytes 2 (e.previous.getD 0) ++ held
    ++ toBytes 1 ((if e.next = 0 then 0 else 3) + (if e.expected.isSome then 4 else 0)
        + (if e.previous.isSome then 8 else 0) + (if hold.isSome then 16 else 0))
    ++ wordBytes 4 e.framesTaken ++ wordBytes 4 e.gapEvents ++ wordBytes 4 e.oldFrames

theorem flagBits_range (x y z : Bool) (n : Nat) :
    flagBits [n != 0, n != 0, x, y, z] = (if n = 0 then 0 else 3) + (if x then 4 else 0) + (if y then 8 else 0)
      + (if z then 16 else 0) := by
  by_cases hn : n = 0 <;> cases x <;> cases y <;> cases z <;> simp [flagBits, hn]

theorem streamState_code (x : StreamState) : x.code = if x = .idle then 0 else 1 := by cases x <;> rfl

theorem streamResult_eq (ix : Nat) (i : StreamIx) (e : StreamEntry) (hold : Option Nat) : streamResult ix i e hold =
    streamAnswer i e hold (sampleNumberBytes ix e.next) (sampleNumberBytes (ix + 1) (optNat hold)) := by
  have hold_some : e.oldest?.isSome = (e.next != 0) := by
    by_cases h : e.next = 0 <;> simp [StreamEntry.oldest?, h]
  have hnew_some : e.newest?.isSome = (e.next != 0) := by
    by_cases h : e.next = 0 <;> simp [StreamEntry.newest?, h]
  have hrange : toBytes 6 (optNat e.oldest?) ++ toBytes 6 (optNat e.newest?) =
      if e.next = 0 then toBytes 6 0 ++ toBytes 6 0 else toBytes 6 (e.next - e.length) ++ toBytes 6 (e.next - 1) := by
    by_cases h : e.next = 0 <;> simp [StreamEntry.oldest?, StreamEntry.newest?, optNat, h]
  unfold streamResult streamAnswer
  rw [hold_some, hnew_some, flagBits_range, streamState_code, ← hrange, toBytes_one]
  simp only [List.append_assoc, List.cons_append, List.nil_append]

theorem exec_streamQuery (h : Handed s .streamQuery q) (hi : (byteAt q.args 0).toNat = i.val) (he : s.stream i = some e) :
    exec .streamQuery s = .next (({ s with
      freeIx := freeAfter s.freeIx [(e.next : Int), (optNat (s.holdMark i) : Int)] } : State).respond .ok
        (streamAnswer i e (s.holdMark i) (sampleNumberBytes s.freeIx e.next)
          (sampleNumberBytes (s.freeIx + 1) (optNat (s.holdMark i))))) := by
  rw [exec_stream_loaded (a := .streamQuery) rfl h hi he, streamResult_eq]

end

/-! ### The obligation -/

/-- Settles O21: STREAM LOAD by its checks, STREAM DROP by what refers to the entry, the hold mark, and the query. -/
theorem streamCommandsLoadDropAndQuery : Obligations.StreamCommandsLoadDropAndQuery := by
  refine ⟨fun s q h => ⟨exec_streamLoad_misargued h, exec_streamLoad_taken h, fun hgood hkey hfull => ?full,
      fun i hgood hkey hi hbelow => ⟨fun hnone => ?noRing, fun b hfree hleast => ?loads⟩⟩,
    fun s q h => ⟨exec_stream_misnumbered (a := .streamDrop) rfl h, fun i hi =>
      ⟨fun he => exec_stream_unloaded (a := .streamDrop) rfl h hi he, fun he huse => ?inUse, fun he hfree => ?drops⟩⟩,
    fun s i => ⟨fun m => holdMark_eq_some_iff, holdMark_eq_none_iff⟩,
    fun s q h => ⟨exec_stream_misnumbered (a := .streamQuery) rfl h, fun i hi =>
      ⟨fun he => exec_stream_unloaded (a := .streamQuery) rfl h hi he, fun e he => ⟨fun hnext hhold => ?fits, ?any⟩⟩⟩⟩
  case full =>
    have hfind : ((ascending 32).find? fun i => (s.stream i).isNone) = none :=
      find?_ascending_eq_none_iff.2 fun i => by rw [Option.isNone_eq_false_iff]; exact Option.isSome_iff_ne_none.2 (hfull i)
    rw [exec_streamLoad_new h hgood hkey, hfind]
  case noRing =>
    have hfind : ((ascending 32).find? fun i => (s.stream i).isNone) = some i := find?_ascending_eq_some_iff.2
      ⟨by rw [hi]; rfl, fun j hj => by rw [Option.isNone_eq_false_iff]; exact Option.isSome_iff_ne_none.2 (hbelow j hj)⟩
    rw [exec_streamLoad_new h hgood hkey, hfind, firstFit_of_none_free hnone]
  case loads =>
    have hfind : ((ascending 32).find? fun i => (s.stream i).isNone) = some i := find?_ascending_eq_some_iff.2
      ⟨by rw [hi]; rfl, fun j hj => by rw [Option.isNone_eq_false_iff]; exact Option.isSome_iff_ne_none.2 (hbelow j hj)⟩
    rw [exec_streamLoad_new h hgood hkey, hfind, firstFit_of_least hfree hleast, ← toBytes_one]
    rfl
  case inUse =>
    obtain ⟨e, he⟩ := Option.ne_none_iff_exists'.1 he
    rw [exec_stream_loaded (a := .streamDrop) rfl h hi he, if_pos (streamInUse_iff.2 huse)]
  case drops =>
    obtain ⟨e, he⟩ := Option.ne_none_iff_exists'.1 he
    rw [exec_stream_loaded (a := .streamDrop) rfl h hi he, if_neg fun huse => hfree (streamInUse_iff.1 huse)]
    rfl
  case fits =>
    rw [exec_streamQuery h hi he, freeAfter_of_fits, sampleNumberBytes_of_fits _ hnext, optNat, sampleNumberBytes_of_fits _ hhold]
    · rfl
    · intro v hv
      simp only [List.mem_cons, List.not_mem_nil, or_false] at hv
      obtain rfl | rfl := hv
      · exact sampleNumberFits_natCast hnext
      · exact sampleNumberFits_natCast hhold
  case any =>
    exact ⟨_, _, _, length_sampleNumberBytes .., length_sampleNumberBytes .., exec_streamQuery h hi he⟩

end Sys2Proof.Laws
end

section
/-!
PROOF. The taking of a DATA frame (R11 to R20, R43): the entry that it leaves, the cells that its samples take, and what
rules and slots do with them.
-/

namespace Sys2Proof.Laws

open Machine

/-! ### What a frame does to its stream -/

/-- A frame of stream `i` has left its entry as `e` and sample memory as `m`, and all else within the capture path. -/
def FrameEffect (i : StreamIx) (s : State) (e : StreamEntry) (m : List (Nat × Sample)) (t : State) : Prop :=
  WithinCapture { s with streams := tableSet s.streams i (some e), samples := m } t

section
variable {s t u : State} {i : StreamIx} {e e' : StreamEntry} {m m' : List (Nat × Sample)}

theorem FrameEffect.streams (h : FrameEffect i s e m t) : t.streams = tableSet s.streams i (some e) :=
  congrArg State.streams h

theorem FrameEffect.samples (h : FrameEffect i s e m t) : t.samples = m := congrArg State.samples h

theorem FrameEffect.link (h : FrameEffect i s e m t) : t.link = s.link := by
  have hlink := congrArg State.link h
  exact hlink

theorem FrameEffect.stream (h : FrameEffect i s e m t) : t.stream i = some e := by
  rw [State.stream, h.streams, get_tableSet_same]

/-- What stays within the capture path leaves the entry and sample memory. -/
theorem FrameEffect.within (h : FrameEffect i s e m t) (k : WithinCapture t u) : FrameEffect i s e m u :=
  withinCapture_trans h k

theorem FrameEffect.trans (h : FrameEffect i s e m t) (k : FrameEffect i t e' m' u) : FrameEffect i s e' m' u := by
  rw [FrameEffect, h.streams, tableSet_tableSet] at k
  refine withinCapture_trans (t := { t with streams := tableSet s.streams i (some e'), samples := m' }) ?_ k
  have hst := h
  rw [FrameEffect, WithinCapture] at hst
  rw [WithinCapture, hst]

theorem frameEffect_self (he : s.stream i = some e) : FrameEffect i s e s.samples s := by
  rw [FrameEffect, ← he, State.stream, tableSet_get_self]
  rfl

/-- A change of the entry. -/
theorem frameEffect_modifyStream (he : s.stream i = some e) (g : StreamEntry → StreamEntry) :
    FrameEffect i s (g e) s.samples (s.modifyStream i g) := by
  rw [State.modifyStream, he]
  rfl

/-- A write of one cell (R6). -/
theorem frameEffect_samples (he : s.stream i = some e) (m : List (Nat × Sample)) :
    FrameEffect i s e m { s with samples := m } := by
  rw [FrameEffect, ← he, State.stream, tableSet_get_self]
  rfl

end

/-! ### Rules on a sample (R43) -/

theorem modifyRule_within (i : RuleIx) (g : Rule → Rule) (s : State) : WithinCapture s (s.modifyRule i g) := rfl

theorem requestFor_within (i : RuleIx) (r : Rule) (t : Nat) (stamp : Stamp) (s : State) :
    WithinCapture s (s.requestFor i r t stamp) := by
  cases hr : r.recording with
  | none => rw [requestFor_of_unrecorded hr]; exact .refl s
  | some target =>
    rw [requestFor_of_recorded hr]
    have hwithin := (captureRequest_byCapture (r.request i target t stamp) s).within
    split
    next => exact hwithin
    next => exact withinCapture_trans hwithin (modifyRule_within ..)

theorem fireRule_within (i : RuleIx) (r : Rule) (t : Nat) (stamp : Stamp) (s : State) :
    WithinCapture s (s.fireRule i r t stamp) :=
  withinCapture_trans (modifyRule_within ..) (withinCapture_trans (requestFor_within ..) (modifyRule_within ..))

theorem evalRule_within (stream : StreamIx) (t : Nat) (v : Sample) (p : Option Sample) (stamp : Stamp) (x : State × Bool)
    (i : RuleIx) : WithinCapture x.1 (evalRule stream t v p stamp x i).1 := by
  unfold evalRule
  split
  next => exact .refl _
  next =>
    split
    next =>
      split
      next => exact .refl _
      next => exact fireRule_within ..
    next => exact .refl _

theorem evalRules_within (stream : StreamIx) (t : Nat) (v : Sample) (p : Option Sample) (stamp : Stamp) (s : State)
    (mark : Bool) : WithinCapture s (evalRules stream t v p stamp (s, mark)).1 :=
  List.foldlRecOn (motive := fun y => WithinCapture s y.1) _ _ (withinCapture_refl s) fun y hy i _ =>
    withinCapture_trans hy (evalRule_within stream t v p stamp y i)

theorem gapRules_within (i : StreamIx) (s : State) : WithinCapture s (s.gapRules i) :=
  List.foldlRecOn _ _ (withinCapture_refl s) fun _ ht k _ => withinCapture_trans ht (modifyRule_within k _ _)

/-! ### One sample (R16) -/

section
variable {s : State} {i : StreamIx} {e : StreamEntry}

/-- The slots of the stream when the sample that leaves the ring, if one does, is overtaken (R16 step 1). -/
def overtaken (i : StreamIx) (e : StreamEntry) (s : State) : State :=
  if e.length ≤ e.next then s.forSlotsOf i (fun k s => s.overtake (e.next - e.length) k) else s

theorem overtaken_byCapture (i : StreamIx) (e : StreamEntry) (s : State) : ByCapture s (overtaken i e s) := by
  unfold overtaken
  split
  next => exact forSlotsOf_byCapture i (overtake_byCapture _) s
  next => exact .refl s

theorem writeSample_effect (he : s.stream i = some e) (v : Sample) :
    FrameEffect i s { e with next := e.next + 1 } (Memory.set Config.unwrittenCell s.samples (e.cell e.next) v)
      (s.writeSample i e v) := by
  have hovertaken := (frameEffect_self he).within (overtaken_byCapture i e s).within
  have hwritten := hovertaken.trans (frameEffect_samples hovertaken.stream
    (Memory.set Config.unwrittenCell (overtaken i e s).samples (e.cell e.next) v))
  have hnext := hwritten.trans (frameEffect_modifyStream hwritten.stream fun x => { x with next := e.next + 1 })
  rw [← hovertaken.samples]
  exact hnext

/-- The entry after a sample of value `v` (R16). -/
def StreamEntry.took (e : StreamEntry) (v : Sample) : StreamEntry := { e with next := e.next + 1, previous := some v }

/-- A sample written and seen by the slots of the stream (R16 steps 1 to 6). -/
def sampleChecked (i : StreamIx) (e : StreamEntry) (v : Sample) (s : State) : State :=
  (s.writeSample i e v).forSlotsOf i State.advanceChecks

/-- The rules of the stream on a sample (R16 step 7, R43). -/
def sampleJudged (i : StreamIx) (e : StreamEntry) (v : Sample) (x : State × Bool) : State × Bool :=
  evalRules i e.next v e.previous (sampleChecked i e v x.1).time (sampleChecked i e v x.1, x.2)

theorem takeSample_of_loaded {x : State × Bool} (he : x.1.stream i = some e) (v : Sample) : takeSample i x v =
    ((sampleJudged i e v x).1.modifyStream i fun e => { e with previous := some v }, (sampleJudged i e v x).2) := by
  simp only [takeSample, he]
  rfl

theorem sampleJudged_effect {x : State × Bool} (he : x.1.stream i = some e) (v : Sample) :
    FrameEffect i x.1 { e with next := e.next + 1 } (Memory.set Config.unwrittenCell x.1.samples (e.cell e.next) v)
      (sampleJudged i e v x).1 := by
  have hchecked : WithinCapture (x.1.writeSample i e v) (sampleChecked i e v x.1) :=
    (forSlotsOf_byCapture i advanceChecks_byCapture _).within
  have hjudged : WithinCapture (sampleChecked i e v x.1) (sampleJudged i e v x).1 :=
    evalRules_within i e.next v e.previous (sampleChecked i e v x.1).time (sampleChecked i e v x.1) x.2
  exact (writeSample_effect he v).within (withinCapture_trans hchecked hjudged)

theorem takeSample_effect {x : State × Bool} (he : x.1.stream i = some e) (v : Sample) :
    FrameEffect i x.1 (StreamEntry.took e v) (Memory.set Config.unwrittenCell x.1.samples (e.cell e.next) v)
      (takeSample i x v).1 := by
  have hjudged := sampleJudged_effect he v
  have hprevious := hjudged.trans (frameEffect_modifyStream hjudged.stream fun x => { x with previous := some v })
  rw [hjudged.samples] at hprevious
  rw [takeSample_of_loaded he]
  exact hprevious

/-! ### The samples of a frame -/

/-- The entry after samples. -/
def tookAll (e : StreamEntry) (vs : List Sample) : StreamEntry := vs.foldl StreamEntry.took e

/-- Sample memory after samples are written to the cells of an entry from its next number on (R6). -/
def ringWrites (e : StreamEntry) (m : List (Nat × Sample)) : (n : Nat) → List Sample → List (Nat × Sample)
  | _, [] => m
  | n, v :: vs => ringWrites e (Memory.set Config.unwrittenCell m (e.cell n) v) (n + 1) vs

theorem tookAll_eq (vs : List Sample) (e : StreamEntry) :
    tookAll e vs = { e with next := e.next + vs.length, previous := (vs.getLast?).or e.previous } := by
  induction vs generalizing e with
  | nil => rfl
  | cons v vs ih =>
    rw [tookAll, List.foldl_cons, ← tookAll, ih]
    have hcount : e.next + 1 + vs.length = e.next + (vs.length + 1) := by omega
    simp only [StreamEntry.took, List.length_cons, hcount, List.getLast?_cons]
    cases vs.getLast? <;> rfl

/-- The cells of an entry depend on its ring alone. -/
theorem ringWrites_ring {e' : StreamEntry} (hbase : e'.base = e.base) (hlength : e'.length = e.length)
    (m : List (Nat × Sample)) (n : Nat) (vs : List Sample) : ringWrites e' m n vs = ringWrites e m n vs := by
  induction vs generalizing m n with
  | nil => rfl
  | cons v vs ih => rw [ringWrites, ringWrites, ih, StreamEntry.cell, StreamEntry.cell, hbase, hlength]

theorem ringWrites_took (v : Sample) (vs : List Sample) (m : List (Nat × Sample)) (n : Nat) :
    ringWrites (StreamEntry.took e v) m n vs = ringWrites e m n vs :=
  ringWrites_ring (e := e) (e' := StreamEntry.took e v) rfl rfl m n vs

theorem takeSamples_effect (vs : List Sample) {x : State × Bool} (he : x.1.stream i = some e) :
    FrameEffect i x.1 (tookAll e vs) (ringWrites e x.1.samples e.next vs) (vs.foldl (takeSample i) x).1 := by
  induction vs generalizing x e with
  | nil => exact frameEffect_self he
  | cons v vs ih =>
    have hfirst := takeSample_effect he v
    have hrest := ih hfirst.stream
    rw [hfirst.samples, ringWrites_took] at hrest
    exact hfirst.trans hrest

theorem foldl_takeSample_effect (vs : List Sample) (he : s.stream i = some e) (mark : Bool) :
    FrameEffect i s (tookAll e vs) (ringWrites e s.samples e.next vs) (vs.foldl (takeSample i) (s, mark)).1 :=
  takeSamples_effect vs (x := (s, mark)) he

/-- A cell that no sample takes keeps its value. -/
theorem get_ringWrites_of_ne (vs : List Sample) (m : List (Nat × Sample)) (n a : Nat)
    (h : ∀ k, k < vs.length → a ≠ e.cell (n + k)) :
    Memory.get Config.unwrittenCell (ringWrites e m n vs) a = Memory.get Config.unwrittenCell m a := by
  induction vs generalizing m n with
  | nil => rfl
  | cons v vs ih =>
    have hrest (k : Nat) (hk : k < vs.length) : a ≠ e.cell (n + 1 + k) := by
      have hne := h (k + 1) (Nat.succ_lt_succ hk)
      rwa [Nat.add_assoc, Nat.add_comm 1 k]
    have hfirst : a ≠ e.cell n := h 0 (Nat.zero_lt_succ _)
    rw [ringWrites, ih _ _ hrest, Memory.get_set, if_neg hfirst]

/-- A sample stays in its cell unless a later one takes the cell. -/
theorem get_ringWrites (vs : List Sample) (m : List (Nat × Sample)) (n k : Nat) (hk : k < vs.length)
    (h : ∀ k', k < k' → k' < vs.length → e.cell (n + k') ≠ e.cell (n + k)) :
    some (Memory.get Config.unwrittenCell (ringWrites e m n vs) (e.cell (n + k))) = vs[k]? := by
  induction vs generalizing m n k with
  | nil => exact absurd hk (Nat.not_lt_zero k)
  | cons v vs ih =>
    have hassoc (j : Nat) : n + (j + 1) = n + 1 + j := by omega
    cases k with
    | zero =>
      have hlater (j : Nat) (hj : j < vs.length) : e.cell n ≠ e.cell (n + 1 + j) := fun hcell => by
        rw [← hassoc] at hcell
        exact h (j + 1) (Nat.zero_lt_succ j) (Nat.succ_lt_succ hj) hcell.symm
      show some (Memory.get _ (ringWrites e _ (n + 1) vs) (e.cell n)) = _
      rw [get_ringWrites_of_ne vs _ _ _ hlater, Memory.get_set, if_pos rfl]
      rfl
    | succ k =>
      rw [ringWrites, hassoc k, List.getElem?_cons_succ]
      refine ih _ _ _ (Nat.lt_of_succ_lt_succ hk) fun k' hlt hk' => ?_
      rw [← hassoc, ← hassoc]
      exact h (k' + 1) (Nat.succ_lt_succ hlt) (Nat.succ_lt_succ hk')

end

theorem length_dataSamples (f : Frame) (n : Nat) : (dataSamples f n).length = n := by
  induction n with
  | zero => rfl
  | succ n ih => rw [dataSamples, List.length_append, ih]; rfl

theorem dataSamples_getElem? (f : Frame) {n j : Nat} (hj : j < n) :
    (dataSamples f n)[j]? = some (BitVec.ofNat 16 (fieldAt f (6 + 2 * j) 2)) := by
  induction n with
  | zero => exact absurd hj (Nat.not_lt_zero j)
  | succ n ih =>
    rw [dataSamples]
    by_cases hlast : j = n
    · rw [hlast, List.getElem?_append_right (by rw [length_dataSamples]), length_dataSamples, Nat.sub_self]
      rfl
    · rw [List.getElem?_append_left (by rw [length_dataSamples]; omega)]
      exact ih (by omega)

/-! ### The class of a frame (R12 to R15) -/

section
variable {e : StreamEntry} {c : Nat} {seq : Byte}

theorem classify_of_past_end (h : 2 ^ 48 < e.next + c) : e.classify c seq = .old := if_pos h

theorem classify_of_live {x : Byte} (hfit : e.next + c ≤ 2 ^ 48) (hstate : e.state = .live) (hx : e.expected = some x) :
    e.classify c seq = if (seq - x).toNat = 0 then .inSequence else if (seq - x).toNat ≤ 127 then .gap (seq - x).toNat
      else .old := by
  simp only [StreamEntry.classify, Config.sampleNumbers, if_neg (Nat.not_lt.2 hfit), hstate, hx]

theorem classify_of_idle (hfit : e.next + c ≤ 2 ^ 48) (hstate : e.state = .idle) : e.classify c seq = .first := by
  simp only [StreamEntry.classify, Config.sampleNumbers, if_neg (Nat.not_lt.2 hfit), hstate]

end

/-! ### Offering a frame (R11) -/

section
variable {s : State} {f : Frame} {i : StreamIx} {e : StreamEntry}

theorem offerFrame_of_old (hkey : KeyAt s (dataNode f) (dataStream f) i e)
    (hclass : e.classify (dataCount f) (dataSequence f) = .old) :
    s.offerFrame f = (s.modifyStream i fun e => { e with oldFrames := satSucc e.oldFrames }, false) := by
  have hfound := streamWithKey_of_keyAt hkey
  obtain ⟨he, -⟩ := hkey
  simp only [State.offerFrame, hfound, he, hclass]

theorem offerFrame_of_gap (hkey : KeyAt s (dataNode f) (dataStream f) i e) {d : Nat}
    (hclass : e.classify (dataCount f) (dataSequence f) = .gap d) :
    s.offerFrame f = (s.takeGap i e d).acceptFrame i (dataSequence f) (dataSamples f (dataCount f)) := by
  have hfound := streamWithKey_of_keyAt hkey
  obtain ⟨he, -⟩ := hkey
  simp only [State.offerFrame, hfound, he, hclass]

theorem offerFrame_of_next (hkey : KeyAt s (dataNode f) (dataStream f) i e)
    (hclass : e.classify (dataCount f) (dataSequence f) = .first ∨
      e.classify (dataCount f) (dataSequence f) = .inSequence) :
    s.offerFrame f = s.acceptFrame i (dataSequence f) (dataSamples f (dataCount f)) := by
  have hfound := streamWithKey_of_keyAt hkey
  obtain ⟨he, -⟩ := hkey
  obtain hclass | hclass := hclass
  · simp only [State.offerFrame, hfound, he, hclass]
  · simp only [State.offerFrame, hfound, he, hclass]

/-- The link after a frame that was offered: marked or as received, placed in port B egress (R164, R166). -/
def offeredLink (l : Link) (f : Frame) (mark : Bool) : Link :=
  if mark = true ∧ (byteAt f 4).getLsbD 0 = false then
    ({ l with counters := { l.counters with marked := satSucc l.counters.marked } } : Link).placeB (markFrame f)
  else l.placeB f

theorem takeData_of_offered {t : State} {mark : Bool} (hform : dataWellFormed f = true)
    (hoffer : s.offerFrame f = (t, mark)) : s.takeData f = { t with link := offeredLink t.link f mark } := by
  rw [State.takeData, if_pos hform, hoffer]
  cases mark with
  | false => rw [offeredLink, if_neg fun h => Bool.false_ne_true h.1]; rfl
  | true =>
    cases hflag : eventFlag f with
    | false =>
      rw [offeredLink, if_pos ⟨rfl, hflag⟩]
      simp only [applyMark, hflag]
      rfl
    | true =>
      rw [offeredLink, if_neg fun h => Bool.noConfusion (hflag.symm.trans h.2)]
      simp only [applyMark, hflag]
      rfl

/-! ### Accepting a frame (R12, R13) -/

/-- An accepted frame before its samples: counted, the stream LIVE, the slots' timers reloaded (R12). -/
def begunFrame (i : StreamIx) (s : State) : State :=
  (s.modifyStream i fun e => { e with framesTaken := satSucc e.framesTaken, state := .live }).forSlotsOf i State.reloadTimer

/-- The frame's samples taken, and whether a rule asked for its marking (R16, R18). -/
def samplesTaken (i : StreamIx) (vs : List Sample) (s : State) : State × Bool := vs.foldl (takeSample i) (begunFrame i s, false)

theorem acceptFrame_eq (i : StreamIx) (seq : Byte) (vs : List Sample) (s : State) : s.acceptFrame i seq vs =
    (((samplesTaken i vs s).1.modifyStream i fun e => { e with expected := some (seq + 1) }).arbitrateForCommit,
      (samplesTaken i vs s).2) := rfl

theorem begunFrame_effect (he : s.stream i = some e) :
    FrameEffect i s { e with framesTaken := satSucc e.framesTaken, state := .live } s.samples (begunFrame i s) :=
  (frameEffect_modifyStream he fun e => { e with framesTaken := satSucc e.framesTaken, state := .live }).within
    (forSlotsOf_byCapture i reloadTimer_byCapture
      (s.modifyStream i fun e => { e with framesTaken := satSucc e.framesTaken, state := .live })).within

theorem samplesTaken_effect (he : s.stream i = some e) (vs : List Sample) :
    FrameEffect i s { e with
      next := e.next + vs.length, previous := (vs.getLast?).or e.previous, state := .live
      framesTaken := satSucc e.framesTaken } (ringWrites e s.samples e.next vs) (samplesTaken i vs s).1 := by
  have hbegun := begunFrame_effect he
  have htaken := foldl_takeSample_effect vs hbegun.stream false
  rw [tookAll_eq, hbegun.samples] at htaken
  have hcells := ringWrites_ring (e := e) (e' := { e with framesTaken := satSucc e.framesTaken, state := .live }) rfl rfl
    s.samples e.next vs
  rw [hcells] at htaken
  unfold samplesTaken
  exact hbegun.trans htaken

theorem acceptFrame_effect (he : s.stream i = some e) (seq : Byte) (vs : List Sample) :
    FrameEffect i s { e with
      next := e.next + vs.length, expected := some (seq + 1), previous := (vs.getLast?).or e.previous, state := .live
      framesTaken := satSucc e.framesTaken } (ringWrites e s.samples e.next vs) (s.acceptFrame i seq vs).1 := by
  have htaken := samplesTaken_effect he vs
  have hexpected := htaken.trans (frameEffect_modifyStream htaken.stream fun e => { e with expected := some (seq + 1) })
  rw [htaken.samples] at hexpected
  exact hexpected.within (arbitrateForCommit_byCapture
    ((samplesTaken i vs s).1.modifyStream i fun e => { e with expected := some (seq + 1) })).within

/-- A gap counted and told to the slots of the stream (R13). -/
def gapSignalled (i : StreamIx) (e : StreamEntry) (d : Nat) (s : State) : State :=
  (s.modifyStream i fun e => { e with gapEvents := satSucc e.gapEvents }).forSlotsOf i fun k s => s.gapSignal d e.next k

theorem gapSignalled_effect (he : s.stream i = some e) (d : Nat) :
    FrameEffect i s { e with gapEvents := satSucc e.gapEvents } s.samples (gapSignalled i e d s) :=
  (frameEffect_modifyStream he fun e => { e with gapEvents := satSucc e.gapEvents }).within
    (forSlotsOf_byCapture i (gapSignal_byCapture d e.next) _).within

theorem takeGap_effect (he : s.stream i = some e) (d : Nat) :
    FrameEffect i s { e with gapEvents := satSucc e.gapEvents, previous := none } s.samples (s.takeGap i e d) := by
  have hruled := (gapSignalled_effect he d).within (gapRules_within i (gapSignalled i e d s))
  have hlast := hruled.trans (frameEffect_modifyStream hruled.stream fun e => { e with previous := none })
  rw [hruled.samples] at hlast
  exact hlast

end

end Sys2Proof.Laws
end

section
/-!
PROOF. The obligation on offered frames (R14 to R20): what the Stream Tracker does in the words of the statement.
-/

namespace Sys2Proof.Laws

open Machine

section
variable {s u : State} {f : Frame} {i : StreamIx} {e : StreamEntry}

/-- The slots of a stream in ascending number, one by one (log 4). -/
theorem forSlotsOf_eq_foldl (i : StreamIx) (g : SlotIx → State → State) (s : State) :
    s.forSlotsOf i g = (List.finRange 8).foldl (fun u k =>
      match (u.slot k).capture with
      | some c => if c.request.stream = i then g k u else u
      | none => u) s := by
  refine congrArg (fun step => (List.finRange 8).foldl step s) (funext fun u => funext fun k => ?_)
  rw [State.captureOn]
  cases (u.slot k).capture with
  | none => rfl
  | some c => by_cases h : c.request.stream = i <;> simp [h]

theorem modifyStream_of_loaded (he : s.stream i = some e) (g : StreamEntry → StreamEntry) :
    s.modifyStream i g = s.setStream i (some (g e)) := by rw [State.modifyStream, he]; rfl

/-- The write of a sample (R16 steps 1 and 2): what leaves the ring, the cell, the next number. -/
theorem writeSample_steps (he : s.stream i = some e) (v : Sample) :
    s.writeSample i e v = ({ overtaken i e s with
      samples := Memory.set 0 (overtaken i e s).samples (e.base + e.next % e.length) v } : State).modifyStream i
        fun x => { x with next := x.next + 1 } := by
  have hstream := ((frameEffect_self he).within (overtaken_byCapture i e s).within).stream
  have hcell := (frameEffect_samples hstream
    (Memory.set 0 (overtaken i e s).samples (e.base + e.next % e.length) v)).stream
  exact (modifyStream_of_loaded hcell fun x => { x with next := e.next + 1 }).trans
    (modifyStream_of_loaded hcell fun x => { x with next := x.next + 1 }).symm

/-- One sample in the order of R16, the ring being written: the slots, the rules, the previous sample. -/
theorem takeSample_of_written {x : State × Bool} (he : x.1.stream i = some e) {v : Sample} {written : State}
    (hwritten : x.1.writeSample i e v = written) :
    takeSample i x v =
      let checked := written.forSlotsOf i fun k u => (u.slotChecks k).exhaustionTest k
      let judged := (List.finRange 64).foldl (evalRule i e.next v e.previous checked.time) (checked, x.2)
      (judged.1.modifyStream i fun e => { e with previous := some v }, judged.2) := by
  rw [takeSample_of_loaded he, sampleJudged, sampleChecked, hwritten]
  rfl

/-- The cell writes of a frame on a link that has counted it leave all else within the capture path. -/
theorem FrameEffect.linked {l : Link} {m : List (Nat × Sample)} (h : FrameEffect i { s with link := l } e m u) (l' : Link) :
    WithinCapture { s with streams := u.streams, samples := u.samples, link := l' } { u with link := l' } := by
  have hu := h
  rw [FrameEffect, WithinCapture] at hu
  rw [WithinCapture, h.streams, h.samples]
  rw [hu]

/-- A frame that port A has counted. -/
def frameCounted (s : State) : State := s.countLink fun c => { c with portAFrames := satSucc c.portAFrames }

theorem exec_dataFrameArrival_offered (hpower : s.powered = true) (hpath : s.link.aToB = .through)
    (hk : frameKind f = .data) (hform : dataWellFormed f = true) {t : State} {mark : Bool}
    (hoffer : (frameCounted s).offerFrame f = (t, mark)) :
    exec (.dataFrameArrival f) s = .next { t with link := offeredLink t.link f mark } := by
  rw [show exec (.dataFrameArrival f) s = s.arrival .a f from rfl, arrival_on_a_through hpower hpath, takeOnA_of_data hk]
  exact congrArg _ (takeData_of_offered hform hoffer)

/-! ### An old frame -/

/-- A frame is old: its samples would pass the end of the numbers, or it is 128 or more after the expected one (R14, R15). -/
def FrameOld (f : Frame) (e : StreamEntry) : Prop :=
  2 ^ 48 < e.next + (byteAt f 5).toNat ∨ ∃ x, e.state = .live ∧ e.expected = some x ∧ 128 ≤ (byteAt f 3 - x).toNat

theorem classify_of_frameOld (h : FrameOld f e) : e.classify (dataCount f) (dataSequence f) = .old := by
  by_cases hfit : 2 ^ 48 < e.next + dataCount f
  · exact classify_of_past_end hfit
  · obtain hend | ⟨x, hlive, hx, hfar⟩ := h
    · exact absurd hend hfit
    · have hfar' : 128 ≤ (dataSequence f - x).toNat := hfar
      rw [classify_of_live (Nat.not_lt.1 hfit) hlive hx, if_neg (by omega), if_neg (by omega)]

theorem exec_dataFrameArrival_old (hpower : s.powered = true) (hpath : s.link.aToB = .through)
    (hk : frameKind f = .data) (hform : dataWellFormed f = true)
    (hkey : KeyAt s (byteAt f 1) (byteAt f 2 &&& 0x0F) i e) (hold : FrameOld f e) :
    exec (.dataFrameArrival f) s = .next { s with
      streams := tableSet s.streams i (some { e with oldFrames := satSucc e.oldFrames })
      link := { s.link with
        counters := { s.link.counters with portAFrames := satSucc s.link.counters.portAFrames } }.placeB f } := by
  have hcounted : KeyAt (frameCounted s) (dataNode f) (dataStream f) i e := hkey
  have hloaded : (frameCounted s).stream i = some e := hcounted.1
  have hoffer := offerFrame_of_old hcounted (classify_of_frameOld hold)
  rw [modifyStream_of_loaded hloaded] at hoffer
  rw [exec_dataFrameArrival_offered hpower hpath hk hform hoffer, offeredLink, if_neg fun h => Bool.false_ne_true h.1]
  rfl

/-! ### An accepted frame -/

/-- The frames missing before one of a sequence number (R13). -/
def gapBefore (e : StreamEntry) (seq : Byte) : Nat :=
  match e.expected with
  | some x => (seq - x).toNat
  | none => 0

/-- A frame that is accepted: across a gap, or the first or the next one (R12, R13). -/
def FrameTaken (f : Frame) (e : StreamEntry) (gap : Bool) : Prop :=
  if gap then ∃ x, e.state = .live ∧ e.expected = some x ∧ 1 ≤ (byteAt f 3 - x).toNat ∧ (byteAt f 3 - x).toNat ≤ 127
  else e.state = .idle ∨ e.state = .live ∧ e.expected = some (byteAt f 3)

/-- The stream before an accepted frame begins: the gap counted and told, if there is one. -/
def frameReached (i : StreamIx) (e : StreamEntry) (f : Frame) (gap : Bool) (s : State) : State :=
  if gap then s.takeGap i e (gapBefore e (dataSequence f)) else s

theorem offerFrame_of_frameTaken (hkey : KeyAt s (dataNode f) (dataStream f) i e)
    (hfit : e.next + dataCount f ≤ 2 ^ 48) {gap : Bool} (h : FrameTaken f e gap) : s.offerFrame f =
      (frameReached i e f gap s).acceptFrame i (dataSequence f) (dataSamples f (dataCount f)) := by
  cases gap with
  | true =>
    obtain ⟨x, hlive, hx, hpos, hnear⟩ := h
    have hgap : gapBefore e (dataSequence f) = (dataSequence f - x).toNat := by rw [gapBefore, hx]
    have hpos' : 1 ≤ (dataSequence f - x).toNat := hpos
    have hclass : e.classify (dataCount f) (dataSequence f) = .gap (dataSequence f - x).toNat := by
      exact (classify_of_live hfit hlive hx).trans ((if_neg (by omega)).trans (if_pos hnear))
    rw [offerFrame_of_gap hkey hclass, ← hgap]
    rfl
  | false =>
    refine offerFrame_of_next hkey ?_
    obtain hidle | ⟨hlive, hx⟩ := h
    · exact .inl (classify_of_idle hfit hidle)
    · have hzero : (dataSequence f - byteAt f 3).toNat = 0 := by
        show (byteAt f 3 - byteAt f 3).toNat = 0
        rw [BitVec.sub_self]
        rfl
      exact .inr ((classify_of_live hfit hlive hx).trans (if_pos hzero))

/-- The entry with its gap told, if there is one. -/
def StreamEntry.reached (e : StreamEntry) (gap : Bool) : StreamEntry :=
  { e with
    gapEvents := if gap then satSucc e.gapEvents else e.gapEvents
    previous := if gap then none else e.previous }

theorem frameReached_effect (he : s.stream i = some e) (f : Frame) (gap : Bool) :
    FrameEffect i s (StreamEntry.reached e gap) s.samples (frameReached i e f gap s) := by
  cases gap with
  | true => exact takeGap_effect he _
  | false => exact frameEffect_self he

/-- The entry after an accepted frame. -/
def StreamEntry.afterFrame (e : StreamEntry) (seq : Byte) (vs : List Sample) (gap : Bool) : StreamEntry :=
  { e with
    next := e.next + vs.length, expected := some (seq + 1), previous := vs.getLast?, state := .live
    framesTaken := satSucc e.framesTaken
    gapEvents := if gap then satSucc e.gapEvents else e.gapEvents }

theorem acceptedFrame_effect (he : s.stream i = some e) (f : Frame) (gap : Bool) (seq : Byte) {vs : List Sample}
    (hvs : vs ≠ []) : FrameEffect i s (StreamEntry.afterFrame e seq vs gap) (ringWrites e s.samples e.next vs)
      ((frameReached i e f gap s).acceptFrame i seq vs).1 := by
  have hreached := frameReached_effect he f gap
  have haccepted := acceptFrame_effect hreached.stream seq vs
  have hlast (p : Option Sample) : vs.getLast?.or p = vs.getLast? := by
    rw [List.getLast?_eq_some_getLast hvs, Option.some_or]
  have hcells : ringWrites (StreamEntry.reached e gap) s.samples (StreamEntry.reached e gap).next vs = ringWrites e s.samples e.next vs :=
    ringWrites_ring (e := e) (e' := StreamEntry.reached e gap) rfl rfl s.samples e.next vs
  rw [hlast, hreached.samples, hcells] at haccepted
  exact hreached.trans haccepted

theorem exec_dataFrameArrival_taken (hpower : s.powered = true) (hpath : s.link.aToB = .through)
    (hk : frameKind f = .data) (hform : dataWellFormed f = true)
    (hkey : KeyAt s (byteAt f 1) (byteAt f 2 &&& 0x0F) i e) (hfit : e.next + dataCount f ≤ 2 ^ 48) {gap : Bool}
    (h : FrameTaken f e gap) {t : State} {mark : Bool}
    (ht : (frameReached i e f gap (frameCounted s)).acceptFrame i (dataSequence f) (dataSamples f (dataCount f)) = (t, mark)) :
    exec (.dataFrameArrival f) s = .next { t with link := offeredLink (frameCounted s).link f mark } ∧
      FrameEffect i (frameCounted s) (StreamEntry.afterFrame e (dataSequence f) (dataSamples f (dataCount f)) gap)
        (ringWrites e s.samples e.next (dataSamples f (dataCount f))) t := by
  have hcounted : KeyAt (frameCounted s) (dataNode f) (dataStream f) i e := hkey
  have hloaded : (frameCounted s).stream i = some e := hcounted.1
  have hnonempty : dataSamples f (dataCount f) ≠ [] := by
    obtain ⟨-, -, hcount, -⟩ := (dataWellFormed_iff f).1 hform
    rw [← List.length_pos_iff, length_dataSamples]
    exact hcount
  have heffect := acceptedFrame_effect hloaded f gap (dataSequence f) hnonempty
  rw [ht] at heffect
  refine ⟨?exec, heffect⟩
  have hexec := exec_dataFrameArrival_offered hpower hpath hk hform ((offerFrame_of_frameTaken hcounted hfit h).trans ht)
  rw [heffect.link] at hexec
  exact hexec

end

/-! ### The obligation -/

theorem evalRule_of_unloaded {s : State} {j : RuleIx} (hr : s.rule j = none) (i : StreamIx) (n : Nat) (v : Sample)
    (p : Option Sample) (stamp : Stamp) (mark : Bool) : evalRule i n v p stamp (s, mark) j = (s, mark) := by
  simp only [evalRule, hr]

theorem evalRule_of_loaded {s : State} {j : RuleIx} {r : Rule} (hr : s.rule j = some r) (i : StreamIx) (n : Nat)
    (v : Sample) (p : Option Sample) (stamp : Stamp) (mark : Bool) : evalRule i n v p stamp (s, mark) j =
      if r.stream = i then
        (r.next v p).elim (s.fireRule j r n stamp, mark || r.mark) fun st =>
          (s.setRule j (some { r with state := st }), mark)
      else (s, mark) := by
  simp only [evalRule, hr]
  cases r.next v p <;> rfl

/-- Settles O19: an old frame by its class; an accepted one by the effect that its gap, its samples and its end have on
the entry and on sample memory, everything else staying within the capture path. -/
theorem offeredFramesAreCountedOrAccepted : Obligations.OfferedFramesAreCountedOrAccepted := by
  unfold Obligations.OfferedFramesAreCountedOrAccepted
  refine ⟨?old, ?taken, ?samples, ?rules⟩
  case old =>
    intro s f i e hpower hpath hk hform hkey hold
    exact exec_dataFrameArrival_old hpower hpath hk hform hkey hold
  case taken =>
    intro s f i e gap hpower hpath hk hform hkey n cell hfit hcase v1 onSlots entry gapped begun sample c counted taken
      last t
    have honSlots (g : SlotIx → State → State) (u : State) : onSlots g u = u.forSlotsOf i g :=
      (forSlotsOf_eq_foldl i g u).symm
    have hentry (g : StreamEntry → StreamEntry) (u : State) : entry g u = u.modifyStream i g := rfl
    have hgapped (u : State) : gapped u = u.takeGap i e (gapBefore e (dataSequence f)) := by
      simp only [gapped, honSlots]
      rfl
    have hbegun (u : State) : begun u = begunFrame i u := honSlots _ _
    have hovertaken (x : StreamEntry) (u : State) :
        (if x.length ≤ x.next then onSlots (fun k u => u.overtake (x.next - x.length) k) u else u) = overtaken i x u := by
      rw [honSlots]
      rfl
    have hsample : sample = takeSample i := by
      funext u x
      cases he : u.1.stream i with
      | none => simp only [sample, takeSample, he]
      | some e =>
        simp only [sample, he, hovertaken]
        simp only [honSlots, hentry]
        exact (takeSample_of_written he (writeSample_steps he x)).symm
    have htaken : taken = samplesTaken i (dataSamples f n) (frameReached i e f gap (frameCounted s)) := by
      simp only [taken, hsample, hbegun, hgapped]
      rfl
    obtain ⟨⟨accepted, mark⟩, hacc⟩ : ∃ x, (frameReached i e f gap (frameCounted s)).acceptFrame i (dataSequence f)
      (dataSamples f (dataCount f)) = x := ⟨_, rfl⟩
    have hparts := hacc
    rw [acceptFrame_eq, Prod.mk.injEq] at hparts
    obtain ⟨haccepted, hmark⟩ := hparts
    have hlast : last = accepted := by
      simp only [last, htaken, hentry]
      exact haccepted
    have ht : t = { accepted with link := offeredLink (frameCounted s).link f mark } := by
      simp only [t, htaken, hlast]
      rw [← hmark]
      rfl
    clear_value t
    subst ht
    obtain ⟨hexec, heffect⟩ := exec_dataFrameArrival_taken hpower hpath hk hform hkey hfit hcase hacc
    have hlength : (dataSamples f (dataCount f)).length = n := length_dataSamples f n
    refine ⟨hexec, ?entry, ?cells, ?others, heffect.linked _⟩
    case entry =>
      have hentries := heffect.streams
      rw [StreamEntry.afterFrame, hlength] at hentries
      exact hentries
    case cells =>
      intro k hk hlater
      show some (Memory.get 0 accepted.samples (cell k)) = _
      rw [heffect.samples]
      exact get_ringWrites _ s.samples e.next k (by omega) fun k' hlt hk' => hlater k' hlt (by omega)
    case others =>
      intro a ha
      show Memory.get 0 accepted.samples a = _
      rw [heffect.samples]
      exact get_ringWrites_of_ne _ s.samples e.next a fun k hk => ha k (by omega)
  case samples => exact fun f n => ⟨length_dataSamples f n, fun j hj => dataSamples_getElem? f hj⟩
  case rules =>
    intro s mark i j n v p stamp judged
    refine ⟨fun hr => evalRule_of_unloaded hr i n v p stamp mark, fun r hr => ?_⟩
    have hjudged : judged = _ := evalRule_of_loaded hr i n v p stamp mark
    refine ⟨fun hother => ?other, fun st hstream hnext => ?moves, fun hstream hnext => ?fires⟩
    case other => rw [hjudged, if_neg hother]
    case moves => rw [hjudged, if_pos hstream, hnext]; rfl
    case fires => rw [hjudged, if_pos hstream, hnext]; rfl

end Sys2Proof.Laws
end

section
/-!
PROOF. The obligations on capture requests (R45 to R58): the five tests in order, what abandonment frees, and the
capture that an allocation puts in its slot.
-/

namespace Sys2Proof.Laws

open Machine

/-! ### The tests in the words of the statements -/

/-- The blocks of a slot's buffers whose write is in progress, by the kinds of buffer (R57). -/
theorem inProgress_eq {f : Buffer → List Nat} (hfree : f .free = []) (hfilled : ∀ d, f (.filled d) = [])
    (hown : ∀ d, f (.writing d false) = [d.block]) (horphan : ∀ d, f (.writing d true) = []) (x : Slot) :
    f x.buffer0 ++ f x.buffer1 = x.inProgress := by
  have hbuffer (b : Buffer) : f b = b.ownWriting.toList := by
    cases b with
    | free => exact hfree
    | filled d => exact hfilled d
    | writing d orphaned =>
      cases orphaned with
      | false => exact hown d
      | true => exact horphan d
  rw [hbuffer, hbuffer]
  rfl

theorem isDefined_iff (x : RecordingState) : x.isDefined = true ↔ ∃ n p, x = .defined n p := by
  cases x <;> simp [RecordingState.isDefined]

/-- Test 4 (R51, R52). -/
theorem mayTake_iff (x : Slot) (level : Nat) (q : CaptureRequest) : x.mayTake level q = true ↔
    ∀ c, x.capture = some c →
      (∃ rp timer, c.phase = .collecting rp timer) ∧ c.request.priority < q.priority ∧ level ≤ q.priority := by
  cases hx : x.capture with
  | none => simp [Slot.mayTake, hx]
  | some c => cases hphase : c.phase <;> simp [Slot.mayTake, hx, hphase]

section
variable {s : State} {q : CaptureRequest}

theorem not_suspended_iff : s.cond.state ≠ .suspended ↔ s.cond.state = .running := by
  cases s.cond.state <;> simp

theorem captureRequest_of_missed {c : Condition} (h : s.allocationTests q = some (some c)) :
    s.captureRequest q = (s.report (reportOf c s.pointer q), false) := by
  simp only [State.captureRequest, h]

theorem captureRequest_of_passed (h : s.allocationTests q = none) :
    s.captureRequest q = ((s.abandon s.pointer).allocate q, true) := by
  simp only [State.captureRequest, h]

/-- The tests of a capture request while RUNNING, in order (R51). -/
theorem allocationTests_of_running (h : s.cond.state = .running) : s.allocationTests q =
    if ¬(s.store.state = .ready ∧ (s.store.recording q.recording).isDefined = true) then some (some .unavailable)
    else if s.protect then some (some .protect)
    else if (s.slot s.pointer).mayTake s.cond.level q = false then some (some .overflow)
    else if s.store.free + (s.slot s.pointer).gain < s.store.reserved + q.blocks then some (some .full)
    else none := if_neg (not_suspended_iff.2 h)

theorem allocationTests_of_open (hrunning : s.cond.state = .running)
    (hready : s.store.state = .ready ∧ (s.store.recording q.recording).isDefined = true) (hprotect : s.protect = false) :
    s.allocationTests q =
      if (s.slot s.pointer).mayTake s.cond.level q = false then some (some .overflow)
      else if s.store.free + (s.slot s.pointer).gain < s.store.reserved + q.blocks then some (some .full)
      else none := by
  rw [allocationTests_of_running hrunning, if_neg (not_not_intro hready), if_neg (by simp [hprotect])]

theorem allocationTests_of_mayTake (hrunning : s.cond.state = .running)
    (hready : s.store.state = .ready ∧ (s.store.recording q.recording).isDefined = true) (hprotect : s.protect = false)
    (hmay : (s.slot s.pointer).mayTake s.cond.level q = true) : s.allocationTests q =
      if s.store.free + (s.slot s.pointer).gain < s.store.reserved + q.blocks then some (some .full) else none := by
  rw [allocationTests_of_open hrunning hready hprotect, if_neg (by simp [hmay])]

theorem passed_of_taken (h : (s.captureRequest q).2 = true) : s.allocationTests q = none := by
  cases htests : s.allocationTests q with
  | none => rfl
  | some missed =>
    simp only [State.captureRequest, htests] at h
    cases missed <;> exact absurd h Bool.false_ne_true

end

theorem streams_of_within {s t : State} (h : WithinCapture s t) : t.streams = s.streams := by
  rw [WithinCapture] at h
  rw [h]

theorem gain_eq (x : Slot) : x.gain = x.capture.elim 0 fun c =>
    c.remaining + 1 + (c.blocks.filter fun b => !(x.inProgress.contains b)).length := by
  cases hx : x.capture with
  | none => simp only [Slot.gain, hx]; rfl
  | some c =>
    simp only [Slot.gain, hx, Slot.freedAtOnce, List.length_cons, Option.elim_some]
    omega

/-- Settles O30: test by test, each under the tests before it. -/
theorem captureTestsInOrder : Obligations.CaptureTestsInOrder := by
  unfold Obligations.CaptureTestsInOrder
  intro s q x running available mayTake blocks inProgress gain missed
  have hgain : gain = (s.slot s.pointer).gain := by
    rw [gain_eq]
    simp only [gain, inProgress_eq (f := inProgress) rfl (fun _ => rfl) (fun _ => rfl) (fun _ => rfl) x]
    cases x.capture <;> rfl
  have havailable : available ↔ s.store.state = .ready ∧ (s.store.recording q.recording).isDefined = true :=
    and_congr_right fun _ => (isDefined_iff _).symm
  have hmay : mayTake ↔ (s.slot s.pointer).mayTake s.cond.level q = true := (mayTake_iff x s.cond.level q).symm
  refine ⟨?suspended, ?unavailable, ?protect, ?overflow, ?full, ?taken⟩
  case suspended =>
    intro hstopped
    exact captureRequest_of_suspended (by_contra fun h => hstopped (not_suspended_iff.1 h)) q
  case unavailable =>
    intro hrunning hnot
    refine captureRequest_of_missed ?_
    rw [allocationTests_of_running hrunning, if_pos fun h => hnot (havailable.2 h)]
  case protect =>
    intro hrunning hready hprotect
    refine captureRequest_of_missed ?_
    rw [allocationTests_of_running hrunning, if_neg (not_not_intro (havailable.1 hready)), if_pos hprotect]
  case overflow =>
    intro hrunning hready hprotect hnot
    refine captureRequest_of_missed ?_
    rw [allocationTests_of_open hrunning (havailable.1 hready) hprotect,
      if_pos (Bool.eq_false_iff.2 fun h => hnot (hmay.2 h))]
  case full =>
    intro hrunning hready hprotect htake hfew
    refine captureRequest_of_missed ?_
    rw [hgain] at hfew
    exact (allocationTests_of_mayTake hrunning (havailable.1 hready) hprotect (hmay.1 htake)).trans (if_pos hfew)
  case taken =>
    intro hrunning hready hprotect htake hroom
    rw [hgain] at hroom
    have hpassed : s.allocationTests q = none :=
      (allocationTests_of_mayTake hrunning (havailable.1 hready) hprotect (hmay.1 htake)).trans (if_neg (Nat.not_lt.2 hroom))
    rw [captureRequest_of_passed hpassed]

theorem abandon_slot_of_idle {s : State} {k : SlotIx} {c : Capture} (hc : (s.slot k).capture = some c)
    (hidle : ∀ d o, (s.slot k).buffer0 ≠ .writing d o ∧ (s.slot k).buffer1 ≠ .writing d o) :
    (s.abandon k).slot k = ⟨none, .free, .free⟩ := by
  have hfree (b : Buffer) (h : ∀ d o, b ≠ .writing d o) : b.abandoned = .free := by
    cases b with
    | free => rfl
    | filled d => rfl
    | writing d o => exact absurd rfl (h d o)
  rw [abandon_of_occupied hc]
  show (State.setSlot _ k ⟨none, (s.slot k).buffer0.abandoned, (s.slot k).buffer1.abandoned⟩).slot k = _
  rw [slot_setSlot_same, hfree _ fun d o => (hidle d o).1, hfree _ fun d o => (hidle d o).2]

/-- Settles O31: abandonment, free claims and the allocation from their definitions; the head is there by the accounts
that the tests leave in order. -/
theorem allocationFillsTheSlotWithWhatTheRingHolds : Obligations.AllocationFillsTheSlotWithWhatTheRingHolds := by
  unfold Obligations.AllocationFillsTheSlotWithWhatTheRingHolds
  refine ⟨?abandon, ?freed, ?orphanless, ?allocate, ?pre⟩
  case abandon =>
    intro s k
    refine ⟨abandon_of_empty, ?_⟩
    intro c hc x inProgress left freed
    have hleft (b : Buffer) : left b = b.abandoned := by cases b <;> rfl
    have hfreed : freed = (s.slot k).freedAtOnce c := by
      simp only [freed, inProgress_eq (f := inProgress) rfl (fun _ => rfl) (fun _ => rfl) (fun _ => rfl) x]
      rfl
    rw [abandon_of_occupied hc, hleft, hleft, hfreed, ← freeBlocks_reserved s.store ((s.slot k).freedAtOnce c)]
    rfl
  case freed =>
    intro m bs
    exact ⟨freeBlocks_spec bs m, fun x => mem_freeBlocks bs x m, freeBlocks_free_eq bs m⟩
  case orphanless =>
    intro s k ⟨c, hc⟩ hidle
    exact abandon_slot_of_idle hc hidle
  case allocate =>
    intro s q e htaken he k u blocks reserved
    have hpassed := passed_of_taken htaken
    refine ⟨fun hmap hreservations hblocks => ?takes, ?placed⟩
    case takes =>
      obtain ⟨⟨b, m⟩, htake⟩ := Option.ne_none_iff_exists'.1 (allocation_takes hmap hreservations hblocks q hpassed)
      exact ⟨b, m, htake⟩
    case placed =>
      intro b m htake held c placed told
      have hlength : u.ringLength q.stream = e.length := by
        have hstreams : u.streams = s.streams := streams_of_within (abandon_byCapture k s).within
        rw [State.ringLength, State.stream, hstreams, ← State.stream, he]
      have hpointer : u.pointer = k := (abandon_spec k s).2.1
      have hc : newCapture q (u.ringLength q.stream) b = c := by
        rw [hlength]
        simp only [c, held, Nat.zero_max]
        rfl
      have hplaced : placedCapture q b m u = placed := by
        rw [placedCapture, hc, hpointer]
        rfl
      have htold : toldCapture q b m u = told := by
        rw [toldCapture, hplaced, hc, hpointer]
        simp only [c, decide_eq_true_eq]
        rfl
      rw [captureRequest_of_passed hpassed, allocate_of_taken htake, htold, hpointer]
      rfl
  case pre =>
    intro pre trigger length hmargin
    rw [Nat.zero_max, preActual]
    omega

end Sys2Proof.Laws
end

section
/-!
PROOF. The obligation on the queries of slots, of the store and of a recording (R73, R114, R115).
-/

namespace Sys2Proof.Laws

open Machine

/-! ### SLOTS QUERY -/

/-- The fields of a result that a phase gives: tag, read position, end cause, silence timer, presence (R73, section 10.2). -/
def phaseFields : CapturePhase → Nat × Nat × Nat × Nat × Nat
  | .collecting rp timer => (1, rp, 0, timer.getD 0, if timer.isSome then 5 else 1)
  | .draining rp e => (2, rp, (causeByte e).toNat, 0, 3)
  | .committing e => (3, 0, (causeByte e).toNat, 0, 2)

section
variable {x : Slot} {c : Capture}

theorem tag_of_occupied (h : x.capture = some c) : x.tag = BitVec.ofNat 8 (phaseFields c.phase).1 := by
  simp only [Slot.tag, h]
  cases c.phase <;> rfl

theorem optNat_readPosition (c : Capture) : optNat c.readPosition = (phaseFields c.phase).2.1 := by
  simp only [Capture.readPosition]
  cases c.phase <;> rfl

theorem causeByte_toNat (c : Capture) : c.cause?.elim 0 causeByte = BitVec.ofNat 8 (phaseFields c.phase).2.2.1 := by
  simp only [Capture.cause?]
  cases c.phase with
  | collecting rp timer => rfl
  | draining rp e => cases e <;> rfl
  | committing e => cases e <;> rfl

theorem optNat_timer (c : Capture) : optNat c.timer? = (phaseFields c.phase).2.2.2.1 := by
  simp only [Capture.timer?]
  cases c.phase <;> rfl

theorem flagBits_phase (c : Capture) :
    flagBits [c.readPosition.isSome, c.cause?.isSome, c.timer?.isSome] = (phaseFields c.phase).2.2.2.2 := by
  simp only [Capture.readPosition, Capture.cause?, Capture.timer?]
  cases c.phase with
  | collecting rp timer => cases timer <;> rfl
  | draining rp e => rfl
  | committing e => rfl

/-- The result of SLOTS QUERY for an occupied slot, from the bytes of its read position and of its end sample. -/
def slotAnswer (k : SlotIx) (x : Slot) (c : Capture) (position finish : List Byte) : List Byte :=
  [BitVec.ofNat 8 k.val] ++ [BitVec.ofNat 8 (phaseFields c.phase).1] ++ [BitVec.ofNat 8 c.request.rule.val]
    ++ [BitVec.ofNat 8 c.request.priority] ++ [BitVec.ofNat 8 c.request.stream.val]
    ++ [BitVec.ofNat 8 (c.request.recording.val + 1)] ++ toBytes 6 c.request.trigger
    ++ (wordBytes 2 c.request.stamp.epoch ++ wordBytes 4 c.request.stamp.cycle) ++ toBytes 2 c.request.pre
    ++ toBytes 2 c.request.post ++ [BitVec.ofNat 8 c.request.silence] ++ toBytes 2 c.preActual ++ toBytes 6 c.first
    ++ position ++ finish ++ [BitVec.ofNat 8 (phaseFields c.phase).2.2.1] ++ [BitVec.ofNat 8 (phaseFields c.phase).2.2.2.1]
    ++ toBytes 2 c.head ++ [BitVec.ofNat 8 c.blocks.length] ++ [BitVec.ofNat 8 c.remaining]
    ++ ([x.buffer0.code] ++ [x.buffer1.code]) ++ [BitVec.ofNat 8 c.gaps.length]
    ++ [BitVec.ofNat 8 ((if c.short then 1 else 0) + (if c.gapped then 2 else 0) + (if c.gapOverflow then 4 else 0))]
    ++ [BitVec.ofNat 8 (phaseFields c.phase).2.2.2.2]

theorem length_slotAnswer (k : SlotIx) (x : Slot) (c : Capture) {position finish : List Byte} (hp : position.length = 6)
    (hf : finish.length = 6) : (slotAnswer k x c position finish).length = 54 := by
  unfold slotAnswer
  simp only [List.length_append, List.length_singleton, length_toBytes, length_wordBytes, hp, hf]

theorem recordFlags_eq (a b o : Bool) :
    recordFlags a b o = BitVec.ofNat 8 ((if a then 1 else 0) + (if b then 2 else 0) + (if o then 4 else 0)) := by
  cases a <;> cases b <;> cases o <;> rfl

theorem slotNumbers_of_empty (h : x.capture = none) : slotNumbers x = [] := by
  simp only [slotNumbers, h]

theorem slotResult_of_empty (ix : Nat) (k : SlotIx) (h : x.capture = none) : slotResult ix k x =
    [BitVec.ofNat 8 k.val] ++ [0] ++ List.replicate 47 0 ++ ([x.buffer0.code] ++ [x.buffer1.code]) ++ [0, 0, 0] := by
  have htag : x.tag = 0 := by simp only [Slot.tag, h]
  unfold slotResult
  simp only [h, htag]
  rfl

theorem slotResult_of_occupied (ix : Nat) (k : SlotIx) (h : x.capture = some c) : slotResult ix k x =
    slotAnswer k x c (sampleNumberBytes ix (phaseFields c.phase).2.1) (sampleNumberBytes (ix + 1) c.endSample) := by
  unfold slotResult slotAnswer
  simp only [h]
  rw [tag_of_occupied h, optNat_readPosition, causeByte_toNat, optNat_timer, flagBits_phase, recordFlags_eq]
  simp only [toBytes_one, stampBytes, recordingNumber, List.append_assoc, List.cons_append, List.nil_append]

end

section
variable {s : State} {q : Request} {k : SlotIx} {c : Capture}

theorem exec_slotsQuery_all (h : Handed s .slotsQuery q) (hargs : q.args = []) : exec .slotsQuery s =
    .next (s.respond .ok (BitVec.ofNat 8 s.pointer.val :: (List.finRange 8).map fun k => (s.slot k).tag)) := by
  rw [show exec .slotsQuery s = execSlotsQuery s from rfl, execSlotsQuery, ownerStep_of_handed h]
  exact congrArg _ (if_pos hargs)

theorem exec_slotsQuery_misnumbered (h : Handed s .slotsQuery q) (hargs : q.args ≠ []) (hk : 8 ≤ (byteAt q.args 0).toNat) :
    exec .slotsQuery s = .next (s.refuse .badArgument) := by
  rw [show exec .slotsQuery s = execSlotsQuery s from rfl, execSlotsQuery, ownerStep_of_handed h]
  simp only [if_neg hargs, Request.byte, indexOf_of_ge hk]

theorem exec_slotsQuery_one (h : Handed s .slotsQuery q) (hargs : q.args ≠ []) (hk : (byteAt q.args 0).toNat = k.val) :
    exec .slotsQuery s = .next (({ s with freeIx := freeAfter s.freeIx (slotNumbers (s.slot k)) } : State).respond .ok
      (slotResult s.freeIx k (s.slot k))) := by
  rw [show exec .slotsQuery s = execSlotsQuery s from rfl, execSlotsQuery, ownerStep_of_handed h]
  simp only [if_neg hargs, Request.byte, hk, indexOf_val]

end

/-! ### STORE QUERY -/

theorem length_nameBytes (k : Nat) (name : List Byte) : (nameBytes k name).length = k + 1 := by
  rw [nameBytes, List.length_cons, length_padTo]

theorem boolByte_eq (b : Bool) : boolByte b = BitVec.ofNat 8 (if b then 1 else 0) := by cases b <;> rfl

/-- The label's fields in the result, absent without a label copy (R114). -/
def labelFields (l : Option LabelCopy) : List Byte :=
  l.elim (List.replicate 19 0) fun l =>
    [BitVec.ofNat 8 l.name.length] ++ (l.name ++ List.replicate 16 0).take 16 ++ wordBytes 2 l.serial

/-- The counts in the result, absent in MOUNTING (R114). -/
def countFields (m : StoreManager) : List Byte :=
  if m.state = .mounting then List.replicate 8 0
  else toBytes 2 m.free ++ toBytes 2 m.reserved ++ toBytes 2 (m.free - m.reserved) ++ toBytes 2 m.cursor

theorem labelFields_eq (l : Option LabelCopy) :
    nameBytes 16 (l.elim [] (·.name)) ++ wordBytes 2 (l.elim 0 (·.serial)) = labelFields l := by
  cases l <;> rfl

theorem flagBits_known (a b : Bool) :
    flagBits [a, a, b, b, b, b] = (if a then 3 else 0) + (if b then 60 else 0) := by cases a <;> cases b <;> rfl

theorem storeResult_eq (s : State) : s.storeResult =
    [s.store.state.code] ++ [BitVec.ofNat 8 (if s.protect then 1 else 0)] ++ labelFields s.store.label ++ toBytes 2 8192
      ++ toBytes 2 8175 ++ countFields s.store ++ [BitVec.ofNat 8 (s.store.countRecordings RecordingState.isDefined)]
      ++ [BitVec.ofNat 8 (s.store.countRecordings RecordingState.isDamaged)] ++ wordBytes 2 s.store.damage
      ++ [maintenanceCode s.maint] ++ [BitVec.ofNat 8 s.index.queue.length] ++ [BitVec.ofNat 8 s.release.queue.length]
      ++ [BitVec.ofNat 8 s.release.parked.length]
      ++ [BitVec.ofNat 8 ((if s.store.label = none then 0 else 3) + (if s.store.state = .mounting then 0 else 60))] := by
  have hlabel : (if s.store.label.isSome then 3 else 0) = if s.store.label = none then 0 else 3 := by
    cases s.store.label <;> rfl
  have hknown : (if s.store.state != .mounting then 60 else 0) = if s.store.state = .mounting then 0 else 60 := by
    cases s.store.state <;> rfl
  have hcounts : countFields s.store =
      (if s.store.state != .mounting then toBytes 2 s.store.free else toBytes 2 0)
        ++ (if s.store.state != .mounting then toBytes 2 s.store.reserved else toBytes 2 0)
        ++ (if s.store.state != .mounting then toBytes 2 (s.store.free - s.store.reserved) else toBytes 2 0)
        ++ (if s.store.state != .mounting then toBytes 2 s.store.cursor else toBytes 2 0) := by
    by_cases h : s.store.state = .mounting
    · simp only [countFields, h]
      rfl
    · have hknown : (s.store.state != .mounting) = true := bne_iff_ne.2 h
      rw [countFields, if_neg h, if_pos hknown, if_pos hknown, if_pos hknown, if_pos hknown]
  unfold State.storeResult
  dsimp only
  rw [flagBits_known, hlabel, hknown, boolByte_eq, ← labelFields_eq, hcounts]
  simp only [toBytes_one, Config.storeBlocks, Config.dataBlocks, List.append_assoc, List.cons_append, List.nil_append]

theorem length_storeResult (s : State) : s.storeResult.length = 42 := by
  unfold State.storeResult
  by_cases h : s.store.state = .mounting <;>
    simp [h, length_toBytes, length_wordBytes, length_nameBytes]

theorem exec_storeQuery {s : State} {q : Request} (h : Handed s .storeQuery q) :
    exec .storeQuery s = .next (s.respond .ok s.storeResult) := by
  rw [show exec .storeQuery s = execStoreQuery s from rfl, execStoreQuery, ownerStep_of_handed h]

/-! ### RECORDING QUERY -/

section
variable {s : State} {q : Request} {r : RecIx} {e : RecordingEntry}

theorem recordingOf_number {k : Nat} (h : r.val + 1 = k) : recordingOf k = some r := by
  subst h
  exact dif_pos (by omega)

theorem recordingOf_outside {k : Nat} (h : ¬(1 ≤ k ∧ k ≤ 32)) : recordingOf k = none := dif_neg h

theorem recordingOf_inside {k : Nat} (h : 1 ≤ k ∧ k ≤ 32) : ∃ r : RecIx, r.val + 1 = k ∧ recordingOf k = some r :=
  ⟨⟨k - 1, by omega⟩, Nat.sub_add_cancel h.1, dif_pos h⟩

theorem exec_recordingQuery_misargued (h : Handed s .recordingQuery q)
    (hbad : ¬(1 ≤ (byteAt q.args 0).toNat ∧ (byteAt q.args 0).toNat ≤ 32 ∧ (byteAt q.args 1).toNat ≤ 1)) :
    exec .recordingQuery s = .next (s.refuse .badArgument) := by
  rw [show exec .recordingQuery s = execRecordingQuery s from rfl, execRecordingQuery, ownerStep_of_handed h]
  by_cases hk : 1 ≤ (q.byte 0).toNat ∧ (q.byte 0).toNat ≤ 32
  · obtain ⟨r, -, hr⟩ := recordingOf_inside hk
    have hpart : 1 < (q.byte 1).toNat := Nat.lt_of_not_le fun hle => hbad ⟨hk.1, hk.2, hle⟩
    simp only [hr, if_pos hpart]
  · simp only [recordingOf_outside hk]

/-- A RECORDING QUERY whose arguments are in their ranges. -/
theorem exec_recordingQuery_named (h : Handed s .recordingQuery q) (hr : r.val + 1 = (byteAt q.args 0).toNat)
    (hpart : (byteAt q.args 1).toNat ≤ 1) : exec .recordingQuery s = .next
      (if s.store.state = .mounting ∨ s.store.state = .unformatted then s.refuse .notReady
        else s.respond .ok (s.store.recordingResult r (byteAt q.args 1).toNat)) := by
  rw [show exec .recordingQuery s = execRecordingQuery s from rfl, execRecordingQuery, ownerStep_of_handed h]
  have hnumber : recordingOf (q.byte 0).toNat = some r := recordingOf_number hr
  have hwithin : ¬1 < (q.byte 1).toNat := Nat.not_lt.2 hpart
  simp only [hnumber, if_neg hwithin]
  rfl

theorem exec_recordingQuery_ready (h : Handed s .recordingQuery q) (hr : r.val + 1 = (byteAt q.args 0).toNat)
    (hpart : (byteAt q.args 1).toNat ≤ 1) (hstate : s.store.state = .ready ∨ s.store.state = .formatting) :
    exec .recordingQuery s = .next (s.respond .ok (s.store.recordingResult r (byteAt q.args 1).toNat)) := by
  rw [exec_recordingQuery_named h hr hpart, if_neg]
  obtain hstate | hstate := hstate <;> simp [hstate]

/-- The result of RECORDING QUERY for a recording that is not FREE (R115, section 10.2). -/
def recordingAnswer (r : RecIx) (e : RecordingEntry) (state : Byte) (newest present part : Nat) : List Byte :=
  [BitVec.ofNat 8 (r.val + 1), state, modeByte e.mode]
    ++ [BitVec.ofNat 8 e.name.length] ++ (e.name ++ List.replicate 12 0).take 12 ++ toBytes 2 e.maxRecords
    ++ [BitVec.ofNat 8 e.blocks.length] ++ toBytes 4 newest ++ toBytes 2 present
    ++ toBytes 4 (max 1 (newest + 1 - e.maxRecords))
    ++ ((List.range 16).map fun i => toBytes 2 (e.reportedBlock (16 * part + i))).flatten

theorem recordingResult_of_free (hfree : s.store.recording r = .free) (part : Nat) :
    s.store.recordingResult r part = [BitVec.ofNat 8 (r.val + 1), 0] ++ List.replicate 59 0 := by
  simp only [StoreManager.recordingResult, hfree]
  rfl

theorem recordingResult_of_entry (hfree : (s.store.recording r).isFree = false) (he : s.store.entry r = some e)
    (part : Nat) : s.store.recordingResult r part = recordingAnswer r e (s.store.recording r).code
      (s.store.recording r).newest (s.store.recording r).present part := by
  have hstart : s.store.windowStart r = max 1 ((s.store.recording r).newest + 1 - e.maxRecords) := by
    rw [StoreManager.windowStart, StoreManager.maxRecords, he]
    rfl
  unfold StoreManager.recordingResult recordingAnswer
  simp only [hfree, he]
  rw [hstart]
  simp only [toBytes_one, nameBytes, padTo, recordingNumber, List.append_assoc, List.cons_append, List.nil_append]

theorem length_flatten_pairs (l : List Nat) (f : Nat → Nat) : ((l.map fun i => toBytes 2 (f i)).flatten).length = 2 * l.length := by
  induction l with
  | nil => rfl
  | cons a l ih => rw [List.map_cons, List.flatten_cons, List.length_append, ih, length_toBytes, List.length_cons]; omega

theorem length_recordingAnswer (r : RecIx) (e : RecordingEntry) (state : Byte) (newest present part : Nat) :
    (recordingAnswer r e state newest present part).length = 61 := by
  have hname : ((e.name ++ List.replicate 12 0).take 12).length = 12 := length_padTo 12 e.name
  unfold recordingAnswer
  simp only [List.length_append, length_flatten_pairs, length_toBytes, hname, List.length_cons, List.length_nil,
    List.length_range]

end

/-! ### The obligation -/

/-- Settles O32, query by query. -/
theorem slotAndStoreQueriesReport : Obligations.SlotAndStoreQueriesReport := by
  unfold Obligations.SlotAndStoreQueriesReport
  refine ⟨fun s q h => ⟨?tags, exec_slotsQuery_misnumbered h, fun k hargs hk => ?slot⟩, fun s q h => ?store,
    fun s q h => ?recording⟩
  case tags =>
    intro hargs
    rw [exec_slotsQuery_all h hargs]
    exact congrArg (fun tags => Host.Outcome.next (s.respond .ok (_ :: List.map tags _))) (funext fun k => rfl)
  case slot =>
    intro one code buffers
    have hcode (b : Buffer) : code b = [b.code] := by
      cases b with
      | free => rfl
      | filled d => rfl
      | writing d orphaned => cases orphaned <;> rfl
    have hbuffers : buffers = [(s.slot k).buffer0.code] ++ [(s.slot k).buffer1.code] := by
      simp only [buffers, hcode]
    refine ⟨fun hempty => ?empty, fun c hc => ?occupied⟩
    case empty =>
      rw [exec_slotsQuery_one h hargs hk, slotResult_of_empty _ _ hempty, slotNumbers_of_empty hempty, hbuffers]
      rfl
    case occupied =>
      intro x cause tagged result
      have htagged : tagged = phaseFields c.phase := by
        have hcause (e : EndCause) : cause e = (causeByte e).toNat := by cases e <;> rfl
        simp only [tagged, hcause]
        cases c.phase <;> rfl
      have hresult (position finish : List Byte) : result position finish = slotAnswer k (s.slot k) c position finish := by
        simp only [result, htagged, hbuffers]
        rfl
      simp only [hresult, htagged]
      have hexec := exec_slotsQuery_one h hargs hk
      rw [slotResult_of_occupied _ _ hc] at hexec
      refine ⟨_, _, _, hexec, length_sampleNumberBytes .., length_sampleNumberBytes ..,
        length_slotAnswer _ _ _ (length_sampleNumberBytes ..) (length_sampleNumberBytes ..), fun hfit => ?position,
        fun hpos hfit => ?finish, fun hfit hpos hend => ?index⟩
      case position => exact sampleNumberBytes_of_fits _ hfit
      case finish =>
        rw [← Int.toNat_of_nonneg hpos, sampleNumberBytes_of_fits _ (by omega)]
        rfl
      case index =>
        refine freeAfter_of_fits _ fun v hv => ?_
        simp only [slotNumbers, hc, optNat_readPosition, List.mem_cons, List.not_mem_nil, or_false] at hv
        obtain rfl | rfl := hv
        · exact sampleNumberFits_natCast hfit
        · rw [← Int.toNat_of_nonneg hpos]
          exact sampleNumberFits_natCast (by omega)
  case store =>
    intro one two m label counts state busy defined damaged result
    have hlabel : label = labelFields s.store.label := by
      simp only [label, m]
      cases s.store.label <;> rfl
    have hstate : state = [s.store.state.code] := by
      simp only [state, m]
      cases s.store.state <;> rfl
    have hbusy : busy = [maintenanceCode s.maint] := by
      simp only [busy]
      cases s.maint with
      | none => rfl
      | some op => cases op <;> rfl
    have hdefined : defined = s.store.countRecordings RecordingState.isDefined :=
      congrArg (List.countP · _) (funext fun r => by cases m.recording r <;> rfl)
    have hdamaged : damaged = s.store.countRecordings RecordingState.isDamaged :=
      congrArg (List.countP · _) (funext fun r => by cases m.recording r <;> rfl)
    have hresult : s.storeResult = result := by
      rw [storeResult_eq]
      simp only [result, hlabel, hstate, hbusy, hdefined, hdamaged]
      rfl
    exact ⟨(exec_storeQuery h).trans (by rw [hresult]), hresult ▸ length_storeResult s⟩
  case recording =>
    intro k part
    refine ⟨exec_recordingQuery_misargued h, fun hgood hstate => ?notReady, fun r hr hpart hstate => ⟨?unused, ?held⟩⟩
    case notReady =>
      obtain ⟨hlow, hhigh, hpart⟩ := hgood
      obtain ⟨r, hr, -⟩ := recordingOf_inside ⟨hlow, hhigh⟩
      rw [exec_recordingQuery_named h hr hpart, if_pos hstate]
    case unused =>
      intro hfree
      rw [exec_recordingQuery_ready h hr hpart hstate, recordingResult_of_free hfree, hr]
    case held =>
      intro e newest present he result
      have hresult (state : Byte) : result state = recordingAnswer r e state newest present part := by
        have hmode : modeByte e.mode = match e.mode with | .fill => 0 | .wrap => 1 := by cases e.mode <;> rfl
        simp only [result, recordingAnswer, RecordingEntry.reportedBlock, hmode, hr] <;> rfl
      refine ⟨fun hstate' => ?sound, fun hstate' => ?broken, fun state => ?length⟩
      case sound =>
        rw [exec_recordingQuery_ready h hr hpart hstate, recordingResult_of_entry (by rw [hstate']; rfl) he, hstate', hresult]
        rfl
      case broken =>
        rw [exec_recordingQuery_ready h hr hpart hstate, recordingResult_of_entry (by rw [hstate']; rfl) he, hstate', hresult]
        rfl
      case length => rw [hresult, length_recordingAnswer]

end Sys2Proof.Laws
end

section
/-!
PROOF. The obligation on the endings of a capture that its slot does not decide by its checks: CUT, the silence timer, LAG
and the gap signal (R62 to R72).
-/

namespace Sys2Proof.Laws

open Machine

section
variable {s : State} {k : SlotIx} {c : Capture} {i : StreamIx} {e : StreamEntry}

/-! ### What a slot sees of its stream (R6) -/

theorem newest_of_loaded (h : s.stream i = some e) : s.newest i = (e.next : Int) - 1 := by
  simp only [State.newest, h]

theorem ringLength_of_loaded (h : s.stream i = some e) : s.ringLength i = e.length := by
  simp only [State.ringLength, h]

/-! ### Phases -/

theorem isCollecting_of_collecting {x : Slot} {rp : Nat} {timer : Option Nat} (hc : x.capture = some c)
    (hphase : c.phase = .collecting rp timer) : x.isCollecting = true := by
  simp only [Slot.isCollecting, hc, hphase]

theorem not_isCollecting {x : Slot} (h : ∀ c rp timer, x.capture = some c → c.phase ≠ .collecting rp timer) :
    x.isCollecting = false := by
  unfold Slot.isCollecting
  split
  next c hc =>
    split
    next rp timer hphase => exact absurd hphase (h c rp timer hc)
    next => rfl
  next => rfl

/-! ### CUT and the silence timer (R65, R72) -/

theorem endEarly_of_collecting {rp : Nat} {timer : Option Nat} (hc : (s.slot k).capture = some c)
    (hphase : c.phase = .collecting rp timer) (cause : EndCause) :
    s.endEarly cause k = (s.setCapture k (some { c with
      phase := .draining rp cause, endSample := min c.endSample (s.newest c.request.stream) })).slotChecks k := by
  simp only [State.endEarly, hc, hphase]

theorem tickSlot_of_collecting {rp n : Nat} (hc : (s.slot k).capture = some c) (hphase : c.phase = .collecting rp (some n)) :
    s.tickSlot k = if n ≤ 1 then s.endEarly .stalled k
      else s.setCapture k (some { c with phase := .collecting rp (some (n - 1)) }) := by
  simp only [State.tickSlot, hc, hphase]

theorem tickSlot_of_untimed (hc : (s.slot k).capture = some c) (h : ∀ rp n, c.phase ≠ .collecting rp (some n)) :
    s.tickSlot k = s := by
  simp only [State.tickSlot, hc]

theorem tickSlot_of_empty (hc : (s.slot k).capture = none) : s.tickSlot k = s := by
  simp only [State.tickSlot, hc]

theorem reloadTimer_of_collecting {rp : Nat} {timer : Option Nat} (hc : (s.slot k).capture = some c)
    (hphase : c.phase = .collecting rp timer) :
    s.reloadTimer k = s.setCapture k (some { c with phase := .collecting rp (loadTimer c.request.silence) }) := by
  simp only [State.reloadTimer, hc, hphase]

theorem reloadTimer_of_other (hc : (s.slot k).capture = some c) (h : ∀ rp timer, c.phase ≠ .collecting rp timer) :
    s.reloadTimer k = s := by
  simp only [State.reloadTimer, hc]

theorem reloadTimer_of_empty (hc : (s.slot k).capture = none) : s.reloadTimer k = s := by
  simp only [State.reloadTimer, hc]

theorem exec_cut_misnumbered {q : Request} (h : Handed s .cut q) (hk : 8 ≤ (byteAt q.args 0).toNat) :
    exec .cut s = .next (s.refuse .badArgument) := by
  rw [show exec .cut s = execCut s from rfl, execCut, ownerStep_of_handed h]
  simp only [Request.byte, indexOf_of_ge hk]

theorem exec_cut_named {q : Request} (h : Handed s .cut q) (hk : (byteAt q.args 0).toNat = k.val) :
    exec .cut s = .next (if (s.slot k).isCollecting then (s.endEarly .cut k).respond .ok [] else s.refuse .badState) := by
  rw [show exec .cut s = execCut s from rfl, execCut, ownerStep_of_handed h]
  simp only [Request.byte, hk, indexOf_val]

theorem exec_silenceTimerExpiry_due {rp : Nat} (hc : (s.slot k).capture = some c)
    (hphase : c.phase = .collecting rp (some 1)) : exec (.silenceTimerExpiry k) s = .next (s.tickSlot k) := by
  have htimer : (s.slot k).capture.bind Capture.timer? = some 1 := by
    rw [hc, Option.bind_some, Capture.timer?, hphase]
  exact congrArg _ (if_pos htimer)

/-! ### LAG (R67, R68) -/

/-- A slot ended LAG at the sample below its read position, the condition raised and the checks made (R67). -/
def laggedAt (k : SlotIx) (c : Capture) (rp : Nat) (s : State) : State :=
  ((s.setCapture k (some { c with phase := .draining rp .lag, endSample := (rp : Int) - 1 })).report
    (reportOf .lag k c.request)).slotChecks k

theorem lagged_of_holds {rp : Nat} (h : c.holds = some rp) :
    c.lagged = some { c with phase := .draining rp .lag, endSample := (rp : Int) - 1 } := by
  obtain ⟨timer, hphase⟩ | ⟨cause, hphase, hle⟩ := holds_eq_some_iff.1 h
  · simp only [Capture.lagged, hphase]
  · simp only [Capture.lagged, hphase, if_pos hle]

theorem endLag_of_holds {rp : Nat} (hc : (s.slot k).capture = some c) (h : c.holds = some rp) :
    s.endLag k = laggedAt k c rp s := by
  simp only [State.endLag, hc, lagged_of_holds h]
  rfl

theorem overtake_of_holds {rp : Nat} (hc : (s.slot k).capture = some c) (h : c.holds = some rp) (leaving : Nat) :
    s.overtake leaving k = if rp ≤ leaving then s.endLag k else s := by
  simp only [State.overtake, hc, Option.bind_some, h]

theorem overtake_of_not_holds (hc : (s.slot k).capture = some c) (h : c.holds = none) (leaving : Nat) :
    s.overtake leaving k = s := by
  simp only [State.overtake, hc, Option.bind_some, h]

theorem hasFree_eq_false_iff (x : Slot) : x.hasFree = false ↔ x.buffer0 ≠ .free ∧ x.buffer1 ≠ .free := by
  rw [Slot.hasFree, Bool.or_eq_false_iff, beq_eq_false_iff_ne, beq_eq_false_iff_ne]

theorem exhaustionTest_of_collecting {rp : Nat} {timer : Option Nat} (hc : (s.slot k).capture = some c)
    (hphase : c.phase = .collecting rp timer) : s.exhaustionTest k =
      if (s.slot k).hasFree = false ∧ (rp : Int) + s.ringLength c.request.stream - 120 ≤ s.newest c.request.stream then
        s.endLag k
      else s := by
  simp only [State.exhaustionTest, hc, hphase]
  rfl

/-! ### The gap signal (R71) -/

theorem gapSignal_of_collecting {rp : Nat} {timer : Option Nat} (hc : (s.slot k).capture = some c)
    (hphase : c.phase = .collecting rp timer) (d g : Nat) : s.gapSignal d g k =
      (s.setCapture k (some (if c.gaps.length < 4 then { c with gaps := c.gaps ++ [⟨g - c.first, d⟩], gapped := true }
        else { c with gapOverflow := true }))).report (reportOf .gap k c.request) := by
  simp only [State.gapSignal, hc, hphase]

theorem gapSignal_of_other (hc : (s.slot k).capture = some c) (h : ∀ rp timer, c.phase ≠ .collecting rp timer) (d g : Nat) :
    s.gapSignal d g k = s := by
  simp only [State.gapSignal, hc]

end

/-! ### The obligation -/

/-- Settles O33, signal by signal, each by the phase of the slot's capture. -/
theorem cutSilenceAndLagEndACapture : Obligations.CutSilenceAndLagEndACapture := by
  unfold Obligations.CutSilenceAndLagEndACapture
  refine ⟨fun s i e h => ⟨newest_of_loaded h, ringLength_of_loaded h⟩,
    fun s q h => ⟨exec_cut_misnumbered h, fun k hk => ⟨fun hother => ?badState, fun c rp timer hc hphase => ?cut⟩⟩,
    fun s k c hc => ?silence,
    fun s => ⟨rfl, fun k hempty => ⟨tickSlot_of_empty hempty, reloadTimer_of_empty hempty⟩⟩,
    fun s k c hc => ?lag, fun s k c d g hc => ?gap⟩
  case badState =>
    rw [exec_cut_named h hk, if_neg (Bool.not_eq_true _ ▸ not_isCollecting hother)]
  case cut =>
    rw [exec_cut_named h hk, if_pos (isCollecting_of_collecting hc hphase), endEarly_of_collecting hc hphase]
    rfl
  case silence =>
    intro holding stalled
    have hstalled {rp n : Nat} (hphase : c.phase = .collecting rp (some n)) (hn : n ≤ 1) : s.tickSlot k = stalled rp := by
      rw [tickSlot_of_collecting hc hphase, if_pos hn, endEarly_of_collecting hc hphase]
      rfl
    refine ⟨fun rp hphase => ?expires, fun rp n hphase => ⟨fun hn => ?falls, hstalled hphase⟩, tickSlot_of_untimed hc,
      fun rp timer hphase => reloadTimer_of_collecting hc hphase, reloadTimer_of_other hc⟩
    case expires => rw [exec_silenceTimerExpiry_due hc hphase, hstalled hphase (Nat.le_refl 1)]
    case falls =>
      rw [tickSlot_of_collecting hc hphase, if_neg (Nat.not_le.2 hn)]
      rfl
  case lag =>
    intro lagged
    have hlagged (rp : Nat) : laggedAt k c rp s = lagged rp := rfl
    refine ⟨fun rp leaving hphase => ?holds, fun leaving rp cause hphase => ?idle, fun rp timer hphase => ?exhaustion⟩
    case holds =>
      have hholds := holds_eq_some_iff.2 hphase
      rw [overtake_of_holds hc hholds, endLag_of_holds hc hholds]
      exact ⟨fun hle => if_pos hle, fun hlt => if_neg (Nat.not_le.2 hlt)⟩
    case idle =>
      refine overtake_of_not_holds hc ?_ leaving
      obtain ⟨hphase, hpast⟩ | hphase := hphase
      · simp only [Capture.holds, hphase, if_neg (Int.not_le.2 hpast)]
      · simp only [Capture.holds, hphase]
    case exhaustion =>
      intro exhausted
      have hiff : (s.slot k).hasFree = false ∧ (rp : Int) + s.ringLength c.request.stream - 120 ≤ s.newest c.request.stream ↔
          exhausted := by rw [hasFree_eq_false_iff, and_assoc]
      rw [exhaustionTest_of_collecting hc hphase, endLag_of_holds hc (holds_eq_some_iff.2 (.inl ⟨timer, hphase⟩))]
      exact ⟨fun h => if_pos (hiff.2 h), fun h => if_neg fun hx => h (hiff.1 hx)⟩
  case gap =>
    exact ⟨fun rp timer hphase => gapSignal_of_collecting hc hphase d g, fun h => gapSignal_of_other hc h d g⟩

end Sys2Proof.Laws
end

section
/-!
PROOF. The obligation on the checks of a slot (R59 to R66): end check, staging check and presentation.
-/

namespace Sys2Proof.Laws

open Machine

section
variable {s : State} {k : SlotIx} {c : Capture} {e : StreamEntry}

/-! ### The end check (R64) -/

theorem endCheck_of_empty (hc : (s.slot k).capture = none) : s.endCheck k = s := by
  simp only [State.endCheck, hc]

theorem endCheck_of_reached {rp : Nat} {timer : Option Nat} (hc : (s.slot k).capture = some c)
    (hphase : c.phase = .collecting rp timer) (hend : c.endSample ≤ s.newest c.request.stream) :
    s.endCheck k = s.setCapture k (some { c with phase := .draining rp .complete }) := by
  simp only [State.endCheck, hc, hphase, if_pos hend]

theorem endCheck_of_not_reached (hc : (s.slot k).capture = some c)
    (h : ∀ rp timer, c.phase = .collecting rp timer → s.newest c.request.stream < c.endSample) : s.endCheck k = s := by
  simp only [State.endCheck, hc]
  split
  next rp timer hphase => exact if_neg (Int.not_le.2 (h rp timer hphase))
  next => rfl

/-! ### The staging check (R59) -/

theorem fillOnce_of_empty (hc : (s.slot k).capture = none) : s.fillOnce k = s := by
  simp only [State.fillOnce, hc]

theorem fillOnce_of_idle (hc : (s.slot k).capture = some c)
    (h : c.fillCount (s.newest c.request.stream) = 0 ∨ c.remaining = 0 ∨ (s.slot k).hasFree = false) : s.fillOnce k = s := by
  simp only [State.fillOnce, hc, if_pos h]

theorem fillOnce_of_full (h : s.store.takeReserved = none) : s.fillOnce k = s := by
  cases hc : (s.slot k).capture with
  | none => exact fillOnce_of_empty hc
  | some c => simp only [State.fillOnce, hc, h, ite_self]

theorem fillOnce_of_taken {b : Nat} {m : StoreManager} (hc : (s.slot k).capture = some c)
    (h : ¬(c.fillCount (s.newest c.request.stream) = 0 ∨ c.remaining = 0 ∨ (s.slot k).hasFree = false))
    (htake : s.store.takeReserved = some (b, m)) : s.fillOnce k =
      ({ s with store := m } : State).setSlot k { (s.slot k).fill
        ⟨s.ringRun c.request.stream (c.readPosition.getD 0) (c.fillCount (s.newest c.request.stream)), b, c.blocks.length⟩ with
          capture := some (c.staged (c.fillCount (s.newest c.request.stream)) b) } := by
  simp only [State.fillOnce, hc, if_neg h, htake]

theorem ringSamples_eq (m : List (Nat × Sample)) (e : StreamEntry) (n k : Nat) :
    ringSamples m e n k = (List.range k).map fun j => Memory.get 0 m (e.base + (n + j) % e.length) := by
  induction k generalizing n with
  | zero => rfl
  | succ k ih =>
    have hnext (j : Nat) : n + 1 + j = n + (j + 1) := by omega
    rw [ringSamples, ih, List.range_succ_eq_map, List.map_cons, List.map_map]
    refine congrArg₂ _ rfl (List.map_congr_left fun j _ => ?_)
    rw [hnext]
    rfl

theorem ringRun_of_loaded {i : StreamIx} (he : s.stream i = some e) (n k : Nat) :
    s.ringRun i n k = (List.range k).map fun j => Memory.get 0 s.samples (e.base + (n + j) % e.length) := by
  simp only [State.ringRun, he, ringSamples_eq]

/-- The read position of a slot and how many samples its staging rule stages now (R59). -/
def stagingPlace (c : Capture) (newest : Int) : Nat × Nat :=
  match c.phase with
  | .collecting rp _ => (rp, if 120 ≤ min c.endSample newest - rp + 1 then 120 else 0)
  | .draining rp _ => (rp, min 120 (c.endSample - rp + 1).toNat)
  | .committing _ => (0, 0)

theorem stagingPlace_eq (c : Capture) (newest : Int) :
    stagingPlace c newest = (c.readPosition.getD 0, c.fillCount newest) := by
  simp only [stagingPlace, Capture.readPosition, Capture.fillCount]
  cases c.phase <;> rfl

/-! ### Presentation (R60, R61, R66) -/

theorem outstanding_iff (s : State) (w : Requester) :
    s.outstanding w = true ↔ (∃ op, Granted s w op) ∨ ∃ r ∈ s.port.waiting, r.who = w := by
  rw [State.outstanding, Bool.or_eq_true, List.any_eq_true]
  refine or_congr ?_ (exists_congr fun r => and_congr_right fun _ => beq_iff_eq)
  cases hbusy : s.port.busy with
  | none => simp [Granted, hbusy]
  | some r =>
    obtain ⟨who, op⟩ := r
    simp [Granted, hbusy]

theorem presentSlot_of_none (h : s.ownWrite k = none) : s.presentSlot k = s := by
  simp only [State.presentSlot, h]

theorem presentSlot_of_some {op : StoreOp} (h : s.ownWrite k = some op) : s.presentSlot k = s.present (.slot k) op := by
  simp only [State.presentSlot, h]

theorem ownWrite_of_empty (hc : (s.slot k).capture = none) : s.ownWrite k = none := by
  simp only [State.ownWrite, hc, ite_self]

theorem ownWrite_of_outstanding (h : s.outstanding (.slot k) = true) : s.ownWrite k = none := if_pos h

theorem ownWrite_of_filled {d : Staged} (hc : (s.slot k).capture = some c) (h : s.outstanding (.slot k) = false)
    (hd : (s.slot k).lowestFilled = some d) :
    s.ownWrite k = some (.write d.block (dataBlock c.head d.position d.samples)) := by
  simp only [State.ownWrite, h, hc, hd]
  rfl

/-- The head of a capture is due: DRAINING past its end sample, both buffers FREE (R66). -/
def HeadReady (x : Slot) (c : Capture) : Prop :=
  ∃ rp cause, c.phase = .draining rp cause ∧ c.endSample < rp ∧ x.buffer0 = .free ∧ x.buffer1 = .free

theorem buffersFree_iff (x : Slot) : x.buffersFree = true ↔ x.buffer0 = .free ∧ x.buffer1 = .free := by
  rw [Slot.buffersFree, Bool.and_eq_true, beq_iff_eq, beq_iff_eq]

theorem lowestFilled_eq_none {x : Slot} (h : ∀ d, x.buffer0 ≠ .filled d ∧ x.buffer1 ≠ .filled d) :
    x.lowestFilled = none := by
  have hnone (b : Buffer) (hb : ∀ d, b ≠ .filled d) : b.filled? = none := by
    cases b with
    | filled d => exact absurd rfl (hb d)
    | free => rfl
    | writing d o => rfl
  rw [Slot.lowestFilled, hnone _ fun d => (h d).1, hnone _ fun d => (h d).2]

/-- The FILLED buffer with the lowest position, buffer 0 where both have it (R60). -/
def LowestFilled (x : Slot) (d : Staged) : Prop :=
  (x.buffer0 = .filled d ∧ ∀ d', x.buffer1 = .filled d' → d.position ≤ d'.position) ∨
    (x.buffer1 = .filled d ∧ ∀ d', x.buffer0 = .filled d' → d.position < d'.position)

theorem lowestFilled_eq_some {x : Slot} {d : Staged} (h : LowestFilled x d) : x.lowestFilled = some d := by
  obtain ⟨h0, hle⟩ | ⟨h1, hlt⟩ := h
  · cases h1 : x.buffer1 with
    | filled d' => simp only [Slot.lowestFilled, h0, h1, Buffer.filled?, if_pos (hle d' h1)]
    | free => simp only [Slot.lowestFilled, h0, h1, Buffer.filled?]
    | writing d' o => simp only [Slot.lowestFilled, h0, h1, Buffer.filled?]
  · cases h0 : x.buffer0 with
    | filled d' => simp only [Slot.lowestFilled, h0, h1, Buffer.filled?, if_neg (Nat.not_le.2 (hlt d' h0))]
    | free => simp only [Slot.lowestFilled, h0, h1, Buffer.filled?]
    | writing d' o => simp only [Slot.lowestFilled, h0, h1, Buffer.filled?]

theorem ownWrite_of_headReady {rp : Nat} {cause : EndCause} (hc : (s.slot k).capture = some c)
    (h : s.outstanding (.slot k) = false) (hphase : c.phase = .draining rp cause) (hpast : c.endSample < rp)
    (h0 : (s.slot k).buffer0 = .free) (h1 : (s.slot k).buffer1 = .free) (he : s.stream c.request.stream = some e) :
    s.ownWrite k = some (.write c.head (headBlock (c.headInfo cause e.node e.stream))) := by
  have hfilled : (s.slot k).lowestFilled = none := lowestFilled_eq_none fun d => by simp [h0, h1]
  have hfree : c.endSample < rp ∧ (s.slot k).buffersFree = true := ⟨hpast, (buffersFree_iff _).2 ⟨h0, h1⟩⟩
  have hkey : s.streamKey c.request.stream = (e.node, e.stream) := by simp only [State.streamKey, he]
  unfold State.ownWrite
  simp only [h, hc, hfilled, hphase, if_pos hfree, hkey]
  rfl

theorem ownWrite_of_nothing_due (hc : (s.slot k).capture = some c)
    (hfilled : ∀ d, (s.slot k).buffer0 ≠ .filled d ∧ (s.slot k).buffer1 ≠ .filled d) (hready : ¬HeadReady (s.slot k) c) :
    s.ownWrite k = none := by
  unfold State.ownWrite
  split
  next => rfl
  next =>
    simp only [hc, lowestFilled_eq_none hfilled]
    split
    next rp cause hphase =>
      refine if_neg fun h => hready ⟨rp, cause, hphase, h.1, (buffersFree_iff _).1 h.2⟩
    next => rfl

/-! ### What the checks leave of a capture -/

/-- A capture after staging: the rest of its record kept, its list longer by what its remaining reservation fell, its read
position advanced by whole blocks while COLLECTING. -/
structure StagesTo (c c' : Capture) (n : Nat) : Prop where
  request : c'.request = c.request
  head : c'.head = c.head
  endSample : c'.endSample = c.endSample
  gaps : c'.gaps = c.gaps
  blocks : ∃ l, c'.blocks = c.blocks ++ l ∧ l.length = n
  remaining : c'.remaining + n = c.remaining
  collecting : ∀ rp timer, c.phase = .collecting rp timer → c'.phase = .collecting (rp + 120 * n) timer
  draining : ∀ rp cause, c.phase = .draining rp cause → ∃ rp', c'.phase = .draining rp' cause ∧ rp ≤ rp'

theorem StagesTo.refl (c : Capture) : StagesTo c c 0 where
  request := rfl
  head := rfl
  endSample := rfl
  gaps := rfl
  blocks := ⟨[], (List.append_nil _).symm, rfl⟩
  remaining := rfl
  collecting _ _ h := h
  draining rp _ h := ⟨rp, h, Nat.le_refl rp⟩

theorem StagesTo.trans {c' c'' : Capture} {n m : Nat} (h : StagesTo c c' n) (h' : StagesTo c' c'' m) :
    StagesTo c c'' (n + m) where
  request := h'.request.trans h.request
  head := h'.head.trans h.head
  endSample := h'.endSample.trans h.endSample
  gaps := h'.gaps.trans h.gaps
  blocks := by
    obtain ⟨l, hl, hn⟩ := h.blocks
    obtain ⟨l', hl', hm⟩ := h'.blocks
    exact ⟨l ++ l', by rw [hl', hl, List.append_assoc], by rw [List.length_append, hn, hm]⟩
  remaining := by
    have hn := h.remaining
    have hm := h'.remaining
    omega
  collecting rp timer hphase := by
    have hlast := h'.collecting _ _ (h.collecting rp timer hphase)
    rwa [Nat.add_assoc, ← Nat.mul_add] at hlast
  draining rp cause hphase := by
    obtain ⟨rp', hphase', hle⟩ := h.draining rp cause hphase
    obtain ⟨rp'', hphase'', hle'⟩ := h'.draining rp' cause hphase'
    exact ⟨rp'', hphase'', hle.trans hle'⟩

theorem StagesTo.blockList {c' : Capture} {n : Nat} (h : StagesTo c c' n) : c'.blocks.length = c.blocks.length + n ∧
    c'.blocks.take c.blocks.length = c.blocks ∧ c'.remaining + c'.blocks.length = c.remaining + c.blocks.length := by
  obtain ⟨l, hl, hn⟩ := h.blocks
  have hlength : c'.blocks.length = c.blocks.length + n := by rw [hl, List.length_append, hn]
  have hremaining := h.remaining
  exact ⟨hlength, by rw [hl, List.take_left], by omega⟩

theorem stagesTo_staged {newest : Int} (hn : c.fillCount newest ≠ 0) (hr : c.remaining ≠ 0) (b : Nat) :
    StagesTo c (c.staged (c.fillCount newest) b) 1 where
  request := rfl
  head := rfl
  endSample := rfl
  gaps := rfl
  blocks := ⟨[b], rfl, rfl⟩
  remaining := Nat.sub_add_cancel (Nat.one_le_iff_ne_zero.2 hr)
  collecting rp timer hphase := by
    simp only [Capture.fillCount, hphase] at hn
    rw [Capture.staged, hphase]
    simp only [Capture.fillCount, hphase]
    split at hn
    next hfits => rw [if_pos hfits]; rfl
    next => exact absurd rfl hn
  draining rp cause hphase := by
    rw [Capture.staged, hphase]
    exact ⟨_, rfl, Nat.le_add_right ..⟩

theorem fillOnce_capture_other (s : State) {j : SlotIx} (hj : j ≠ k) :
    ((s.fillOnce k).slot j).capture = (s.slot j).capture := by
  unfold State.fillOnce
  split
  next => rfl
  next =>
    dsimp only
    split
    next => rfl
    next =>
      split
      next => rfl
      next => rw [slot_setSlot, if_neg hj]; rfl

theorem fillOnce_stages (hc : (s.slot k).capture = some c) :
    ∃ c' n, ((s.fillOnce k).slot k).capture = some c' ∧ StagesTo c c' n := by
  by_cases hidle : c.fillCount (s.newest c.request.stream) = 0 ∨ c.remaining = 0 ∨ (s.slot k).hasFree = false
  · rw [fillOnce_of_idle hc hidle]
    exact ⟨c, 0, hc, .refl c⟩
  · cases htake : s.store.takeReserved with
    | none =>
      rw [fillOnce_of_full htake]
      exact ⟨c, 0, hc, .refl c⟩
    | some taken =>
      obtain ⟨hn, hr, -⟩ := not_or.1 hidle |>.imp_right not_or.1
      rw [fillOnce_of_taken hc hidle htake, slot_setSlot_same]
      exact ⟨_, 1, rfl, stagesTo_staged hn hr taken.1⟩

/-- The presentation grants at most; it leaves every capture (R60). -/
theorem presentSlot_capture (s : State) (k j : SlotIx) : ((s.presentSlot k).slot j).capture = (s.slot j).capture := by
  rw [presentSlot_eq]
  split
  next => rfl
  next =>
    have hasked : (s.askOwnWrite k).slot j = s.slot j := by
      unfold State.askOwnWrite
      split <;> rfl
    obtain heq | ⟨r, -, -, -, heq⟩ := arbitrate_cases (s.askOwnWrite k)
    · rw [heq, hasked]
    · rw [heq, grant_slot_capture, hasked]

theorem slotChecks_capture_other (s : State) {j : SlotIx} (hj : j ≠ k) :
    ((s.slotChecks k).slot j).capture = (s.slot j).capture := by
  have hend : ((s.endCheck k).slot j).capture = (s.slot j).capture := by
    unfold State.endCheck
    split
    next =>
      split
      next =>
        split
        next => rw [State.setCapture, slot_setSlot, if_neg hj]
        next => rfl
      next => rfl
    next => rfl
  rw [State.slotChecks, presentSlot_capture, State.slotStages, fillOnce_capture_other _ hj, fillOnce_capture_other _ hj, hend]

/-- After the end check a slot's checks only stage (R62). -/
theorem slotChecks_stages (hc : ((s.endCheck k).slot k).capture = some c) :
    ∃ c' n, ((s.slotChecks k).slot k).capture = some c' ∧ StagesTo c c' n := by
  obtain ⟨c1, n, hc1, hstages⟩ := fillOnce_stages hc
  obtain ⟨c2, m, hc2, hstages'⟩ := fillOnce_stages hc1
  exact ⟨c2, n + m, (presentSlot_capture _ k k).trans hc2, hstages.trans hstages'⟩

/-! ### The blocks that a slot writes (section 10.4) -/

theorem headBlock_of_capture (c : Capture) (cause : EndCause) (node stream : Byte) :
    headBlock (c.headInfo cause node stream) =
      withCheck (((([0x48] : List Byte) ++ [BitVec.ofNat 8 (c.request.recording.val + 1)] ++ [BitVec.ofNat 8 c.request.rule.val]
        ++ [BitVec.ofNat 8 c.request.priority] ++ [node, stream] ++ wordBytes 2 c.request.stamp.epoch
        ++ wordBytes 4 c.request.stamp.cycle ++ toBytes 2 c.request.pre ++ toBytes 2 c.preActual
        ++ toBytes 2 (c.total - c.preActual) ++ toBytes 2 c.total ++ [causeByte cause]
        ++ [BitVec.ofNat 8 ((if c.short then 1 else 0) + (if c.listedGaps = [] then 0 else 2) + (if c.gapOverflow then 4 else 0))]
        ++ [BitVec.ofNat 8 c.listedGaps.length]
        ++ ((c.listedGaps.flatMap fun g : GapEntry => toBytes 2 g.offset ++ [BitVec.ofNat 8 g.missing])
            ++ List.replicate 12 0).take 12
        ++ [BitVec.ofNat 8 c.blocks.length] ++ (c.blocks.map (toBytes 2)).flatten) ++ List.replicate 254 0).take 254) := by
  have hgapped : (if !c.listedGaps.isEmpty then 2 else 0) = if c.listedGaps = [] then 0 else 2 := by
    cases c.listedGaps <;> rfl
  unfold headBlock
  simp only [Capture.headInfo, recordFlags_eq, hgapped]
  unfold blockOf padTo gapBytes padTo
  simp only [toBytes_one, stampBytes, recordingNumber, kindHead, List.flatMap, List.append_assoc, List.cons_append,
    List.nil_append]

theorem fill_with_capture {x : Slot} (h : x.buffer0 = .free ∨ x.buffer1 = .free) (d : Staged) (c' : Capture) :
    { x.fill d with capture := some c' } =
      if x.buffer0 = .free then (⟨some c', .filled d, x.buffer1⟩ : Slot) else ⟨some c', x.buffer0, .filled d⟩ := by
  by_cases h0 : x.buffer0 = .free
  · rw [Slot.fill, if_pos h0, if_pos h0]
  · rw [Slot.fill, if_neg h0, if_pos (h.resolve_left h0), if_neg h0]

end

/-! ### The obligation -/

/-- Settles O34: the three checks from their rules, and what they leave of a capture by what one fill stages. -/
theorem slotChecksStageAndComplete : Obligations.SlotChecksStageAndComplete := by
  unfold Obligations.SlotChecksStageAndComplete
  refine ⟨fun s i e h => ⟨newest_of_loaded h, ringLength_of_loaded h⟩,
    fun s k => ⟨rfl, fun hc => ?empty, fun c hc => ⟨fun rp timer hphase => endCheck_of_reached hc hphase,
      endCheck_of_not_reached hc⟩⟩,
    fun s k c hc => ?fill, fun s k c hc => ?present, fun s k => ?kept⟩
  case empty =>
    rw [State.slotChecks, State.slotStages, endCheck_of_empty hc, fillOnce_of_empty hc, fillOnce_of_empty hc,
      presentSlot_of_none (ownWrite_of_empty hc)]
  case fill =>
    intro x place rp n
    have hplace : place = (c.readPosition.getD 0, c.fillCount (s.newest c.request.stream)) := by
      rw [← stagingPlace_eq]
      rfl
    have hn : n = c.fillCount (s.newest c.request.stream) := congrArg Prod.snd hplace
    have hrp : rp = c.readPosition.getD 0 := congrArg Prod.fst hplace
    refine ⟨fun h => ?idle, fun e b m hpos hroom hfree he htake => ?filled⟩
    case idle =>
      obtain hzero | hnone | hbusy | hfull := h
      · exact fillOnce_of_idle hc (.inl (hn.symm.trans hzero))
      · exact fillOnce_of_idle hc (.inr (.inl hnone))
      · exact fillOnce_of_idle hc (.inr (.inr ((hasFree_eq_false_iff _).2 hbusy)))
      · exact fillOnce_of_full hfull
    case filled =>
      intro filled c'
      have hdue : ¬(c.fillCount (s.newest c.request.stream) = 0 ∨ c.remaining = 0 ∨ (s.slot k).hasFree = false) := by
        rw [← hn, hasFree_eq_false_iff]
        rintro (hzero | hzero | ⟨h0, h1⟩)
        · omega
        · omega
        · exact hfree.elim h0 h1
      have hstaged : c.staged n b = c' := by
        cases hphase : c.phase with
        | collecting r timer =>
          have hr : rp = r := by rw [hrp, Capture.readPosition, hphase]; rfl
          simp only [Capture.staged, c', hphase, hr]
        | draining r cause =>
          have hr : rp = r := by rw [hrp, Capture.readPosition, hphase]; rfl
          simp only [Capture.staged, c', hphase, hr]
        | committing cause => simp only [Capture.staged, c', hphase]
      have hsamples : s.ringRun c.request.stream rp n =
          (List.range n).map fun j => Memory.get 0 s.samples (e.base + (rp + j) % e.length) := ringRun_of_loaded he rp n
      rw [fillOnce_of_taken hc hdue htake, ← hn, ← hrp, hstaged, hsamples, fill_with_capture hfree]
      rfl
  case present =>
    intro x outstanding block one lowest noneFilled
    have hfree (h : ¬outstanding) : s.outstanding (.slot k) = false :=
      Bool.eq_false_iff.2 fun hout => h ((outstanding_iff s (.slot k)).1 hout)
    refine ⟨fun h => ?waits, fun d h hlowest => ?data, fun rp cause e h hphase hpast h0 h1 he => ?head,
      fun hfilled hready => ?nothing⟩
    case waits => exact presentSlot_of_none (ownWrite_of_outstanding ((outstanding_iff s (.slot k)).2 h))
    case data =>
      rw [presentSlot_of_some (ownWrite_of_filled hc (hfree h) (lowestFilled_eq_some hlowest)), dataBlock, toBytes_one,
        toBytes_one]
      rfl
    case head =>
      intro total gaps flags q
      rw [presentSlot_of_some (ownWrite_of_headReady hc (hfree h) hphase hpast h0 h1 he), headBlock_of_capture]
      rfl
    case nothing => exact presentSlot_of_none (ownWrite_of_nothing_due hc hfilled hready)
  case kept =>
    intro t
    refine ⟨(slotChecks_byCapture k s).within, fun j hj => slotChecks_capture_other s hj, fun c hc => ?_⟩
    by_cases hends : ∃ rp timer, c.phase = .collecting rp timer ∧ c.endSample ≤ s.newest c.request.stream
    · obtain ⟨rp, timer, hphase, hend⟩ := hends
      have hended : ((s.endCheck k).slot k).capture = some { c with phase := .draining rp .complete } := by
        rw [endCheck_of_reached hc hphase hend, State.setCapture, slot_setSlot_same]
      obtain ⟨c', n, hc', hstages⟩ := slotChecks_stages hended
      obtain ⟨hlength, htake, hsum⟩ := hstages.blockList
      obtain ⟨rp', hphase', hle⟩ := hstages.draining rp .complete rfl
      refine ⟨c', hc', hstages.request, hstages.head, hstages.endSample, hstages.gaps, hlength ▸ Nat.le_add_right .., htake,
        hsum, fun rp₁ timer₁ hcollects _ => ?reached, fun rp₁ timer₁ _ hbefore => absurd hbefore (Int.not_lt.2 hend),
        fun rp₁ cause₁ hdrains => absurd (hphase.symm.trans hdrains) (by simp)⟩
      case reached =>
        cases hphase.symm.trans hcollects
        exact ⟨rp', hphase', hle⟩
    · have hkept : s.endCheck k = s := endCheck_of_not_reached hc fun rp timer hphase =>
        Int.not_le.1 fun hle => hends ⟨rp, timer, hphase, hle⟩
      obtain ⟨c', n, hc', hstages⟩ := slotChecks_stages (c := c) (by rw [hkept]; exact hc)
      obtain ⟨hlength, htake, hsum⟩ := hstages.blockList
      exact ⟨c', hc', hstages.request, hstages.head, hstages.endSample, hstages.gaps, hlength ▸ Nat.le_add_right .., htake,
        hsum, fun rp timer hphase hend => absurd ⟨rp, timer, hphase, hend⟩ hends,
        fun rp timer hphase _ => ⟨n, hstages.collecting rp timer hphase, hlength⟩, hstages.draining⟩

end Sys2Proof.Laws
end

section
/-!
PROOF. The obligation on the completions of a slot's writes (R58, R60, R69, R74).
-/

namespace Sys2Proof.Laws

open Machine

section
variable {s : State} {k : SlotIx} {b : Nat} {contents : List Byte}

theorem onSlotCompletion_of_granted {op : StoreOp} (h : Granted s (.slot k) op) {data : Bool}
    (hdata : (s.slot k).writingData = data) (f : SlotIx → State → State) :
    s.onSlotCompletion data f = f k (s.complete op) := by
  unfold Granted at h
  simp only [State.onSlotCompletion, h, if_pos hdata]

/-- Neither buffer of the slot is being written. -/
def WritesNothing (x : Slot) : Prop := ∀ d o, x.buffer0 ≠ .writing d o ∧ x.buffer1 ≠ .writing d o

theorem writingData_of_writesNothing {x : Slot} (h : WritesNothing x) : x.writingData = false := by
  cases h0 : x.buffer0 with
  | writing d o => exact absurd h0 (h d o).1
  | free =>
    cases h1 : x.buffer1 with
    | writing d o => exact absurd h1 (h d o).2
    | free => simp only [Slot.writingData, h0, h1]
    | filled d => simp only [Slot.writingData, h0, h1]
  | filled d =>
    cases h1 : x.buffer1 with
    | writing d o => exact absurd h1 (h d o).2
    | free => simp only [Slot.writingData, h0, h1]
    | filled d => simp only [Slot.writingData, h0, h1]

theorem written_of_not_writing {y : Buffer} (h : ∀ d o, y ≠ .writing d o) : y.written = y := by
  cases y with
  | writing d o => exact absurd rfl (h d o)
  | free => rfl
  | filled d => rfl

theorem orphan_of_not_writing {y : Buffer} (h : ∀ d o, y ≠ .writing d o) : y.orphan? = none := by
  cases y with
  | writing d o => exact absurd rfl (h d o)
  | free => rfl
  | filled d => rfl

/-- The buffers of a slot whose one write is complete are `left0` and `left1` (R60). -/
def WriteLeaves (x : Slot) (d : Staged) (orphaned : Bool) (left0 left1 : Buffer) : Prop :=
  (x.buffer0 = .writing d orphaned ∧ left0 = .free ∧ left1 = x.buffer1 ∧ (∀ d' o, x.buffer1 ≠ .writing d' o)) ∨
    (x.buffer1 = .writing d orphaned ∧ left1 = .free ∧ left0 = x.buffer0 ∧ (∀ d' o, x.buffer0 ≠ .writing d' o))

variable {x : Slot} {d : Staged} {orphaned : Bool} {left0 left1 : Buffer}

theorem WriteLeaves.writingData (h : WriteLeaves x d orphaned left0 left1) : x.writingData = true := by
  obtain ⟨h0, -, -, -⟩ | ⟨h1, -, -, -⟩ := h
  · simp only [Slot.writingData, h0]
  · unfold Slot.writingData
    split
    next => rfl
    next => rfl
    next _ hnot => exact absurd h1 (hnot d orphaned)

theorem WriteLeaves.written (h : WriteLeaves x d orphaned left0 left1) :
    x.buffer0.written = left0 ∧ x.buffer1.written = left1 := by
  obtain ⟨h0, rfl, rfl, hother⟩ | ⟨h1, rfl, rfl, hother⟩ := h
  · exact ⟨by rw [h0]; rfl, written_of_not_writing hother⟩
  · exact ⟨written_of_not_writing hother, by rw [h1]; rfl⟩

theorem WriteLeaves.orphans (h : WriteLeaves x d orphaned left0 left1) :
    x.buffer0.orphan?.toList ++ x.buffer1.orphan?.toList = if orphaned then [d.block] else [] := by
  obtain ⟨h0, -, -, hother⟩ | ⟨h1, -, -, hother⟩ := h
  · rw [h0, orphan_of_not_writing hother]
    cases orphaned <;> rfl
  · rw [h1, orphan_of_not_writing hother]
    cases orphaned <;> rfl

theorem WriteLeaves.idle (h : WriteLeaves x d orphaned left0 left1) (c : Option Capture) :
    WritesNothing ⟨c, left0, left1⟩ := by
  obtain ⟨-, rfl, rfl, hother⟩ | ⟨-, rfl, rfl, hother⟩ := h
  · exact fun d' o => ⟨Buffer.noConfusion, hother d' o⟩
  · exact fun d' o => ⟨hother d' o, Buffer.noConfusion⟩

/-! ### Staging writes nothing (R59, R60) -/

theorem endCheck_buffers (s : State) (k : SlotIx) :
    ((s.endCheck k).slot k).buffer0 = (s.slot k).buffer0 ∧ ((s.endCheck k).slot k).buffer1 = (s.slot k).buffer1 := by
  unfold State.endCheck
  split
  next =>
    split
    next =>
      split
      next => rw [State.setCapture, slot_setSlot_same]; exact ⟨rfl, rfl⟩
      next => exact ⟨rfl, rfl⟩
    next => exact ⟨rfl, rfl⟩
  next => exact ⟨rfl, rfl⟩

theorem endCheck_writesNothing (h : WritesNothing (s.slot k)) : WritesNothing ((s.endCheck k).slot k) := by
  obtain ⟨h0, h1⟩ := endCheck_buffers s k
  intro d o
  rw [h0, h1]
  exact h d o

theorem fill_writesNothing (h : WritesNothing x) (d : Staged) : WritesNothing (x.fill d) := by
  intro d' o
  unfold Slot.fill
  split
  next => exact ⟨Buffer.noConfusion, (h d' o).2⟩
  next =>
    split
    next => exact ⟨(h d' o).1, Buffer.noConfusion⟩
    next => exact h d' o

theorem fillOnce_writesNothing (h : WritesNothing (s.slot k)) : WritesNothing ((s.fillOnce k).slot k) := by
  unfold State.fillOnce
  split
  next => exact h
  next =>
    dsimp only
    split
    next => exact h
    next =>
      split
      next => exact h
      next =>
        rw [slot_setSlot_same]
        exact fill_writesNothing h _

theorem askOwnWrite_slot (s : State) (k j : SlotIx) : (s.askOwnWrite k).slot j = s.slot j := by
  unfold State.askOwnWrite
  split <;> rfl

/-! ### The completion of a data block write -/

/-- The state with the block in the array and the buffer left (R58, R60, R117). -/
def blockWritten (k : SlotIx) (b : Nat) (contents : List Byte) (d : Staged) (orphaned : Bool) (left0 left1 : Buffer)
    (s : State) : State :=
  { s with
    port := { s.port with busy := none }, array := writeBlock s.array b contents
    store := if orphaned then s.store.freeBlock d.block else s.store
    slots := tableSet s.slots k ⟨(s.slot k).capture, left0, left1⟩ }

/-- The slot's checks after the write, and its next request (R62). -/
def nextAsked (k : SlotIx) (s : State) : State := (s.slotStages k).askOwnWrite k

theorem nextAsked_pending (k : SlotIx) (s : State) : (nextAsked k s).pending = s.pending := by
  have hwithin := ((slotStages_byCapture k s).trans (askOwnWrite_byCapture k _)).within
  rw [WithinCapture] at hwithin
  rw [nextAsked, hwithin]

theorem slotDataWritten_eq (h : WriteLeaves (s.slot k) d orphaned left0 left1) :
    (s.complete (.write b contents)).slotDataWritten k = nextAsked k (blockWritten k b contents d orphaned left0 left1 s) := by
  obtain ⟨h0, h1⟩ := h.written
  have hslot : (s.complete (.write b contents)).slot k = s.slot k := rfl
  have horphans : s.store.freeBlocks (if orphaned then [d.block] else []) =
      if orphaned then s.store.freeBlock d.block else s.store := by cases orphaned <;> rfl
  unfold State.slotDataWritten blockWritten
  dsimp only
  rw [hslot, h.orphans, h0, h1, ← horphans]
  rfl

theorem nextAsked_writesNothing (h : WriteLeaves (s.slot k) d orphaned left0 left1) :
    WritesNothing ((nextAsked k (blockWritten k b contents d orphaned left0 left1 s)).slot k) := by
  rw [nextAsked, askOwnWrite_slot]
  refine fillOnce_writesNothing (fillOnce_writesNothing (endCheck_writesNothing ?_))
  have hslot : (blockWritten k b contents d orphaned left0 left1 s).slot k = ⟨(s.slot k).capture, left0, left1⟩ :=
    get_tableSet_same ..
  rw [hslot]
  exact h.idle _

/-- A capture request that preempts slot `k` meets the completion of its write (R74, log 30). -/
def Met (k : SlotIx) (s : State) : Prop :=
  (∃ op, s.arbiterChoice = some ⟨.slot k, op⟩) ∧
    (∃ c rp timer, (s.slot k).capture = some c ∧ c.phase = .collecting rp timer) ∧
    ∃ f rest t, s.pending = .dataFrameArrival f :: rest ∧ exec (.dataFrameArrival f) s = .next t ∧
      (t.slot k).capture.map (·.request) ≠ (s.slot k).capture.map (·.request)

theorem isCollecting_iff (x : Slot) :
    x.isCollecting = true ↔ ∃ c rp timer, x.capture = some c ∧ c.phase = .collecting rp timer := by
  constructor
  · intro h
    by_contra hnone
    rw [not_isCollecting fun c rp timer hc hphase => hnone ⟨c, rp, timer, hc, hphase⟩] at h
    exact Bool.false_ne_true h
  · rintro ⟨c, rp, timer, hc, hphase⟩
    exact isCollecting_of_collecting hc hphase

theorem preemptedNext_iff (k : SlotIx) (s : State) : s.preemptedNext k = true ↔
    (∃ c rp timer, (s.slot k).capture = some c ∧ c.phase = .collecting rp timer) ∧
      ∃ f rest t, s.pending = .dataFrameArrival f :: rest ∧ exec (.dataFrameArrival f) s = .next t ∧
        (t.slot k).capture.map (·.request) ≠ (s.slot k).capture.map (·.request) := by
  unfold State.preemptedNext
  split
  next f rest hpending =>
    split
    next t hexec =>
      rw [Bool.and_eq_true, isCollecting_iff, bne_iff_ne]
      refine and_congr_right fun _ => ⟨fun hne => ⟨f, rest, t, hpending, hexec, hne⟩, ?_⟩
      rintro ⟨f', rest', t', hpending', hexec', hne⟩
      cases hpending.symm.trans hpending'
      cases hexec.symm.trans hexec'
      exact hne
    next hexec =>
      refine iff_of_false Bool.false_ne_true ?_
      rintro ⟨-, f', rest', t, hpending', hexec', -⟩
      cases hpending.symm.trans hpending'
      exact hexec t hexec'
  next hpending =>
    refine iff_of_false Bool.false_ne_true ?_
    rintro ⟨-, f, rest, t, hpending', -⟩
    exact hpending f rest hpending'

theorem arbitrateAfterWrite_of_met (h : Met k s) : s.arbitrateAfterWrite k = s := by
  obtain ⟨⟨op, hchoice⟩, hpreempted⟩ := h
  have hmeets : (⟨.slot k, op⟩ : StoreRequest).who = .slot k ∧ s.preemptedNext k = true :=
    ⟨rfl, (preemptedNext_iff k s).2 hpreempted⟩
  unfold State.arbitrateAfterWrite
  rw [hchoice]
  exact if_pos hmeets

theorem arbitrateAfterWrite_of_not_met (h : ¬Met k s) : s.arbitrateAfterWrite k = s.arbitrate := by
  cases hchoice : s.arbiterChoice with
  | none => rw [arbitrate_of_no_choice hchoice, State.arbitrateAfterWrite, hchoice]
  | some r =>
    have hnot : ¬(r.who = .slot k ∧ s.preemptedNext k = true) := by
      rintro ⟨hwho, hpreempted⟩
      obtain ⟨who, op⟩ := r
      cases hwho
      exact h ⟨⟨op, hchoice⟩, (preemptedNext_iff k s).1 hpreempted⟩
    simp only [State.arbitrateAfterWrite, hchoice, if_neg hnot]

theorem exec_slotDataWriteComplete (hgranted : Granted s (.slot k) (.write b contents))
    (h : WriteLeaves (s.slot k) d orphaned left0 left1) : exec .slotDataWriteComplete s =
      .next ((nextAsked k (blockWritten k b contents d orphaned left0 left1 s)).arbitrateAfterWrite k) := by
  rw [show exec .slotDataWriteComplete s = execSlotDataWriteComplete s from rfl, execSlotDataWriteComplete,
    onSlotCompletion_of_granted hgranted h.writingData, slotDataWritten_eq h]

/-! ### The completion of a head write -/

theorem exec_slotHeadWriteComplete {c : Capture} {rp : Nat} {cause : EndCause}
    (hgranted : Granted s (.slot k) (.write b contents)) (hidle : WritesNothing (s.slot k))
    (hc : (s.slot k).capture = some c) (hphase : c.phase = .draining rp cause) :
    exec .slotHeadWriteComplete s = .next (({ s with
      port := { s.port with busy := none }, array := writeBlock s.array b contents
      slots := tableSet s.slots k { s.slot k with capture := some { c with phase := .committing cause } }
      index := { s.index with queue := s.index.queue ++ [.commit k c.request.recording c.head c.total] } } : State)
        |>.arbitrateForCommit) := by
  have hcompleted : ((s.complete (.write b contents)).slot k).capture = some c := hc
  rw [show exec .slotHeadWriteComplete s = execSlotHeadWriteComplete s from rfl, execSlotHeadWriteComplete,
    onSlotCompletion_of_granted hgranted (writingData_of_writesNothing hidle)]
  simp only [State.slotHeadWritten, hcompleted, hphase]
  rfl

end

/-! ### The obligation -/

/-- Settles O35: a data block's completion by the buffer that it leaves, and the head's by the COMMIT job that it places. -/
theorem slotWritesComplete : Obligations.SlotWritesComplete := by
  unfold Obligations.SlotWritesComplete
  refine ⟨fun s k b contents d orphaned left0 left1 hgranted => ?data, fun s k => ⟨fun h => ⟨presentSlot_of_none h, ?quiet⟩,
    fun op h => ⟨presentSlot_of_some h, ?asks⟩, fun w op => rfl⟩,
    fun s k b contents c rp cause hgranted hidle hc hphase => exec_slotHeadWriteComplete hgranted hidle hc hphase⟩
  case data =>
    intro x h written asked request met
    have hasked : asked = nextAsked k (blockWritten k b contents d orphaned left0 left1 s) := rfl
    rw [exec_slotDataWriteComplete hgranted h, ← hasked]
    have hmeets : met ↔ Met k asked := by
      rw [Met, show asked.pending = s.pending from nextAsked_pending k _]
    refine ⟨fun hnot => congrArg _ (arbitrateAfterWrite_of_not_met fun hmet => hnot (hmeets.2 hmet)), fun hmet => ?_⟩
    have hidle : WritesNothing (asked.slot k) := nextAsked_writesNothing h
    obtain ⟨-, ⟨c, -, -, hc, -⟩, -⟩ := hmeets.1 hmet
    exact ⟨congrArg _ (arbitrateAfterWrite_of_met (hmeets.1 hmet)), hidle, abandon_slot_of_idle hc hidle⟩
  case quiet => simp only [State.askOwnWrite, h]
  case asks => simp only [State.askOwnWrite, h, State.ask]

end Sys2Proof.Laws
end

section
/-!
PROOF. Store commands (R106, R135) and FORMAT (R107, R108): the checks that they share, what FORMAT refuses, and its steps.
-/

namespace Sys2Proof.Laws

open Machine

/-! ### Names (R190) -/

/-- A name of at most `k` allowed characters stands at offset `i` (R92, R93, R190). -/
def NameGood (k : Nat) (bs : List Byte) (i : Nat) : Prop :=
  (byteAt bs i).toNat ≤ k ∧ ∀ c ∈ (bs.drop (i + 1)).take (byteAt bs i).toNat, 32 ≤ c.toNat ∧ c.toNat ≤ 126

theorem nameGood_iff (k : Nat) (bs : List Byte) (i : Nat) : NameGood k bs i ↔
    (decide ((byteAt bs i).toNat ≤ k) && ((bs.drop (i + 1)).take (byteAt bs i).toNat).all nameChar) = true := by
  simp only [NameGood, nameChar, Bool.and_eq_true, decide_eq_true_eq, List.all_eq_true]

theorem nameAt_of_good {k : Nat} {bs : List Byte} {i : Nat} (h : NameGood k bs i) :
    nameAt k bs i = some ((bs.drop (i + 1)).take (byteAt bs i).toNat) := if_pos ((nameGood_iff k bs i).1 h)

theorem nameAt_of_bad {k : Nat} {bs : List Byte} {i : Nat} (h : ¬NameGood k bs i) : nameAt k bs i = none :=
  if_neg fun hgood => h ((nameGood_iff k bs i).2 hgood)

theorem nameAt_isSome_iff (k : Nat) (bs : List Byte) (i : Nat) : (nameAt k bs i).isSome = true ↔ NameGood k bs i := by
  by_cases h : NameGood k bs i
  · rw [nameAt_of_good h]
    exact iff_of_true rfl h
  · rw [nameAt_of_bad h]
    exact iff_of_false Bool.false_ne_true h

/-! ### The checks that store commands share (R106) -/

section
variable {s : State} {q : Request} {st : Status} {unformattedOk : Bool}

theorem storeChecks_of_fails (h : StoreCheckFails s unformattedOk st) : s.storeChecks unformattedOk = some st := by
  unfold State.storeChecks
  obtain ⟨rfl, hstate⟩ | ⟨hmounted, hformatted, h⟩ := h
  · exact if_pos hstate
  · rw [if_neg fun hstate => hstate.elim hmounted fun hun => Bool.false_ne_true (hun.2.symm.trans (hformatted hun.1))]
    obtain ⟨rfl, hmaint⟩ | ⟨hmaint, rfl, hprotect⟩ := h
    · exact if_pos (Option.isSome_iff_ne_none.2 hmaint)
    · rw [if_neg (by simp [hmaint]), if_pos hprotect]

theorem storeChecks_of_pass (h : StoreChecksPass s unformattedOk) : s.storeChecks unformattedOk = none := by
  obtain ⟨hmounted, hformatted, hmaint, hprotect⟩ := h
  unfold State.storeChecks
  rw [if_neg fun hstate => hstate.elim hmounted fun hun => Bool.false_ne_true (hun.2.symm.trans (hformatted hun.1)),
    if_neg (by simp [hmaint]), if_neg (by simp [hprotect])]

/-! ### Refusals -/

theorem exec_format_unnamed (h : Handed s .format q) (hname : nameAt 16 q.args 0 = none) :
    exec .format s = .next (s.refuse .badArgument) := by
  rw [show exec .format s = execFormat s from rfl, execFormat, ownerStep_of_handed h]
  simp only [hname]

theorem exec_format_checked (h : Handed s .format q) (hname : nameAt 16 q.args 0 ≠ none) (hfails : StoreCheckFails s true st) :
    exec .format s = .next (s.refuse st) := by
  obtain ⟨name, hname⟩ := Option.ne_none_iff_exists'.1 hname
  rw [show exec .format s = execFormat s from rfl, execFormat, ownerStep_of_handed h]
  simp only [hname, storeChecks_of_fails hfails]

theorem exec_create_misargued (h : Handed s .create q) (hargs : q.creation = none) :
    exec .create s = .next (s.refuse .badArgument) := by
  rw [show exec .create s = execCreate s from rfl, execCreate, ownerStep_of_handed h]
  simp only [hargs]

theorem exec_create_checked (h : Handed s .create q) (hargs : q.creation ≠ none) (hfails : StoreCheckFails s false st) :
    exec .create s = .next (s.refuse st) := by
  obtain ⟨⟨r, e⟩, hargs⟩ := Option.ne_none_iff_exists'.1 hargs
  rw [show exec .create s = execCreate s from rfl, execCreate, ownerStep_of_handed h]
  simp only [hargs, storeChecks_of_fails hfails]

theorem exec_delete_misnumbered (h : Handed s .delete q) (hk : ¬(1 ≤ (byteAt q.args 0).toNat ∧ (byteAt q.args 0).toNat ≤ 32)) :
    exec .delete s = .next (s.refuse .badArgument) := by
  rw [show exec .delete s = execDelete s from rfl, execDelete, ownerStep_of_handed h]
  have hnone : recordingOf (q.byte 0).toNat = none := recordingOf_outside hk
  simp only [hnone]

theorem exec_delete_checked (h : Handed s .delete q) (hk : 1 ≤ (byteAt q.args 0).toNat ∧ (byteAt q.args 0).toNat ≤ 32)
    (hfails : StoreCheckFails s false st) : exec .delete s = .next (s.refuse st) := by
  rw [show exec .delete s = execDelete s from rfl, execDelete, ownerStep_of_handed h]
  obtain ⟨r, -, hr⟩ := recordingOf_inside hk
  have hsome : recordingOf (q.byte 0).toNat = some r := hr
  simp only [hsome, storeChecks_of_fails hfails]

/-- The arguments of ERASE are in their ranges (R135). -/
def EraseArgumentsGood (q : Request) : Prop :=
  1 ≤ (byteAt q.args 0).toNat ∧ (byteAt q.args 0).toNat ≤ 32 ∧ 1 ≤ fieldAt q.args 1 4 ∧ fieldAt q.args 1 4 ≤ fieldAt q.args 5 4

theorem exec_erase_misargued (h : Handed s .erase q) (hbad : ¬EraseArgumentsGood q) :
    exec .erase s = .next (s.refuse .badArgument) := by
  rw [show exec .erase s = execErase s from rfl, execErase, ownerStep_of_handed h]
  by_cases hk : 1 ≤ (q.byte 0).toNat ∧ (q.byte 0).toNat ≤ 32
  · obtain ⟨r, -, hr⟩ := recordingOf_inside hk
    have hrange : ¬(1 ≤ q.nat 1 4 ∧ q.nat 1 4 ≤ q.nat 5 4) := fun hrange => hbad ⟨hk.1, hk.2, hrange⟩
    simp only [hr, if_pos hrange]
  · simp only [recordingOf_outside hk]

theorem exec_erase_checked (h : Handed s .erase q) (hgood : EraseArgumentsGood q) (hfails : StoreCheckFails s false st) :
    exec .erase s = .next (s.refuse st) := by
  obtain ⟨hlow, hhigh, hrange⟩ := hgood
  rw [show exec .erase s = execErase s from rfl, execErase, ownerStep_of_handed h]
  obtain ⟨r, -, hr⟩ := recordingOf_inside ⟨hlow, hhigh⟩
  have hsome : recordingOf (q.byte 0).toNat = some r := hr
  have hrange' : 1 ≤ q.nat 1 4 ∧ q.nat 1 4 ≤ q.nat 5 4 := hrange
  simp only [hsome, if_neg (not_not_intro hrange'), storeChecks_of_fails hfails]

end

/-- Settles O39, command by command. -/
theorem storeCommandsAreCheckedInOrder : Obligations.StoreCommandsAreCheckedInOrder := by
  unfold Obligations.StoreCommandsAreCheckedInOrder
  refine ⟨fun args => ⟨fun hgood => nameAt_of_good hgood, fun hbad => nameAt_of_bad hbad⟩, fun s q st => ⟨?format, ?create,
    ?delete, ?erase⟩⟩
  case format => exact fun h => ⟨exec_format_unnamed h, exec_format_checked h⟩
  case create => exact fun h => ⟨exec_create_misargued h, exec_create_checked h⟩
  case delete => exact fun h => ⟨exec_delete_misnumbered h, exec_delete_checked h⟩
  case erase => exact fun h => ⟨exec_erase_misargued h, exec_erase_checked h⟩

/-! ### FORMAT's acceptance (R107, R108) -/

section
variable {s : State} {q : Request} {name : List Byte}

theorem port_inUse_iff (x : ReadPort) : x.inUse = true ↔ x ≠ .closed := by cases x <;> simp [ReadPort.inUse]

theorem storeInUse_iff (s : State) : s.storeInUse = true ↔
    (∃ k c, (s.slot k).capture = some c) ∨ (∃ p, s.readPort p ≠ .closed) ∨ s.index.queue ≠ [] ∨
      s.release.queue ≠ [] ∨ ∃ i r target, s.rule i = some r ∧ r.recording = some target := by
  simp only [State.storeInUse, Bool.or_eq_true, List.any_eq_true, ascending, List.mem_finRange, true_and,
    Option.isSome_iff_exists, port_inUse_iff, Bool.not_eq_true', List.isEmpty_eq_false_iff, Option.bind_eq_some_iff, or_assoc]
  refine or_congr_right (or_congr_right (or_congr_right (or_congr_right (exists_congr fun i => ?_))))
  exact ⟨fun ⟨x, r, hr, hx⟩ => ⟨r, x, hr, hx⟩, fun ⟨r, x, hr, hx⟩ => ⟨x, r, hr, hx⟩⟩

theorem exec_format_passed (h : Handed s .format q) (hname : nameAt 16 q.args 0 = some name) (hpass : StoreChecksPass s true) :
    exec .format s = .next (if s.storeInUse then s.refuse .inUse
      else ((s.modifyStore fun m => { m.clearAll with state := .formatting }).beginMaintenance
        (.format name (.readDirectory 1 [])) (.read 1)).respond .accepted []) := by
  rw [show exec .format s = execFormat s from rfl, execFormat, ownerStep_of_handed h]
  simp only [hname, storeChecks_of_pass hpass]

end

/-! ### Directory blocks as FORMAT reads them (R108, R191) -/

/-- The directory entry at offset `e` decodes (R191). -/
def EntryDecodes (b : List Byte) (e : Nat) : Prop :=
  byteAt b (e + 1) = 0 ∨ byteAt b (e + 1) = 1 ∧ (byteAt b (e + 2)).toNat ≤ 1 ∧ (byteAt b (e + 3)).toNat ≤ 12 ∧
    (∀ c ∈ (b.drop (e + 4)).take (byteAt b (e + 3)).toNat, 32 ≤ c.toNat ∧ c.toNat ≤ 126) ∧
    (byteAt b (e + 18)).toNat = (fieldAt b (e + 16) 2 + 47) / 48

theorem modeOf_isSome_iff (b : Byte) : (modeOf b).isSome = true ↔ b.toNat ≤ 1 := by
  have hzero : b = 0 ↔ b.toNat = 0 := BitVec.toNat_inj.symm
  have hone : b = 1 ↔ b.toNat = 1 := BitVec.toNat_inj.symm
  unfold modeOf
  split
  next h => exact iff_of_true rfl (by rw [h]; decide)
  next h =>
    split
    next h => exact iff_of_true rfl (by rw [h]; decide)
    next h' => exact iff_of_false Bool.false_ne_true (by rw [hzero] at h; rw [hone] at h'; omega)

theorem decodeDirectoryEntry_isSome_iff (b : List Byte) (e : Nat) :
    (decodeDirectoryEntry b e).isSome = true ↔ EntryDecodes b e := by
  have hname := nameAt_isSome_iff 12 b (e + 3)
  have hmode := modeOf_isSome_iff (byteAt b (e + 2))
  have hblocks : indexBlocksFor (fieldAt b (e + 16) 2) = (fieldAt b (e + 16) 2 + 47) / 48 := rfl
  unfold decodeDirectoryEntry EntryDecodes
  split
  next hfree => exact iff_of_true rfl (.inl hfree)
  next hfree =>
    split
    next hdefined =>
      rw [or_iff_right hfree, and_iff_right hdefined, ← hmode, ← and_assoc (a := (byteAt b (e + 3)).toNat ≤ 12), ← hblocks]
      change _ ↔ _ ∧ NameGood 12 b (e + 3) ∧ _
      rw [← hname]
      cases modeOf (byteAt b (e + 2)) with
      | none => exact iff_of_false Bool.false_ne_true fun h => Bool.false_ne_true h.1
      | some mode =>
        cases nameAt 12 b (e + 3) with
        | none => exact iff_of_false Bool.false_ne_true fun h => Bool.false_ne_true h.2.1
        | some name =>
          by_cases hcount : (byteAt b (e + 18)).toNat = indexBlocksFor (fieldAt b (e + 16) 2) <;> simp [hcount]
    next hother => exact iff_of_false Bool.false_ne_true fun h => h.elim hfree fun h => hother h.1

theorem directorySerial_test_iff (b : List Byte) :
    (blockIs kindDirectory b && (decodeDirectoryEntry b 4).isSome && (decodeDirectoryEntry b 87).isSome) = true ↔
      checkGood b = true ∧ byteAt b 0 = 0x44 ∧ EntryDecodes b 4 ∧ EntryDecodes b 87 := by
  rw [Bool.and_eq_true, Bool.and_eq_true, blockIs, Bool.and_eq_true, beq_iff_eq, decodeDirectoryEntry_isSome_iff,
    decodeDirectoryEntry_isSome_iff, and_assoc, and_assoc]
  rfl

/-! ### The new serial (R108) -/

/-- Raises of a serial pass through different serials until they come round. -/
theorem iterate_nextSerial_toNat (x : BitVec 16) (i : Nat) (hi : i < 65535) :
    (nextSerial^[i] x).toNat = if x.toNat + i ≤ 65535 then x.toNat + i else x.toNat + i - 65535 := by
  induction i with
  | zero =>
    have hx := x.isLt
    rw [if_pos (by omega)]
    rfl
  | succ i ih =>
    have hprev := ih (by omega)
    have hx := x.isLt
    rw [Function.iterate_succ_apply', nextSerial]
    have hlast : nextSerial^[i] x = 65535 ↔ (nextSerial^[i] x).toNat = 65535 := BitVec.toNat_inj.symm
    split
    next h =>
      rw [hlast, hprev] at h
      show 1 = _
      split_ifs at h ⊢ <;> omega
    next h =>
      rw [hlast, hprev] at h
      rw [BitVec.toNat_add, hprev]
      show (_ + 1) % 65536 = _
      split_ifs at h ⊢ <;> omega

theorem iterate_nextSerial_injOn (x : BitVec 16) : Set.InjOn (fun i => nextSerial^[i] x) (Finset.range 17) := by
  intro i hi j hj hij
  rw [Finset.coe_range, Set.mem_Iio] at hi hj
  have hval := congrArg BitVec.toNat hij
  dsimp only at hval
  rw [iterate_nextSerial_toNat x i (by omega), iterate_nextSerial_toNat x j (by omega)] at hval
  split_ifs at hval <;> omega

/-- Among 17 raises one is not among 16 serials found. -/
theorem exists_raise_not_mem (x : BitVec 16) {found : List (BitVec 16)} (h : found.length ≤ 16) :
    ∃ m ≤ 16, nextSerial^[m] x ∉ found := by
  by_contra hall
  push Not at hall
  have hsub : (Finset.range 17).image (fun i => nextSerial^[i] x) ⊆ found.toFinset := fun y hy => by
    obtain ⟨m, hm, rfl⟩ := Finset.mem_image.1 hy
    exact List.mem_toFinset.2 (hall m (Nat.le_of_lt_succ (Finset.mem_range.1 hm)))
  have hcard := Finset.card_le_card hsub
  rw [Finset.card_image_of_injOn (iterate_nextSerial_injOn x), Finset.card_range] at hcard
  have hlength := List.toFinset_card_le found
  omega

/-- The serial is raised for as long as it is among those found (R108). -/
theorem raiseSerial_spec (found : List (BitVec 16)) (fuel : Nat) (x : BitVec 16)
    (h : ∃ m ≤ fuel, nextSerial^[m] x ∉ found) : ∃ n, raiseSerial found fuel x = nextSerial^[n] x ∧
      raiseSerial found fuel x ∉ found ∧ ∀ m, m < n → nextSerial^[m] x ∈ found := by
  induction fuel generalizing x with
  | zero =>
    obtain ⟨m, hm, hnot⟩ := h
    rw [Nat.le_zero.1 hm] at hnot
    exact ⟨0, rfl, hnot, fun m hm => absurd hm (Nat.not_lt_zero m)⟩
  | succ fuel ih =>
    rw [raiseSerial]
    split
    next hmem =>
      obtain ⟨m, hm, hnot⟩ := h
      cases m with
      | zero => exact absurd hmem hnot
      | succ m =>
        obtain ⟨n, heq, hout, hbelow⟩ := ih (nextSerial x) ⟨m, Nat.le_of_succ_le_succ hm, hnot⟩
        refine ⟨n + 1, heq, hout, fun m hm => ?_⟩
        cases m with
        | zero => exact hmem
        | succ m => exact hbelow m (Nat.lt_of_succ_lt_succ hm)
    next hmem => exact ⟨0, rfl, hmem, fun m hm => absurd hm (Nat.not_lt_zero m)⟩

theorem chooseSerial_spec (label : Option LabelCopy) {found : List (BitVec 16)} (h : found.length ≤ 16) :
    ∃ n, chooseSerial label found = nextSerial^[n] (label.elim 1 fun l => nextSerial l.serial) ∧
      chooseSerial label found ∉ found ∧
      ∀ m, m < n → nextSerial^[m] (label.elim 1 fun l => nextSerial l.serial) ∈ found := by
  have hstart : chooseSerial label found = raiseSerial found 16 (label.elim 1 fun l => nextSerial l.serial) := by
    cases label <;> rfl
  rw [hstart]
  exact raiseSerial_spec found 16 _ (exists_raise_not_mem _ h)

/-! ### The completions of FORMAT -/

section
variable {s : State} {name : List Byte} {op : StoreOp}

theorem exec_formatDirectoryReadComplete {block : Nat} {found : List (BitVec 16)} (h : Granted s .maintenance op)
    (hm : s.maint = some (.format name (.readDirectory block found))) : exec .formatDirectoryReadComplete s =
      .next (formatRead name block found (op.contents s.array) (s.complete op)).arbitrate :=
  congrArg Host.Outcome.next (onMaintenance_of_granted h hm rfl)

theorem exec_formatLabelWriteComplete {serial : BitVec 16} (h : Granted s .maintenance op)
    (hm : s.maint = some (.format name (.writeLabel serial))) : exec .formatLabelWriteComplete s =
      .next (formatLabelled name serial (s.complete op)).arbitrate :=
  congrArg Host.Outcome.next (onMaintenance_of_granted (f := fun _ => formatLabelled name serial) h hm rfl)

theorem exec_formatDirectoryWriteComplete {block : Nat} {serial : BitVec 16} (h : Granted s .maintenance op)
    (hm : s.maint = some (.format name (.writeDirectory block serial))) : exec .formatDirectoryWriteComplete s =
      .next (formatWrote name block serial (s.complete op)).arbitrate :=
  congrArg Host.Outcome.next (onMaintenance_of_granted (f := fun _ => formatWrote name block serial) h hm rfl)

end

/-- Settles O40: the acceptance by what refers to the store, the serial by raising it past those found, and each
completion by its phase. -/
theorem formatIsAcceptedAndRunsToDone : Obligations.FormatIsAcceptedAndRunsToDone := by
  unfold Obligations.FormatIsAcceptedAndRunsToDone
  refine ⟨fun s q name h hname hpass => ?accept, fun b => ?serial, fun s name op hgranted => ⟨fun block found hm => ?read,
    fun serial hm => ?labelled, fun block serial hm => ?wrote⟩⟩
  case accept =>
    intro inUse
    rw [exec_format_passed h hname hpass]
    exact ⟨fun huse => congrArg _ (if_pos ((storeInUse_iff s).2 huse)),
      fun hfree => congrArg _ (if_neg fun huse => hfree ((storeInUse_iff s).1 huse))⟩
  case serial =>
    exact ⟨fun hvalid => if_pos ((directorySerial_test_iff b).2 hvalid),
      fun hnot => if_neg fun htest => hnot ((directorySerial_test_iff b).1 htest)⟩
  case read =>
    intro found'
    rw [exec_formatDirectoryReadComplete hgranted hm]
    refine ⟨fun hmore => ?more, fun hlast hlength => ?last⟩
    case more =>
      rw [formatRead, if_pos hmore]
      rfl
    case last =>
      intro raised first
      have hfirst : first = s.store.label.elim 1 fun l => nextSerial l.serial := by
        simp only [first]
        cases s.store.label <;> rfl
      obtain ⟨n, heq, hout, hbelow⟩ := chooseSerial_spec s.store.label hlength
      rw [hfirst]
      refine ⟨chooseSerial s.store.label found', n, heq, hout, hbelow, ?_⟩
      rw [formatRead, if_neg (Nat.not_lt.2 hlast)]
      rfl
  case labelled =>
    rw [exec_formatLabelWriteComplete hgranted hm]
    rfl
  case wrote =>
    rw [exec_formatDirectoryWriteComplete hgranted hm]
    refine ⟨fun hmore => ?more, fun hlast => ?done⟩
    case more =>
      rw [formatWrote, if_pos hmore]
      rfl
    case done =>
      have hserial : BitVec.ofNat 16 serial.toNat = serial := by simp
      rw [formatWrote, if_neg (Nat.not_lt.2 hlast), State.maintenanceDone, hserial]
      rfl

end Sys2Proof.Laws
end

section
/-!
PROOF. CREATE (R110, R111): its arguments, its acceptance and its completions.
-/

namespace Sys2Proof.Laws

open Machine

section
variable {s : State} {q : Request} {r : RecIx} {e : RecordingEntry} {op : StoreOp}

theorem directoryContents_of_label {l : LabelCopy} (h : s.store.label = some l) (p : Nat) :
    s.directoryContents p = directoryBlock p l.serial (s.store.entry (Fin.ofNat 32 (2 * (p - 1))))
      (s.store.entry (Fin.ofNat 32 (2 * (p - 1) + 1))) := by
  rw [State.directoryContents, h]
  rfl

/-! ### The arguments (R110, R190) -/

/-- The arguments of CREATE are in their ranges. -/
def CreateArgumentsGood (q : Request) : Prop :=
  1 ≤ (byteAt q.args 0).toNat ∧ (byteAt q.args 0).toNat ≤ 32 ∧ (byteAt q.args 1 = 0 ∨ byteAt q.args 1 = 1) ∧
    1 ≤ fieldAt q.args 2 2 ∧ fieldAt q.args 2 2 ≤ 1536 ∧ NameGood 12 q.args 4

theorem creation_of_good (h : CreateArgumentsGood q) : ∃ r : RecIx, r.val + 1 = (byteAt q.args 0).toNat ∧
    q.creation = some (r, {
      name := (q.args.drop 5).take (byteAt q.args 4).toNat, mode := if byteAt q.args 1 = 0 then .fill else .wrap
      maxRecords := fieldAt q.args 2 2, blocks := [], held := [] }) := by
  obtain ⟨hlow, hhigh, hmode, hmin, hmax, hname⟩ := h
  obtain ⟨r, hr, hnumber⟩ := recordingOf_inside ⟨hlow, hhigh⟩
  have hmodeOf : modeOf (byteAt q.args 1) = some (if byteAt q.args 1 = 0 then .fill else .wrap) := by
    unfold modeOf
    obtain h | h := hmode <;> simp [h]
  have hrange : 1 ≤ fieldAt q.args 2 2 ∧ fieldAt q.args 2 2 ≤ 1536 := ⟨hmin, hmax⟩
  refine ⟨r, hr, ?_⟩
  simp only [Request.creation, Request.byte, Request.nat, hnumber, hmodeOf, nameAt_of_good hname, hrange]
  rfl

theorem creation_of_bad (h : ¬CreateArgumentsGood q) : q.creation = none := by
  rw [Option.eq_none_iff_forall_ne_some]
  rintro ⟨r, e⟩ hsome
  obtain ⟨r, hr, hsome⟩ := Option.bind_eq_some_iff.1 hsome
  obtain ⟨mode, hmode, hsome⟩ := Option.bind_eq_some_iff.1 hsome
  obtain ⟨name, hname, hsome⟩ := Option.bind_eq_some_iff.1 hsome
  obtain ⟨hrange, -⟩ := Option.ite_none_right_eq_some.1 hsome
  have hnumber : 1 ≤ (byteAt q.args 0).toNat ∧ (byteAt q.args 0).toNat ≤ 32 := by
    by_contra hout
    rw [Request.byte, recordingOf_outside hout] at hr
    cases hr
  have hmodes : byteAt q.args 1 = 0 ∨ byteAt q.args 1 = 1 := by
    rw [modeOf] at hmode
    by_contra hother
    rw [not_or] at hother
    rw [Request.byte, if_neg hother.1, if_neg hother.2] at hmode
    cases hmode
  refine h ⟨hnumber.1, hnumber.2, hmodes, hrange.1, hrange.2, (nameAt_isSome_iff 12 q.args 4).1 ?_⟩
  rw [hname]
  rfl

/-! ### The acceptance (R110) -/

theorem isFree_iff (x : RecordingState) : x.isFree = true ↔ x = .free := by cases x <;> simp [RecordingState.isFree]

theorem exec_create_passed (h : Handed s .create q) (hargs : q.creation = some (r, e)) (hpass : StoreChecksPass s false) :
    exec .create s = .next (
      if (s.store.recording r).isFree = false then s.refuse .alreadyExists
      else if s.store.free < s.store.reserved + (e.maxRecords + 47) / 48 then s.refuse .noRoom
      else match s.store.takeMany ((e.maxRecords + 47) / 48) with
        | none => s.refuse .noRoom
        | some (bs, m) =>
          (({ s with store := m } : State).beginMaintenance
            (.create r { e with blocks := bs, held := List.replicate ((e.maxRecords + 47) / 48) true } (.index 0))
            (.write (bs.headD 0) (emptyIndexBlock r 0 e.maxRecords))).respond .accepted []) := by
  rw [show exec .create s = execCreate s from rfl, execCreate, ownerStep_of_handed h]
  simp only [hargs, storeChecks_of_pass hpass] <;> rfl

theorem takeMany_of_room {m : StoreManager} {n : Nat} (hmap : MapOk m) (hmounted : m.state ≠ .mounting)
    (hroom : m.reserved + n ≤ m.free) : ∃ bs m', m.takeMany n = some (bs, m') := by
  obtain ⟨-, -, -, hfree⟩ := id hmap
  have hcount := hfree hmounted
  obtain ⟨bs, m', htake, -⟩ := takeMany_of_free n m hmap (by omega)
  exact ⟨bs, m', htake⟩

/-! ### The completions (R111) -/

theorem exec_createIndexWriteComplete {x : Nat} (h : Granted s .maintenance op)
    (hm : s.maint = some (.create r e (.index x))) :
    exec .createIndexWriteComplete s = .next (createWrote r e x (s.complete op)).arbitrate :=
  congrArg Host.Outcome.next (onMaintenance_of_granted (f := fun _ => createWrote r e x) h hm rfl)

theorem exec_createDirectoryWriteComplete (h : Granted s .maintenance op) (hm : s.maint = some (.create r e .directory)) :
    exec .createDirectoryWriteComplete s = .next (createCommitted r e (s.complete op)).arbitrate :=
  congrArg Host.Outcome.next (onMaintenance_of_granted (f := fun _ => createCommitted r e) h hm rfl)

end

/-- Settles O41: the acceptance test by test, the arguments by their ranges, and each completion by its phase. -/
theorem createIsAcceptedAndRunsToDone : Obligations.CreateIsAcceptedAndRunsToDone := by
  unfold Obligations.CreateIsAcceptedAndRunsToDone
  refine ⟨fun s p l h => directoryContents_of_label h p, fun s q r e h hargs hpass => ?accept,
    fun q => ⟨fun hbad => creation_of_bad hbad, fun hgood => creation_of_good hgood⟩,
    fun s r e op hgranted => ⟨fun x hm => ?index, fun hm => ?directory⟩⟩
  case accept =>
    intro n
    have hfree (hstate : s.store.recording r = .free) : ¬(s.store.recording r).isFree = false := by
      rw [hstate]
      exact Bool.noConfusion
    rw [exec_create_passed h hargs hpass]
    refine ⟨fun hdefined => ?present, fun hstate hfew => ?noRoom,
      fun hmap hroom => takeMany_of_room hmap hpass.1 hroom, fun bs m hstate hroom htake => ?takes⟩
    case present =>
      exact congrArg _ (if_pos (Bool.eq_false_iff.2 fun h => hdefined ((isFree_iff _).1 h)))
    case noRoom => exact congrArg _ ((if_neg (hfree hstate)).trans (if_pos hfew))
    case takes =>
      obtain ⟨hlength, -, -⟩ := takeMany_spec _ _ _ _ htake
      refine ⟨hlength, ?_⟩
      rw [if_neg (hfree hstate), if_neg (Nat.not_lt.2 hroom), htake]
      rfl
  case index =>
    rw [exec_createIndexWriteComplete hgranted hm]
    refine ⟨fun hmore => ?more, fun hlast => ?last⟩
    case more =>
      rw [createWrote, if_pos hmore]
      rfl
    case last =>
      rw [createWrote, if_neg (Nat.not_lt.2 hlast)]
      rfl
  case directory =>
    rw [exec_createDirectoryWriteComplete hgranted hm]
    rfl

end Sys2Proof.Laws
end

section
/-!
PROOF. DELETE (R112, R113, R130): what refers to a recording, and the walk over its held index blocks.
-/

namespace Sys2Proof.Laws

open Machine

section
variable {s : State} {q : Request} {r : RecIx} {e : RecordingEntry} {op : StoreOp}

/-! ### The acceptance (R112) -/

/-- A rule, a slot or a readout port refers to the recording. -/
def RecordingReferred (s : State) (r : RecIx) : Prop :=
  (∃ i x, s.rule i = some x ∧ x.recording = some r) ∨ (∃ k c, (s.slot k).capture = some c ∧ c.request.recording = r) ∨
    ∃ p, (∃ o, s.readPort p = .opening o ∧ o.recording = r) ∨ ∃ o, s.readPort p = .opened o ∧ o.recording = r

theorem port_recording_iff (x : ReadPort) (r : RecIx) : x.recording? = some r ↔
    (∃ o, x = .opening o ∧ o.recording = r) ∨ ∃ o, x = .opened o ∧ o.recording = r := by
  cases x <;> simp [ReadPort.recording?]

theorem recordingInUse_iff (s : State) (r : RecIx) : s.recordingInUse r = true ↔ RecordingReferred s r := by
  simp only [State.recordingInUse, Bool.or_eq_true, List.any_eq_true, ascending, List.mem_finRange, true_and, beq_iff_eq,
    Option.bind_eq_some_iff, Option.map_eq_some_iff, port_recording_iff, or_assoc, RecordingReferred]

theorem exec_delete_passed (h : Handed s .delete q) (hr : (byteAt q.args 0).toNat = r.val + 1)
    (hpass : StoreChecksPass s false) : exec .delete s = .next (match s.store.entry r with
      | none => s.refuse .noSuchRecording
      | some e =>
        if (s.store.recording r).isFree then s.refuse .noSuchRecording
        else if s.recordingInUse r then s.refuse .inUse
        else
          let u := s.modifyStore fun m => (m.setEntry r none).setRecording r .free
          (u.beginMaintenance (.delete r e .directory 0)
            (.write (directoryBlockOf r) (u.directoryContents (directoryBlockOf r)))).respond .accepted []) := by
  rw [show exec .delete s = execDelete s from rfl, execDelete, ownerStep_of_handed h]
  have hnumber : recordingOf (q.byte 0).toNat = some r := recordingOf_number hr.symm
  simp only [hnumber, storeChecks_of_pass hpass] <;> rfl

theorem exec_delete_unknown (h : Handed s .delete q) (hr : (byteAt q.args 0).toNat = r.val + 1)
    (hpass : StoreChecksPass s false) (hnone : s.store.entry r = none ∨ s.store.recording r = .free) :
    exec .delete s = .next (s.refuse .noSuchRecording) := by
  rw [exec_delete_passed h hr hpass]
  cases he : s.store.entry r with
  | none => rfl
  | some e =>
    obtain hentry | hfree := hnone
    · cases he.symm.trans hentry
    · exact congrArg _ (if_pos ((isFree_iff _).2 hfree))

theorem exec_delete_known (h : Handed s .delete q) (hr : (byteAt q.args 0).toNat = r.val + 1)
    (hpass : StoreChecksPass s false) (he : s.store.entry r = some e) (hdefined : s.store.recording r ≠ .free) :
    exec .delete s = .next (if s.recordingInUse r then s.refuse .inUse
      else ((s.modifyStore fun m => (m.setEntry r none).setRecording r .free).beginMaintenance (.delete r e .directory 0)
        (.write (directoryBlockOf r)
          ((s.modifyStore fun m => (m.setEntry r none).setRecording r .free).directoryContents (directoryBlockOf r))))
            |>.respond .accepted []) := by
  rw [exec_delete_passed h hr hpass, he]
  exact congrArg _ (if_neg fun hfree => hdefined ((isFree_iff _).1 hfree))

/-! ### Held places and heads (R113) -/

theorem mem_heldPlaces (e : RecordingEntry) (i : Nat) :
    i ∈ e.heldPlaces ↔ i < e.blocks.length ∧ e.held.getD i false = true := by
  rw [RecordingEntry.heldPlaces, List.mem_filter, List.mem_range]

theorem heldPlaces_pairwise (e : RecordingEntry) : e.heldPlaces.Pairwise (· < ·) := List.pairwise_lt_range.filter _

/-! ### Placing the release jobs of an index block (R113, R130) -/

/-- The release queue with jobs of some heads added. -/
def headsQueued (r : RecIx) (heads : List Nat) (s : State) : State :=
  { s with release := { s.release with queue := s.release.queue ++ heads.map fun h => ⟨h, r⟩ } }

/-- How many of `n` heads the walk may place now: none while the Index Unit waits, otherwise as many as there is room for. -/
def placeable (s : State) (n : Nat) : Nat := if s.index.phase.isWaiting then 0 else min s.releaseRoom n

theorem headsQueued_cons (r : RecIx) (h : Nat) (hs : List Nat) (s : State) :
    headsQueued r hs (headsQueued r [h] s) = headsQueued r (h :: hs) s := by
  simp only [headsQueued, List.map_cons, List.map_nil, List.append_assoc, List.cons_append, List.nil_append]

theorem releaseRoom_headsQueued (r : RecIx) (h : Nat) (s : State) :
    (headsQueued r [h] s).releaseRoom = s.releaseRoom - 1 := by
  simp only [State.releaseRoom, headsQueued, List.length_append, List.map_cons, List.map_nil, List.length_singleton]
  omega

theorem placeable_headsQueued (r : RecIx) (h : Nat) (s : State) (n : Nat)
    (hmay : 1 ≤ s.releaseRoom ∧ s.index.phase.isWaiting = false) :
    placeable s (n + 1) = placeable (headsQueued r [h] s) n + 1 := by
  have hwaiting : (headsQueued r [h] s).index.phase.isWaiting = false := hmay.2
  simp only [placeable, hmay.2, hwaiting, releaseRoom_headsQueued, Bool.false_eq_true, if_false]
  omega

theorem mayPlace_iff (s : State) : (decide (1 ≤ s.releaseRoom) && !s.index.phase.isWaiting) = true ↔
    1 ≤ s.releaseRoom ∧ s.index.phase.isWaiting = false := by
  rw [Bool.and_eq_true, decide_eq_true_eq, Bool.not_eq_true']

/-- The heads that may be placed are, and the walk goes on or waits with the rest (R113, R130). -/
theorem deleteHeads_eq (r : RecIx) (e : RecordingEntry) (p : Nat) (rest heads : List Nat) (count : Nat) (s : State) :
    deleteHeads r e p rest heads count s =
      if placeable s heads.length = heads.length then
        deleteFreed r e p (count + placeable s heads.length) rest (headsQueued r (heads.take (placeable s heads.length)) s)
      else { headsQueued r (heads.take (placeable s heads.length)) s with
        maint := some (.delete r e (.place p (heads.drop (placeable s heads.length)) rest) (count + placeable s heads.length)) } := by
  induction heads generalizing count s with
  | nil =>
    have hnone : placeable s 0 = 0 := by
      unfold placeable
      split
      next => rfl
      next => exact Nat.min_zero _
    rw [deleteHeads, List.length_nil, hnone, if_pos rfl]
    simp only [headsQueued, List.take_nil, List.map_nil, List.append_nil, Nat.add_zero]
  | cons h hs ih =>
    by_cases hmay : 1 ≤ s.releaseRoom ∧ s.index.phase.isWaiting = false
    · rw [deleteHeads, if_pos ((mayPlace_iff s).2 hmay)]
      show deleteHeads r e p rest hs (count + 1) (headsQueued r [h] s) = _
      have hcount (n : Nat) : count + 1 + n = count + (n + 1) := by omega
      rw [ih, List.length_cons, placeable_headsQueued r h s hs.length hmay, headsQueued_cons, hcount, List.take_succ_cons,
        List.drop_succ_cons]
      simp only [Nat.add_right_cancel_iff]
    · have hzero : placeable s (hs.length + 1) = 0 := by
        unfold placeable
        cases hwaiting : s.index.phase.isWaiting with
        | true => rfl
        | false =>
          have hroom : s.releaseRoom = 0 := by
            by_contra hpos
            exact hmay ⟨Nat.one_le_iff_ne_zero.2 hpos, hwaiting⟩
          rw [if_neg Bool.false_ne_true, hroom, Nat.zero_min]
      rw [deleteHeads, if_neg fun hplace => hmay ((mayPlace_iff s).1 hplace), List.length_cons, hzero,
        if_neg (Nat.succ_ne_zero _).symm]
      simp only [headsQueued, List.take_zero, List.map_nil, List.append_nil, List.drop_zero, Nat.add_zero]

/-! ### The completions (R113) -/

theorem exec_deleteDirectoryWriteComplete {count : Nat} (h : Granted s .maintenance op)
    (hm : s.maint = some (.delete r e .directory count)) : exec .deleteDirectoryWriteComplete s =
      .next (deleteWalk r e count e.heldPlaces (s.complete op)).arbitrate :=
  congrArg Host.Outcome.next (onMaintenance_of_granted (f := fun _ => deleteWalk r e count e.heldPlaces) h hm rfl)

theorem exec_deleteIndexReadComplete {x count : Nat} {rest : List Nat} (h : Granted s .maintenance op)
    (hm : s.maint = some (.delete r e (.read x rest) count)) : exec .deleteIndexReadComplete s =
      .next (deleteHeads r e x rest ((readIndex r x e.maxRecords (op.contents s.array)).elim [] presentHeads) count
        (s.complete op)).arbitrate := by
  refine congrArg Host.Outcome.next ((onMaintenance_of_granted h hm rfl).trans ?_)
  cases readIndex r x e.maxRecords (op.contents s.array) <;> rfl

theorem deleteDue_iff {x count : Nat} {heads rest : List Nat} (hm : s.maint = some (.delete r e (.place x heads rest) count)) :
    s.deleteDue = true ↔ 1 ≤ s.releaseRoom ∧ s.index.phase.isWaiting = false := by
  simp only [State.deleteDue, hm]
  exact mayPlace_iff s

theorem exec_deleteReleaseJobPlace {x count h : Nat} {hs rest : List Nat}
    (hm : s.maint = some (.delete r e (.place x (h :: hs) rest) count)) : exec .deleteReleaseJobPlace s =
      .next (if s.deleteDue then
        (match hs with
          | [] => deleteFreed r e x (count + 1) rest (headsQueued r [h] s)
          | _ => { headsQueued r [h] s with maint := some (.delete r e (.place x hs rest) (count + 1)) }).arbitrate
      else s) := by
  rw [show exec .deleteReleaseJobPlace s = execDeleteReleaseJobPlace s from rfl, execDeleteReleaseJobPlace]
  simp only [hm] <;> rfl

end

/-- Settles O42: the acceptance by what refers to the recording, and the walk by how many jobs there is room for. -/
theorem deleteIsAcceptedAndWalksToDone : Obligations.DeleteIsAcceptedAndWalksToDone := by
  unfold Obligations.DeleteIsAcceptedAndWalksToDone
  refine ⟨fun s p l h => directoryContents_of_label h p,
    ⟨⟨rfl, fun es => ⟨fun n h t => rfl, fun n h t => rfl, rfl⟩⟩, fun e => ⟨heldPlaces_pairwise e, mem_heldPlaces e⟩,
      fun ph => ?waiting, fun s => rfl⟩,
    fun s q r h hr hpass => ⟨exec_delete_unknown h hr hpass, fun e he hdefined => ?accept⟩,
    fun s r e count => ?walk⟩
  case waiting => cases ph <;> simp [IndexPhase.isWaiting]
  case accept =>
    intro inUse
    rw [exec_delete_known h hr hpass he hdefined]
    exact ⟨fun huse => congrArg _ (if_pos ((recordingInUse_iff s r).2 huse)),
      fun hfree => congrArg _ (if_neg fun huse => hfree ((recordingInUse_iff s r).1 huse))⟩
  case walk =>
    intro on
    have hon (v : State) (done : Nat) (rest : List Nat) : on v done rest = deleteWalk r e done rest v := by
      cases rest <;> rfl
    refine ⟨fun op hgranted => ⟨fun hm => ?directory, fun x rest hm => ?read⟩, fun x h hs rest hm => ?place⟩
    case directory =>
      rw [exec_deleteDirectoryWriteComplete hgranted hm, hon]
      rfl
    case read =>
      intro heads n placed
      have hn : placeable (s.complete op) heads.length = n := rfl
      have hexec : exec .deleteIndexReadComplete s = .next (deleteHeads r e x rest heads count (s.complete op)).arbitrate :=
        exec_deleteIndexReadComplete hgranted hm
      rw [hexec, deleteHeads_eq, hn]
      refine ⟨fun hall => ?all, fun hsome => ?some⟩
      case all =>
        rw [hon, if_pos hall]
        rfl
      case some =>
        rw [if_neg (Nat.ne_of_lt hsome)]
        rfl
    case place =>
      intro placed may
      rw [exec_deleteReleaseJobPlace hm]
      refine ⟨fun hmay hmore => ?more, fun hmay hlast => ?last, fun hnot => ?waits⟩
      case more =>
        obtain ⟨h', hs', rfl⟩ := List.exists_cons_of_ne_nil hmore
        exact congrArg _ (if_pos ((deleteDue_iff hm).2 hmay))
      case last =>
        subst hlast
        rw [hon]
        exact congrArg _ (if_pos ((deleteDue_iff hm).2 hmay))
      case waits => exact congrArg _ (if_neg fun hdue => hnot ((deleteDue_iff hm).1 hdue))

end Sys2Proof.Laws
end

section
/-!
PROOF. ERASE (R94, R135, R136): its acceptance, and the positions of the list that hold the places of its range.
-/

namespace Sys2Proof.Laws

open Machine

/-! ### Places of a range of record numbers (R94) -/

/-- The place of the `i`-th number from `a` on, `i` less than the max records. -/
theorem place_eq {m a i : Nat} (ha : 1 ≤ a) (hi : i < m) :
    (a + i - 1) % m = if (a - 1) % m + i < m then (a - 1) % m + i else (a - 1) % m + i - m := by
  have hm : 0 < m := Nat.zero_lt_of_lt hi
  have hp := Nat.mod_lt (a - 1) hm
  rw [show a + i - 1 = a - 1 + i by omega, Nat.add_mod, Nat.mod_eq_of_lt hi]
  split
  next h => exact Nat.mod_eq_of_lt h
  next h => rw [Nat.mod_eq_sub_mod (Nat.not_lt.1 h), Nat.mod_eq_of_lt (by omega)]

/-- The place `j` is among those that the numbers `a` to `b` have, by where the first and the last of them are. -/
def PlaceInRange (m a b j : Nat) : Prop :=
  j < m ∧ (m ≤ b - a + 1 ∨ if (a - 1) % m ≤ (b - 1) % m then (a - 1) % m ≤ j ∧ j ≤ (b - 1) % m
    else j ≤ (b - 1) % m ∨ (a - 1) % m ≤ j)

theorem exists_number_at_place_iff {m a b j : Nat} (hm : 1 ≤ m) (ha : 1 ≤ a) (hab : a ≤ b) :
    (∃ n, a ≤ n ∧ n ≤ b ∧ (n - 1) % m = j) ↔ PlaceInRange m a b j := by
  have hp := Nat.mod_lt (a - 1) hm
  have hnumber (i : Nat) (hi : i < m) : (a + i - 1) % m = j ↔
      (if (a - 1) % m + i < m then (a - 1) % m + i else (a - 1) % m + i - m) = j := by rw [place_eq ha hi]
  by_cases hwide : m ≤ b - a + 1
  · refine ⟨fun ⟨n, _, _, hn⟩ => ⟨hn ▸ Nat.mod_lt _ hm, .inl hwide⟩, fun ⟨hj, _⟩ => ?_⟩
    by_cases hafter : (a - 1) % m ≤ j
    · refine ⟨a + (j - (a - 1) % m), by omega, by omega, (hnumber _ (by omega)).2 ?_⟩
      rw [if_pos (by omega)]
      omega
    · refine ⟨a + (j + m - (a - 1) % m), by omega, by omega, (hnumber _ (by omega)).2 ?_⟩
      rw [if_neg (by omega)]
      omega
  · have hlast := place_eq (m := m) (i := b - a) ha (by omega)
    rw [show a + (b - a) - 1 = b - 1 by omega] at hlast
    constructor
    · rintro ⟨n, hlow, hhigh, hn⟩
      have hplace := (hnumber (n - a) (by omega)).1 (by rw [show a + (n - a) - 1 = n - 1 by omega]; exact hn)
      refine ⟨hn ▸ Nat.mod_lt _ hm, .inr ?_⟩
      split_ifs at hlast hplace ⊢ <;> omega
    · rintro ⟨hj, hrange⟩
      have hrange := hrange.resolve_left hwide
      by_cases hafter : (a - 1) % m ≤ j
      · refine ⟨a + (j - (a - 1) % m), by omega, ?_, (hnumber _ (by omega)).2 ?_⟩
        · split_ifs at hlast hrange <;> omega
        · rw [if_pos (by omega)]
          omega
      · refine ⟨a + (j + m - (a - 1) % m), by omega, ?_, (hnumber _ (by omega)).2 ?_⟩
        · split_ifs at hlast hrange <;> omega
        · rw [if_neg (by omega)]
          omega

/-! ### Positions (R136) -/

theorem indexBlocksFor_eq (m : Nat) : indexBlocksFor m = (m + 47) / 48 := rfl

theorem erasePositions_pairwise (m a b : Nat) : (erasePositions m a b).Pairwise (· < ·) := by
  unfold erasePositions
  dsimp only
  split
  next => exact List.pairwise_lt_range
  next => split <;> exact List.pairwise_lt_range.filter _

theorem mem_erasePositions_iff (m a b x : Nat) : x ∈ erasePositions m a b ↔ x < (m + 47) / 48 ∧
    (m ≤ b - a + 1 ∨ if (a - 1) % m ≤ (b - 1) % m then (a - 1) % m / 48 ≤ x ∧ x ≤ (b - 1) % m / 48
      else x ≤ (b - 1) % m / 48 ∨ (a - 1) % m / 48 ≤ x) := by
  unfold erasePositions
  dsimp only
  rw [indexBlocksFor_eq]
  by_cases hwide : m ≤ b - a + 1
  · rw [if_pos hwide, List.mem_range, and_iff_left (Or.inl hwide)]
  · rw [if_neg hwide, or_iff_right hwide]
    by_cases hordered : (a - 1) % m ≤ (b - 1) % m
    · rw [if_pos hordered, if_pos hordered, List.mem_filter, List.mem_range, Bool.and_eq_true, decide_eq_true_eq,
        decide_eq_true_eq]
      rfl
    · rw [if_neg hordered, if_neg hordered, List.mem_filter, List.mem_range, Bool.or_eq_true, decide_eq_true_eq,
        decide_eq_true_eq]
      rfl

/-- A position holds a place of the range exactly when it is between the positions of the first and the last. -/
theorem mem_erasePositions_iff_place {m a b : Nat} (hm : 1 ≤ m) (x : Nat) :
    x ∈ erasePositions m a b ↔ ∃ j, PlaceInRange m a b j ∧ j / 48 = x := by
  have ha := Nat.mod_lt (a - 1) hm
  have hb := Nat.mod_lt (b - 1) hm
  rw [mem_erasePositions_iff]
  constructor
  · rintro ⟨hx, hrange⟩
    by_cases hstart : (a - 1) % m / 48 = x ∧ ¬(m ≤ b - a + 1)
    · refine ⟨(a - 1) % m, ⟨ha, .inr ?_⟩, hstart.1⟩
      split_ifs <;> omega
    · refine ⟨48 * x, ⟨by omega, ?_⟩, by omega⟩
      obtain hwide | hrange := hrange
      · exact .inl hwide
      · by_cases hwide : m ≤ b - a + 1
        · exact .inl hwide
        · refine .inr ?_
          split_ifs at hrange ⊢ <;> omega
  · rintro ⟨j, ⟨hj, hrange⟩, rfl⟩
    refine ⟨by omega, hrange.imp_right fun hrange => ?_⟩
    split_ifs at hrange ⊢ <;> omega

/-! ### The acceptance (R135, R136) -/

section
variable {s : State} {q : Request} {r : RecIx}

theorem exec_erase_passed (h : Handed s .erase q) (hr : (byteAt q.args 0).toNat = r.val + 1)
    (hlow : 1 ≤ fieldAt q.args 1 4) (hhigh : fieldAt q.args 1 4 ≤ fieldAt q.args 5 4) (hpass : StoreChecksPass s false) :
    exec .erase s = .next (
      if (s.store.recording r).isFree then s.refuse .noSuchRecording
      else if (s.store.recording r).isDamaged then s.refuse .damaged
      else
        let ab := s.store.clip r (fieldAt q.args 1 4) (fieldAt q.args 5 4)
        (s.eraseNext r ab.1 ab.2 (if ab.2 < ab.1 then [] else erasePositions (s.store.maxRecords r) ab.1 ab.2) 0).respond
          .accepted []) := by
  rw [show exec .erase s = execErase s from rfl, execErase, ownerStep_of_handed h]
  have hnumber : recordingOf (q.byte 0).toNat = some r := recordingOf_number hr.symm
  have hrange : 1 ≤ q.nat 1 4 ∧ q.nat 1 4 ≤ q.nat 5 4 := ⟨hlow, hhigh⟩
  simp only [hnumber, if_neg (not_not_intro hrange), storeChecks_of_pass hpass]
  rfl

theorem exec_erase_defined (h : Handed s .erase q) (hr : (byteAt q.args 0).toNat = r.val + 1)
    (hlow : 1 ≤ fieldAt q.args 1 4) (hhigh : fieldAt q.args 1 4 ≤ fieldAt q.args 5 4) (hpass : StoreChecksPass s false)
    {newest p : Nat} (hstate : s.store.recording r = .defined newest p) {m a b : Nat} (hm : s.store.maxRecords r = m)
    (ha : a = max (fieldAt q.args 1 4) (max 1 (newest + 1 - m))) (hb : b = min (fieldAt q.args 5 4) newest) :
    exec .erase s =
      .next ((s.eraseNext r a b (if b < a then [] else erasePositions m a b) 0).respond .accepted []) := by
  have hclip : s.store.clip r (fieldAt q.args 1 4) (fieldAt q.args 5 4) = (a, b) := by
    rw [StoreManager.clip, StoreManager.windowStart, windowStart, hm, hstate, ha, hb]
    rfl
  rw [exec_erase_passed h hr hlow hhigh hpass, hclip, hm, hstate]
  rfl

end

/-- Settles O43: the acceptance by the state of the recording, the positions by the places of the range's numbers. -/
theorem eraseIsAcceptedWithThePositionsOfItsRange : Obligations.EraseIsAcceptedWithThePositionsOfItsRange := by
  unfold Obligations.EraseIsAcceptedWithThePositionsOfItsRange
  refine ⟨fun s q r h hr hlow hhigh hpass => ⟨fun hfree => ?unused, fun n p hdamaged => ?damaged, fun newest p hstate => ?defined⟩,
    fun m a b hm ha hab => ⟨erasePositions_pairwise m a b, fun x => ?positions⟩⟩
  case unused =>
    rw [exec_erase_passed h hr hlow hhigh hpass, hfree]
    rfl
  case damaged =>
    rw [exec_erase_passed h hr hlow hhigh hpass, hdamaged]
    rfl
  case defined =>
    intro m a b
    have hm : s.store.maxRecords r = m := by
      simp only [m, StoreManager.maxRecords]
      cases s.store.entry r <;> rfl
    have hexec := exec_erase_defined h hr hlow hhigh hpass hstate hm (a := a) (b := b) rfl rfl
    refine ⟨fun hempty => ?empty, fun x xs hle hpositions => ?places⟩
    case empty =>
      rw [hexec, if_pos hempty]
      rfl
    case places =>
      rw [hexec, if_neg (Nat.not_lt.2 hle), hpositions]
      rfl
  case positions =>
    rw [mem_erasePositions_iff_place hm]
    constructor
    · rintro ⟨j, hj, rfl⟩
      obtain ⟨n, hlow, hhigh, rfl⟩ := (exists_number_at_place_iff hm ha hab).2 hj
      exact ⟨n, hlow, hhigh, rfl⟩
    · rintro ⟨n, hlow, hhigh, rfl⟩
      exact ⟨_, (exists_number_at_place_iff hm ha hab).1 ⟨n, hlow, hhigh, rfl⟩, rfl⟩

end Sys2Proof.Laws
end

section
/-!
PROOF. The mount scan's directory reads and claims (R139, R140).
-/

namespace Sys2Proof.Laws

open Machine

/-! ### The claims of a recording's index blocks (R140) -/

theorem claimBlocks_length (used blocks : List Nat) : (claimBlocks used blocks).2.length = blocks.length := by
  induction blocks generalizing used with
  | nil => rfl
  | cons b bs ih =>
    rw [claimBlocks]
    split
    next => exact congrArg (· + 1) (ih _)
    next => exact congrArg (· + 1) (ih _)

/-- A block may be claimed: it lies in the data area and is not marked. -/
def Claimable (used : List Nat) (b : Nat) : Prop := inDataArea b = true ∧ b ∉ used

theorem claimable_iff (used : List Nat) (b : Nat) :
    (inDataArea b && !used.contains b) = true ↔ Claimable used b := by
  rw [Bool.and_eq_true, Bool.not_eq_true', ← Bool.not_eq_true, List.contains_iff_mem, Claimable]

theorem claimBlocks_cons_of_claimable {used : List Nat} {b : Nat} (h : Claimable used b) (bs : List Nat) :
    claimBlocks used (b :: bs) = ((claimBlocks (insertUsed b used) bs).1, true :: (claimBlocks (insertUsed b used) bs).2) := by
  rw [claimBlocks, if_pos ((claimable_iff used b).2 h)]

theorem claimBlocks_cons_of_not_claimable {used : List Nat} {b : Nat} (h : ¬Claimable used b) (bs : List Nat) :
    claimBlocks used (b :: bs) = ((claimBlocks used bs).1, false :: (claimBlocks used bs).2) := by
  rw [claimBlocks, if_neg fun hc => h ((claimable_iff used b).1 hc)]

theorem mem_claimBlocks (used blocks : List Nat) (x : Nat) :
    x ∈ (claimBlocks used blocks).1 ↔ x ∈ used ∨ inDataArea x = true ∧ x ∈ blocks := by
  induction blocks generalizing used with
  | nil => simp [claimBlocks]
  | cons b bs ih =>
    by_cases hb : Claimable used b
    · rw [claimBlocks_cons_of_claimable hb, ih, mem_insertUsed, List.mem_cons]
      constructor
      · rintro ((rfl | hx) | hx)
        · exact .inr ⟨hb.1, .inl rfl⟩
        · exact .inl hx
        · exact .inr ⟨hx.1, .inr hx.2⟩
      · rintro (hx | ⟨hdata, rfl | hx⟩)
        · exact .inl (.inr hx)
        · exact .inl (.inl rfl)
        · exact .inr ⟨hdata, hx⟩
    · rw [claimBlocks_cons_of_not_claimable hb, ih, List.mem_cons]
      refine ⟨fun h => h.imp_right fun hx => ⟨hx.1, .inr hx.2⟩, ?_⟩
      rintro (hx | ⟨hdata, rfl | hx⟩)
      · exact .inl hx
      · exact .inl (by_contra fun hx => hb ⟨hdata, hx⟩)
      · exact .inr ⟨hdata, hx⟩

theorem claimBlocks_mark (used blocks : List Nat) {i : Nat} (hi : i < blocks.length) :
    (claimBlocks used blocks).2.getD i false = true ↔
      inDataArea (blocks.getD i 0) = true ∧ blocks.getD i 0 ∉ used ∧ ∀ j, j < i → blocks.getD j 0 ≠ blocks.getD i 0 := by
  induction blocks generalizing used i with
  | nil => exact absurd hi (Nat.not_lt_zero i)
  | cons b bs ih =>
    cases i with
    | zero =>
      have hvacuous : ∀ j, j < 0 → (b :: bs).getD j 0 ≠ (b :: bs).getD 0 0 := fun j hj => absurd hj (Nat.not_lt_zero j)
      by_cases hb : Claimable used b
      · rw [claimBlocks_cons_of_claimable hb]
        exact iff_of_true rfl ⟨hb.1, hb.2, hvacuous⟩
      · rw [claimBlocks_cons_of_not_claimable hb]
        exact iff_of_false Bool.false_ne_true fun h => hb ⟨h.1, h.2.1⟩
    | succ i =>
      have hi' : i < bs.length := Nat.lt_of_succ_lt_succ hi
      have hearlier : (∀ j, j < i + 1 → (b :: bs).getD j 0 ≠ bs.getD i 0) ↔
          b ≠ bs.getD i 0 ∧ ∀ j, j < i → bs.getD j 0 ≠ bs.getD i 0 := by
        refine ⟨fun h => ⟨h 0 (Nat.zero_lt_succ i), fun j hj => h (j + 1) (Nat.succ_lt_succ hj)⟩, fun h j hj => ?_⟩
        cases j with
        | zero => exact h.1
        | succ j => exact h.2 j (Nat.lt_of_succ_lt_succ hj)
      by_cases hb : Claimable used b
      · rw [claimBlocks_cons_of_claimable hb, List.getD_cons_succ, List.getD_cons_succ, ih _ hi', hearlier, mem_insertUsed,
          not_or, ne_comm, and_assoc, and_left_comm (b := bs.getD i 0 ∉ used)]
      · rw [claimBlocks_cons_of_not_claimable hb, List.getD_cons_succ, List.getD_cons_succ, ih _ hi', hearlier]
        refine ⟨fun ⟨hdata, hused, hrest⟩ => ⟨hdata, hused, fun heq => hb (heq ▸ ⟨hdata, hused⟩), hrest⟩,
          fun ⟨hdata, hused, _, hrest⟩ => ⟨hdata, hused, hrest⟩⟩

/-! ### The recordings of the scan (R139, R140) -/

section
variable {s : State} {r : RecIx} {e : RecordingEntry} {op : StoreOp}

theorem mountRecordings_of_free (he : s.store.entry r = none) (rs : List RecIx) :
    s.mountRecordings (r :: rs) = (s.modifyStore fun m => m.setRecording r .free).mountRecordings rs := by
  simp only [State.mountRecordings, he]

/-- The store with the index blocks of a recording claimed (R140). -/
def claimedStore (r : RecIx) (e : RecordingEntry) (m : StoreManager) : StoreManager :=
  { m with used := (claimBlocks m.used e.blocks).1 }.setEntry r (some { e with held := (claimBlocks m.used e.blocks).2 })

/-- The places of a recording that its claims hold (R140). -/
def claimedPlaces (e : RecordingEntry) (m : StoreManager) : List Nat :=
  (List.range e.blocks.length).filter fun i => (claimBlocks m.used e.blocks).2.getD i false

theorem mountRecordings_of_unheld (he : s.store.entry r = some e) (hplaces : claimedPlaces e s.store = []) (rs : List RecIx) :
    s.mountRecordings (r :: rs) =
      (s.modifyStore fun m => (claimedStore r e m).setRecording r (.damaged 0 0)).mountRecordings rs := by
  have hheld : ({ e with held := (claimBlocks s.store.used e.blocks).2 } : RecordingEntry).heldPlaces = [] := hplaces
  simp only [State.mountRecordings, he, hheld]
  rfl

theorem mountRecordings_of_held (he : s.store.entry r = some e) {p : Nat} {ps : List Nat}
    (hplaces : claimedPlaces e s.store = p :: ps) (rs : List RecIx) :
    s.mountRecordings (r :: rs) = (s.modifyStore (claimedStore r e)).beginMaintenance
      (.mount (.index r (p :: ps) [] ((claimBlocks s.store.used e.blocks).2.contains false))) (.read (e.blocks.getD p 0)) := by
  have hheld : ({ e with held := (claimBlocks s.store.used e.blocks).2 } : RecordingEntry).heldPlaces = p :: ps := hplaces
  simp only [State.mountRecordings, he, hheld]
  rfl

/-! ### The directory reads (R139) -/

theorem exec_mountDirectoryReadComplete {block : Nat} (h : Granted s .maintenance op)
    (hm : s.maint = some (.mount (.directory block))) : exec .mountDirectoryReadComplete s =
      .next (mountDirectory block (op.contents s.array) (s.complete op)).arbitrate :=
  congrArg Host.Outcome.next (onMaintenance_of_granted (f := mountDirectory block) h hm rfl)

theorem mountDirectory_of_valid {block : Nat} {contents : List Byte} {l : LabelCopy} (hl : s.store.label = some l)
    {e0 e1 : Option RecordingEntry} (h : readDirectory block l.serial contents = some (e0, e1)) :
    mountDirectory block contents s =
      let u := s.modifyStore fun m => (m.setEntry (directoryFirst block) e0).setEntry (directorySecond block) e1
      if block < 16 then u.beginMaintenance (.mount (.directory (block + 1))) (.read (block + 1))
      else u.mountRecordings (List.finRange 32) := by
  simp only [mountDirectory, hl, Option.elim_some, h]
  rfl

theorem mountDirectory_of_invalid {block : Nat} {contents : List Byte} {l : LabelCopy} (hl : s.store.label = some l)
    (h : readDirectory block l.serial contents = none) : mountDirectory block contents s =
      let u := s.modifyStore fun m =>
        ((m.setEntry (directoryFirst block) none).setEntry (directorySecond block) none).countDamage
      if block < 16 then u.beginMaintenance (.mount (.directory (block + 1))) (.read (block + 1))
      else u.mountRecordings (List.finRange 32) := by
  simp only [mountDirectory, hl, Option.elim_some, h]
  rfl

end

/-- Settles O45: the scan of the recordings by what each claims, a directory read by whether its block is valid, the claims
by induction over the list of blocks. -/
theorem mountReadsTheDirectoryAndClaimsIndexBlocks : Obligations.MountReadsTheDirectoryAndClaimsIndexBlocks := by
  unfold Obligations.MountReadsTheDirectoryAndClaimsIndexBlocks
  refine ⟨fun s op block l hgranted hm hl => ?scan, fun used blocks => ⟨claimBlocks_length used blocks,
    fun i hi => claimBlocks_mark used blocks hi, mem_claimBlocks used blocks⟩⟩
  case scan =>
    intro u next
    refine ⟨fun v r rs => ⟨rfl, fun he => mountRecordings_of_free he rs, fun e he => ?recording⟩, fun e0 e1 hread => ?valid,
      fun hread => ?invalid⟩
    case recording =>
      intro held claimed
      refine ⟨fun hnone => ?unheld, fun p ps hplaces => mountRecordings_of_held he hplaces rs⟩
      case unheld =>
        refine mountRecordings_of_unheld he (List.filter_eq_nil_iff.2 fun i hi => ?_) rs
        rw [Bool.not_eq_true]
        exact hnone i (List.mem_range.1 hi)
    case valid =>
      rw [exec_mountDirectoryReadComplete hgranted hm, mountDirectory_of_valid (s := s.complete op) hl hread]
      rfl
    case invalid =>
      rw [exec_mountDirectoryReadComplete hgranted hm, mountDirectory_of_invalid (s := s.complete op) hl hread]
      rfl

end Sys2Proof.Laws
end

section
/-!
PROOF. The mount scan's index reads, its entry walk and its end (R140 to R142).
-/

namespace Sys2Proof.Laws

open Machine

/-! ### The walk over the entries (R141) -/

section
variable {s : State} {w : RecordWalk} {x : WalkEntry} {rest : List WalkEntry} {r : RecIx} {e : RecordingEntry} {op : StoreOp}

theorem mountWalk_of_done (h : w.todo = []) : s.mountWalk w = s.mountRecorded w := by
  simp only [State.mountWalk, h]

theorem mountWalk_of_next (h : w.todo = x :: rest) : s.mountWalk w =
    if inDataArea x.head then s.beginMaintenance (.mount (.head w)) (.read x.head) else s.mountRepair w x := by
  simp only [State.mountWalk, h]

theorem exec_mountIndexReadComplete {p : Nat} {ps : List Nat} {kept : List (Nat × List IndexEntry)} {damaged : Bool}
    (h : Granted s .maintenance op) (hm : s.maint = some (.mount (.index r (p :: ps) kept damaged))) :
    exec .mountIndexReadComplete s =
      .next (mountIndex r p ps kept damaged (op.contents s.array) (s.complete op)).arbitrate :=
  congrArg Host.Outcome.next (onMaintenance_of_granted (f := mountIndex r p ps kept damaged) h hm rfl)

theorem exec_mountHeadReadComplete (h : Granted s .maintenance op) (hm : s.maint = some (.mount (.head w)))
    (hw : w.todo = x :: rest) :
    exec .mountHeadReadComplete s = .next (mountHead w x (op.contents s.array) (s.complete op)).arbitrate := by
  have hhead : (w.todo.head?.map fun x => mountHead w x) = some (mountHead w x) := by rw [hw]; rfl
  exact congrArg Host.Outcome.next (onMaintenance_of_granted (f := mountHead w x) h hm hhead)

/-- The kept blocks of a recording's scan after one more index read. -/
def keptAfter (kept : List (Nat × List IndexEntry)) (p : Nat) (found : Option (List IndexEntry)) :
    List (Nat × List IndexEntry) :=
  kept ++ (found.map fun es => (p, es)).toList

theorem maxRecords_of_entry (he : s.store.entry r = some e) : s.store.maxRecords r = e.maxRecords := by
  rw [StoreManager.maxRecords, he, Option.elim_some]

theorem mountIndex_of_more (he : s.store.entry r = some e) (p q : Nat) (qs : List Nat) (kept : List (Nat × List IndexEntry))
    (damaged : Bool) (contents : List Byte) :
    mountIndex r p (q :: qs) kept damaged contents s =
      s.beginMaintenance (.mount (.index r (q :: qs) (keptAfter kept p (readIndex r p e.maxRecords contents))
        (damaged || (readIndex r p e.maxRecords contents).isNone))) (.read (e.blocks.getD q 0)) := by
  simp only [mountIndex, maxRecords_of_entry he, he, Option.elim_some, keptAfter]

theorem mountIndex_of_last (he : s.store.entry r = some e) (p : Nat) (kept : List (Nat × List IndexEntry))
    (damaged : Bool) (contents : List Byte) :
    mountIndex r p [] kept damaged contents s =
      s.mountWalk ⟨r, damaged || (readIndex r p e.maxRecords contents).isNone,
        newestOf e.maxRecords (keptAfter kept p (readIndex r p e.maxRecords contents)), 0,
        walkOf (keptAfter kept p (readIndex r p e.maxRecords contents))⟩ := by
  simp only [mountIndex, maxRecords_of_entry he, keptAfter]

theorem mountHead_of_mounted {contents : List Byte} {h : HeadInfo}
    (hfound : mountedHead s.store.used (s.store.maxRecords w.recording) w.newest w.recording x contents = some h) :
    mountHead w x contents s = (s.modifyStore fun m => (x.head :: h.blocks).foldl (·.markBlock ·) m).mountWalk
      { w with mounted := w.mounted + 1, todo := w.todo.tail } := by
  simp only [mountHead, hfound]

theorem mountHead_of_unmounted {contents : List Byte}
    (hfound : mountedHead s.store.used (s.store.maxRecords w.recording) w.newest w.recording x contents = none) :
    mountHead w x contents s = s.mountRepair w x := by
  simp only [mountHead, hfound]

end

/-! ### The entries of kept blocks (R141) -/

theorem inDataArea_iff (b : Nat) : inDataArea b = true ↔ 17 ≤ b ∧ b ≤ 8191 := by
  rw [inDataArea, Bool.and_eq_true, decide_eq_true_eq, decide_eq_true_eq]
  simp only [Config.dataFirst, Config.dataLast]

theorem zipIdx_eq_map_range {α : Type} (l : List α) (d : α) : l.zipIdx = (List.range l.length).map fun i => (l.getD i d, i) := by
  refine List.ext_getElem (by simp) fun i hi hi' => ?_
  have hlt : i < l.length := by simpa using hi
  simp [List.getD_eq_getElem?_getD, hlt]

theorem walkOf_cons (p : Nat) (es : List IndexEntry) (kept : List (Nat × List IndexEntry)) :
    walkOf ((p, es) :: kept) = ((List.range es.length).filterMap fun i => match es.getD i .unused with
      | .present n h t => some ⟨p, i, n, h, t⟩
      | _ => none) ++ walkOf kept := by
  rw [walkOf, List.flatMap_cons, zipIdx_eq_map_range es .unused, List.filterMap_map]
  rfl

/-! ### The newest number (R142) -/

theorem foldl_max_spec (l : List Nat) (a : Nat) :
    (a ≤ l.foldl max a ∧ ∀ n ∈ l, n ≤ l.foldl max a) ∧ (l.foldl max a = a ∨ l.foldl max a ∈ l) := by
  induction l generalizing a with
  | nil => exact ⟨⟨Nat.le_refl a, fun n hn => absurd hn List.not_mem_nil⟩, .inl rfl⟩
  | cons b l ih =>
    obtain ⟨⟨hstart, hall⟩, hfrom⟩ := ih (max a b)
    rw [List.foldl_cons]
    refine ⟨⟨(Nat.le_max_left a b).trans hstart, fun n hn => ?_⟩, ?_⟩
    · obtain rfl | hn := List.mem_cons.1 hn
      · exact (Nat.le_max_right a n).trans hstart
      · exact hall n hn
    · obtain heq | hmem := hfrom
      · rw [heq]
        obtain h | h := Nat.le_total b a
        · exact .inl (Nat.max_eq_left h)
        · rw [Nat.max_eq_right h]
          exact .inr (List.mem_cons_self ..)
      · exact .inr (List.mem_cons_of_mem b hmem)

theorem number_eq_some_iff (y : IndexEntry) (n : Nat) :
    y.number? = some n ↔ ∃ h t, y = .present n h t ∨ y = .void n h t := by
  cases y <;> simp [IndexEntry.number?]

theorem placedNumber_eq_some_iff (m place n : Nat) (y : IndexEntry) : placedNumber m place y = some n ↔
    (∃ h t, y = .present n h t ∨ y = .void n h t) ∧ place < m ∧ (n - 1) % m = place := by
  rw [placedNumber, Option.filter_eq_some_iff, number_eq_some_iff, Bool.and_eq_true, decide_eq_true_eq, beq_iff_eq]

/-- A kept entry has number `n` and the number belongs to its place (R142). -/
def NumberPlaced (m : Nat) (kept : List (Nat × List IndexEntry)) (n : Nat) : Prop :=
  ∃ b ∈ kept, ∃ i h t, i < b.2.length ∧ (b.2[i]? = some (.present n h t) ∨ b.2[i]? = some (.void n h t)) ∧
    48 * b.1 + i < m ∧ (n - 1) % m = 48 * b.1 + i

theorem mem_placedNumbers_iff (m : Nat) (kept : List (Nat × List IndexEntry)) (n : Nat) :
    (n ∈ kept.flatMap fun b => (b.2.zipIdx).filterMap fun e => placedNumber m (Config.indexEntries * b.1 + e.2) e.1) ↔
      NumberPlaced m kept n := by
  simp only [List.mem_flatMap, List.mem_filterMap, placedNumber_eq_some_iff, Prod.exists, List.mk_mem_zipIdx_iff_getElem?]
  constructor
  · rintro ⟨p, es, hkept, y, i, hy, ⟨h, t, hentry⟩, hplace, hnumber⟩
    have hi : i < es.length := (List.getElem?_eq_some_iff.1 hy).1
    refine ⟨(p, es), hkept, i, h, t, hi, ?_, hplace, hnumber⟩
    obtain rfl | rfl := hentry
    · exact .inl hy
    · exact .inr hy
  · rintro ⟨⟨p, es⟩, hkept, i, h, t, -, hentry, hplace, hnumber⟩
    obtain hy | hy := hentry
    · exact ⟨p, es, hkept, _, i, hy, ⟨h, t, .inl rfl⟩, hplace, hnumber⟩
    · exact ⟨p, es, hkept, _, i, hy, ⟨h, t, .inr rfl⟩, hplace, hnumber⟩

theorem newestOf_spec (m : Nat) (kept : List (Nat × List IndexEntry)) :
    (∀ n, NumberPlaced m kept n → n ≤ newestOf m kept) ∧ (newestOf m kept = 0 ∨ NumberPlaced m kept (newestOf m kept)) := by
  obtain ⟨⟨-, hall⟩, hfrom⟩ := foldl_max_spec
    (kept.flatMap fun b => (b.2.zipIdx).filterMap fun e => placedNumber m (Config.indexEntries * b.1 + e.2) e.1) 0
  exact ⟨fun n hn => hall n ((mem_placedNumbers_iff m kept n).2 hn), hfrom.imp_right (mem_placedNumbers_iff m kept _).1⟩

/-! ### When an entry is mounted (R95, R141) -/

theorem mountedHead_eq_some_iff (used : List Nat) (m newest : Nat) (r : RecIx) (x : WalkEntry) (contents : List Byte)
    (h : HeadInfo) : mountedHead used m newest r x contents = some h ↔
      readHead r contents = some h ∧ 48 * x.position + x.entry < m ∧ (x.number - 1) % m = 48 * x.position + x.entry ∧
        newest + 1 ≤ x.number + m ∧ inDataArea x.head = true ∧ h.total = x.total ∧ (x.head :: h.blocks).Nodup ∧
        ∀ b ∈ x.head :: h.blocks, b ∉ used := by
  unfold mountedHead
  simp only [Option.filter_eq_some_iff, Bool.and_eq_true, decide_eq_true_eq, beq_iff_eq, List.all_eq_true,
    Bool.not_eq_true', ← Bool.not_eq_true, List.contains_iff_mem, and_assoc]
  rfl

/-- Settles O46: the walk by what is left of it, the reads by what they find, the newest number and the mounted head by
their definitions. -/
theorem mountWalksTheEntriesAndEndsReady : Obligations.MountWalksTheEntriesAndEndsReady := by
  unfold Obligations.MountWalksTheEntriesAndEndsReady
  refine ⟨fun s op hgranted => ?scan, ⟨inDataArea_iff, rfl, walkOf_cons⟩, newestOf_spec, mountedHead_eq_some_iff, fun s => rfl⟩
  case scan =>
    intro u repair
    refine ⟨fun v w => ?walk, fun r p ps kept damaged e hm he => ?index, fun w x rest hm hw => ?head⟩
    case walk =>
      refine ⟨fun hdone => mountWalk_of_done hdone, fun x rest hnext => ⟨fun hin => ?inside, fun hout => ?outside⟩⟩
      case inside =>
        rw [mountWalk_of_next hnext, if_pos hin]
        rfl
      case outside =>
        rw [mountWalk_of_next hnext, if_neg (by simp [hout])]
        rfl
    case index =>
      intro found kept' damaged'
      have hkept : keptAfter kept p found = kept' := by
        simp only [keptAfter, kept']
        cases found with
        | none => exact List.append_nil kept
        | some es => rfl
      rw [exec_mountIndexReadComplete hgranted hm]
      refine ⟨fun p' ps' hps => ?more, fun hps => ?last⟩
      case more =>
        rw [hps, mountIndex_of_more (s := s.complete op) he, hkept]
        rfl
      case last =>
        rw [hps, mountIndex_of_last (s := s.complete op) he, hkept]
        rfl
    case head =>
      intro found
      rw [exec_mountHeadReadComplete hgranted hm hw]
      refine ⟨fun h hfound => ?mounted, fun hfound => ?unmounted⟩
      case mounted =>
        rw [mountHead_of_mounted (s := s.complete op) hfound, hw]
        rfl
      case unmounted =>
        rw [mountHead_of_unmounted (s := s.complete op) hfound]
        rfl

end Sys2Proof.Laws
end

section
/-!
PROOF. The Index Unit (R121 to R128, R130): the taking of a job, and what a job makes of the block that it reads.
-/

namespace Sys2Proof.Laws

open Machine

section
variable {s : State} {j : IndexJob} {js : List IndexJob} {op : StoreOp} {k : SlotIx} {c : Capture} {r : RecIx}
  {e : RecordingEntry} {n : Nat} {contents : List Byte}

/-! ### Completions and ends of a job -/

theorem onCompletion_of_granted {w : Requester} (h : Granted s w op) (f : StoreOp → State → State) :
    s.onCompletion w f = (f op (s.complete op)).arbitrate := by
  unfold Granted at h
  simp only [State.onCompletion, h, if_true]

theorem jobFinished_of_queue (h : s.index.queue = j :: js) : s.jobFinished = { s with index := ⟨js, .idle, 0⟩ } := by
  rw [State.jobFinished, h]
  rfl

theorem report_store_slots (s : State) (x : ConditionReport) :
    (s.report x).store = s.store ∧ (s.report x).slots = s.slots := by
  obtain ⟨heq, -⟩ | ⟨heq, -⟩ := report_spec s x
  · rw [heq]
    exact ⟨rfl, rfl⟩
  · rw [heq]
    exact ⟨rfl, rfl⟩

/-- A COMMIT job's slot in LIMIT: the condition reported, the blocks freed, the reservation returned, the slot EMPTY (R70,
R125). -/
def limitedSlot (k : SlotIx) (c : Capture) (s : State) : State :=
  { s.report (reportOf .limit k c.request) with
    store := (s.store.freeBlocks (c.head :: c.blocks)).returnReserved c.remaining
    slots := tableSet s.slots k { s.slot k with capture := none } }

theorem slotLimited_of_occupied (h : (s.slot k).capture = some c) : s.slotLimited k = limitedSlot k c s := by
  obtain ⟨hstore, hslots⟩ := report_store_slots s (reportOf .limit k c.request)
  simp only [State.slotLimited, h]
  rw [limitedSlot, State.slot, ← hstore, ← hslots]
  rfl

/-! ### INDEX_JOB_TAKE (R121, R123, R125) -/

/-- The unit reads the block at a position of a recording's list for the job in progress. -/
def indexReads (r : RecIx) (position n : Nat) (s : State) : State :=
  ({ s with index := { s.index with phase := .reading n } } : State).present .index (.read (s.store.indexBlock r position))

theorem exec_indexJobTake_commit {head total : Nat} (hidle : s.index.phase = .idle)
    (hqueue : s.index.queue = .commit k r head total :: js) :
    exec .indexJobTake s = .next (
      if (s.store.recording r).newest = 2 ^ 32 - 1 then (s.jobFinished.slotLimited k).arbitrate
      else indexReads r (placeOf (s.store.maxRecords r) ((s.store.recording r).newest + 1) / 48)
        ((s.store.recording r).newest + 1) s) := by
  rw [show exec .indexJobTake s = execIndexJobTake s from rfl, execIndexJobTake]
  simp only [indexReads, hidle, hqueue]
  rfl

theorem exec_indexJobTake_voidSet {x a b : Nat} (hidle : s.index.phase = .idle)
    (hqueue : s.index.queue = .voidSet r x a b :: js) : exec .indexJobTake s = .next (indexReads r x 0 s) := by
  rw [show exec .indexJobTake s = execIndexJobTake s from rfl, execIndexJobTake]
  simp only [indexReads, hidle, hqueue]
  rfl

theorem exec_indexJobTake_repair {x i : Nat} (hidle : s.index.phase = .idle)
    (hqueue : s.index.queue = .repair r x i :: js) : exec .indexJobTake s = .next (indexReads r x 0 s) := by
  rw [show exec .indexJobTake s = execIndexJobTake s from rfl, execIndexJobTake]
  simp only [indexReads, hidle, hqueue]
  rfl

theorem indexBlock_of_entry (he : s.store.entry r = some e) (x : Nat) : s.store.indexBlock r x = e.blocks.getD x 0 := by
  rw [StoreManager.indexBlock, he, Option.elim_some]

end

/-- Settles O47, by the kind of the job at the head of the queue. -/
theorem indexJobIsTaken : Obligations.IndexJobIsTaken := by
  unfold Obligations.IndexJobIsTaken
  intro s js hidle block
  refine ⟨fun k r head total e hqueue he => ?commit, fun r x a b hqueue => exec_indexJobTake_voidSet hidle hqueue,
    fun r x i hqueue => exec_indexJobTake_repair hidle hqueue⟩
  case commit =>
    intro newest
    refine ⟨fun hleft => ?reads, fun c hlast hc => ?limit⟩
    case reads =>
      have hblock : s.store.indexBlock r (placeOf (s.store.maxRecords r) (newest + 1) / 48) =
          e.blocks.getD (newest % e.maxRecords / 48) 0 := by
        rw [maxRecords_of_entry he, indexBlock_of_entry he]
        rfl
      rw [exec_indexJobTake_commit hidle hqueue, if_neg hleft, indexReads, hblock]
    case limit =>
      intro t
      have hfinished : (s.jobFinished.slot k).capture = some c := hc
      rw [exec_indexJobTake_commit hidle hqueue, if_pos hlast, slotLimited_of_occupied hfinished,
        jobFinished_of_queue hqueue]
      rfl

/-! ### INDEX_READ_COMPLETE (R122) -/

section
variable {s : State} {j : IndexJob} {js : List IndexJob} {op : StoreOp} {k : SlotIx} {c : Capture} {r : RecIx}
  {e : RecordingEntry} {n : Nat} {contents : List Byte} {es es' : List IndexEntry} {sends : List Nat} {w : IndexWrite}

theorem exec_indexReadComplete (hgranted : Granted s .index op) (hphase : s.index.phase = .reading n)
    (hqueue : s.index.queue = j :: js) :
    exec .indexReadComplete s = .next (indexRead j n (op.contents s.array) (s.complete op)).arbitrate := by
  rw [show exec .indexReadComplete s = execIndexReadComplete s from rfl, execIndexReadComplete]
  simp only [hphase, hqueue, onCompletion_of_granted hgranted, contents_complete]

theorem indexRead_of_invalid (he : s.store.entry j.recording = some e)
    (hread : readIndex j.recording (j.position e.maxRecords n) e.maxRecords contents = none) :
    indexRead j n contents s = j.endsUnwritten (s.modifyStore (·.countDamage)) := by
  simp only [indexRead, maxRecords_of_entry he, hread]

theorem isFill_of_entry (he : s.store.entry r = some e) : s.store.isFill r = (e.mode == .fill) := by
  rw [StoreManager.isFill, he, Option.elim_some]

theorem indexRead_of_unchanged (he : s.store.entry j.recording = some e)
    (hread : readIndex j.recording (j.position e.maxRecords n) e.maxRecords contents = some es)
    (hdecide : j.decide (e.mode == .fill) e.maxRecords n es = none) : indexRead j n contents s = j.endsUnwritten s := by
  simp only [indexRead, maxRecords_of_entry he, isFill_of_entry he, hread, hdecide]

theorem indexRead_of_changed (he : s.store.entry j.recording = some e)
    (hread : readIndex j.recording (j.position e.maxRecords n) e.maxRecords contents = some es)
    (hdecide : j.decide (e.mode == .fill) e.maxRecords n es = some (es', sends)) :
    indexRead j n contents s = s.holdAndWrite n ⟨e.blocks.getD (j.position e.maxRecords n) 0,
      indexBlock j.recording (j.position e.maxRecords n) e.maxRecords es', sends⟩ := by
  simp only [indexRead, maxRecords_of_entry he, isFill_of_entry he, hread, hdecide, indexBlock_of_entry he]

theorem holdAndWrite_of_room (h : sends.length ≤ s.releaseRoom) (n block : Nat) (contents : List Byte) :
    s.holdAndWrite n ⟨block, contents, sends⟩ =
      ({ s with index := ⟨s.index.queue, .writing n ⟨block, contents, sends⟩, sends.length⟩ } : State).present .index
        (.write block contents) := by
  rw [State.holdAndWrite, if_pos h]

theorem holdAndWrite_of_full (h : s.releaseRoom < sends.length) (n block : Nat) (contents : List Byte) :
    s.holdAndWrite n ⟨block, contents, sends⟩ =
      { s with index := { s.index with phase := .waiting n ⟨block, contents, sends⟩ } } := by
  rw [State.holdAndWrite, if_neg (Nat.not_le.2 h)]

/-! ### The decision of a COMMIT job (R124 to R126) -/

section
variable {head total m : Nat} {fill : Bool}

theorem decide_commit_of_not_present
    (h : ∀ n' h t, es.getD (placeOf m n % 48) .unused ≠ .present n' h t) :
    (IndexJob.commit k r head total).decide fill m n es = some (es.set (placeOf m n % 48) (.present n head total), []) := by
  show (match es.getD (placeOf m n % 48) .unused with
    | .present _ h _ => if fill then none else some (es.set (placeOf m n % 48) (.present n head total), [h])
    | _ => some (es.set (placeOf m n % 48) (.present n head total), [])) = _
  split
  next n' h' t' heq => exact absurd heq (h n' h' t')
  next => rfl

theorem decide_commit_of_present {n' h t : Nat} (hpresent : es.getD (placeOf m n % 48) .unused = .present n' h t) :
    (IndexJob.commit k r head total).decide fill m n es =
      if fill then none else some (es.set (placeOf m n % 48) (.present n head total), [h]) := by
  show (match es.getD (placeOf m n % 48) .unused with
    | .present _ h _ => if fill then none else some (es.set (placeOf m n % 48) (.present n head total), [h])
    | _ => some (es.set (placeOf m n % 48) (.present n head total), [])) = _
  rw [hpresent]

end

end

/-- Settles O48, by what the job finds at the record's place. -/
theorem commitReadDecides : Obligations.CommitReadDecides := by
  unfold Obligations.CommitReadDecides
  intro s op n k r head total js e hgranted hphase hqueue he u room place limited found
  have hentry : (s.complete op).store.entry (IndexJob.commit k r head total).recording = some e := he
  have hlimited {v : State} (hv : v.index.queue = s.index.queue) (hslots : v.slots = s.slots) {c : Capture}
      (hc : (s.slot k).capture = some c) :
      ((IndexJob.commit k r head total).endsUnwritten v).arbitrate = limited v c := by
    have hslot : v.slot k = s.slot k := by rw [State.slot, State.slot, hslots]
    have hfinished : (v.jobFinished.slot k).capture = some c := by
      show (v.slot k).capture = some c
      rw [hslot, hc]
    show (v.jobFinished.slotLimited k).arbitrate = _
    rw [slotLimited_of_occupied hfinished, jobFinished_of_queue (hv.trans hqueue)]
    simp only [limited, ← hslot, ← hslots]
    rfl
  rw [exec_indexReadComplete hgranted hphase hqueue]
  refine ⟨fun c hfound hc => ?invalid, fun es hfound => ?valid⟩
  case invalid =>
    rw [indexRead_of_invalid hentry hfound]
    exact congrArg _ (hlimited (v := (s.complete op).modifyStore (·.countDamage)) rfl rfl hc)
  case valid =>
    intro written writes
    refine ⟨fun hnot => ?free, fun n' h t hpresent => ⟨fun c hfill hc => ?fill, fun hwrap hroom => ?room,
      fun hwrap hfull => ?waits⟩⟩
    case free =>
      rw [indexRead_of_changed hentry hfound (decide_commit_of_not_present hnot), holdAndWrite_of_room (Nat.zero_le _)]
      rfl
    case fill =>
      have hdecide : (IndexJob.commit k r head total).decide (e.mode == .fill) e.maxRecords n es = none := by
        rw [decide_commit_of_present hpresent, hfill]
        rfl
      rw [indexRead_of_unchanged hentry hfound hdecide]
      exact congrArg _ (hlimited (v := s.complete op) rfl rfl hc)
    case room =>
      have hdecide := decide_commit_of_present (k := k) (r := r) (head := head) (total := total) (fill := e.mode == .fill) hpresent
      rw [hwrap] at hdecide
      have hone : [h].length ≤ (s.complete op).releaseRoom := hroom
      rw [indexRead_of_changed hentry hfound (by rw [hwrap]; exact hdecide),
        holdAndWrite_of_room hone]
      rfl
    case waits =>
      have hdecide := decide_commit_of_present (k := k) (r := r) (head := head) (total := total) (fill := e.mode == .fill) hpresent
      rw [hwrap] at hdecide
      have hnone : (s.complete op).releaseRoom < [h].length := Nat.lt_one_iff.2 hfull
      rw [indexRead_of_changed hentry hfound (by rw [hwrap]; exact hdecide), holdAndWrite_of_full hnone]
      rfl

end Sys2Proof.Laws
end

section
/-!
PROOF. VOID-SET and REPAIR jobs up to their write, and the hold of release places (R122, R127, R128, R130).
-/

namespace Sys2Proof.Laws

open Machine

section
variable {s : State} {j : IndexJob} {js : List IndexJob} {op : StoreOp} {r : RecIx} {e : RecordingEntry} {n : Nat}
  {es : List IndexEntry}

/-! ### The report of a VOID-SET job (R127, R136) -/

theorem voidSetReported_of_erase {a b sum : Nat} {rest : List Nat} (h : s.maint = some (.erase r a b rest sum)) (count : Nat) :
    s.voidSetReported count = s.eraseNext r a b rest (sum + count) := by
  simp only [State.voidSetReported, h]

/-! ### The decisions (R127, R128) -/

/-- The entries with those that a VOID-SET selects as VOID (R127). -/
def voidedEntries (a b : Nat) (es : List IndexEntry) : List IndexEntry :=
  es.map fun e => if (e.selected a b).isSome then e.voided else e

theorem decide_voidSet (r : RecIx) (x a b : Nat) (fill : Bool) (m n : Nat) (es : List IndexEntry) :
    (IndexJob.voidSet r x a b).decide fill m n es =
      if es.filterMap (·.selected a b) = [] then none
      else some (voidedEntries a b es, es.filterMap (·.selected a b)) := rfl

theorem decide_repair_of_present {x i n' h t : Nat} (hpresent : es.getD i .unused = .present n' h t) (fill : Bool) (m n : Nat) :
    (IndexJob.repair r x i).decide fill m n es = some (es.set i (.void n' h t), []) := by
  show (match es.getD i .unused with
    | .present n h t => some (es.set i (.void n h t), [])
    | _ => none) = _
  rw [hpresent]

theorem decide_repair_of_not_present {x i : Nat} (hnot : ∀ n' h t, es.getD i .unused ≠ .present n' h t) (fill : Bool) (m n : Nat) :
    (IndexJob.repair r x i).decide fill m n es = none := by
  show (match es.getD i .unused with
    | .present n h t => some (es.set i (.void n h t), [])
    | _ => none) = _
  split
  next n' h t heq => exact absurd heq (hnot n' h t)
  next => rfl

/-! ### Jobs that end unwritten (R122) -/

theorem endsUnwritten_voidSet {x a b : Nat} (hqueue : s.index.queue = j :: js) :
    (IndexJob.voidSet r x a b).endsUnwritten s = ({ s with index := ⟨js, .idle, 0⟩ } : State).voidSetReported 0 := by
  rw [← jobFinished_of_queue hqueue]
  rfl

theorem endsUnwritten_repair {x i : Nat} (hqueue : s.index.queue = j :: js) :
    (IndexJob.repair r x i).endsUnwritten s = ({ s with index := ⟨js, .idle, 0⟩ } : State).repairReported := by
  rw [← jobFinished_of_queue hqueue]
  rfl

/-! ### INDEX_RELEASE_HOLD (R122, R130) -/

theorem exec_indexReleaseHold {w : IndexWrite} (h : s.index.phase = .waiting n w) :
    exec .indexReleaseHold s = .next (s.holdAndWrite n w) := by
  rw [show exec .indexReleaseHold s = execIndexReleaseHold s from rfl, execIndexReleaseHold]
  simp only [h]

end

/-- Settles O49, by the kind of job and by what it changes. -/
theorem voidingJobsHoldAndWrite : Obligations.VoidingJobsHoldAndWrite := by
  unfold Obligations.VoidingJobsHoldAndWrite
  refine ⟨fun s r a b rest sum hm => ?reported, fun s => rfl,
    fun s op n r x a b js e es hgranted hphase hqueue he hread => ?voidSet,
    fun s op n r x i n' h t js e es hgranted hphase hqueue he hread hpresent => ?repair,
    fun s op n j js e hgranted hphase hqueue he => ?unwritten, fun s n w hphase => ?hold⟩
  case reported =>
    rw [voidSetReported_of_erase hm]
    refine ⟨fun y ys hrest => ?more, fun hrest => ?last⟩
    case more =>
      rw [hrest]
      rfl
    case last =>
      rw [hrest]
      rfl
  case voidSet =>
    intro u chosen heads w
    have hchosen (y : IndexEntry) : chosen y = (y.selected a b).isSome := by
      cases y with
      | unused => rfl
      | void n' h t => rfl
      | present n' h t =>
        simp only [chosen, IndexEntry.selected, ← Bool.decide_and]
        by_cases hin : a ≤ n' ∧ n' ≤ b <;> simp [hin]
    have hheads : heads = es.filterMap (·.selected a b) := by
      refine congrArg (List.filterMap · es) (funext fun y => ?_)
      cases y with
      | unused => rfl
      | void n' h t => rfl
      | present n' h t =>
        simp only [chosen, IndexEntry.selected, ← Bool.decide_and, decide_eq_true_eq]
    have hvoided : (es.map fun y => match y with
        | .present n' h t => if chosen y then .void n' h t else y
        | _ => y) = voidedEntries a b es := by
      refine congrArg (List.map · es) (funext fun y => ?_)
      rw [← hchosen y]
      cases y with
      | unused => exact (ite_self _).symm
      | void n' h t => exact (ite_self _).symm
      | present n' h t => rfl
    have hentry : (s.complete op).store.entry (IndexJob.voidSet r x a b).recording = some e := he
    have hw : w = ⟨e.blocks.getD x 0, indexBlock r x e.maxRecords (voidedEntries a b es), heads⟩ :=
      congrArg (fun l => IndexWrite.mk (e.blocks.getD x 0) (indexBlock r x e.maxRecords l) heads) hvoided
    rw [exec_indexReadComplete hgranted hphase hqueue]
    have hdecide := decide_voidSet r x a b (e.mode == .fill) e.maxRecords n es
    rw [← hheads] at hdecide
    refine ⟨fun hnone => ?none, fun hsome hroom => ?writes, fun hsome hfull => ?waits⟩
    case none =>
      rw [indexRead_of_unchanged hentry hread (hdecide.trans (if_pos hnone)),
        endsUnwritten_voidSet (s := s.complete op) hqueue]
      rfl
    case writes =>
      rw [indexRead_of_changed hentry hread (hdecide.trans (if_neg hsome)), hw, holdAndWrite_of_room (s := s.complete op) hroom]
      rfl
    case waits =>
      rw [indexRead_of_changed hentry hread (hdecide.trans (if_neg hsome)), hw, holdAndWrite_of_full (s := s.complete op) hfull]
      rfl
  case repair =>
    have hentry : (s.complete op).store.entry (IndexJob.repair r x i).recording = some e := he
    rw [exec_indexReadComplete hgranted hphase hqueue,
      indexRead_of_changed hentry hread (decide_repair_of_present hpresent _ _ _),
      holdAndWrite_of_room (s := s.complete op) (Nat.zero_le _)]
    rfl
  case unwritten =>
    intro u found damaged
    have hentry : (s.complete op).store.entry j.recording = some e := he
    rw [exec_indexReadComplete hgranted hphase hqueue]
    refine ⟨fun r x a b hj hfound => ?voidSet, fun r x i hj hfound => ?repair, fun r x i es hj hfound hnot => ?unchanged⟩
    case voidSet =>
      subst hj
      rw [indexRead_of_invalid hentry hfound,
        endsUnwritten_voidSet (s := (s.complete op).modifyStore (·.countDamage)) hqueue]
      rfl
    case repair =>
      subst hj
      rw [indexRead_of_invalid hentry hfound,
        endsUnwritten_repair (s := (s.complete op).modifyStore (·.countDamage)) hqueue]
      rfl
    case unchanged =>
      subst hj
      rw [indexRead_of_unchanged hentry hfound (decide_repair_of_not_present hnot _ _ _),
        endsUnwritten_repair (s := s.complete op) hqueue]
      rfl
  case hold =>
    obtain ⟨block, contents, sends⟩ := w
    rw [exec_indexReleaseHold hphase]
    exact ⟨fun hroom => congrArg _ (holdAndWrite_of_room hroom n block contents),
      fun hfull => congrArg _ (by rw [holdAndWrite_of_full hfull, ← hphase])⟩

end Sys2Proof.Laws
end

section
/-!
PROOF. The commit point of an index job (R70, R124, R126 to R128) and the placing of the records that leave (R133, R151, R152).
-/

namespace Sys2Proof.Laws

open Machine

/-! ### Pins and the withdrawn mark (R151, R152) -/

theorem pin_withdraw (p : ReadPort) : p.withdraw.pin? = p.pin? := by cases p <;> rfl

theorem withdraw_withdraw (p : ReadPort) : p.withdraw.withdraw = p.withdraw := by cases p <;> rfl

theorem pin_eq_some_iff (p : ReadPort) (h : Nat) : p.pin? = some h ↔
    (∃ r, p = .opened r ∧ r.head = h) ∨ ∃ o x, p = .opening o ∧ o.found = some x ∧ x.1 = h := by
  cases p <;> simp [ReadPort.pin?]

theorem isPinned_iff (s : State) (h : Nat) : s.isPinned h = true ↔ ∃ p, (s.readPort p).pin? = some h := by
  simp only [State.isPinned, ascending, List.any_eq_true, List.mem_finRange, true_and, beq_iff_eq]

theorem isPinned_eq (s : State) (h : Nat) : s.isPinned h = s.ports.toList.any fun p => p.pin? == some h := by
  rw [Bool.eq_iff_iff, isPinned_iff, List.any_eq_true]
  simp only [beq_iff_eq, Vector.mem_toList_iff, Vector.mem_iff_getElem]
  constructor
  · rintro ⟨p, hp⟩
    exact ⟨_, ⟨p.val, p.isLt, rfl⟩, hp⟩
  · rintro ⟨_, ⟨i, hi, rfl⟩, hp⟩
    exact ⟨⟨i, hi⟩, hp⟩

section
variable {s : State} {r : RecIx} {h : Nat} {hs : List Nat}

/-- A port withdrawn when it pins one of the heads. -/
def withdrawnFor (hs : List Nat) (p : ReadPort) : ReadPort := if p.pin?.any (hs.contains ·) then p.withdraw else p

theorem withdrawnFor_singleton (h : Nat) (p : ReadPort) :
    withdrawnFor [h] p = if p.pin? = some h then p.withdraw else p := by
  unfold withdrawnFor
  cases hp : p.pin? <;> simp

theorem pin_withdrawnFor (hs : List Nat) (p : ReadPort) : (withdrawnFor hs p).pin? = p.pin? := by
  unfold withdrawnFor
  split
  next => exact pin_withdraw p
  next => rfl

theorem withdrawnFor_withdrawnFor (h : Nat) (hs : List Nat) (p : ReadPort) :
    withdrawnFor hs (withdrawnFor [h] p) = withdrawnFor (h :: hs) p := by
  rw [withdrawnFor, pin_withdrawnFor, withdrawnFor_singleton, withdrawnFor]
  cases hp : p.pin? with
  | none => rfl
  | some h' =>
    by_cases heq : h' = h <;> by_cases hmem : h' ∈ hs <;> simp [heq, hmem, withdraw_withdraw]

theorem withdrawnFor_of_unpinned (hn : s.isPinned h = false) : s.ports.map (withdrawnFor [h]) = s.ports := by
  have hid : ∀ i (hi : i < 6), withdrawnFor [h] s.ports[i] = s.ports[i] := by
    intro i hi
    rw [withdrawnFor_singleton, if_neg]
    intro hp
    have hpinned := (isPinned_iff s h).2 ⟨⟨i, hi⟩, hp⟩
    rw [hn] at hpinned
    exact Bool.false_ne_true hpinned
  exact Vector.ext fun i hi => by rw [Vector.getElem_map, hid i hi]

/-! ### Placing the records that leave (R126, R127, R133) -/

/-- Heads placed for release: the pinned ones parked with their ports withdrawn, the others queued, each in its order. -/
def headsPlaced (r : RecIx) (hs : List Nat) (s : State) : State :=
  { s with
    index := { s.index with held := s.index.held - hs.length }
    release := { s.release with
      queue := s.release.queue ++ (hs.filter fun h => !s.isPinned h).map fun h => ⟨h, r⟩
      parked := s.release.parked ++ (hs.filter s.isPinned).map fun h => ⟨h, r⟩ }
    ports := s.ports.map (withdrawnFor hs) }

/-- A pinned head goes to the parked list (R133). -/
theorem headsPlaced_of_pinned (hpinned : s.isPinned h = true) : headsPlaced r [h] s = { s with
    index := { s.index with held := s.index.held - 1 }
    release := { s.release with parked := s.release.parked ++ [⟨h, r⟩] }
    ports := s.ports.map fun p => if p.pin? = some h then p.withdraw else p } := by
  simp only [headsPlaced, hpinned, List.filter_cons, List.filter_nil, List.map_cons, List.map_nil, Bool.not_true,
    Bool.false_eq_true, if_true, if_false, List.append_nil, List.length_singleton, funext (withdrawnFor_singleton h)]

/-- A head that no port pins goes to the tail of the queue (R133). -/
theorem headsPlaced_of_unpinned (hpinned : s.isPinned h = false) : headsPlaced r [h] s = { s with
    index := { s.index with held := s.index.held - 1 }
    release := { s.release with queue := s.release.queue ++ [⟨h, r⟩] } } := by
  rw [headsPlaced, withdrawnFor_of_unpinned hpinned]
  simp only [hpinned, List.filter_cons, List.filter_nil, List.map_cons, List.map_nil, Bool.not_false, Bool.false_eq_true,
    if_true, if_false, List.append_nil, List.length_singleton]

theorem placeHeld_eq (h : Nat) : s.placeHeld ⟨h, r⟩ = headsPlaced r [h] s := by
  have hsame : ({ s with index := { s.index with held := s.index.held - 1 } } : State).isPinned h = s.isPinned h := rfl
  simp only [State.placeHeld, hsame]
  cases hpinned : s.isPinned h with
  | true =>
    rw [if_pos rfl, headsPlaced_of_pinned hpinned]
    rfl
  | false =>
    rw [if_neg Bool.false_ne_true, headsPlaced_of_unpinned hpinned]
    rfl

theorem isPinned_headsPlaced (h' : Nat) : (headsPlaced r hs s).isPinned h' = s.isPinned h' := by
  rw [isPinned_eq, isPinned_eq, headsPlaced]
  simp only [Vector.toList_map, List.any_map]
  exact congrArg (List.any _) (funext fun p => by rw [Function.comp_apply, pin_withdrawnFor])

theorem headsPlaced_headsPlaced (h : Nat) (hs : List Nat) :
    headsPlaced r hs (headsPlaced r [h] s) = headsPlaced r (h :: hs) s := by
  have hpinned : (headsPlaced r [h] s).isPinned = s.isPinned := funext isPinned_headsPlaced
  have hports : (s.ports.map (withdrawnFor [h])).map (withdrawnFor hs) = s.ports.map (withdrawnFor (h :: hs)) := by
    rw [Vector.map_map]
    exact congrArg (Vector.map · s.ports) (funext (withdrawnFor_withdrawnFor h hs))
  have hheld : s.index.held - 1 - hs.length = s.index.held - (hs.length + 1) := by omega
  rw [headsPlaced, hpinned]
  simp only [headsPlaced, hports, List.length_cons, List.length_nil, Nat.zero_add, hheld, List.append_assoc, ← List.map_append,
    ← List.filter_append, List.singleton_append]

theorem headsPlaced_nil : headsPlaced r [] s = s := by
  have hports : s.ports.map (withdrawnFor []) = s.ports := by
    refine Vector.ext fun i hi => ?_
    rw [Vector.getElem_map, withdrawnFor, if_neg]
    cases s.ports[i].pin? <;> simp
  simp only [headsPlaced, hports, List.filter_nil, List.map_nil, List.append_nil, List.length_nil, Nat.sub_zero]

theorem placeAllHeld_eq (hs : List Nat) (s : State) : s.placeAllHeld r hs = headsPlaced r hs s := by
  induction hs generalizing s with
  | nil => exact headsPlaced_nil.symm
  | cons h hs ih =>
    show (s.placeHeld ⟨h, r⟩).placeAllHeld r hs = _
    rw [ih, placeHeld_eq, headsPlaced_headsPlaced]

end

/-! ### The commit point (R122) -/

section
variable {s : State} {j : IndexJob} {js : List IndexJob} {op : StoreOp} {n : Nat} {w : IndexWrite} {k : SlotIx} {c : Capture}
  {r : RecIx} {v : RecordWalk}

theorem exec_indexWriteComplete (hgranted : Granted s .index op) (hphase : s.index.phase = .writing n w)
    (hqueue : s.index.queue = j :: js) :
    exec .indexWriteComplete s = .next (indexWrote j n w (s.complete op)).arbitrate := by
  rw [show exec .indexWriteComplete s = execIndexWriteComplete s from rfl, execIndexWriteComplete]
  simp only [hphase, hqueue, onCompletion_of_granted hgranted]

theorem slotCommitted_of_occupied (h : (s.slot k).capture = some c) :
    s.slotCommitted k = (s.modifyStore (·.returnReserved c.remaining)).setCapture k none := by
  simp only [State.slotCommitted, h]

theorem repairReported_of_repair (h : s.maint = some (.mount (.repair v))) :
    s.repairReported = (s.modifyStore (·.countDamage)).mountWalk { v with todo := v.todo.tail } := by
  simp only [State.repairReported, h]

theorem repairReported_of_other (h : ∀ v, s.maint ≠ some (.mount (.repair v))) : s.repairReported = s := by
  unfold State.repairReported
  split
  next v hm => exact absurd hm (h v)
  next => rfl

theorem count_of_defined {m : StoreManager} {newest present : Nat} (h : m.recording r = .defined newest present)
    (newest' present' : Nat) : m.count r newest' present' = m.setRecording r (.defined newest' present') := by
  rw [StoreManager.count, h]
  rfl

/-- A COMMIT job's write has completed, the records that leave placed (R124, R126). -/
theorem indexWrote_commit {head total newest present : Nat} (hr : s.store.recording r = .defined newest present)
    (hc : (s.slot k).capture = some c) :
    indexWrote (.commit k r head total) n w s =
      ((headsPlaced r w.sends (s.modifyStore fun m =>
        m.setRecording r (.defined n (if w.sends = [] then present + 1 else present)))).jobFinished.modifyStore
          (·.returnReserved c.remaining)).setCapture k none := by
  have hpresent : (s.store.recording r).present = present := by rw [hr]; rfl
  have hslot (f : StoreManager → StoreManager) :
      ((headsPlaced r w.sends (s.modifyStore f)).jobFinished.slot k).capture = some c := hc
  have hcount (present' : Nat) : s.modifyStore (fun m => m.count r n present') =
      s.modifyStore fun m => m.setRecording r (.defined n present') := by
    rw [State.modifyStore, State.modifyStore, count_of_defined hr]
  show ((((s.modifyStore fun m => m.count r n (if w.sends = [] then (s.store.recording r).present + 1
    else (s.store.recording r).present)).placeAllHeld r w.sends).jobFinished).slotCommitted k) = _
  rw [hpresent, hcount, placeAllHeld_eq, slotCommitted_of_occupied (hslot _)]

/-- A VOID-SET job's write has completed (R127). -/
theorem indexWrote_voidSet {x a b newest present : Nat} (hr : s.store.recording r = .defined newest present) :
    indexWrote (.voidSet r x a b) n w s =
      (headsPlaced r w.sends (s.modifyStore fun m =>
        m.setRecording r (.defined newest (present - w.sends.length)))).jobFinished.voidSetReported w.sends.length := by
  have hcount : s.modifyStore (fun m => m.count r (s.store.recording r).newest
      ((s.store.recording r).present - w.sends.length)) =
        s.modifyStore fun m => m.setRecording r (.defined newest (present - w.sends.length)) := by
    rw [State.modifyStore, State.modifyStore, count_of_defined hr, hr]
    rfl
  show ((((s.modifyStore fun m => m.count r (s.store.recording r).newest
    ((s.store.recording r).present - w.sends.length)).placeAllHeld r w.sends).jobFinished).voidSetReported w.sends.length) = _
  rw [hcount, placeAllHeld_eq]

end

/-- Settles O50, by the kind of the job whose write completes. -/
theorem indexWritesComplete : Obligations.IndexWritesComplete := by
  unfold Obligations.IndexWritesComplete
  refine ⟨fun s b n contents w k r head total newest present js c hgranted hphase hqueue hr hc => ?commit,
    fun s b n contents w js hgranted hphase => ?others,
    fun p => ⟨fun h => pin_eq_some_iff p h, fun r hp => hp ▸ rfl, fun o hp => hp ▸ rfl, fun hp => by rw [hp]; rfl⟩,
    fun s => ⟨fun v hm => repairReported_of_repair hm, repairReported_of_other⟩⟩
  case commit =>
    intro t
    have hpin (f : StoreManager → StoreManager) (h : Nat) :
        ((s.complete (.write b contents)).modifyStore f).isPinned h = true ↔ ∃ p, (s.readPort p).pin? = some h :=
      isPinned_iff s h
    have hfinished (v : State) (hv : v.index.queue = s.index.queue) :
        v.jobFinished = { v with index := ⟨js, .idle, 0⟩ } := jobFinished_of_queue (hv.trans hqueue)
    rw [exec_indexWriteComplete hgranted hphase hqueue, indexWrote_commit (s := s.complete (.write b contents)) hr hc]
    refine ⟨fun hnone => ?none, fun h hone => ⟨fun hunpinned => ?queued, fun hpinned => ?parked⟩⟩
    case none =>
      rw [hnone, if_pos rfl, headsPlaced_nil, hfinished]
      · rfl
      · rfl
    case queued =>
      have hfree (f : StoreManager → StoreManager) : ((s.complete (.write b contents)).modifyStore f).isPinned h = false :=
        Bool.eq_false_iff.2 fun hp => (hpin f h).1 hp |>.elim hunpinned
      rw [hone, if_neg (List.cons_ne_nil h []), headsPlaced_of_unpinned (hfree _), hfinished]
      · rfl
      · rfl
    case parked =>
      rw [hone, if_neg (List.cons_ne_nil h []), headsPlaced_of_pinned ((hpin _ h).2 hpinned), hfinished]
      · rfl
      · rfl
  case others =>
    intro u pinned
    have hpinned : pinned = s.isPinned := funext fun h => (isPinned_eq s h).symm
    refine ⟨fun r x a z newest present a' z' rest sum hqueue hr hm => ?voidSet, fun r x i v hqueue hm => ?repair⟩
    case voidSet =>
      intro t
      have hplaced : (headsPlaced r w.sends ((s.complete (.write b contents)).modifyStore fun m =>
          m.setRecording r (.defined newest (present - w.sends.length)))).jobFinished = t := by
        rw [jobFinished_of_queue (s := headsPlaced r w.sends ((s.complete (.write b contents)).modifyStore fun m =>
          m.setRecording r (.defined newest (present - w.sends.length)))) hqueue]
        simp only [t, hpinned]
        rfl
      rw [exec_indexWriteComplete hgranted hphase hqueue, indexWrote_voidSet (s := s.complete (.write b contents)) hr,
        hplaced, voidSetReported_of_erase (s := t) hm]
      refine ⟨fun hlast => ?last, fun y ys hmore => ?more⟩
      case last =>
        rw [hlast]
        rfl
      case more =>
        rw [hmore]
        rfl
    case repair =>
      intro counted rest status
      have hreported : indexWrote (.repair r x i) n w (s.complete (.write b contents)) = counted.mountWalk rest := by
        show (s.complete (.write b contents)).jobFinished.repairReported = _
        rw [jobFinished_of_queue (s := s.complete (.write b contents)) hqueue]
        exact repairReported_of_repair hm
      rw [exec_indexWriteComplete hgranted hphase hqueue, hreported]
      refine ⟨rfl, fun hdone => mountWalk_of_done hdone, fun z zs hnext => ⟨fun hin => ?inside, fun hout => ?outside⟩⟩
      case inside =>
        rw [mountWalk_of_next hnext, if_pos hin]
        rfl
      case outside =>
        rw [mountWalk_of_next hnext, if_neg (by simp [hout])]
        rfl

end Sys2Proof.Laws
end

section
/-!
PROOF. The Release Unit (R131 to R134, R151).
-/

namespace Sys2Proof.Laws

open Machine

section
variable {s : State} {j : ReleaseJob} {js : List ReleaseJob} {op : StoreOp}

/-- A job moved from the queue to the parked list, the ports that pin its head withdrawn (R133). -/
def jobParked (j : ReleaseJob) (js : List ReleaseJob) (s : State) : State :=
  { s with
    release := ⟨js, false, s.release.parked ++ [j]⟩
    ports := s.ports.map fun p => if p.pin? = some j.head then p.withdraw else p }

theorem exec_releaseJobTake (hqueue : s.release.queue = j :: js) (hreading : s.release.reading = false) :
    exec .releaseJobTake s = .next (if s.isPinned j.head then (jobParked j js s).arbitrate
      else ({ s with release := { s.release with reading := true } } : State).present .release (.read j.head)) := by
  have hparked : (({ s with release := { s.release with queue := js } } : State).park j) = jobParked j js s := by
    rw [State.park, State.markWithdrawn, jobParked, ← hreading]
  rw [show exec .releaseJobTake s = execReleaseJobTake s from rfl, execReleaseJobTake, ← hparked]
  split
  next j' js' _ hqueue' =>
    cases hqueue.symm.trans hqueue'
    rfl
  next hother => exact absurd hqueue (hother j js hreading)

theorem exec_releaseHeadReadComplete (hqueue : s.release.queue = j :: js) (hreading : s.release.reading = true)
    (hgranted : Granted s .release op) : exec .releaseHeadReadComplete s =
      .next ((s.complete op).releaseRead j js (op.contents s.array)).arbitrate := by
  rw [show exec .releaseHeadReadComplete s = execReleaseHeadReadComplete s from rfl, execReleaseHeadReadComplete]
  simp only [hreading, hqueue, onCompletion_of_granted hgranted, contents_complete]

theorem releaseRead_of_restarting (h : s.mgmt.phase = .restarting) (contents : List Byte) :
    s.releaseRead j js contents = { s with release := ⟨js, false, s.release.parked⟩ } := if_pos h

theorem releaseRead_of_pinned (h : s.mgmt.phase ≠ .restarting) (hpinned : s.isPinned j.head = true) (contents : List Byte) :
    s.releaseRead j js contents = jobParked j js s := (if_neg h).trans (if_pos hpinned)

theorem releaseRead_of_unpinned (h : s.mgmt.phase ≠ .restarting) (hpinned : s.isPinned j.head = false) (contents : List Byte) :
    s.releaseRead j js contents =
      { s with store := s.store.releaseHead j contents, release := ⟨js, false, s.release.parked⟩ } :=
  (if_neg h).trans (if_neg fun hp => Bool.false_ne_true (hpinned.symm.trans hp))

theorem releaseHead_of_valid {m : StoreManager} {contents : List Byte} {h : HeadInfo}
    (hread : readHead j.recording contents = some h) : m.releaseHead j contents = (m.freeBlocks h.blocks).freeBlock j.head := by
  simp only [StoreManager.releaseHead, hread]

theorem releaseHead_of_invalid {m : StoreManager} {contents : List Byte} (hread : readHead j.recording contents = none) :
    m.releaseHead j contents = (m.freeBlock j.head).countDamage := by
  simp only [StoreManager.releaseHead, hread]

end

/-- Settles O51: the taking of a job and the completion of its head read, each by whether a port pins the head. -/
theorem releaseFreesUnpinnedRecords : Obligations.ReleaseFreesUnpinnedRecords := by
  unfold Obligations.ReleaseFreesUnpinnedRecords
  intro s j js hqueue pinned parked
  have hpinned : s.isPinned j.head = true ↔ pinned := isPinned_iff s j.head
  have hfree (h : ¬pinned) : s.isPinned j.head = false := Bool.eq_false_iff.2 fun hp => h (hpinned.1 hp)
  refine ⟨fun hreading => ?take, fun op hreading hgranted => ?complete⟩
  case take =>
    rw [exec_releaseJobTake hqueue hreading]
    exact ⟨fun h => congrArg _ (if_pos (hpinned.2 h)), fun h => congrArg _ (if_neg fun hp => h (hpinned.1 hp))⟩
  case complete =>
    intro u done
    rw [exec_releaseHeadReadComplete hqueue hreading hgranted]
    refine ⟨fun hphase => ⟨fun h => ?pinned, fun h hunpinned hread => ?valid, fun hunpinned hread => ?invalid⟩,
      fun hphase => ?restarting⟩
    case pinned =>
      rw [releaseRead_of_pinned (s := s.complete op) hphase (hpinned.2 h)]
      rfl
    case valid =>
      rw [releaseRead_of_unpinned (s := s.complete op) hphase (hfree hunpinned), releaseHead_of_valid hread]
      rfl
    case invalid =>
      have hdamage : (s.store.freeBlock j.head).damage = s.store.damage := by rw [freeBlock_spec]
      rw [releaseRead_of_unpinned (s := s.complete op) hphase (hfree hunpinned), releaseHead_of_invalid hread, ← hdamage]
      rfl
    case restarting =>
      rw [releaseRead_of_restarting (s := s.complete op) hphase]
      exact congrArg _ (arbitrate_of_restarting hphase)

end Sys2Proof.Laws
end

section
/-!
PROOF. Readout ports (chapter 7): OPEN and its completions (R147 to R151), READ out of the store (R155 to R157), INFO and CLOSE
(R158, R159).
-/

namespace Sys2Proof.Laws

open Machine

/-! ### The result of INFO and of OPEN (section 10.2) -/

theorem infoResult_eq (r : OpenRecord) : r.infoResult =
    [BitVec.ofNat 8 (r.recording.val + 1)] ++ toBytes 4 r.number ++ toBytes 2 r.head
      ++ [r.info.rule, r.info.priority, r.info.node, r.info.stream]
      ++ wordBytes 2 r.info.stamp.epoch ++ wordBytes 4 r.info.stamp.cycle ++ toBytes 2 r.info.preRequested
      ++ toBytes 2 r.info.preActual ++ toBytes 2 r.info.postActual ++ toBytes 2 r.info.total ++ [causeByte r.info.cause]
      ++ [BitVec.ofNat 8 ((if r.info.short then 1 else 0) + (if r.info.gapped then 2 else 0)
        + (if r.info.gapOverflow then 4 else 0))]
      ++ [BitVec.ofNat 8 r.info.gaps.length]
      ++ ((r.info.gaps.flatMap fun g : GapEntry => toBytes 2 g.offset ++ [BitVec.ofNat 8 g.missing])
          ++ List.replicate 12 0).take 12
      ++ [BitVec.ofNat 8 r.info.blocks.length] := by
  unfold OpenRecord.infoResult gapBytes padTo
  simp only [recordFlags_eq, toBytes_one, stampBytes, recordingNumber, List.flatMap, List.append_assoc, List.cons_append,
    List.nil_append]

theorem length_infoResult (r : OpenRecord) : r.infoResult.length = 41 := by
  unfold OpenRecord.infoResult gapBytes stampBytes
  simp only [List.length_append, length_toBytes, length_wordBytes, length_padTo, List.length_cons, List.length_nil]

/-! ### The store waited for, and the port closed (R144, R151, R181) -/

section
variable {s : State} {c : Command} {q : Request} {p : PortIx} {r : OpenRecord} {o : Opening} {op : StoreOp} {x : RecIx} {n : Nat}

theorem awaitReads_of_request (h : s.mgmt.request = some q) (c : Command) :
    s.awaitReads c = { s with mgmt := { s.mgmt with request := some { q with stage := .reading c } } } := by
  rw [State.awaitReads, h]
  rfl

theorem onOpenPort_of_not_opened (h : ∀ r, s.readPort p ≠ .opened r) (f : OpenRecord → State) :
    s.onOpenPort p f = s.refuse .portNotOpen := by
  rw [State.onOpenPort]
  cases hp : s.readPort p with
  | closed | opening => rfl
  | opened r => exact absurd hp (h r)

/-- A command that needs an OPEN port is refused on any other; `hexec` is as in `exec_of_opened`. -/
theorem exec_of_not_opened {a : Instr} {f : Request → PortIx → State → OpenRecord → State}
    (hexec : exec a s = .next (s.portStep c fun q p s => s.onOpenPort p (f q p s)))
    (h : HandedToPort s c q p) (hp : ∀ r, s.readPort p ≠ .opened r) : exec a s = .next (s.refuse .portNotOpen) := by
  rw [hexec, portStep_of_handed h, onOpenPort_of_not_opened hp]

theorem pinRemoved_of_pinned {head : Nat} (h : ∃ p, (s.readPort p).pin? = some head) : s.pinRemoved head = s :=
  if_pos ((isPinned_iff s head).2 h)

theorem pinRemoved_of_unpinned {head : Nat} (h : ∀ p, (s.readPort p).pin? ≠ some head) :
    s.pinRemoved head = { s with release := { s.release with
      queue := s.release.queue ++ s.release.parked.filter (·.head == head)
      parked := s.release.parked.filter (·.head != head) } } :=
  if_neg fun hp => ((isPinned_iff s head).1 hp).elim h

theorem closePort_of_pin {head : Nat} (h : (s.readPort p).pin? = some head) :
    s.closePort p = (s.setReadPort p .closed).pinRemoved head := by rw [State.closePort, h]

theorem closePort_of_no_pin (h : (s.readPort p).pin? = none) : s.closePort p = s.setReadPort p .closed := by
  rw [State.closePort, h]

/-! ### OPEN (R148) -/

/-- The record of this number is in the window of its recording, and a DAMAGED recording holds its index block (R148). -/
def OpenFinds (s : State) (r : RecIx) (n place : Nat) : Prop :=
  (s.store.recording r ≠ .free ∧ s.store.windowStart r ≤ n ∧ n ≤ (s.store.recording r).newest) ∧
    ((∃ a b, s.store.recording r = .damaged a b) → ((s.store.entry r).elim [] (·.held)).getD (place / 48) false = true)

theorem isDamaged_iff (x : RecordingState) : x.isDamaged = true ↔ ∃ a b, x = .damaged a b := by
  cases x <;> simp [RecordingState.isDamaged]

theorem openRefusal_of_not_ready (h : s.store.state ≠ .ready) (r : RecIx) (n place : Nat) :
    s.openRefusal r n place = some .notReady := if_pos h

theorem openRefusal_of_finds {place : Nat} (h : s.store.state = .ready) (hfinds : OpenFinds s x n place) :
    s.openRefusal x n place = none := by
  obtain ⟨⟨hfree, hlow, hhigh⟩, hheld⟩ := hfinds
  have houtside : ¬((s.store.recording x).isFree ∨ n < s.store.windowStart x ∨ (s.store.recording x).newest < n) := by
    rw [isFree_iff]
    rintro (hx | hx | hx)
    · exact hfree hx
    · omega
    · omega
  have hlost : ¬((s.store.recording x).isDamaged = true ∧
      ((s.store.entry x).elim [] (·.held)).getD (place / 48) false = false) := by
    rw [isDamaged_iff]
    rintro ⟨hdamaged, hnot⟩
    exact Bool.false_ne_true (hnot.symm.trans (hheld hdamaged))
  exact (if_neg (not_not_intro h)).trans ((if_neg houtside).trans (if_neg hlost))

theorem openRefusal_of_unfound {place : Nat} (h : s.store.state = .ready) (hnot : ¬OpenFinds s x n place) :
    s.openRefusal x n place = some .recordNotPresent := by
  refine (if_neg (not_not_intro h)).trans ?_
  by_cases hout : (s.store.recording x).isFree ∨ n < s.store.windowStart x ∨ (s.store.recording x).newest < n
  · exact if_pos hout
  · refine (if_neg hout).trans (if_pos ?_)
    rw [isFree_iff] at hout
    by_contra hlost
    refine hnot ⟨⟨fun hx => hout (.inl hx), by omega, by omega⟩, fun hdamaged => ?_⟩
    by_contra hheld
    exact hlost ⟨(isDamaged_iff _).2 hdamaged, Bool.eq_false_iff.2 hheld⟩

theorem exec_portOpen_in_use (h : HandedToPort s .portOpen q p) (hp : s.readPort p ≠ .closed) :
    exec .portOpen s = .next (s.portAnswer p .inUse []) := by
  rw [show exec .portOpen s = execPortOpen s from rfl, execPortOpen, portStep_of_handed h]
  cases hport : s.readPort p with
  | closed => exact absurd hport hp
  | opening | opened => rfl

theorem exec_portOpen_misargued (h : HandedToPort s .portOpen q p) (hp : s.readPort p = .closed)
    (hbad : ¬(1 ≤ (byteAt q.args 0).toNat ∧ (byteAt q.args 0).toNat ≤ 32 ∧ 1 ≤ fieldAt q.args 1 4)) :
    exec .portOpen s = .next (s.refuse .badArgument) := by
  rw [show exec .portOpen s = execPortOpen s from rfl, execPortOpen, portStep_of_handed h]
  by_cases hk : 1 ≤ (q.byte 0).toNat ∧ (q.byte 0).toNat ≤ 32
  · obtain ⟨r, -, hr⟩ := recordingOf_inside hk
    have hzero : q.nat 1 4 = 0 := by
      by_contra hn
      exact hbad ⟨hk.1, hk.2, Nat.one_le_iff_ne_zero.2 hn⟩
    simp only [hp, hr, if_pos hzero]
  · simp only [hp, recordingOf_outside hk]

theorem exec_portOpen_refused {st : Status} (h : HandedToPort s .portOpen q p) (hp : s.readPort p = .closed)
    (hx : x.val + 1 = (byteAt q.args 0).toNat) (hn : 1 ≤ fieldAt q.args 1 4)
    (hrefusal : s.openRefusal x (fieldAt q.args 1 4) ((fieldAt q.args 1 4 - 1) % s.store.maxRecords x) = some st) :
    exec .portOpen s = .next (s.refuse st) := by
  have hr : recordingOf (q.byte 0).toNat = some x := recordingOf_number hx
  have hn' : q.nat 1 4 ≠ 0 := Nat.one_le_iff_ne_zero.1 hn
  have hrefusal' : s.openRefusal x (q.nat 1 4) (placeOf (s.store.maxRecords x) (q.nat 1 4)) = some st := hrefusal
  rw [show exec .portOpen s = execPortOpen s from rfl, execPortOpen, portStep_of_handed h]
  simp only [hp, hr, if_neg hn', hrefusal']

theorem exec_portOpen_opens (h : HandedToPort s .portOpen q p) (hp : s.readPort p = .closed)
    (hx : x.val + 1 = (byteAt q.args 0).toNat) (hn : 1 ≤ fieldAt q.args 1 4)
    (hrefusal : s.openRefusal x (fieldAt q.args 1 4) ((fieldAt q.args 1 4 - 1) % s.store.maxRecords x) = none) :
    exec .portOpen s = .next (({ s with
      ports := tableSet s.ports p
        (.opening ⟨x, fieldAt q.args 1 4, (fieldAt q.args 1 4 - 1) % s.store.maxRecords x, none, false⟩)
      mgmt := { s.mgmt with request := some { q with stage := .reading .portOpen } } } : State).present (.port p)
        (.read (s.store.indexBlock x ((fieldAt q.args 1 4 - 1) % s.store.maxRecords x / 48)))) := by
  have hr : recordingOf (q.byte 0).toNat = some x := recordingOf_number hx
  have hn' : q.nat 1 4 ≠ 0 := Nat.one_le_iff_ne_zero.1 hn
  have hrefusal' : s.openRefusal x (q.nat 1 4) (placeOf (s.store.maxRecords x) (q.nat 1 4)) = none := hrefusal
  rw [show exec .portOpen s = execPortOpen s from rfl, execPortOpen, portStep_of_handed h]
  obtain ⟨⟨hrequest, -⟩, -⟩ := h
  simp only [hp, hr, if_neg hn', hrefusal']
  exact congrArg Host.Outcome.next (congrArg (State.present · _ _) (awaitReads_of_request
    (s := s.setReadPort p (.opening ⟨x, q.nat 1 4, placeOf (s.store.maxRecords x) (q.nat 1 4), none, false⟩)) hrequest _))

/-! ### The completions of an OPEN (R149, R150) -/

theorem find_eq_some_iff {m : Nat} {contents : List Byte} {head total : Nat} : o.find m contents = some (head, total) ↔
    (readIndex o.recording (o.place / 48) m contents).map (·.getD (o.place % 48) .unused) =
      some (.present o.number head total) ∧ inDataArea head = true := by
  rw [Opening.find]
  show (readIndex o.recording (o.place / 48) m contents).bind _ = _ ↔ _
  cases readIndex o.recording (o.place / 48) m contents with
  | none => simp
  | some es =>
    show (match es.getD (o.place % 48) .unused with
      | .present n h t => if n = o.number ∧ inDataArea h = true then some (h, t) else none
      | _ => none) = some (head, total) ↔ some (es.getD (o.place % 48) .unused) = _ ∧ _
    cases es.getD (o.place % 48) .unused with
    | unused | void => simp
    | present n h t =>
      simp only [Option.ite_none_right_eq_some, Option.some.injEq, Prod.mk.injEq, IndexEntry.present.injEq]
      constructor
      · rintro ⟨⟨hn, hin⟩, rfl, rfl⟩
        exact ⟨⟨hn, rfl, rfl⟩, hin⟩
      · rintro ⟨⟨hn, rfl, rfl⟩, hin⟩
        exact ⟨⟨hn, hin⟩, rfl, rfl⟩

theorem exec_openIndexReadComplete (hgranted : Granted s (.port p) op) (hp : s.readPort p = .opening o) (ho : o.found = none) :
    exec .openIndexReadComplete s = .next (match o.find (s.store.maxRecords o.recording) (op.contents s.array) with
      | some (h, t) => ((s.complete op).setReadPort p (.opening { o with found := some (h, t) })).present (.port p) (.read h)
      | none => (s.complete op).openFailed p).arbitrate := by
  have hbusy : s.port.busy = some ⟨.port p, op⟩ := hgranted
  have hfound : ¬o.found.isSome = true := by simp [ho]
  rw [show exec .openIndexReadComplete s = execOpenIndexReadComplete s from rfl, execOpenIndexReadComplete]
  simp only [hbusy, hp, if_neg hfound, contents_complete] <;> rfl

theorem exec_openHeadReadComplete {head total : Nat} (hgranted : Granted s (.port p) op) (hp : s.readPort p = .opening o)
    (ho : o.found = some (head, total)) :
    exec .openHeadReadComplete s = .next (match o.headGood total (op.contents s.array) with
      | some h => ((s.complete op).setReadPort p (.opened (o.opened head total h))).portAnswer p .ok
          (o.opened head total h).infoResult
      | none => (s.complete op).openFailed p).arbitrate := by
  have hbusy : s.port.busy = some ⟨.port p, op⟩ := hgranted
  rw [show exec .openHeadReadComplete s = execOpenHeadReadComplete s from rfl, execOpenHeadReadComplete]
  simp only [hbusy, hp, ho, contents_complete] <;> rfl

theorem headGood_of_good {total : Nat} {contents : List Byte} {h : HeadInfo} (hread : readHead o.recording contents = some h)
    (htotal : h.total = total) : o.headGood total contents = some h := by
  rw [Opening.headGood, hread, Option.filter_some, if_pos (beq_iff_eq.2 htotal)]

theorem headGood_of_bad {total : Nat} {contents : List Byte}
    (h : ∀ h, readHead o.recording contents = some h → h.total ≠ total) : o.headGood total contents = none :=
  Option.filter_eq_none_iff.2 fun x hx => beq_iff_eq.not.2 (h x hx)

/-- The port word of a port just opened holds its mark alone (R150, R190). -/
theorem word_opened (o : Opening) (head total : Nat) (h : HeadInfo) :
    (ReadPort.opened (o.opened head total h)).word = if o.withdrawn then 0x8000 else 0 := by
  show BitVec.ofNat 16 ((if o.withdrawn then 2 ^ 15 else 0) + 0 % 2 ^ 14) = _
  cases o.withdrawn <;> rfl

end

/-- Settles O53: OPEN by the check that it fails, its completions by what the store held. -/
theorem openChecksReadsPinsAndOpens : Obligations.OpenChecksReadsPinsAndOpens := by
  refine ⟨fun s q p h => ⟨fun hp => exec_portOpen_in_use h hp, fun hp => ?checks⟩, fun s p op o hgranted hp => ?completions⟩
  case checks =>
    intro k n
    refine ⟨fun hbad => exec_portOpen_misargued h hp hbad, fun x hx hn => ⟨fun hstate => ?notReady, fun hready => ?ready⟩⟩
    case notReady => exact exec_portOpen_refused h hp hx hn (openRefusal_of_not_ready hstate x n _)
    case ready =>
      intro e y m place inWindow holds
      refine ⟨fun hnot => ?absent, fun hin hheld => ?opens⟩
      case absent => exact exec_portOpen_refused h hp hx hn (openRefusal_of_unfound hready hnot)
      case opens => exact exec_portOpen_opens h hp hx hn (openRefusal_of_finds hready ⟨hin, hheld⟩)
  case completions =>
    intro u contents
    refine ⟨fun ho => ?index, fun head total ho => ?head⟩
    case index =>
      intro entry
      rw [exec_openIndexReadComplete hgranted hp ho]
      refine ⟨fun h t hentry hin => ?found, fun hnot => ?missing⟩
      case found =>
        rw [find_eq_some_iff.2 ⟨hentry, hin⟩]
        rfl
      case missing =>
        have hfind : o.find (s.store.maxRecords o.recording) contents = none := by
          refine Option.eq_none_iff_forall_ne_some.2 fun ⟨h, t⟩ hfind => ?_
          obtain ⟨hentry, hin⟩ := find_eq_some_iff.1 hfind
          exact Bool.false_ne_true ((hnot h t hentry).symm.trans hin)
        have hpin : ((s.complete op).readPort p).pin? = none := by
          show (s.readPort p).pin? = none
          rw [hp, ReadPort.pin?, ho, Option.map_none]
        rw [hfind]
        simp only [State.openFailed, closePort_of_no_pin hpin]
        rfl
    case head =>
      rw [exec_openHeadReadComplete hgranted hp ho]
      refine ⟨fun h hread htotal => ?valid, fun hbad => ?invalid⟩
      case valid =>
        intro x cause info
        have hcause : cause = causeByte := funext fun c => by cases c <;> rfl
        have hinfo : (o.opened head total h).infoResult = info := by
          rw [infoResult_eq]
          simp only [info, hcause]
          rfl
        rw [headGood_of_good hread htotal]
        refine ⟨?_, hinfo ▸ length_infoResult _⟩
        show Host.Outcome.next (State.portAnswer _ p .ok (o.opened head total h).infoResult).arbitrate = _
        rw [State.portAnswer, readPort_setReadPort_same, word_opened, hinfo]
        rfl
      case invalid =>
        have hpin : ((s.complete op).readPort p).pin? = some head := by
          show (s.readPort p).pin? = some head
          rw [hp, ReadPort.pin?, ho, Option.map_some]
        rw [headGood_of_bad hbad]
        simp only [State.openFailed, closePort_of_pin hpin]
        rfl

end Sys2Proof.Laws
end

section
/-!
PROOF. Readout ports (chapter 7): READ out of the store (R155 to R157), INFO and CLOSE (R158, R159).
-/

namespace Sys2Proof.Laws

open Machine

section
variable {s : State} {q : Request} {p : PortIx} {r : OpenRecord} {op : StoreOp} {k j : Nat} {taken : List CachedBlock}
  {js : List Nat} {b : CachedBlock} {contents : List Byte}

/-! ### READ (R155 to R157) -/

theorem exec_portRead_misargued (h : HandedToPort s .portRead q p) (hp : s.readPort p = .opened r)
    (hcount : ¬(1 ≤ (byteAt q.args 0).toNat ∧ (byteAt q.args 0).toNat ≤ 32)) :
    exec .portRead s = .next (s.portAnswer p .badArgument []) := by
  rw [exec_of_opened (a := .portRead) rfl h hp]
  exact congrArg _ (if_pos hcount)

/-- The blocks that a READ needs begin with the block of its position. -/
theorem placesNeeded_cons (r : OpenRecord) (k : Nat) : ∃ js, r.placesNeeded k = r.position / 120 :: js := by
  by_cases hlast : (r.position + k - 1) / 120 = r.position / 120
  · exact ⟨[], if_pos hlast⟩
  · exact ⟨[r.position / 120 + 1], if_neg hlast⟩

theorem exec_readDataBlockComplete (hgranted : Granted s (.port p) op) (hp : s.readPort p = .opened r)
    (hreading : s.reading = some ⟨p, k, taken, j :: js⟩) : exec .readDataBlockComplete s =
      .next ((s.complete op).readBlockRead ⟨p, k, taken, j :: js⟩ r j js (op.contents s.array)).arbitrate := by
  rw [show exec .readDataBlockComplete s = execReadDataBlockComplete s from rfl, execReadDataBlockComplete]
  simp only [hreading, hp, onCompletion_of_granted hgranted, contents_complete]

/-- The samples of the block read, if it is the block that the READ needs (R156). -/
def blockSamples (r : OpenRecord) (j : Nat) (contents : List Byte) : Option (List Sample) :=
  (readData r.head j contents).filter fun vs => vs.length == r.info.expectedCount j

theorem readBlockRead_of_bad (h : blockSamples r j contents = none) :
    s.readBlockRead ⟨p, k, taken, j :: js⟩ r j js contents = ({ s with
      reading := none, ports := tableSet s.ports p (.opened { r with cache := none }) } : State).portAnswer p
        .blockMismatch [] := by
  have hbad : r.blockGood j contents = none := by
    show (blockSamples r j contents).map _ = none
    rw [h, Option.map_none]
  simp only [State.readBlockRead, hbad]
  rfl

theorem readBlockRead_of_good {vs : List Sample} (h : blockSamples r j contents = some vs) :
    s.readBlockRead ⟨p, k, taken, j :: js⟩ r j js contents =
      s.readOn p r k (taken ++ [⟨r.info.blocks.getD j 0, j, vs⟩]) js := by
  have hgood : r.blockGood j contents = some ⟨r.info.blocks.getD j 0, j, vs⟩ := by
    show (blockSamples r j contents).map _ = _
    rw [h, Option.map_some]
  simp only [State.readBlockRead, hgood]

/-- A READ with no block left to take is answered OK, and the last block taken stays in the cache (R155, R157). -/
theorem readOn_done (p : PortIx) (r : OpenRecord) (k : Nat) (taken : List CachedBlock) (b : CachedBlock) (s : State) :
    s.readOn p r k (taken ++ [b]) [] = ({ s with
      reading := none
      ports := tableSet s.ports p (.opened { r with position := r.position + k, cache := some b }) } : State).portAnswer p .ok
        (((((taken ++ [b]).flatMap (·.samples)).drop (r.position % 120)).take k).map (wordBytes 2)).flatten := by
  rw [State.readOn, OpenRecord.afterRead, List.getLast?_concat]
  rfl

end

/-- Settles O55: READ by its arguments, and its completions by the block read and by what the cache holds. -/
theorem readTakesItsBlocks : Obligations.ReadTakesItsBlocks := by
  refine ⟨fun s q p r h hp => ?command, fun s p r q op k j taken js hgranted hp hreading hrequest => ?completion⟩
  case command =>
    intro count
    refine ⟨fun hbad => exec_portRead_misargued h hp hbad, fun hlow hhigh hrest hcache => ?reads⟩
    intro k needed
    obtain ⟨js, hneeded⟩ := placesNeeded_cons r k
    have hlist : needed = r.position / 120 :: js := hneeded
    rw [exec_portRead_before_end (k := k) h hp ⟨hlow, hhigh⟩ hrest rfl, hneeded, hlist]
    obtain ⟨⟨hrequest, -⟩, -⟩ := h
    rw [readOn_of_not_cached hrequest hcache]
  case completion =>
    intro u expected found
    have hfound : blockSamples r j (op.contents s.array) = found := rfl
    rw [exec_readDataBlockComplete hgranted hp hreading]
    refine ⟨fun hbad => ?mismatch, fun vs hgood => ?good⟩
    case mismatch =>
      rw [readBlockRead_of_bad (s := s.complete op) (hfound.trans hbad)]
      rfl
    case good =>
      rw [readBlockRead_of_good (s := s.complete op) (hfound.trans hgood)]
      intro b
      refine ⟨fun hlast => ?last, fun j' c hnext hcache hplace => ?cached, fun j' js' hnext hcache => ?readsNext⟩
      case last =>
        rw [hlast, readOn_done]
        rfl
      case cached =>
        rw [hnext, readOn_of_cached hcache hplace, readOn_done, List.append_assoc]
        rfl
      case readsNext =>
        rw [hnext, readOn_of_not_cached (s := s.complete op) hrequest hcache]
        rfl

/-! ### INFO and CLOSE (R158, R159) -/

section
variable {s : State} {q : Request} {p : PortIx} {r : OpenRecord}

theorem exec_portClose_opened (h : HandedToPort s .portClose q p) (hp : s.readPort p = .opened r) :
    exec .portClose s = .next (((s.setReadPort p .closed).pinRemoved r.head).respondWith .ok
      (BitVec.ofNat 16 ((if r.withdrawn then 2 ^ 15 else 0) + r.position % 2 ^ 14)) [] false) := by
  have hpin : (s.readPort p).pin? = some r.head := by rw [hp, ReadPort.pin?]
  rw [show exec .portClose s = execPortClose s from rfl, execPortClose, portStep_of_handed h]
  simp only [hp, closePort_of_pin hpin, ReadPort.word]

theorem exec_portClose_closed (h : HandedToPort s .portClose q p) (hp : s.readPort p = .closed) :
    exec .portClose s = .next (s.respond .ok []) := by
  rw [show exec .portClose s = execPortClose s from rfl, execPortClose, portStep_of_handed h]
  simp only [hp]

end

/-- Settles O56, command by command. -/
theorem infoAndCloseMoveNothingButThePin : Obligations.InfoAndCloseMoveNothingButThePin := by
  refine ⟨fun s q p => ⟨fun r hp => ?opened, fun hp h => exec_portClose_closed h hp, fun hp => ?notOpened⟩,
    fun s head => ⟨pinRemoved_of_pinned, pinRemoved_of_unpinned⟩⟩
  case opened =>
    intro h word cause info
    have hcause : cause = causeByte := funext fun c => by cases c <;> rfl
    have hinfo : r.infoResult = info := by
      rw [infoResult_eq]
      simp only [info, hcause]
      rfl
    refine ⟨fun hinfoTaken => ?_, hinfo ▸ length_infoResult r, fun hclose => exec_portClose_opened hclose hp⟩
    rw [exec_of_opened (a := .portInfo) rfl hinfoTaken hp, portAnswer_of_opened hp, hinfo]
  case notOpened =>
    exact ⟨fun h => exec_of_not_opened (a := .portInfo) rfl h hp, fun h => exec_of_not_opened (a := .portPosition) rfl h hp,
      fun h => exec_of_not_opened (a := .portRead) rfl h hp⟩

end Sys2Proof.Laws
end

section
/-!
PROOF. Fields of a block (section 10.4, R190, R191): what a byte, a number, a name and a list of numbers read as where they were
written. Each lemma says it of a run of bytes that holds the field at offset `i` and anything after it.
-/

namespace Sys2Proof.Laws

open Machine

/-! ### Numbers of several bytes -/

theorem ofBytes_cons (b : Byte) (bs : List Byte) : ofBytes (b :: bs) = b.toNat * 256 ^ bs.length + ofBytes bs := by
  have hfrom (a : Nat) : bs.foldl (fun n b => n * 256 + b.toNat) a = a * 256 ^ bs.length + ofBytes bs := by
    induction bs generalizing a with
    | nil => simp [ofBytes]
    | cons c bs ih =>
      have hzero := ih (0 * 256 + c.toNat)
      rw [List.foldl_cons, ih, ofBytes, ofBytes, List.foldl_cons, hzero, List.length_cons, pow_succ, ofBytes]
      ring
  rw [ofBytes, List.foldl_cons, hfrom, Nat.zero_mul, Nat.zero_add]

theorem ofBytes_lt (bs : List Byte) : ofBytes bs < 256 ^ bs.length := by
  induction bs with
  | nil => exact Nat.one_pos
  | cons b bs ih =>
    have hb := b.isLt
    have hprod : (b.toNat + 1) * 256 ^ bs.length ≤ 256 * 256 ^ bs.length := Nat.mul_le_mul_right _ hb
    rw [ofBytes_cons, List.length_cons, pow_succ]
    rw [Nat.add_mul] at hprod
    omega

theorem ofBytes_toBytes (k n : Nat) : ofBytes (toBytes k n) = n % 256 ^ k := by
  induction k with
  | zero => rw [pow_zero, Nat.mod_one]; rfl
  | succ k ih =>
    have hsplit : n % 256 ^ (k + 1) = n % 256 ^ k + 256 ^ k * (n / 256 ^ k % 256) := Nat.mod_mul
    rw [toBytes, ofBytes_cons, ih, length_toBytes, BitVec.toNat_ofNat, hsplit, Nat.add_comm, Nat.mul_comm]

theorem ofBytes_toBytes_of_lt {k n : Nat} (h : n < 256 ^ k) : ofBytes (toBytes k n) = n :=
  (ofBytes_toBytes k n).trans (Nat.mod_eq_of_lt h)

theorem fieldAt_lt (b : List Byte) (i k : Nat) : fieldAt b i k < 256 ^ k :=
  (ofBytes_lt _).trans_le (Nat.pow_le_pow_right (by decide) (List.length_take_le ..))

/-! ### Reading what stands at an offset -/

section
variable {b x y z name : List Byte} {i k n : Nat} {c : Byte}

/-- What follows a chunk stands its length further on. -/
theorem drop_add_of_drop (h : b.drop i = x ++ y) (hx : x.length = n) : b.drop (i + n) = y := by
  rw [← List.drop_drop, h, List.drop_left' hx]

theorem byteAt_of_drop (h : b.drop i = c :: z) : byteAt b i = c := by
  have hget : b[i]? = some c := by rw [← Nat.add_zero i, ← List.getElem?_drop, h, List.getElem?_cons_zero]
  rw [byteAt, List.getD_eq_getElem?_getD, hget, Option.getD_some]

theorem fieldAt_of_drop (h : b.drop i = x ++ z) (hx : x.length = k) : fieldAt b i k = ofBytes x := by
  rw [fieldAt, h, List.take_left' hx]

theorem fieldAt_of_drop_toBytes (h : b.drop i = toBytes k n ++ z) (hn : n < 256 ^ k) : fieldAt b i k = n :=
  (fieldAt_of_drop h (length_toBytes k n)).trans (ofBytes_toBytes_of_lt hn)

theorem fieldAt_of_drop_wordBytes {v : BitVec (8 * k)} (h : b.drop i = wordBytes k v ++ z) : fieldAt b i k = v.toNat :=
  fieldAt_of_drop_toBytes h (v.isLt.trans_eq (by rw [pow_mul]; rfl))

theorem padTo_of_le (h : x.length ≤ k) : padTo k x = x ++ List.replicate (k - x.length) 0 := by
  rw [padTo, List.take_append, List.take_of_length_le h, List.take_replicate, Nat.min_eq_left (Nat.sub_le ..)]

theorem padTo_eq_append (h : x.length ≤ k) : ∃ z, padTo k x = x ++ z := ⟨_, padTo_of_le h⟩

/-- A name that `nameBytes` can write: short enough, and of allowed characters (R92, R93). -/
def NameAllowed (k : Nat) (name : List Byte) : Prop := name.length ≤ k ∧ ∀ c ∈ name, 32 ≤ c.toNat ∧ c.toNat ≤ 126

theorem nameAt_of_drop (h : b.drop i = nameBytes k name ++ z) (hk : k < 256) (hname : NameAllowed k name) :
    nameAt k b i = some name := by
  obtain ⟨hlength, hchars⟩ := hname
  have hbyte : (byteAt b i).toNat = name.length := by
    rw [byteAt_of_drop h, BitVec.toNat_ofNat, Nat.mod_eq_of_lt (by omega)]
  have hrest : b.drop (i + 1) = name ++ (List.replicate (k - name.length) 0 ++ z) := by
    rw [← List.append_assoc, ← padTo_of_le hlength]
    exact drop_add_of_drop (x := [_]) h rfl
  have hread : (b.drop (i + 1)).take (byteAt b i).toNat = name := by rw [hbyte, hrest, List.take_left]
  rw [nameAt_of_good ⟨hbyte.trans_le hlength, hread.symm ▸ hchars⟩, hread]

/-! ### Lists of numbers of one size -/

theorem length_flatten_toBytes (k : Nat) (l : List Nat) : ((l.map (toBytes k)).flatten).length = k * l.length := by
  induction l with
  | nil => rfl
  | cons n l ih => rw [List.map_cons, List.flatten_cons, List.length_append, ih, length_toBytes, List.length_cons]; ring

theorem fieldAt_of_drop_flatten {l : List Nat} (h : b.drop i = (l.map (toBytes k)).flatten ++ z) {j : Nat}
    (hj : l[j]? = some n) (hn : n < 256 ^ k) : fieldAt b (i + k * j) k = n := by
  induction l generalizing i j with
  | nil => exact absurd hj (by simp)
  | cons a l ih =>
    rw [List.map_cons, List.flatten_cons, List.append_assoc] at h
    cases j with
    | zero =>
      obtain rfl : a = n := Option.some.inj hj
      exact fieldAt_of_drop_toBytes h hn
    | succ j =>
      have hnext := ih (drop_add_of_drop h (length_toBytes k a)) hj
      rwa [Nat.add_assoc, Nat.add_comm k, ← Nat.mul_succ] at hnext

theorem blockNumbersAt_eq (b : List Byte) (i k : Nat) :
    blockNumbersAt b i k = (List.range k).map fun j => fieldAt b (i + 2 * j) 2 := by
  induction k generalizing i with
  | zero => rfl
  | succ k ih =>
    rw [blockNumbersAt, ih, List.range_succ_eq_map, List.map_cons, List.map_map]
    refine congrArg _ (List.map_congr_left fun j _ => ?_)
    exact congrArg (fieldAt b · 2) (by omega)

theorem length_blockNumbersAt (b : List Byte) (i k : Nat) : (blockNumbersAt b i k).length = k := by
  rw [blockNumbersAt_eq, List.length_map, List.length_range]

theorem blockNumbersAt_of_drop {l : List Nat} (h : b.drop i = (l.map (toBytes 2)).flatten ++ z) (hl : ∀ n ∈ l, n < 2 ^ 16) :
    blockNumbersAt b i l.length = l := by
  refine List.ext_getElem (length_blockNumbersAt ..) fun j _ hj => ?_
  simp only [blockNumbersAt_eq, List.getElem_map, List.getElem_range]
  exact fieldAt_of_drop_flatten h (List.getElem?_eq_getElem hj) (hl _ (List.getElem_mem hj))

end

/-! ### Composed blocks (R191) -/

theorem blockOf_eq_append {bs : List Byte} (h : bs.length ≤ 254) : ∃ z, blockOf bs = bs ++ z :=
  ⟨List.replicate (254 - bs.length) 0 ++ wordBytes 2 (crc16 (padTo 254 bs)), by
    rw [blockOf, withCheck, padTo_of_le h, List.append_assoc]⟩

theorem length_blockOf (bs : List Byte) : (blockOf bs).length = 256 := by
  rw [blockOf, withCheck, List.length_append, length_padTo, length_wordBytes_two]

theorem checkGood_blockOf (bs : List Byte) : checkGood (blockOf bs) = true := checkGood_withCheck _

theorem blockIs_iff (kind : Byte) (b : List Byte) : blockIs kind b = true ↔ checkGood b = true ∧ byteAt b 0 = kind := by
  rw [blockIs, Bool.and_eq_true, beq_iff_eq]

end Sys2Proof.Laws
end

section
/-!
PROOF. The label and the directory (R92, R93, section 10.4): what each block holds, and when it is valid.
-/

namespace Sys2Proof.Laws

open Machine

/-! ### Label (R92) -/

section
variable {b : List Byte} {name : List Byte}

/-- The bytes of a valid label (R92, R191). -/
def LabelValid (b : List Byte) : Prop :=
  checkGood b = true ∧ b.take 5 = [0x4C, 0x54, 0x43, 0x32, 0x38] ∧ fieldAt b 7 2 = 8192 ∧ NameGood 16 b 9

theorem take_five_iff (b : List Byte) : b.take 5 = [0x4C, 0x54, 0x43, 0x32, 0x38] ↔
    byteAt b 0 = 0x4C ∧ (b.drop 1).take 4 = Config.formatStamp := by
  cases b with
  | nil => exact iff_of_false (by decide) fun h => absurd h.1 (by decide)
  | cons c b =>
    rw [List.take_succ_cons, List.cons.injEq]
    rfl

theorem readLabel_of_valid (h : LabelValid b) :
    readLabel b = some ⟨(b.drop 10).take (byteAt b 9).toNat, BitVec.ofNat 16 (fieldAt b 5 2)⟩ := by
  obtain ⟨hcheck, hstamp, hblocks, hname⟩ := h
  obtain ⟨hkind, hstamp⟩ := (take_five_iff b).1 hstamp
  have htest : (blockIs kindLabel b && (b.drop 1).take 4 == Config.formatStamp && fieldAt b 7 2 == Config.storeBlocks) = true := by
    rw [Bool.and_eq_true, Bool.and_eq_true, blockIs_iff, beq_iff_eq, beq_iff_eq]
    exact ⟨⟨⟨hcheck, hkind⟩, hstamp⟩, hblocks⟩
  rw [readLabel, if_pos htest, nameAt_of_good hname, Option.map_some]

theorem readLabel_of_invalid (h : ¬LabelValid b) : readLabel b = none := by
  unfold readLabel
  split
  next htest =>
    rw [Bool.and_eq_true, Bool.and_eq_true, blockIs_iff, beq_iff_eq, beq_iff_eq] at htest
    obtain ⟨⟨⟨hcheck, hkind⟩, hstamp⟩, hblocks⟩ := htest
    have hname : ¬NameGood 16 b 9 := fun hname => h ⟨hcheck, (take_five_iff b).2 ⟨hkind, hstamp⟩, hblocks, hname⟩
    rw [nameAt_of_bad hname, Option.map_none]
  next => rfl

theorem readLabel_labelBlock (serial : BitVec 16) (hname : NameAllowed 16 name) :
    readLabel (labelBlock name serial) = some ⟨name, serial⟩ := by
  have hlength : (kindLabel :: Config.formatStamp ++ wordBytes 2 serial ++ toBytes 2 Config.storeBlocks
      ++ nameBytes 16 name).length ≤ 254 := by
    rw [List.length_append, length_nameBytes]
    exact (by decide : 9 + 17 ≤ 254)
  obtain ⟨z, hz⟩ := blockOf_eq_append hlength
  have hread : nameAt 16 (labelBlock name serial) 9 = some name :=
    nameAt_of_drop (z := z) (by rw [labelBlock, hz]; rfl) (by decide) hname
  have hserial : fieldAt (labelBlock name serial) 5 2 = serial.toNat :=
    fieldAt_of_drop_wordBytes (k := 2) (z := toBytes 2 Config.storeBlocks ++ (nameBytes 16 name ++ z))
      (by rw [labelBlock, hz]; rfl)
  have htest : (blockIs kindLabel (labelBlock name serial) && ((labelBlock name serial).drop 1).take 4 == Config.formatStamp
      && fieldAt (labelBlock name serial) 7 2 == Config.storeBlocks) = true := by
    rw [Bool.and_eq_true, Bool.and_eq_true, beq_iff_eq, beq_iff_eq]
    refine ⟨⟨blockIs_blockOf .., ?_⟩, ?_⟩
    · rw [labelBlock, hz]; rfl
    · exact fieldAt_of_drop_toBytes (z := nameBytes 16 name ++ z) (by rw [labelBlock, hz]; rfl) (by decide)
  rw [readLabel, if_pos htest, hread, hserial, Option.map_some, BitVec.ofNat_toNat, BitVec.setWidth_eq]

end

/-! ### Directory entries (R93, R191) -/

section
variable {b z : List Byte} {e p : Nat} {r : RecIx} {serial : BitVec 16} {x : RecordingEntry}

/-- An entry that the directory can hold: its list has the index blocks that its max records needs (R93). -/
def EntryGood (x : RecordingEntry) : Prop :=
  NameAllowed 12 x.name ∧ 1 ≤ x.maxRecords ∧ x.maxRecords ≤ 1536 ∧ x.blocks.length = (x.maxRecords + 47) / 48 ∧
    ∀ n ∈ x.blocks, n < 2 ^ 16

/-- An entry as it is read back, every index block held. -/
def entryRead (x : RecordingEntry) : RecordingEntry := { x with held := List.replicate x.blocks.length true }

theorem modeOf_modeByte (m : RecordingMode) : modeOf (modeByte m) = some m := by cases m <;> rfl

theorem length_directoryEntry (r : RecIx) (x : Option RecordingEntry) : (directoryEntry r x).length = 83 := by
  cases x <;> exact length_padTo ..

theorem decodeDirectoryEntry_of_free (h : b.drop e = directoryEntry r none ++ z) : decodeDirectoryEntry b e = some none := by
  have hstate : b.drop (e + 1) = 0 :: (List.replicate 81 0 ++ z) := drop_add_of_drop (x := [BitVec.ofNat 8 (r.val + 1)]) h rfl
  exact if_pos (byteAt_of_drop hstate)

theorem decodeDirectoryEntry_of_defined (h : b.drop e = directoryEntry r (some x) ++ z) (hx : EntryGood x) :
    decodeDirectoryEntry b e = some (some (r.val + 1, entryRead x)) := by
  obtain ⟨hname, -, hmax, hcount, hblocks⟩ := hx
  have hlength : ([BitVec.ofNat 8 (r.val + 1), 1, modeByte x.mode] ++ nameBytes 12 x.name ++ toBytes 2 x.maxRecords
      ++ [BitVec.ofNat 8 x.blocks.length] ++ (x.blocks.map (toBytes 2)).flatten).length ≤ 83 := by
    simp only [List.length_append, length_nameBytes, length_toBytes, length_flatten_toBytes, List.length_cons, List.length_nil]
    omega
  obtain ⟨z', hpad⟩ := padTo_eq_append hlength
  rw [directoryEntry, hpad] at h
  simp only [List.append_assoc] at h
  have hname' := drop_add_of_drop h (n := 3) rfl
  have hmax' := drop_add_of_drop hname' (n := 13) (length_nameBytes ..)
  have hcount' := drop_add_of_drop hmax' (n := 2) (length_toBytes ..)
  have hlist := drop_add_of_drop hcount' (n := 1) rfl
  have hnumber : fieldAt b e 1 = r.val + 1 := by
    rw [fieldAt_one, byteAt_of_drop h, BitVec.toNat_ofNat]
    omega
  have hstate : byteAt b (e + 1) = 1 := byteAt_of_drop (drop_add_of_drop (x := [_]) h rfl)
  have hmode : byteAt b (e + 2) = modeByte x.mode := byteAt_of_drop (drop_add_of_drop (x := [_, _]) h rfl)
  have hread : nameAt 12 b (e + 3) = some x.name := nameAt_of_drop hname' (by decide) hname
  have hfield : fieldAt b (e + 16) 2 = x.maxRecords := fieldAt_of_drop_toBytes hmax' (by omega)
  have hbyte : (byteAt b (e + 18)).toNat = x.blocks.length := by
    rw [byteAt_of_drop hcount', BitVec.toNat_ofNat]
    omega
  have hnumbers : blockNumbersAt b (e + 19) x.blocks.length = x.blocks := blockNumbersAt_of_drop hlist hblocks
  rw [decodeDirectoryEntry, if_neg (by rw [hstate]; decide), if_pos hstate, hmode, modeOf_modeByte, hread, hfield, hbyte,
    hnumber]
  refine (if_pos hcount).trans ?_
  rw [hnumbers, entryRead]

theorem decodeDirectoryEntry_of_entry {y : Option RecordingEntry} (h : b.drop e = directoryEntry r y ++ z)
    (hy : ∀ x, y = some x → EntryGood x) :
    decodeDirectoryEntry b e = some (y.map fun x => (r.val + 1, entryRead x)) := by
  cases y with
  | none => exact decodeDirectoryEntry_of_free h
  | some x => exact decodeDirectoryEntry_of_defined h (hy x rfl)

theorem directoryEntryPlaced_of_good {y : Option RecordingEntry} (hy : ∀ x, y = some x → EntryGood x) :
    directoryEntryPlaced r (y.map fun x => (r.val + 1, entryRead x)) = true := by
  cases y with
  | none => rfl
  | some x =>
    obtain ⟨-, hlow, hhigh, -⟩ := hy x rfl
    rw [Option.map_some, directoryEntryPlaced, Bool.and_eq_true, Bool.and_eq_true, beq_iff_eq, decide_eq_true_eq,
      decide_eq_true_eq]
    exact ⟨⟨rfl, hlow⟩, hhigh⟩

/-- A DEFINED entry decodes to the recording number and max records that it carries. -/
theorem eq_of_decodeDirectoryEntry {d : Option (Nat × RecordingEntry)} (h : decodeDirectoryEntry b e = some d)
    (hstate : byteAt b (e + 1) = 1) : ∃ x, d = some (fieldAt b e 1, x) ∧ x.maxRecords = fieldAt b (e + 16) 2 := by
  rw [decodeDirectoryEntry, if_neg (by rw [hstate]; decide), if_pos hstate] at h
  simp only [Option.bind_eq_bind, Option.bind_eq_some_iff, Option.ite_none_right_eq_some, Option.some.injEq] at h
  obtain ⟨mode, -, name, -, -, rfl⟩ := h
  exact ⟨_, rfl, rfl⟩

/-! ### Directory blocks (R93) -/

/-- A directory entry that decodes, and that stands in its recording's place when it is DEFINED (R93). -/
def DirectoryEntryValid (b : List Byte) (r : RecIx) (e : Nat) : Prop :=
  EntryDecodes b e ∧ (byteAt b (e + 1) = 1 →
    fieldAt b e 1 = r.val + 1 ∧ 1 ≤ fieldAt b (e + 16) 2 ∧ fieldAt b (e + 16) 2 ≤ 1536)

theorem directoryEntryValid_of_decoded {d : Option (Nat × RecordingEntry)} (h : decodeDirectoryEntry b e = some d)
    (hplaced : directoryEntryPlaced r d = true) : DirectoryEntryValid b r e := by
  refine ⟨(decodeDirectoryEntry_isSome_iff b e).1 (h ▸ rfl), fun hstate => ?_⟩
  obtain ⟨x, rfl, hmax⟩ := eq_of_decodeDirectoryEntry h hstate
  rw [directoryEntryPlaced, Bool.and_eq_true, Bool.and_eq_true, beq_iff_eq, decide_eq_true_eq, decide_eq_true_eq, hmax] at hplaced
  exact ⟨hplaced.1.1, hplaced.1.2, hplaced.2⟩

theorem readDirectory_eq_some_iff {y : Option RecordingEntry × Option RecordingEntry} :
    readDirectory p serial b = some y ↔ blockIs kindDirectory b = true ∧ BitVec.ofNat 16 (fieldAt b 2 2) = serial ∧
      fieldAt b 1 1 = p ∧ ∃ e0 e1, decodeDirectoryEntry b 4 = some e0 ∧ decodeDirectoryEntry b 87 = some e1 ∧
        directoryEntryPlaced (directoryFirst p) e0 = true ∧ directoryEntryPlaced (directorySecond p) e1 = true ∧
          (e0.map (·.2), e1.map (·.2)) = y := by
  unfold readDirectory directorySerial?
  simp only [Option.bind_eq_bind, Option.bind_eq_some_iff, Option.ite_none_right_eq_some, Option.some.injEq, Bool.and_eq_true,
    decide_eq_true_eq, beq_iff_eq, Option.isSome_iff_exists]
  constructor
  · rintro ⟨_, ⟨⟨⟨hkind, -⟩, -⟩, rfl⟩, e0, h0, e1, h1, ⟨⟨⟨hs, hp⟩, hplaced0⟩, hplaced1⟩, hy⟩
    exact ⟨hkind, hs, hp, e0, e1, h0, h1, hplaced0, hplaced1, hy⟩
  · rintro ⟨hkind, hs, hp, e0, e1, h0, h1, hplaced0, hplaced1, hy⟩
    exact ⟨_, ⟨⟨⟨hkind, e0, h0⟩, e1, h1⟩, rfl⟩, e0, h0, e1, h1, ⟨⟨⟨hs, hp⟩, hplaced0⟩, hplaced1⟩, hy⟩

/-- A block read as a directory block of its place is valid as a whole (R93, R191). -/
theorem directory_valid_of_read {y : Option RecordingEntry × Option RecordingEntry} (h : readDirectory p serial b = some y) :
    checkGood b = true ∧ byteAt b 0 = 0x44 ∧ fieldAt b 1 1 = p ∧ fieldAt b 2 2 = serial.toNat ∧
      DirectoryEntryValid b (directoryFirst p) 4 ∧ DirectoryEntryValid b (directorySecond p) 87 := by
  obtain ⟨hkind, rfl, hp, e0, e1, h0, h1, hplaced0, hplaced1, -⟩ := readDirectory_eq_some_iff.1 h
  obtain ⟨hcheck, hbyte⟩ := (blockIs_iff _ _).1 hkind
  refine ⟨hcheck, hbyte, hp, ?_, directoryEntryValid_of_decoded h0 hplaced0, directoryEntryValid_of_decoded h1 hplaced1⟩
  exact (Nat.mod_eq_of_lt (fieldAt_lt b 2 2)).symm

theorem readDirectory_directoryBlock {y0 y1 : Option RecordingEntry} (hp : p < 256)
    (hy0 : ∀ x, y0 = some x → EntryGood x) (hy1 : ∀ x, y1 = some x → EntryGood x) :
    readDirectory p serial (directoryBlock p serial y0 y1) = some (y0.map entryRead, y1.map entryRead) := by
  have hlength : ([kindDirectory, BitVec.ofNat 8 p] ++ wordBytes 2 serial ++ directoryEntry (directoryFirst p) y0
      ++ directoryEntry (directorySecond p) y1).length ≤ 254 := by
    simp only [List.length_append, length_directoryEntry, length_wordBytes]
    exact (by decide : 2 + 2 + 83 + 83 ≤ 254)
  obtain ⟨z, hz⟩ := blockOf_eq_append hlength
  have hall : (directoryBlock p serial y0 y1).drop 0 = [kindDirectory] ++ ([BitVec.ofNat 8 p] ++ (wordBytes 2 serial ++
      (directoryEntry (directoryFirst p) y0 ++ (directoryEntry (directorySecond p) y1 ++ z)))) := by
    rw [directoryBlock, hz]
    simp only [List.append_assoc]
    rfl
  have hone := drop_add_of_drop hall (n := 1) rfl
  have htwo := drop_add_of_drop hone (n := 1) rfl
  have hfirst := drop_add_of_drop htwo (n := 2) (length_wordBytes ..)
  have hsecond := drop_add_of_drop hfirst (n := 83) (length_directoryEntry ..)
  refine readDirectory_eq_some_iff.2 ⟨blockIs_blockOf .., ?sameSerial, ?samePlace, _, _, decodeDirectoryEntry_of_entry hfirst hy0,
    decodeDirectoryEntry_of_entry hsecond hy1, directoryEntryPlaced_of_good hy0, directoryEntryPlaced_of_good hy1, ?entries⟩
  case sameSerial =>
    rw [fieldAt_of_drop_wordBytes (k := 2) htwo, BitVec.ofNat_toNat, BitVec.setWidth_eq]
  case samePlace =>
    rw [fieldAt_one, byteAt_of_drop hone, BitVec.toNat_ofNat, Nat.mod_eq_of_lt hp]
  case entries =>
    cases y0 <;> cases y1 <;> rfl

end

end Sys2Proof.Laws
end

section
/-!
PROOF. Head and data blocks (R61, R66, R95, section 10.4): what each holds, and when it is valid.
-/

namespace Sys2Proof.Laws

open Machine

/-! ### Data blocks (R61, R95) -/

section
variable {b z : List Byte} {owner place : Nat} {samples : List Sample}

theorem readData_eq_some_iff : readData owner place b = some samples ↔
    (blockIs kindData b = true ∧ fieldAt b 1 2 = owner ∧ fieldAt b 3 1 = place ∧ 1 ≤ fieldAt b 4 1 ∧ fieldAt b 4 1 ≤ 120) ∧
      (blockNumbersAt b 5 (fieldAt b 4 1)).map (BitVec.ofNat 16) = samples := by
  unfold readData
  simp only [Option.ite_none_right_eq_some, Option.some.injEq, Bool.and_eq_true, beq_iff_eq, decide_eq_true_eq, and_assoc]

theorem data_valid_of_read (h : readData owner place b = some samples) :
    checkGood b = true ∧ byteAt b 0 = 0x53 ∧ fieldAt b 1 2 = owner ∧ fieldAt b 3 1 = place ∧ byteAt b 4 ≠ 0 ∧
      (byteAt b 4).toNat ≤ 120 := by
  obtain ⟨⟨hkind, howner, hplace, hlow, hhigh⟩, -⟩ := readData_eq_some_iff.1 h
  obtain ⟨hcheck, hbyte⟩ := (blockIs_iff _ _).1 hkind
  rw [fieldAt_one] at hlow hhigh
  refine ⟨hcheck, hbyte, howner, hplace, fun hzero => ?_, hhigh⟩
  rw [hzero] at hlow
  exact absurd hlow (by decide)

theorem samplesBytes_eq (samples : List Sample) :
    samples.map (wordBytes 2) = (samples.map BitVec.toNat).map (toBytes 2) := by
  rw [List.map_map]
  rfl

theorem readData_dataBlock (howner : owner < 2 ^ 16) (hplace : place < 2 ^ 8) (hlow : 1 ≤ samples.length)
    (hhigh : samples.length ≤ 120) : readData owner place (dataBlock owner place samples) = some samples := by
  have hlength : ([kindData] ++ toBytes 2 owner ++ toBytes 1 place ++ toBytes 1 samples.length
      ++ (samples.map (wordBytes 2)).flatten).length ≤ 254 := by
    simp only [samplesBytes_eq, List.length_append, length_toBytes, length_flatten_toBytes, List.length_map,
      List.length_cons, List.length_nil]
    omega
  obtain ⟨z, hz⟩ := blockOf_eq_append hlength
  have hall : (dataBlock owner place samples).drop 0 = [kindData] ++ (toBytes 2 owner ++ (toBytes 1 place ++
      (toBytes 1 samples.length ++ (((samples.map BitVec.toNat).map (toBytes 2)).flatten ++ z)))) := by
    rw [dataBlock, hz, samplesBytes_eq]
    simp only [List.append_assoc]
    rfl
  have hone := drop_add_of_drop hall (n := 1) rfl
  have hthree := drop_add_of_drop hone (n := 2) (length_toBytes ..)
  have hfour := drop_add_of_drop hthree (n := 1) (length_toBytes ..)
  have hfive := drop_add_of_drop hfour (n := 1) (length_toBytes ..)
  have hcount : fieldAt (dataBlock owner place samples) 4 1 = samples.length :=
    fieldAt_of_drop_toBytes hfour (by omega)
  refine readData_eq_some_iff.2 ⟨⟨blockIs_blockOf .., fieldAt_of_drop_toBytes hone howner,
    fieldAt_of_drop_toBytes hthree hplace, hcount ▸ hlow, hcount ▸ hhigh⟩, ?_⟩
  have hnumbers : blockNumbersAt (dataBlock owner place samples) 5 samples.length = samples.map BitVec.toNat := by
    rw [← List.length_map (as := samples) BitVec.toNat]
    refine blockNumbersAt_of_drop hfive fun n hn => ?_
    obtain ⟨v, -, rfl⟩ := List.mem_map.1 hn
    exact v.isLt
  rw [hcount, hnumbers, List.map_map]
  exact (List.map_congr_left fun v _ => BitVec.ofNat_toNat .. |>.trans (BitVec.setWidth_eq v)).trans (List.map_id _)

end

/-! ### Gap lists and codes of a head block (section 10.3, section 10.4) -/

section
variable {b z : List Byte} {i : Nat} {r : RecIx} {h : HeadInfo}

theorem causeOf_causeByte (c : EndCause) : causeOf (causeByte c) = some c := by cases c <;> rfl

theorem byte_of_causeOf {x : Byte} {c : EndCause} (h : causeOf x = some c) : x ≠ 0 ∧ x.toNat ≤ 4 := by
  have hx : x = causeByte c := by
    unfold causeOf at h
    split_ifs at h <;> cases h <;> assumption
  rw [hx]
  cases c <;> exact ⟨by decide, by decide⟩

theorem getLsbD_recordFlags (a b o : Bool) : (recordFlags a b o).getLsbD 0 = a ∧ (recordFlags a b o).getLsbD 1 = b ∧
    (recordFlags a b o).getLsbD 2 = o := by
  cases a <;> cases b <;> cases o <;> decide

theorem gapsAt_of_drop {gs : List GapEntry}
    (h : b.drop i = (gs.map fun g => toBytes 2 g.offset ++ toBytes 1 g.missing).flatten ++ z)
    (hgs : ∀ g ∈ gs, g.offset < 2 ^ 16 ∧ g.missing < 2 ^ 8) : gapsAt b i gs.length = gs := by
  induction gs generalizing i with
  | nil => rfl
  | cons g gs ih =>
    rw [List.map_cons, List.flatten_cons, List.append_assoc, List.append_assoc] at h
    obtain ⟨hoffset, hmissing⟩ := hgs g (List.mem_cons_self ..)
    have hsecond := drop_add_of_drop h (n := 2) (length_toBytes ..)
    have hrest := drop_add_of_drop hsecond (n := 1) (length_toBytes ..)
    rw [List.length_cons, gapsAt, fieldAt_of_drop_toBytes h hoffset, fieldAt_of_drop_toBytes hsecond hmissing,
      ih hrest fun g' hg' => hgs g' (List.mem_cons_of_mem g hg')]

theorem length_flatten_gaps (gs : List GapEntry) :
    ((gs.map fun g => toBytes 2 g.offset ++ toBytes 1 g.missing).flatten).length = 3 * gs.length := by
  induction gs with
  | nil => rfl
  | cons g gs ih =>
    rw [List.map_cons, List.flatten_cons, List.length_append, ih, List.length_append, length_toBytes, length_toBytes,
      List.length_cons]
    omega

/-! ### Head blocks (R66, R95) -/

/-- The fields of a head block whose end cause is `c`, as they are read. -/
def headFields (b : List Byte) (c : EndCause) : HeadInfo :=
  { recording := byteAt b 1, rule := byteAt b 2, priority := byteAt b 3, node := byteAt b 4, stream := byteAt b 5
    stamp := ⟨BitVec.ofNat 16 (fieldAt b 6 2), BitVec.ofNat 32 (fieldAt b 8 4)⟩
    preRequested := fieldAt b 12 2, preActual := fieldAt b 14 2, postActual := fieldAt b 16 2, total := fieldAt b 18 2
    cause := c, short := (byteAt b 21).getLsbD 0, gapped := (byteAt b 21).getLsbD 1, gapOverflow := (byteAt b 21).getLsbD 2
    gaps := gapsAt b 23 (fieldAt b 22 1), blocks := blockNumbersAt b 36 (fieldAt b 35 1) }

theorem readHead_eq_some_iff : readHead r b = some h ↔
    blockIs kindHead b = true ∧ fieldAt b 22 1 ≤ 4 ∧ fieldAt b 35 1 ≤ 100 ∧
      (∃ c, causeOf (byteAt b 20) = some c ∧ headFields b c = h) ∧ h.recording.toNat = r.val + 1 ∧
        h.blocks.length = (h.total + 119) / 120 ∧ ∀ n ∈ h.blocks, 17 ≤ n ∧ n ≤ 8191 := by
  unfold readHead decodeHead
  simp only [Option.bind_eq_bind, Option.bind_eq_some_iff, Option.ite_none_right_eq_some, Option.some.injEq,
    Bool.and_eq_true, decide_eq_true_eq, List.all_eq_true, inDataArea_iff]
  constructor
  · rintro ⟨_, ⟨⟨⟨hkind, hgaps⟩, hblocks⟩, c, hc, rfl⟩, ⟨⟨hrecording, hcount⟩, harea⟩, rfl⟩
    exact ⟨hkind, hgaps, hblocks, ⟨c, hc, rfl⟩, hrecording, hcount, harea⟩
  · rintro ⟨hkind, hgaps, hblocks, ⟨c, hc, rfl⟩, hrecording, hcount, harea⟩
    exact ⟨_, ⟨⟨⟨hkind, hgaps⟩, hblocks⟩, c, hc, rfl⟩, ⟨⟨hrecording, hcount⟩, harea⟩, rfl⟩

theorem head_valid_of_read (h : readHead r b = some h) :
    checkGood b = true ∧ byteAt b 0 = 0x48 ∧ (byteAt b 1).toNat = r.val + 1 ∧ byteAt b 20 ≠ 0 ∧ (byteAt b 20).toNat ≤ 4 ∧
      (byteAt b 22).toNat ≤ 4 ∧ (byteAt b 35).toNat ≤ 100 ∧ (byteAt b 35).toNat = (fieldAt b 18 2 + 119) / 120 ∧
      ∀ i < (byteAt b 35).toNat, 17 ≤ fieldAt b (36 + 2 * i) 2 ∧ fieldAt b (36 + 2 * i) 2 ≤ 8191 := by
  obtain ⟨hkind, hgaps, hblocks, ⟨c, hc, rfl⟩, hrecording, hcount, harea⟩ := readHead_eq_some_iff.1 h
  obtain ⟨hcheck, hbyte⟩ := (blockIs_iff _ _).1 hkind
  obtain ⟨hcause, hlisted⟩ := byte_of_causeOf hc
  simp only [headFields, length_blockNumbersAt] at hcount
  simp only [headFields, blockNumbersAt_eq, List.mem_map, List.mem_range, forall_exists_index, and_imp,
    forall_apply_eq_imp_iff₂] at harea
  rw [fieldAt_one] at hgaps hblocks hcount harea
  exact ⟨hcheck, hbyte, hrecording, hcause, hlisted, hgaps, hblocks, hcount, harea⟩

/-- A head that a head block can hold (R66, section 10.4). -/
def HeadGood (h : HeadInfo) : Prop :=
  h.preRequested < 2 ^ 16 ∧ h.preActual < 2 ^ 16 ∧ h.postActual < 2 ^ 16 ∧ h.total < 2 ^ 16 ∧ h.gaps.length ≤ 4 ∧
    (∀ g ∈ h.gaps, g.offset < 2 ^ 16 ∧ g.missing < 2 ^ 8) ∧ h.blocks.length ≤ 100 ∧ ∀ n ∈ h.blocks, 17 ≤ n ∧ n ≤ 8191

theorem headBlock_chunks (hcount : h.blocks.length ≤ 100) : ∃ z, (headBlock h).drop 0 =
    [kindHead, h.recording, h.rule, h.priority, h.node, h.stream] ++ (wordBytes 2 h.stamp.epoch ++ (wordBytes 4 h.stamp.cycle
      ++ (toBytes 2 h.preRequested ++ (toBytes 2 h.preActual ++ (toBytes 2 h.postActual ++ (toBytes 2 h.total
      ++ ([causeByte h.cause, recordFlags h.short h.gapped h.gapOverflow] ++ ([BitVec.ofNat 8 h.gaps.length]
      ++ (gapBytes h.gaps ++ ([BitVec.ofNat 8 h.blocks.length] ++ ((h.blocks.map (toBytes 2)).flatten ++ z))))))))))) := by
  have hlength : ([kindHead, h.recording, h.rule, h.priority, h.node, h.stream] ++ stampBytes h.stamp
      ++ toBytes 2 h.preRequested ++ toBytes 2 h.preActual ++ toBytes 2 h.postActual ++ toBytes 2 h.total
      ++ [causeByte h.cause, recordFlags h.short h.gapped h.gapOverflow, BitVec.ofNat 8 h.gaps.length]
      ++ gapBytes h.gaps ++ [BitVec.ofNat 8 h.blocks.length] ++ (h.blocks.map (toBytes 2)).flatten).length ≤ 254 := by
    simp only [stampBytes, gapBytes, List.length_append, length_toBytes, length_wordBytes, length_padTo, length_flatten_toBytes,
      List.length_cons, List.length_nil]
    omega
  obtain ⟨z, hz⟩ := blockOf_eq_append hlength
  refine ⟨z, ?_⟩
  rw [headBlock, hz]
  simp only [stampBytes, List.append_assoc]
  rfl

/-- A head block reads back as the head that it was written from. -/
theorem headBlock_reads (hgood : HeadGood h) : byteAt (headBlock h) 20 = causeByte h.cause ∧
    fieldAt (headBlock h) 22 1 = h.gaps.length ∧ fieldAt (headBlock h) 35 1 = h.blocks.length ∧
      headFields (headBlock h) h.cause = h := by
  obtain ⟨hpre, hpreActual, hpost, htotal, hgaps, hgapFits, hcount, harea⟩ := hgood
  obtain ⟨z, hbytes⟩ := headBlock_chunks hcount
  obtain ⟨g, hg⟩ := padTo_eq_append (k := 12) ((length_flatten_gaps h.gaps).trans_le (by omega))
  have hepoch := drop_add_of_drop hbytes (n := 6) rfl
  have hcycle := drop_add_of_drop hepoch (n := 2) (length_wordBytes ..)
  have hpreAt := drop_add_of_drop hcycle (n := 4) (length_wordBytes ..)
  have hpreActualAt := drop_add_of_drop hpreAt (n := 2) (length_toBytes ..)
  have hpostAt := drop_add_of_drop hpreActualAt (n := 2) (length_toBytes ..)
  have htotalAt := drop_add_of_drop hpostAt (n := 2) (length_toBytes ..)
  have hcodes := drop_add_of_drop htotalAt (n := 2) (length_toBytes ..)
  have hgapCount := drop_add_of_drop hcodes (n := 2) rfl
  have hgapList := drop_add_of_drop hgapCount (n := 1) rfl
  have hblockCount := drop_add_of_drop hgapList (n := 12) (length_padTo ..)
  have hblockList := drop_add_of_drop hblockCount (n := 1) rfl
  rw [gapBytes, hg, List.append_assoc] at hgapList
  have hgapsRead : fieldAt (headBlock h) 22 1 = h.gaps.length := by
    rw [fieldAt_one, byteAt_of_drop hgapCount, BitVec.toNat_ofNat]
    omega
  have hblocksRead : fieldAt (headBlock h) 35 1 = h.blocks.length := by
    rw [fieldAt_one, byteAt_of_drop hblockCount, BitVec.toNat_ofNat]
    omega
  refine ⟨byteAt_of_drop hcodes, hgapsRead, hblocksRead, ?_⟩
  have hrecording : byteAt (headBlock h) 1 = h.recording := byteAt_of_drop (drop_add_of_drop (x := [_]) hbytes rfl)
  have hrule : byteAt (headBlock h) 2 = h.rule := byteAt_of_drop (drop_add_of_drop (x := [_, _]) hbytes rfl)
  have hpriority : byteAt (headBlock h) 3 = h.priority := byteAt_of_drop (drop_add_of_drop (x := [_, _, _]) hbytes rfl)
  have hnode : byteAt (headBlock h) 4 = h.node := byteAt_of_drop (drop_add_of_drop (x := [_, _, _, _]) hbytes rfl)
  have hstream : byteAt (headBlock h) 5 = h.stream := byteAt_of_drop (drop_add_of_drop (x := [_, _, _, _, _]) hbytes rfl)
  have hflags : byteAt (headBlock h) 21 = recordFlags h.short h.gapped h.gapOverflow :=
    byteAt_of_drop (drop_add_of_drop (x := [_]) hcodes rfl)
  obtain ⟨hshort, hgapped, hoverflow⟩ := getLsbD_recordFlags h.short h.gapped h.gapOverflow
  rw [headFields, hrecording, hrule, hpriority, hnode, hstream, fieldAt_of_drop_wordBytes (k := 2) hepoch,
    fieldAt_of_drop_wordBytes (k := 4) hcycle, BitVec.ofNat_toNat, BitVec.setWidth_eq, BitVec.ofNat_toNat, BitVec.setWidth_eq,
    fieldAt_of_drop_toBytes hpreAt hpre, fieldAt_of_drop_toBytes hpreActualAt hpreActual,
    fieldAt_of_drop_toBytes hpostAt hpost, fieldAt_of_drop_toBytes htotalAt htotal, hflags, hshort, hgapped, hoverflow,
    hgapsRead, hblocksRead, gapsAt_of_drop hgapList hgapFits, blockNumbersAt_of_drop hblockList fun n hn => by
      have := harea n hn
      omega]

theorem readHead_headBlock (hgood : HeadGood h) (hrecording : h.recording.toNat = r.val + 1)
    (hblocks : h.blocks.length = (h.total + 119) / 120) : readHead r (headBlock h) = some h := by
  obtain ⟨hcause, hgapsRead, hblocksRead, hfields⟩ := headBlock_reads hgood
  obtain ⟨-, -, -, -, hgaps, -, hcount, harea⟩ := hgood
  exact readHead_eq_some_iff.2 ⟨blockIs_blockOf .., hgapsRead.trans_le hgaps, hblocksRead.trans_le hcount,
    ⟨h.cause, hcause ▸ causeOf_causeByte _, hfields⟩, hrecording, hblocks, harea⟩

end

end Sys2Proof.Laws
end

section
/-!
PROOF. Index blocks (R94, R192, section 10.4): the lap of a block, its entry words, and when it is valid.
-/

namespace Sys2Proof.Laws

open Machine

/-! ### The block lap (R192) -/

theorem blockLap_eq (m : Nat) (es : List IndexEntry) : blockLap m es = (es.filterMap (·.lap? m)).foldl max 0 := by
  rw [List.foldl_filterMap, blockLap]
  refine congrArg (fun step => es.foldl step 0) (funext fun l => funext fun e => ?_)
  cases e.lap? m <;> rfl

theorem mem_laps_iff (m : Nat) (es : List IndexEntry) (l : Nat) :
    l ∈ es.filterMap (·.lap? m) ↔ ∃ e ∈ es, ∃ n, e.number? = some n ∧ (n - 1) / m = l := by
  simp only [List.mem_filterMap, IndexEntry.lap?, Option.map_eq_some_iff]

/-- The block lap is the largest lap of an entry, or 0 (R192). -/
theorem blockLap_of_largest {m lap : Nat} {es : List IndexEntry} (hall : ∀ e ∈ es, ∀ n, e.number? = some n → (n - 1) / m ≤ lap)
    (hfrom : lap = 0 ∨ ∃ e ∈ es, ∃ n, e.number? = some n ∧ (n - 1) / m = lap) : blockLap m es = lap := by
  obtain ⟨⟨-, hle⟩, hattained⟩ := foldl_max_spec (es.filterMap (·.lap? m)) 0
  rw [blockLap_eq]
  refine Nat.le_antisymm ?_ ?_
  · obtain heq | hmem := hattained
    · exact heq.trans_le (Nat.zero_le _)
    · obtain ⟨e, he, n, hn, hl⟩ := (mem_laps_iff m es _).1 hmem
      exact hl ▸ hall e he n hn
  · obtain rfl | hmem := hfrom
    · exact Nat.zero_le _
    · exact hle _ ((mem_laps_iff m es lap).2 hmem)

/-! ### Entry words (R192) -/

section
variable {m lap p n h t : Nat} {e : IndexEntry}

/-- The word of a number whose state bits are `k`: lap bit, head block and total. -/
def wordOf (k bit h t : Nat) : Nat := k + bit * 2 ^ 29 + h * 2 ^ 16 + t

theorem wordOf_fields {k bit : Nat} (hk : k = 2 ^ 30 ∨ k = 2 ^ 31) (hbit : bit ≤ 1) (hh : h < 2 ^ 13) (ht : t ≤ 12000) :
    (wordOf k bit h t / 2 ^ 30 = k / 2 ^ 30 ∧ wordOf k bit h t / 2 ^ 29 % 2 = bit ∧ wordOf k bit h t / 2 ^ 16 % 2 ^ 13 = h ∧
      wordOf k bit h t % 2 ^ 14 = t) ∧ wordOf k bit h t < 2 ^ 32 := by
  unfold wordOf
  omega

theorem decodeEntryWord_zero (m lap p : Nat) : decodeEntryWord m lap p 0 = some .unused := rfl

theorem decodeEntryWord_wordOf {k l : Nat} (hk : k = 2 ^ 30 ∨ k = 2 ^ 31) (hlap : l ≤ lap) (hclose : lap ≤ l + 1)
    (hn : l * m + p + 1 = n) (hlarge : n < 2 ^ 32) (hh : h < 2 ^ 13) (ht : t ≤ 12000) :
    decodeEntryWord m lap p (wordOf k (lap - l) h t) = some (if k / 2 ^ 30 = 1 then .present n h t else .void n h t) := by
  obtain ⟨⟨hstate, hbit, hhead, htotal⟩, -⟩ := wordOf_fields (bit := lap - l) hk (by omega) hh ht
  have hback : lap - (lap - l) = l := by omega
  have hused : k / 2 ^ 30 ≠ 0 := by obtain rfl | rfl := hk <;> decide
  have hother : k / 2 ^ 30 ≠ 3 := by obtain rfl | rfl := hk <;> decide
  have hmax : ¬Config.recordMax < n := by
    rw [Config.recordMax]
    omega
  have hkept : ¬((decide (k / 2 ^ 30 = 3) || decide (12000 < t) || decide (lap < lap - l) || decide (Config.recordMax < n)) = true) := by
    simp only [Bool.or_eq_true, decide_eq_true_eq]
    clear hstate hbit hhead htotal
    omega
  unfold decodeEntryWord
  simp only [hstate, hbit, hhead, htotal, hback, hn, if_neg hused, if_neg hkept]
  split_ifs <;> rfl

/-- The words of the entries as they stand in a block of this lap (R192). -/
def writtenWord (m lap : Nat) : IndexEntry → Nat
  | .unused => 0
  | .present n h t => if (n - 1) / m + 1 < lap then 0 else wordOf (2 ^ 30) (lap - (n - 1) / m) h t
  | .void n h t => if (n - 1) / m + 1 < lap then 0 else wordOf (2 ^ 31) (lap - (n - 1) / m) h t

/-- An entry as it is read back: one whose lap the word cannot carry is written UNUSED (R192). -/
def keptEntry (m lap : Nat) : IndexEntry → IndexEntry
  | .unused => .unused
  | .present n h t => if (n - 1) / m + 1 < lap then .unused else .present n h t
  | .void n h t => if (n - 1) / m + 1 < lap then .unused else .void n h t

/-- An entry that an index block can hold at place `p` of the recording (R94). -/
def EntryFits (m p : Nat) (e : IndexEntry) : Prop := e = .unused ∨ ∃ n,
  (∃ h t, (e = .present n h t ∨ e = .void n h t) ∧ h < 2 ^ 13 ∧ t ≤ 12000) ∧ 1 ≤ n ∧ n < 2 ^ 32 ∧ (n - 1) % m = p

/-- The number of an entry, from its lap and its place (R94). -/
theorem number_of_lap (hn : 1 ≤ n) (hp : (n - 1) % m = p) : (n - 1) / m * m + p + 1 = n := by
  have := Nat.div_add_mod' (n - 1) m
  omega

theorem entryWord_eq_writtenWord (he : EntryFits m p e) : entryWord m lap e = writtenWord m lap e := by
  obtain rfl | ⟨n, ⟨h, t, rfl | rfl, hh, ht⟩, -⟩ := he
  · rfl
  all_goals
    have ht' : t < 2 ^ 14 := by omega
    rw [entryWord, writtenWord, wordOf, Nat.mod_eq_of_lt hh, Nat.mod_eq_of_lt ht']
    split_ifs <;> omega

theorem writtenWord_reads (he : EntryFits m p e) (hlap : ∀ n, e.number? = some n → (n - 1) / m ≤ lap) :
    writtenWord m lap e < 2 ^ 32 ∧ decodeEntryWord m lap p (writtenWord m lap e) = some (keptEntry m lap e) := by
  obtain rfl | ⟨n, ⟨h, t, rfl | rfl, hh, ht⟩, hn, hlarge, hp⟩ := he
  · exact ⟨Nat.two_pow_pos 32, decodeEntryWord_zero m lap p⟩
  all_goals
    have hle := hlap n rfl
    rw [writtenWord, keptEntry]
    split_ifs with hfar
    · exact ⟨by decide, decodeEntryWord_zero m lap p⟩
    · refine ⟨(wordOf_fields (by decide) (by omega) hh ht).2, ?_⟩
      exact decodeEntryWord_wordOf (by decide) hle (by omega) (number_of_lap hn hp) hlarge hh ht

theorem keptEntry_of_near (hnear : ∀ n, e.number? = some n → lap ≤ (n - 1) / m + 1) : keptEntry m lap e = e := by
  cases e with
  | unused => rfl
  | present n h t | void n h t => exact if_neg (Nat.not_lt.2 (hnear n rfl))

end

/-! ### Index blocks (R94, R191) -/

section
variable {b : List Byte} {r : RecIx} {m x lap i : Nat} {es : List IndexEntry}

theorem decodeEntries_eq_some_iff (k : Nat) : decodeEntries m lap x b i k = some es ↔
    es.length = k ∧ ∀ j < k, decodeEntryWord m lap (48 * x + (i + j)) (fieldAt b (8 + 4 * (i + j)) 4) = es[j]? := by
  induction k generalizing i es with
  | zero =>
    rw [decodeEntries, Option.some.injEq, List.length_eq_zero_iff, eq_comm]
    simp
  | succ k ih =>
    rw [decodeEntries]
    simp only [Option.bind_eq_bind, Option.bind_eq_some_iff, Option.some.injEq, ih]
    constructor
    · rintro ⟨e, he, es, ⟨hlength, hes⟩, rfl⟩
      refine ⟨congrArg Nat.succ hlength, fun j hj => ?_⟩
      cases j with
      | zero => exact he
      | succ j => exact (show i + (j + 1) = i + 1 + j by omega) ▸ hes j (by omega)
    · rintro ⟨hlength, hes⟩
      obtain ⟨e, es, rfl⟩ := List.exists_cons_of_length_eq_add_one hlength
      refine ⟨e, hes 0 (by omega), es, ⟨Nat.succ.inj hlength, fun j hj => ?_⟩, rfl⟩
      exact (show i + (j + 1) = i + 1 + j by omega) ▸ hes (j + 1) (by omega)

theorem readIndex_eq_some_iff : readIndex r x m b = some es ↔
    (blockIs kindIndex b = true ∧ fieldAt b 1 1 = r.val + 1 ∧ fieldAt b 2 1 = x) ∧ es.length = 48 ∧
      ∀ i < 48, decodeEntryWord m (fieldAt b 4 4) (48 * x + i) (fieldAt b (8 + 4 * i) 4) = es[i]? := by
  unfold readIndex
  simp only [Option.ite_none_right_eq_some, Bool.and_eq_true, beq_iff_eq, and_assoc, Config.indexEntries,
    decodeEntries_eq_some_iff, Nat.zero_add]

/-- What makes an entry word invalid, and what a valid one says (R192). -/
theorem of_decodeEntryWord {lap p w : Nat} {e : IndexEntry} (h : decodeEntryWord m lap p w = some e) :
    (¬w / 2 ^ 30 = 3 ∧ ¬(w / 2 ^ 30 = 0 ∧ w ≠ 0) ∧
      ¬(w / 2 ^ 30 ≠ 0 ∧ (12000 < w % 2 ^ 14 ∨ lap < w / 2 ^ 29 % 2 ∨ 2 ^ 32 ≤ (lap - w / 2 ^ 29 % 2) * m + p + 1))) ∧
      e = if w = 0 then IndexEntry.unused
        else if w / 2 ^ 30 = 1 then .present ((lap - w / 2 ^ 29 % 2) * m + p + 1) (w / 2 ^ 16 % 2 ^ 13) (w % 2 ^ 14)
        else .void ((lap - w / 2 ^ 29 % 2) * m + p + 1) (w / 2 ^ 16 % 2 ^ 13) (w % 2 ^ 14) := by
  unfold decodeEntryWord at h
  by_cases hfree : w / 2 ^ 30 = 0
  · rw [if_pos hfree, Option.ite_none_right_eq_some, Option.some.injEq] at h
    obtain ⟨rfl, rfl⟩ := h
    exact ⟨⟨by decide, fun hused => hused.2 rfl, fun hused => hused.1 rfl⟩, rfl⟩
  · have hused : w ≠ 0 := fun hzero => hfree (by rw [hzero, Nat.zero_div])
    rw [if_neg hfree] at h
    by_cases hbad : (decide (w / 2 ^ 30 = 3) || decide (12000 < w % 2 ^ 14) || decide (lap < w / 2 ^ 29 % 2)
        || decide (Config.recordMax < (lap - w / 2 ^ 29 % 2) * m + p + 1)) = true
    · rw [if_pos hbad] at h
      cases h
    · rw [if_neg hbad] at h
      simp only [Bool.or_eq_true, decide_eq_true_eq, not_or] at hbad
      obtain ⟨⟨⟨hstate, htotal⟩, hlap⟩, hmax⟩ := hbad
      refine ⟨⟨hstate, fun h => hfree h.1, fun h => ?_⟩, ?_⟩
      · rw [Config.recordMax] at hmax
        obtain ⟨-, h | h | h⟩ := h
        · exact htotal h
        · exact hlap h
        · omega
      · rw [if_neg hused]
        split_ifs at h ⊢ <;> exact (Option.some.inj h).symm

theorem indexBlock_eq (hlap : blockLap m es = lap) (hfits : ∀ i e, es[i]? = some e → EntryFits m (48 * x + i) e) :
    indexBlock r x m es = blockOf ([0x49, BitVec.ofNat 8 (r.val + 1), BitVec.ofNat 8 x, 0] ++ toBytes 4 lap
      ++ (es.map fun e => toBytes 4 (writtenWord m lap e)).flatten) := by
  have hwords : (es.map fun e => toBytes 4 (entryWord m lap e)) = es.map fun e => toBytes 4 (writtenWord m lap e) := by
    refine List.map_congr_left fun e he => ?_
    obtain ⟨i, hi⟩ := List.mem_iff_getElem?.1 he
    rw [entryWord_eq_writtenWord (hfits i e hi)]
  rw [indexBlock]
  simp only [hlap, hwords]
  rfl

/-- An index block reads back as the entries that its words can carry (R192). -/
theorem readIndex_indexBlock (hx : x < 32) (hlength : es.length = 48) (hlap : blockLap m es = lap) (hlarge : lap < 2 ^ 32)
    (hfits : ∀ i e, es[i]? = some e → EntryFits m (48 * x + i) e)
    (hlaps : ∀ e ∈ es, ∀ n, e.number? = some n → (n - 1) / m ≤ lap) :
    readIndex r x m (indexBlock r x m es) = some (es.map (keptEntry m lap)) := by
  have hwords : (es.map fun e => toBytes 4 (writtenWord m lap e)) = (es.map (writtenWord m lap)).map (toBytes 4) := by
    rw [List.map_map]
    rfl
  have hform := indexBlock_eq (r := r) hlap hfits
  have hfit : ([0x49, BitVec.ofNat 8 (r.val + 1), BitVec.ofNat 8 x, 0] ++ toBytes 4 lap
      ++ (es.map fun e => toBytes 4 (writtenWord m lap e)).flatten).length ≤ 254 := by
    simp only [hwords, List.length_append, length_toBytes, length_flatten_toBytes, List.length_map, hlength]
    exact (by decide : 4 + 4 + 4 * 48 ≤ 254)
  obtain ⟨z, hz⟩ := blockOf_eq_append hfit
  have hall : (indexBlock r x m es).drop 0 = [0x49, BitVec.ofNat 8 (r.val + 1), BitVec.ofNat 8 x, 0] ++ (toBytes 4 lap ++
      (((es.map (writtenWord m lap)).map (toBytes 4)).flatten ++ z)) := by
    rw [hform, hz, hwords, List.append_assoc, List.append_assoc]
    rfl
  have hlapAt := drop_add_of_drop hall (n := 4) rfl
  have hentries := drop_add_of_drop hlapAt (n := 4) (length_toBytes ..)
  refine readIndex_eq_some_iff.2 ⟨⟨hform ▸ blockIs_blockOf .., ?recording, ?position⟩, by rw [List.length_map, hlength],
    fun i hi => ?entries⟩
  case recording =>
    rw [fieldAt_one, byteAt_of_drop (drop_add_of_drop (n := 1) (x := [_]) hall rfl), BitVec.toNat_ofNat]
    omega
  case position =>
    rw [fieldAt_one, byteAt_of_drop (drop_add_of_drop (n := 2) (x := [_, _]) hall rfl), BitVec.toNat_ofNat]
    omega
  case entries =>
    have hget : es[i]? = some es[i] := List.getElem?_eq_getElem (by omega)
    obtain ⟨hword, hdecodes⟩ := writtenWord_reads (hfits i _ hget) (hlaps _ (List.mem_of_getElem? hget))
    have hfield : fieldAt (indexBlock r x m es) (8 + 4 * i) 4 = writtenWord m lap es[i] :=
      fieldAt_of_drop_flatten hentries (by rw [List.getElem?_map, hget, Option.map_some]) hword
    rw [fieldAt_of_drop_toBytes hlapAt hlarge, hfield, hdecodes, List.getElem?_map, hget, Option.map_some]

end

end Sys2Proof.Laws
end

section
/-!
PROOF. The store blocks of section 10.4 (R61, R66, R91 to R95, R191, R192): each reads back as it was written, and a block that
is not valid is not read.
-/

namespace Sys2Proof.Laws

open Machine

section
variable {b : List Byte} {p e : Nat} {serial : BitVec 16} {r : RecIx}

/-! ### Directory blocks in the words of section 10.4 -/



theorem directoryFirst_val (hp : p ≤ 16) : (directoryFirst p).val = 2 * (p - 1) := Nat.mod_eq_of_lt (by omega)

/-- What makes a directory entry invalid in its place (R93, R191). -/
theorem not_directoryEntryValid (hplace : p ≤ 16 → r.val = 2 * (p - 1) + (if e = 4 then 0 else 1))
    (h : 2 ≤ (byteAt b (e + 1)).toNat ∨ byteAt b (e + 1) = 1 ∧
      (2 ≤ (byteAt b (e + 2)).toNat ∨ 12 < (byteAt b (e + 3)).toNat ∨
        (∃ c ∈ (b.drop (e + 4)).take (byteAt b (e + 3)).toNat, c.toNat < 32 ∨ 126 < c.toNat) ∨
        (byteAt b (e + 18)).toNat ≠ (fieldAt b (e + 16) 2 + 47) / 48 ∨ fieldAt b (e + 16) 2 = 0 ∨
        1536 < fieldAt b (e + 16) 2 ∨
        p ≤ 16 ∧ (byteAt b e).toNat ≠ 2 * (p - 1) + (if e = 4 then 0 else 1) + 1)) : ¬DirectoryEntryValid b r e := by
  rintro ⟨hdecodes, hplaced⟩
  obtain hstate | ⟨hstate, hbad⟩ := h
  · obtain hzero | ⟨hone, -⟩ := hdecodes
    · rw [hzero] at hstate
      exact absurd hstate (by decide)
    · rw [hone] at hstate
      exact absurd hstate (by decide)
  · obtain hzero | ⟨-, hmode, hlength, hchars, hcount⟩ := hdecodes
    · exact absurd (hzero.symm.trans hstate) (by decide)
    obtain ⟨hnumber, hlow, hhigh⟩ := hplaced hstate
    obtain h | h | ⟨c, hc, h⟩ | h | h | h | ⟨hp, h⟩ := hbad
    · omega
    · omega
    · have := hchars c hc
      omega
    · exact h hcount
    · omega
    · omega
    · rw [fieldAt_one, hplace hp] at hnumber
      exact h hnumber

theorem readDirectory_of_misplaced
    (h : checkGood b = false ∨ byteAt b 0 ≠ 0x44 ∨ fieldAt b 1 1 ≠ p ∨ fieldAt b 2 2 ≠ serial.toNat) :
    readDirectory p serial b = none := by
  refine Option.eq_none_iff_forall_ne_some.2 fun y hread => ?_
  obtain ⟨hcheck, hkind, hp, hserial, -⟩ := directory_valid_of_read hread
  obtain h | h | h | h := h
  · exact Bool.false_ne_true (h.symm.trans hcheck)
  · exact h hkind
  · exact h hp
  · exact h hserial

theorem readDirectory_of_invalid_entry
    (h : ¬DirectoryEntryValid b (directoryFirst p) 4 ∨ ¬DirectoryEntryValid b (directorySecond p) 87) :
    readDirectory p serial b = none := by
  refine Option.eq_none_iff_forall_ne_some.2 fun y hread => ?_
  obtain ⟨-, -, -, -, hfirst, hsecond⟩ := directory_valid_of_read hread
  exact h.elim (· hfirst) (· hsecond)

end

/-! ### Head blocks in the words of section 10.4 -/

theorem headBlock_eq (h : HeadInfo) : headBlock h =
    blockOf ([0x48, h.recording, h.rule, h.priority, h.node, h.stream] ++ wordBytes 2 h.stamp.epoch
      ++ wordBytes 4 h.stamp.cycle ++ toBytes 2 h.preRequested ++ toBytes 2 h.preActual ++ toBytes 2 h.postActual
      ++ toBytes 2 h.total ++ [causeByte h.cause]
      ++ [BitVec.ofNat 8 ((if h.short then 1 else 0) + (if h.gapped then 2 else 0) + (if h.gapOverflow then 4 else 0))]
      ++ [BitVec.ofNat 8 h.gaps.length]
      ++ ((h.gaps.flatMap fun g : GapEntry => toBytes 2 g.offset ++ [BitVec.ofNat 8 g.missing]) ++ List.replicate 12 0).take 12
      ++ [BitVec.ofNat 8 h.blocks.length] ++ (h.blocks.map (toBytes 2)).flatten) := by
  unfold headBlock gapBytes
  simp only [recordFlags_eq, toBytes_one, stampBytes, padTo, kindHead, List.flatMap, List.append_assoc, List.cons_append,
    List.nil_append]

theorem dataBlock_eq (owner place : Nat) (samples : List Sample) : dataBlock owner place samples =
    blockOf ([0x53] ++ toBytes 2 owner ++ [BitVec.ofNat 8 place] ++ [BitVec.ofNat 8 samples.length]
      ++ (samples.map (wordBytes 2)).flatten) := by
  unfold dataBlock
  simp only [toBytes_one, kindData]

/-! ### Entries of an index block -/

section
variable {m x lap : Nat} {es : List IndexEntry}

/-- Record number `n` stands in the entries of a block. -/
def NumberIn (es : List IndexEntry) (n : Nat) : Prop :=
  ∃ i h t : Nat, es[i]? = some (IndexEntry.present n h t) ∨ es[i]? = some (IndexEntry.void n h t)

theorem numberIn_iff (es : List IndexEntry) (n : Nat) : NumberIn es n ↔ ∃ e ∈ es, e.number? = some n := by
  simp only [NumberIn, number_eq_some_iff, List.mem_iff_getElem?]
  constructor
  · rintro ⟨i, h, t, hi | hi⟩
    · exact ⟨_, ⟨i, hi⟩, h, t, .inl rfl⟩
    · exact ⟨_, ⟨i, hi⟩, h, t, .inr rfl⟩
  · rintro ⟨e, ⟨i, hi⟩, h, t, rfl | rfl⟩
    · exact ⟨i, h, t, .inl hi⟩
    · exact ⟨i, h, t, .inr hi⟩

theorem entryFits_of_known {i : Nat} {e : IndexEntry} (he : es[i]? = some e)
    (h : es[i]? = some .unused ∨ ∃ n, (∃ h t, (es[i]? = some (.present n h t) ∨ es[i]? = some (.void n h t)) ∧
      h < 2 ^ 13 ∧ t ≤ 12000) ∧ 1 ≤ n ∧ n < 2 ^ 32 ∧ (n - 1) % m = 48 * x + i) : EntryFits m (48 * x + i) e := by
  simp only [he, Option.some.injEq] at h
  exact h

/-- Each entry of a block read is its word decoded. -/
theorem readIndex_entry {b : List Byte} {r : RecIx} {i : Nat} (h : readIndex r x m b = some es) (hi : i < 48) :
    ∃ e, es[i]? = some e ∧ decodeEntryWord m (fieldAt b 4 4) (48 * x + i) (fieldAt b (8 + 4 * i) 4) = some e := by
  obtain ⟨-, hlength, hwords⟩ := readIndex_eq_some_iff.1 h
  have hget : es[i]? = some es[i] := List.getElem?_eq_getElem (by omega)
  exact ⟨es[i], hget, (hwords i hi).trans hget⟩

theorem number_lt_of_entryFits {p n : Nat} {e : IndexEntry} (he : EntryFits m p e) (hn : e.number? = some n) : n < 2 ^ 32 := by
  obtain rfl | ⟨n', ⟨h, t, rfl | rfl, -⟩, -, hlarge, -⟩ := he
  · cases hn
  all_goals exact Option.some.inj hn ▸ hlarge

theorem lap_lt_of_attained (hfits : ∀ i e, es[i]? = some e → EntryFits m (48 * x + i) e)
    (hfrom : lap = 0 ∨ ∃ n, NumberIn es n ∧ (n - 1) / m = lap) : lap < 2 ^ 32 := by
  obtain rfl | ⟨n, hin, rfl⟩ := hfrom
  · exact Nat.two_pow_pos 32
  · obtain ⟨e, he, hn⟩ := (numberIn_iff es n).1 hin
    obtain ⟨i, hi⟩ := List.mem_iff_getElem?.1 he
    exact (Nat.div_le_self ..).trans_lt (by have := number_lt_of_entryFits (hfits i e hi) hn; omega)

end

/-- Settles O52, block kind by block kind. -/
theorem storeBlocksReadBackAsWritten : Obligations.StoreBlocksReadBackAsWritten := by
  unfold Obligations.StoreBlocksReadBackAsWritten
  intro block one named nameGood
  refine ⟨fun bs => ⟨length_blockOf bs, checkGood_blockOf bs⟩, fun name serial => ⟨rfl, readLabel_labelBlock serial⟩,
    fun b => ?label, fun p serial e0 e1 => ?directory, fun p serial b => ⟨readDirectory_of_misplaced, fun e he => ?entry⟩,
    fun r x m lap es => ?index, fun r x m b => ?indexInvalid, fun h r => ?head, fun r b => ?headInvalid,
    fun owner place samples => ?data, fun owner place b h => ?dataInvalid⟩
  case label =>
    intro name valid
    by_cases hvalid : valid
    · rw [if_pos hvalid]
      exact readLabel_of_valid hvalid
    · rw [if_neg hvalid]
      exact readLabel_of_invalid hvalid
  case directory =>
    intro first second entry good read
    have hentry (r : RecIx) (y : Option RecordingEntry) : entry r y = directoryEntry r y := by
      cases y with
      | none => rfl
      | some x =>
        obtain ⟨name, mode, maxRecords, blocks, held⟩ := x
        cases mode <;> rfl
    refine ⟨?_, fun hlow hhigh h0 h1 => readDirectory_directoryBlock (by omega) h0 h1⟩
    rw [hentry, hentry]
    rfl
  case entry =>
    intro recording hbad
    refine readDirectory_of_invalid_entry ?_
    obtain rfl | rfl := he
    · exact .inl (not_directoryEntryValid (p := p) (fun hp => directoryFirst_val hp) hbad)
    · exact .inr (not_directoryEntryValid (p := p) (fun hp => Nat.mod_eq_of_lt (by omega)) hbad)
  case index =>
    intro known placed numbers word kept hm hx hlength hknown hlaps hfrom
    have hword : writtenWord m lap = word := funext fun e => by cases e <;> rfl
    have hkept : keptEntry m lap = kept := funext fun e => by cases e <;> rfl
    have hfits (i : Nat) (e : IndexEntry) (he : es[i]? = some e) : EntryFits m (48 * x + i) e :=
      entryFits_of_known he (hknown i (hlength ▸ (List.getElem?_eq_some_iff.1 he).1))
    have hbelow (e : IndexEntry) (he : e ∈ es) (n : Nat) (hn : e.number? = some n) : (n - 1) / m ≤ lap :=
      hlaps n ((numberIn_iff es n).2 ⟨e, he, hn⟩)
    have hlap : blockLap m es = lap := blockLap_of_largest hbelow <| hfrom.imp_right fun ⟨n, hn, hl⟩ =>
      (numberIn_iff es n).1 hn |>.elim fun e ⟨he, hn⟩ => ⟨e, he, n, hn, hl⟩
    have hread : readIndex r x m (indexBlock r x m es) = some (es.map kept) :=
      hkept ▸ readIndex_indexBlock hx hlength hlap (lap_lt_of_attained hfits hfrom) hfits hbelow
    have hform := indexBlock_eq (r := r) hlap hfits
    rw [hword] at hform
    refine ⟨hform, hread, fun hnear => ?_⟩
    have hsame : es.map kept = es := by
      refine (List.map_congr_left fun e he => ?_).trans (List.map_id es)
      rw [← hkept]
      exact keptEntry_of_near fun n hn => hnear n ((numberIn_iff es n).2 ⟨e, he, hn⟩)
    rw [hread, hsame]
  case indexInvalid =>
    intro lap
    refine ⟨fun hbad => ?misplaced, fun i hi => ?word⟩
    case misplaced =>
      refine Option.eq_none_iff_forall_ne_some.2 fun es hread => ?_
      obtain ⟨⟨hkind, hrecording, hposition⟩, -⟩ := readIndex_eq_some_iff.1 hread
      obtain ⟨hcheck, hbyte⟩ := (blockIs_iff _ _).1 hkind
      obtain h | h | h | h := hbad
      · exact Bool.false_ne_true (h.symm.trans hcheck)
      · exact h hbyte
      · exact h hrecording
      · exact h hposition
    case word =>
      intro w bit
      refine ⟨fun hbad => Option.eq_none_iff_forall_ne_some.2 fun es hread => ?_, fun es hread => ?_⟩
      · obtain ⟨e, -, he⟩ := readIndex_entry hread hi
        obtain ⟨⟨hstate, hfree, hvalid⟩, -⟩ := of_decodeEntryWord he
        simp only [← Nat.add_assoc] at hvalid
        exact hbad.elim hstate (·.elim hfree hvalid)
      · obtain ⟨e, hget, he⟩ := readIndex_entry hread hi
        obtain ⟨-, rfl⟩ := of_decodeEntryWord he
        simp only [← Nat.add_assoc] at hget
        exact hget
  case head =>
    intro flags
    refine ⟨?_, fun hpre hpreActual hpost htotal hgaps hgapFits hcount harea hrecording hblocks =>
      readHead_headBlock ⟨hpre, hpreActual, hpost, htotal, hgaps, hgapFits, hcount, harea⟩ hrecording hblocks⟩
    rw [headBlock_eq]
    cases h.cause <;> rfl
  case headInvalid =>
    intro count hbad
    refine Option.eq_none_iff_forall_ne_some.2 fun h hread => ?_
    obtain ⟨hcheck, hkind, hrecording, hzero, hcause, hgaps, hcount, hblocks, harea⟩ := head_valid_of_read hread
    obtain h | h | h | h | h | h | h | h | ⟨i, hi, h⟩ := hbad
    · exact Bool.false_ne_true (h.symm.trans hcheck)
    · exact h hkind
    · exact h hrecording
    · exact hzero h
    · omega
    · omega
    · omega
    · exact h hblocks
    · have := harea i hi
      omega
  case data =>
    refine ⟨?_, fun howner hplace hlow hhigh => readData_dataBlock howner hplace hlow hhigh⟩
    exact dataBlock_eq owner place samples
  case dataInvalid =>
    refine Option.eq_none_iff_forall_ne_some.2 fun samples hread => ?_
    obtain ⟨hcheck, hkind, howner, hplace, hzero, hcount⟩ := data_valid_of_read hread
    obtain h | h | h | h | h | h := h
    · exact Bool.false_ne_true (h.symm.trans hcheck)
    · exact h hkind
    · exact h howner
    · exact h hplace
    · exact hzero h
    · omega

end Sys2Proof.Laws
end
